-- ==== Sys2Proof/Word.lean ====
section
/-! DEFINITION. The word types of the Tyhar 7360 and their plainest arithmetic (spec/00_scope.md, R2, R8). -/

namespace Sys2Proof

/-- One byte of memory. -/
abbrev Byte := BitVec 8

/-- The 64-bit value of a scalar queue entry, a keep or a register. -/
abbrev Word := BitVec 64

/-- The 4,096 bits of a vector (R41, R156). -/
abbrev VBits := BitVec 4096

/-- A format tag (R188). -/
abbrev Tag := BitVec 5

/-- `bits(x, hi, lo)` of R8: the field [hi:lo] of x as a number. -/
def field (x : Nat) (hi lo : Nat) : Nat := (x >>> lo) % 2 ^ (hi + 1 - lo)

/-- `sext(x, n)` of R8: the low n bits of x, sign-extended to 64 bits. -/
def sextTo64 (n : Nat) (x : Nat) : Word := (BitVec.ofNat n x).signExtend 64

/-- The truth value of a comparison, as the scalar cluster returns it (R89). -/
def ofBool (b : Bool) : Word := if b then 1 else 0

end Sys2Proof
end

