-- ==== Sys2Proof/Machine/Crypto.lean ====
section
/-! DEFINITION. The ciphers and the digest the spec names by their standards: AES-256 (FIPS 197) in counter mode with GHASH
(SP 800-38D) for R298, AES-256-XTS (IEEE 1619) for R355, and SHA3-256 (FIPS 202) for R327 and R373 (log 16). -/

namespace Sys2Proof.Machine

/-! ### AES-256 -/

/-- Multiplication by x in GF(2^8). -/
def xtime (a : Nat) : Nat := if a < 128 then 2 * a else (2 * a % 256) ^^^ 0x1B

/-- The product of two bytes in GF(2^8), over the bits of the second. -/
def gmul : Nat → Nat → Nat → Nat
  | 0, _, _ => 0
  | n + 1, a, b => (if b % 2 = 1 then a else 0) ^^^ gmul n (xtime a) (b / 2)

/-- The inverse of a byte, a^254. -/
def ginv (a : Nat) : Nat :=
  let m : Nat → Nat → Nat := gmul 8
  let a2 := m a a
  let a4 := m a2 a2
  let a8 := m a4 a4
  let a16 := m a8 a8
  let a32 := m a16 a16
  let a64 := m a32 a32
  let a128 := m a64 a64
  m (m (m a128 a64) (m a32 a16)) (m (m a8 a4) a2)

/-- Rotation of a byte. -/
def rotb (a n : Nat) : Nat := (a * 2 ^ n) % 256 + a / 2 ^ (8 - n)

/-- The S-box. -/
def sbox (a : Nat) : Nat :=
  let b := ginv a
  b ^^^ rotb b 1 ^^^ rotb b 2 ^^^ rotb b 3 ^^^ rotb b 4 ^^^ 0x63

/-- XOR of two byte lists. -/
def xorList (a b : List Nat) : List Nat := a.zipWith (· ^^^ ·) b

/-- The key schedule of AES-256: words of 4 bytes, newest first, from 8 words up to 60. -/
def keyWords : Nat → Nat → Nat → List (List Nat) → List (List Nat)
  | 0, _, _, ws => ws
  | n + 1, i, rcon, ws =>
    let t := ws.headD []
    let t' :=
      if i % 8 = 0 then
        let r := (t.drop 1 ++ t.take 1).map sbox
        (r.headD 0 ^^^ rcon) :: r.drop 1
      else if i % 8 = 4 then t.map sbox
      else t
    keyWords n (i + 1) (if i % 8 = 0 then xtime rcon else rcon) (xorList (ws.getD 7 []) t' :: ws)

/-- Bytes of a number, the most significant first. -/
def beBytes (n v : Nat) : List Nat := (List.range n).map (fun i => v / 256 ^ (n - 1 - i) % 256)

/-- A number from its bytes, the most significant first. -/
def ofBe (l : List Nat) : Nat := l.foldl (fun a b => 256 * a + b % 256) 0

/-- n bytes of a little-endian number. -/
def leBytes (n v : Nat) : List Nat := (List.range n).map (fun i => v / 256 ^ i % 256)

/-- A number from its bytes, the least significant first. -/
def ofLe : List Nat → Nat
  | [] => 0
  | b :: l => b % 256 + 256 * ofLe l

/-- Groups of n elements. -/
def groups (n : Nat) : Nat → List Nat → List (List Nat)
  | 0, _ => []
  | k + 1, l => l.take n :: groups n k (l.drop n)

/-- The 15 round keys of 16 bytes. -/
def roundKeys (key : List Nat) : List (List Nat) :=
  let ws := (keyWords 52 8 1 (groups 4 8 key).reverse).reverse
  (List.range 15).map (fun r => ((ws.drop (4 * r)).take 4).flatten)

/-- ShiftRows: byte r + 4c of the state comes from column c + r. -/
def shiftRows (s : List Nat) : List Nat :=
  (List.range 16).map (fun i => s.getD (i % 4 + 4 * ((i / 4 + i % 4) % 4)) 0)

/-- MixColumns. -/
def mixColumns (s : List Nat) : List Nat :=
  (groups 4 4 s).flatMap (fun c =>
    (List.range 4).map (fun i =>
      xtime (c.getD i 0) ^^^ (xtime (c.getD ((i + 1) % 4) 0) ^^^ c.getD ((i + 1) % 4) 0)
        ^^^ c.getD ((i + 2) % 4) 0 ^^^ c.getD ((i + 3) % 4) 0))

/-- The rounds after the first key, the last without MixColumns. -/
def aesRounds : List (List Nat) → List Nat → List Nat
  | [], s => s
  | [k], s => xorList (shiftRows (s.map sbox)) k
  | k :: l, s => aesRounds l (xorList (mixColumns (shiftRows (s.map sbox))) k)

/-- AES-256 of a 16-byte block. -/
def aes (key block : List Nat) : List Nat :=
  match roundKeys key with
  | [] => block
  | k :: l => aesRounds l (xorList block k)

/-! ### Decryption and XTS -/

/-- The byte that the S-box maps to one. -/
def invSbox (a : Nat) : Nat := ginv (rotb a 1 ^^^ rotb a 3 ^^^ rotb a 6 ^^^ 0x05)

/-- InvShiftRows: byte r + 4c of the state comes from column c - r. -/
def invShiftRows (s : List Nat) : List Nat :=
  (List.range 16).map (fun i => s.getD (i % 4 + 4 * ((i / 4 + 4 - i % 4) % 4)) 0)

/-- InvMixColumns. -/
def invMixColumns (s : List Nat) : List Nat :=
  (groups 4 4 s).flatMap (fun c =>
    (List.range 4).map (fun i =>
      gmul 8 (c.getD i 0) 14 ^^^ gmul 8 (c.getD ((i + 1) % 4) 0) 11 ^^^ gmul 8 (c.getD ((i + 2) % 4) 0) 13
        ^^^ gmul 8 (c.getD ((i + 3) % 4) 0) 9))

/-- The inverse rounds, the keys from the last but one down to the first. -/
def aesInvRounds : List (List Nat) → List Nat → List Nat
  | [], s => s
  | [k], s => xorList ((invShiftRows s).map invSbox) k
  | k :: l, s => aesInvRounds l (invMixColumns (xorList ((invShiftRows s).map invSbox) k))

/-- The inverse of AES-256 on a 16-byte block. -/
def aesInv (key block : List Nat) : List Nat :=
  match (roundKeys key).reverse with
  | [] => block
  | k :: l => aesInvRounds l (xorList block k)

/-- A tweak times x, in the field of XTS. -/
def xtsNext (t : Nat) : Nat := if t < 2 ^ 127 then 2 * t else (2 * t % 2 ^ 128) ^^^ 0x87

/-- n blocks through a cipher between two additions of the tweak, which is multiplied by x from block to block. -/
def xtsBlocks (f : List Nat → List Nat) : Nat → Nat → List Nat → List Nat
  | 0, _, _ => []
  | n + 1, t, l =>
    let w := leBytes 16 t
    xorList (f (xorList (l.take 16) w)) w ++ xtsBlocks f n (xtsNext t) (l.drop 16)

/-- A 64-byte sector encrypted with AES-256-XTS: the data key, the tweak key and the sector's number. -/
def xtsEnc (k1 k2 : List Nat) (q : Nat) (l : List Nat) : List Nat := xtsBlocks (aes k1) 4 (ofLe (aes k2 (leBytes 16 q))) l

/-- The same decrypted. -/
def xtsDec (k1 k2 : List Nat) (q : Nat) (l : List Nat) : List Nat := xtsBlocks (aesInv k1) 4 (ofLe (aes k2 (leBytes 16 q))) l

/-! ### GCM -/

/-- Multiplication in GCM's field, bit 0 the most significant. -/
def ghMul : Nat → Nat → Nat → Nat → Nat
  | 0, _, _, z => z
  | n + 1, x, v, z =>
    let z := if x.testBit n then z ^^^ v else z
    ghMul n x (if v % 2 = 1 then (v / 2) ^^^ (0xE1 * 2 ^ 120) else v / 2) z

/-- A byte list as 128-bit blocks, the last padded with zeros. -/
def ghBlocks (l : List Nat) : List Nat :=
  (List.range ((l.length + 15) / 16)).map (fun i => ofBe (((l.drop (16 * i)).take 16 ++ List.replicate 16 0).take 16))

/-- GHASH over the blocks. -/
def ghash (h : Nat) (bs : List Nat) : Nat := bs.foldl (fun y b => ghMul 128 (y ^^^ b) h 0) 0

/-- The key stream byte of an offset: CTR from counter 2 (R298). -/
def gcmStream (key iv : List Nat) (off n : Nat) : List Nat :=
  let first := off / 16
  let blocks := (List.range ((off + n + 15) / 16 - first)).flatMap (fun i => aes key (iv ++ beBytes 4 (2 + first + i)))
  (blocks.drop (off % 16)).take n

/-- The tag over the AAD and the ciphertext (R298). -/
def gcmTag (key iv aad ct : List Nat) : List Nat :=
  let h := ofBe (aes key (List.replicate 16 0))
  let lens := 8 * aad.length * 2 ^ 64 + 8 * ct.length
  xorList (beBytes 16 (ghash h (ghBlocks aad ++ ghBlocks ct ++ [lens]))) (aes key (iv ++ [0, 0, 0, 1]))

/-! ### SHA3-256 -/

/-- Rotation of a 64-bit lane. -/
def rot64 (a n : Nat) : Nat := (a * 2 ^ (n % 64)) % 2 ^ 64 + a / 2 ^ (64 - n % 64)

/-- A lane of the state by x + 5y. -/
def lane (a : List Nat) (x y : Nat) : Nat := a.getD (x % 5 + 5 * (y % 5)) 0

/-- Theta. -/
def keccakTheta (a : List Nat) : List Nat :=
  let c : Nat → Nat := fun x => lane a x 0 ^^^ lane a x 1 ^^^ lane a x 2 ^^^ lane a x 3 ^^^ lane a x 4
  (List.range 25).map (fun i => a.getD i 0 ^^^ c (i % 5 + 4) ^^^ rot64 (c (i % 5 + 1)) 1)

/-- The rotation of lane (x, y): the number of rho's walk that reaches it. -/
def rhoOf : Nat → Nat → Nat → Nat → Nat → Nat → Nat
  | 0, _, _, _, _, _ => 0
  | n + 1, t, x, y, u, v =>
    if u = x ∧ v = y then (t + 1) * (t + 2) / 2 else rhoOf n (t + 1) x y v ((2 * u + 3 * v) % 5)

/-- Rho and pi: the lane at (y, 2x + 3y) is that of (x, y), rotated. -/
def keccakRhoPi (a : List Nat) : List Nat :=
  (List.range 25).map (fun i =>
    let u := i % 5
    let v := i / 5
    let x := (u + 3 * v) % 5
    let r := if x = 0 ∧ u = 0 then 0 else rhoOf 24 0 x u 1 0
    rot64 (lane a x u) r)

/-- Chi. -/
def keccakChi (a : List Nat) : List Nat :=
  (List.range 25).map (fun i =>
    let x := i % 5
    let y := i / 5
    lane a x y ^^^ ((2 ^ 64 - 1 - lane a (x + 1) y) &&& lane a (x + 2) y))

/-- Bits of the round constants' register. -/
def rcBit : Nat → Nat → Nat
  | 0, r => r % 2
  | n + 1, r => rcBit n (if r < 128 then 2 * r else (2 * r % 256) ^^^ 0x71)

/-- The round constant of a round. -/
def keccakRc (i : Nat) : Nat :=
  (List.range 7).foldl (fun a j => a + rcBit (j + 7 * i) 1 * 2 ^ (2 ^ j - 1)) 0

/-- The 24 rounds from round i. -/
def keccakRounds : Nat → Nat → List Nat → List Nat
  | 0, _, a => a
  | n + 1, i, a =>
    let b := keccakChi (keccakRhoPi (keccakTheta a))
    keccakRounds n (i + 1) (b.set 0 (b.getD 0 0 ^^^ keccakRc i))

/-- Absorb blocks of 136 bytes. -/
def absorb : Nat → List Nat → List Nat → List Nat
  | 0, _, a => a
  | n + 1, l, a =>
    let blk := l.take 136
    let w := (List.range 17).map (fun i => ofBe (((blk.drop (8 * i)).take 8).reverse))
    absorb n (l.drop 136) (keccakRounds 24 0 (a.zipWith (· ^^^ ·) (w ++ List.replicate 8 0)))

/-- SHA3-256 of a byte list. -/
def sha3 (m : List Nat) : List Nat :=
  let pad := 136 - m.length % 136
  let p := if pad = 1 then [0x86] else 0x06 :: (List.replicate (pad - 2) 0 ++ [0x80])
  let l := m ++ p
  let a := absorb (l.length / 136) l (List.replicate 25 0)
  (a.take 4).flatMap (fun w => (beBytes 8 w).reverse)

end Sys2Proof.Machine
end

