-- ==== Sys2Proof/Machine/Tags.lean ====
section
/-! DEFINITION. Format tags: their element counts, widths and classes (R156, R188). -/

namespace Sys2Proof.Machine

/-- The four classes of R156, and the class of VOID and of the reserved codes. -/
inductive TagClass where
  | void | float | int | store | mask
  deriving DecidableEq, Repr

/-- A tag an instruction field may hold: 0x01 to 0x14 (R188). -/
def tagOk (t : Tag) : Bool := decide (1 ≤ t.toNat ∧ t.toNat ≤ 0x14)

/-- esz of R188; 0 for VOID and the reserved codes. -/
def esz (t : Tag) : Nat :=
  match t.toNat with
  | 0x01 | 0x0A => 64
  | 0x02 | 0x0B | 0x0F | 0x14 => 32
  | 0x03 | 0x04 | 0x0C | 0x10 => 16
  | 0x05 | 0x06 | 0x07 | 0x08 | 0x0D | 0x11 => 8
  | 0x09 | 0x0E | 0x12 | 0x13 => 4
  | _ => 0

/-- elems of R8 and R188; 0 for VOID and the reserved codes. -/
def elems (t : Tag) : Nat := if esz t = 0 then 0 else 4096 / esz t

/-- The class of a tag (R156, R188). -/
def tagClass (t : Tag) : TagClass :=
  match t.toNat with
  | 0x01 | 0x02 | 0x03 | 0x04 => .float
  | 0x0A | 0x0B | 0x0C | 0x0D | 0x0F | 0x10 | 0x11 => .int
  | 0x05 | 0x06 | 0x07 | 0x08 | 0x09 | 0x0E | 0x12 | 0x13 => .store
  | 0x14 => .mask
  | _ => .void

/-- An S tag: its elements are read as signed (R187). -/
def tagSigned (t : Tag) : Bool :=
  match t.toNat with
  | 0x0A | 0x0B | 0x0C | 0x0D | 0x0E => true
  | _ => false

/-- A tag of a floating format (R184, R188). -/
def tagFloat (t : Tag) : Bool := decide (1 ≤ t.toNat ∧ t.toNat ≤ 9)

/-- A tag of an integer format (R187, R188), IDX and MASK apart. -/
def tagInt (t : Tag) : Bool := decide (0x0A ≤ t.toNat ∧ t.toNat ≤ 0x12)

/-- Tag names. -/
def tVOID : Tag := 0x00
def tF64 : Tag := 0x01
def tF32 : Tag := 0x02
def tBF16 : Tag := 0x03
def tF16 : Tag := 0x04
def tE5M2 : Tag := 0x05
def tE4M3 : Tag := 0x06
def tE3M2 : Tag := 0x07
def tE2M3 : Tag := 0x08
def tE2M1 : Tag := 0x09
def tS64 : Tag := 0x0A
def tS32 : Tag := 0x0B
def tS16 : Tag := 0x0C
def tS8 : Tag := 0x0D
def tS4 : Tag := 0x0E
def tN32 : Tag := 0x0F
def tN16 : Tag := 0x10
def tN8 : Tag := 0x11
def tN4 : Tag := 0x12
def tIDX : Tag := 0x13
def tMASK : Tag := 0x14

end Sys2Proof.Machine
end

