-- ==== Sys2Proof/Syntax.lean ====
section
/-! DEFINITION. The steps of the Tyhar 7360: one constructor of Instr for each row of spec/opcode_table.json.
Slot operations (S, C, B, M, X, V and E slots), copy commands, and the events of the machine and of its outside. -/

namespace Sys2Proof

/-! ### Places (R10 to R13) -/

/-- A tile of the package: die 0 to 3, tile 0 to 63, or 64 for the die's service tile (R11, R12). -/
structure TileId where
  die : Fin 4
  tile : Fin 65
  deriving DecidableEq, Repr

/-- A sequencer: A (false) or B (true) of a tile (R13). -/
structure SeqId where
  at_ : TileId
  b : Bool
  deriving DecidableEq, Repr

/-- The slots of a bundle in mask order (R25, R27); `hdr` stands for the header and the idle word. -/
inductive Slot where
  | s0 | s1 | b | m | v | x | e | c | hdr
  deriving DecidableEq, Repr

/-! ### Operands (R37 to R39) -/

/-- Scalar source specifier (R37). -/
inductive SSrc where
  | q (n : BitVec 4)
  | k (n : BitVec 4)
  | imm
  | zero
  | tile
  | die
  | seq
  | gclk
  | lidx (n : Fin 6)
  deriving DecidableEq, Repr

/-- Scalar destination (R39): the queue alone, or the queue and a keep. -/
inductive SDest where
  | queue
  | keep (n : BitVec 4)
  deriving DecidableEq, Repr

/-- Vector source specifier (R38). -/
inductive VSrc where
  | vq (n : BitVec 4)
  | w (n : BitVec 7)
  | xb
  | lane
  | zero
  | one
  | neg
  | maxf
  | half
  | ones
  deriving DecidableEq, Repr

/-- Vector destination (R39). -/
inductive VDest where
  | queue
  | w (n : BitVec 7)
  | pred (n : BitVec 3)
  deriving DecidableEq, Repr

/-- The condition of FCMP (R94). -/
inductive FCond where
  | eq | lt | le | un | ne
  deriving DecidableEq, Repr

/-- The conversion of FCVT (R95). -/
inductive FKind where
  | toS64 | toN64 | ofS64 | ofN64 | other
  deriving DecidableEq, Repr

/-- The three units of the cascade (R33, R157). -/
inductive CUnit where
  | a | b | c
  deriving DecidableEq, Repr

/-- What the three unit operations of one V slot share (R33): the slot's first operand, destination and predicate
field, and the unit this operation stands in. -/
structure VPos where
  unit : CUnit
  a1 : VSrc
  dest : VDest
  pred : BitVec 4
  deriving DecidableEq, Repr

/-- The fields of MXGO (R214). -/
structure MxgoF where
  a : SSrc
  b : SSrc
  c : SSrc
  sa : SSrc
  sb : SSrc
  x : VSrc
  deriving DecidableEq, Repr

/-- The fields of ACBAND (R221). -/
structure BandF where
  addr : SSrc
  entry : BitVec 2
  valid : Bool
  lo : BitVec 6
  cnt : BitVec 7
  die : BitVec 2
  tile : BitVec 6
  seq : Bool
  deriving DecidableEq, Repr

/-- The fields of VGGO (R236). -/
structure VggoF where
  d : VSrc
  x : SSrc
  c : SSrc
  ctr : BitVec 6
  fmt : BitVec 2
  nb : BitVec 6
  kmax : BitVec 15
  deriving DecidableEq, Repr

/-- An operand of CWAIT, CADD and CSET: an immediate or a scalar source (R306). -/
inductive CtrArg where
  | imm (x : BitVec 32)
  | src (a : SSrc)
  deriving DecidableEq, Repr

/-- The SC operations' fields (R266). -/
structure ScF where
  addr : SSrc
  value : SSrc
  expect : SSrc
  w : Bool
  off : BitVec 12
  deriving DecidableEq, Repr

/-- The register that a SYSWR names: its index, and the C bit (R337). -/
structure SysIndex where
  at_ : BitVec 12
  clr : Bool
  deriving DecidableEq, Repr

/-! ### Copy commands (R277) -/

/-- The fields of a chain entry after its command code (R277). -/
structure CopyF where
  flags : BitVec 8
  aux : BitVec 16
  len : BitVec 32
  src : BitVec 64
  dst : BitVec 64
  hsrc : BitVec 32
  hdst : BitVec 32
  deriving DecidableEq, Repr

/-! ### Outside the package -/

/-- What the operands of a CATOM, or the old values that come back, say beside their bytes (R296, R388): the spec does not say how
the operator, the element size, the flags and a fault travel (log 96). -/
structure AtomF where
  /-- Old values, or the fault, come back to the chain; else operands go to the tile. -/
  back : Bool
  op : BitVec 2
  wide : Bool
  chain : Nat
  /-- The code of the fault that the target's check finds. -/
  fault : Option (BitVec 7)
  /-- INVALID down to INEXACT. -/
  flags : BitVec 5
  deriving DecidableEq, Repr

/-- A Speam flit (R388); payload bytes in order. -/
structure Flit where
  lseq : BitVec 12
  ack : BitVec 12
  nak : Bool
  kind : BitVec 8
  vc : BitVec 2
  src : BitVec 16
  dst : BitVec 16
  job : BitVec 16
  inc : BitVec 16
  addr : BitVec 64
  ctr : BitVec 32
  add : BitVec 32
  payload : List (BitVec 8)
  /-- The plane, that is the port it travels on (R18, R323). -/
  plane : BitVec 5
  /-- A reserved field of the flit is not zero (R388). -/
  bad : Bool
  /-- The payload bytes that are poisoned: R289 lets poison travel with data, R388 gives it no place (log 96). -/
  dirty : List Bool
  /-- What a batch atomic's message says beside its bytes (log 96). -/
  atom : Option AtomF
  deriving DecidableEq, Repr

/-- Bytes that a message writes from one address on, each with whether it is poisoned. -/
structure MsgRun where
  /-- A pool address in canal form, else a physical address. -/
  addr : BitVec 64
  data : List (BitVec 8)
  dirty : List Bool
  deriving DecidableEq, Repr

/-- A whole message of a channel (R323, R388): the bytes it writes, then its counter addition. -/
structure Msg where
  src : BitVec 16
  plane : BitVec 5
  vc : BitVec 2
  job : BitVec 16
  inc : BitVec 16
  runs : List MsgRun
  ctr : BitVec 32
  add : BitVec 32
  atom : Option AtomF
  deriving DecidableEq, Repr

/-- A BIND_KEY request (R386). -/
structure BindF where
  xts : Bool
  slot : BitVec 5
  key : BitVec 256
  nonce : BitVec 64
  tdi : Nat
  deriving DecidableEq, Repr

/-- An image the Lockkeeper firmware built for a page, or the status with which it refused it (R369, R370). -/
structure Image where
  status : BitVec 8
  words : List (BitVec 32)
  relevance : BitVec 32
  pass : BitVec 8
  /-- First heap frame the firmware reserved for the image. -/
  frame : Nat
  deriving DecidableEq, Repr

/-- A firmware bank (R342, R398): the header's registers, its security version and whether its signature verifies. -/
structure FwBank where
  entry : Word
  ptbase : Word
  tvec : Word
  version : Nat
  errata : BitVec 32
  signed : Bool
  /-- A number for the bank's contents, of which the measurements are digests (R387, log 21). -/
  content : Nat
  deriving DecidableEq, Repr

/-- What the configuration record gives (R399). -/
structure CfgRec where
  magic : BitVec 32
  version : BitVec 16
  svn : BitVec 16
  serial : Word
  /-- Byte 64 * die + tile: the physical tile that serves the tile, or 0xFF; a byte beyond the list is the tile's own number. -/
  tileMap : List (BitVec 8)
  repairs : List (BitVec 32)
  bins : List (BitVec 32)
  heapBase : Nat
  heapSize : Nat
  health : Word
  /-- The bytes from 0x938 on, as far as they are not 0 to the end. -/
  reserved : List (BitVec 8)
  /-- Its signature holds. -/
  signed : Bool
  /-- A number for the record's contents (R387, log 21). -/
  content : Nat
  deriving DecidableEq, Repr

/-- A record whose signature holds and whose reserved bytes are 0 (R399). -/
def CfgRec.good (c : CfgRec) : Bool := c.signed && c.reserved.all (fun b => decide (b = 0))

/-- Tiles that it leaves unavailable, as keys 64 * die + tile. -/
def CfgRec.gone (c : CfgRec) : List Nat :=
  (List.range 256).filter (fun i => decide (c.tileMap.getD i (BitVec.ofNat 8 (i % 64)) = 0xFF))

/-- The kind of access a walk is made for (R352). -/
inductive WalkKind where
  | read | write | fetch
  deriving DecidableEq, Repr

/-- A register that a write without behaviour of its own reaches: a system register, or a BAR 0 register (R337, R384). -/
inductive RegRef where
  /-- TELCFG, as PLDM reaches it (R395). -/
  | pldm
  | sys (x : SeqId) (ctx : BitVec 2) (index : BitVec 12)
  | bar (off : BitVec 20)
  deriving DecidableEq, Repr

/-- The attributes of a host access: BAR, offset, IDE stream and T bit (R384, R385). -/
structure HostAcc where
  bar : BitVec 3
  off : Nat
  stream : Nat
  t : Bool
  deriving DecidableEq, Repr

/-- A host access (R384). -/
inductive HostOp where
  | write (h : HostAcc) (data : List (BitVec 8))
  | read (h : HostAcc) (n : Nat)
  deriving DecidableEq, Repr

/-! ### The steps -/

/-- One constructor for each row of the opcode table. -/
inductive Instr where
  -- S slot (R49, R89 to R99)
  | mov (a : SSrc) (d : SDest) (i : BitVec 9)
  | add (a b : SSrc) (d : SDest) (i : BitVec 9)
  | sub (a b : SSrc) (d : SDest) (i : BitVec 9)
  | addsh (a b : SSrc) (d : SDest) (sh : BitVec 3)
  | mul (a b : SSrc) (d : SDest) (i : BitVec 9)
  | mulh (a b : SSrc) (d : SDest) (i : BitVec 9)
  | mulhn (a b : SSrc) (d : SDest) (i : BitVec 9)
  | div (a b : SSrc) (d : SDest) (i : BitVec 9)
  | divn (a b : SSrc) (d : SDest) (i : BitVec 9)
  | rem (a b : SSrc) (d : SDest) (i : BitVec 9)
  | remn (a b : SSrc) (d : SDest) (i : BitVec 9)
  | and (a b : SSrc) (d : SDest) (i : BitVec 9)
  | or (a b : SSrc) (d : SDest) (i : BitVec 9)
  | xor (a b : SSrc) (d : SDest) (i : BitVec 9)
  | andn (a b : SSrc) (d : SDest) (i : BitVec 9)
  | shl (a b : SSrc) (d : SDest) (i : BitVec 9)
  | shr (a b : SSrc) (d : SDest) (i : BitVec 9)
  | sar (a b : SSrc) (d : SDest) (i : BitVec 9)
  | rol (a b : SSrc) (d : SDest) (i : BitVec 9)
  | min (a b : SSrc) (d : SDest) (i : BitVec 9)
  | max (a b : SSrc) (d : SDest) (i : BitVec 9)
  | minn (a b : SSrc) (d : SDest) (i : BitVec 9)
  | maxn (a b : SSrc) (d : SDest) (i : BitVec 9)
  | seq (a b : SSrc) (d : SDest) (i : BitVec 9)
  | sne (a b : SSrc) (d : SDest) (i : BitVec 9)
  | slt (a b : SSrc) (d : SDest) (i : BitVec 9)
  | sltn (a b : SSrc) (d : SDest) (i : BitVec 9)
  | sle (a b : SSrc) (d : SDest) (i : BitVec 9)
  | slen (a b : SSrc) (d : SDest) (i : BitVec 9)
  | sel (a b : SSrc) (d : SDest) (c : SSrc)
  | clz (a : SSrc) (d : SDest)
  | ctz (a : SSrc) (d : SDest)
  | popc (a : SSrc) (d : SDest)
  | ext (a b : SSrc) (d : SDest) (i : BitVec 9)
  | extn (a b : SSrc) (d : SDest) (i : BitVec 9)
  | dep (a b : SSrc) (d : SDest) (i : BitVec 9)
  | bswap (a : SSrc) (d : SDest)
  | fadd (a b : SSrc) (d : SDest) (w : Bool)
  | fsub (a b : SSrc) (d : SDest) (w : Bool)
  | fmul (a b : SSrc) (d : SDest) (w : Bool)
  | fdiv (a b : SSrc) (d : SDest) (w : Bool)
  | fmin (a b : SSrc) (d : SDest) (w : Bool)
  | fmax (a b : SSrc) (d : SDest) (w : Bool)
  | fcmp (a b : SSrc) (d : SDest) (w : Bool) (c : FCond)
  | fcvt (a : SSrc) (d : SDest) (w : Bool) (kd : FKind)
  | fsqrt (a : SSrc) (d : SDest) (w : Bool)
  | chdl (a : SSrc) (d : SDest) (o : BitVec 9)
  | madd (a b : SSrc) (d : SDest) (c : SSrc)
  -- C slot (R55)
  | lit (l : BitVec 24)
  | lith (l : BitVec 24)
  | sclset (e : BitVec 4) (code : BitVec 8)
  | sclsetSource (e : BitVec 4) (s : SSrc)
  | nset (level : BitVec 3) (fld : BitVec 2) (v : BitVec 20)
  | nsetSource (level : BitVec 3) (fld : BitVec 2) (s : SSrc)
  | mxcfgFmt (fa fb : BitVec 4) (g : Bool)
  | mxcfgPa (p : BitVec 13)
  | mxcfgPb (p : BitVec 13)
  | vtag (r : BitVec 7) (t : Tag)
  | tmode (m : BitVec 2)
  | katk (v : BitVec 24)
  | pset (d m pa pb : BitVec 3) (n : BitVec 8)
  -- B slot (R50, R103)
  | br (o : BitVec 12)
  | brz (s : SSrc) (o : BitVec 12)
  | brnz (s : SSrc) (o : BitVec 12)
  | brx (s : SSrc)
  | call (o : BitVec 12)
  | callx (s : SSrc)
  | ret (s : SSrc)
  | loop (s : SSrc) (e : BitVec 12)
  | loopi (n : BitVec 9) (e : BitVec 12)
  | leave (s : SSrc) (o : BitVec 12) (n : BitVec 3)
  | realn (m : BitVec 9)
  | trap (s : SSrc) (code : BitVec 9)
  | eret
  | texit
  | brk (code : BitVec 9)
  -- M slot (R51)
  | ldb (a : SSrc) (d : SDest) (o : BitVec 12)
  | ldbn (a : SSrc) (d : SDest) (o : BitVec 12)
  | ldh (a : SSrc) (d : SDest) (o : BitVec 12)
  | ldhn (a : SSrc) (d : SDest) (o : BitVec 12)
  | ldw (a : SSrc) (d : SDest) (o : BitVec 12)
  | ldwn (a : SSrc) (d : SDest) (o : BitVec 12)
  | ldd (a : SSrc) (d : SDest) (o : BitVec 12)
  | stb (a s : SSrc) (o : BitVec 12)
  | sth (a s : SSrc) (o : BitVec 12)
  | stw (a s : SSrc) (o : BitVec 12)
  | std (a s : SSrc) (o : BitVec 12)
  | ldv (a : SSrc) (d : VDest) (t : Tag) (o : BitVec 7)
  | stv (a : SSrc) (v : VSrc) (o : BitVec 12)
  | stvm (a : SSrc) (v : VSrc) (p : BitVec 3) (o : BitVec 9)
  | ldvs (a : SSrc) (d : VDest) (t : Tag) (k : BitVec 4)
  | stvs (a : SSrc) (v : VSrc) (k : BitVec 4)
  | lda (a : SSrc) (d : VDest) (o : BitVec 12)
  | sta (a : SSrc) (v : VSrc) (o : BitVec 12)
  | staa (a : SSrc) (v : VSrc) (o : BitVec 12)
  | ldpair (a : SSrc) (o : BitVec 12)
  | stpair (a s : SSrc) (o : BitVec 12)
  -- X slot (R53)
  | xbc (a : SSrc) (t : Tag)
  | xins (a : SSrc) (g : BitVec 6)
  | xext (v : VSrc) (e : BitVec 4)
  | xsum (v : VSrc)
  | xmax (v : VSrc)
  | xmsk (v : VSrc) (h : Bool)
  -- V slot units (R52)
  | pass (u : VPos)
  | vadd (u : VPos) (y : VSrc)
  | vsub (u : VPos) (y : VSrc)
  | vrsub (u : VPos) (y : VSrc)
  | vmul (u : VPos) (y : VSrc)
  | vmin (u : VPos) (y : VSrc)
  | vmax (u : VPos) (y : VSrc)
  | vabs (u : VPos)
  | vneg (u : VPos)
  | vand (u : VPos) (y : VSrc)
  | vor (u : VPos) (y : VSrc)
  | vxor (u : VPos) (y : VSrc)
  | vshl (u : VPos) (y : VSrc)
  | vshr (u : VPos) (y : VSrc)
  | vsar (u : VPos) (y : VSrc)
  | vceq (u : VPos) (y : VSrc)
  | vclt (u : VPos) (y : VSrc)
  | vcle (u : VPos) (y : VSrc)
  | vsel (u : VPos) (y : VSrc)
  | vcvt (u : VPos) (t : Tag)
  | vwid (u : VPos) (t : Tag)
  | vnar (u : VPos) (t : Tag) (p : BitVec 2)
  | vperm (u : VPos) (y : VSrc)
  | vrot (u : VPos) (y : VSrc)
  | vbcast (u : VPos) (y : VSrc)
  | vradd (u : VPos)
  | vrmax (u : VPos)
  | vrmin (u : VPos)
  | vscan (u : VPos)
  | vidx (u : VPos) (y : VSrc)
  | vrcp (u : VPos)
  | vrsq (u : VPos)
  | vexp2 (u : VPos)
  | vlog2 (u : VPos)
  | vtanh (u : VPos)
  | vsigm (u : VPos)
  | vsqrt (u : VPos)
  | vscale (u : VPos) (y : VSrc)
  | vscidx (u : VPos) (y : VSrc)
  | vadds (u : VPos) (y : VSrc)
  | vsubs (u : VPos) (y : VSrc)
  | vmulh (u : VPos) (y : VSrc)
  | vmulhn (u : VPos) (y : VSrc)
  -- E slot (R54)
  | mxgo (f : MxgoF)
  | mxstop
  | acalloc (n : Option (BitVec 7)) (s : SSrc)
  | acfree (s : SSrc)
  | acband (f : BandF)
  | aczero (a : SSrc) (fmt : BitVec 2) (n : BitVec 2)
  | vgtab (a : SSrc)
  | vggo (f : VggoF)
  | vgstop
  | cpgo (h : SSrc) (ctr : BitVec 6)
  | cpstop (ctr : BitVec 6)
  | cwait (ctr : BitVec 6) (x : CtrArg)
  | cadd (ctr : BitVec 6) (x : CtrArg)
  | cset (ctr : BitVec 6) (x : CtrArg) (empty : Bool)
  | crd (ctr : BitVec 6) (sel : BitVec 2)
  | rbind (h : BitVec 4) (f e : BitVec 6) (base : SSrc) (n : BitVec 12)
  | rwaitf (h : BitVec 4) (k : BitVec 13)
  | rwaite (h : BitVec 4) (k : BitVec 13)
  | radvp (h : BitVec 4) (k : BitVec 13)
  | radvc (h : BitVec 4) (k : BitVec 13)
  | fence (p q scope : BitVec 3)
  | scld (f : ScF)
  | scst (f : ScF)
  | scswp (f : ScF)
  | scadd (f : ScF)
  | sccas (f : ScF)
  | snap (num job : SSrc)
  | snapq (sel : BitVec 2)
  | ckwait (num : SSrc)
  | rollbk (num job : SSrc)
  | katgo (fmt : BitVec 4) (seed : BitVec 8)
  | katcmp
  | tlaunch (a : SSrc) (q : BitVec 6)
  | sysrd (index : BitVec 12) (clr : Bool) (ctx : BitVec 2)
  | syswr (index : SysIndex) (s : SSrc) (ctx : BitVec 2)
  | tlbinv (a : SSrc) (scope kind : BitVec 2)
  | codeinv (a : SSrc) (scope : BitVec 2) (all : Bool)
  | zerob (target mask : SSrc) (hbm : Bool)
  | capq (s : SSrc)
  -- copy commands, executed by a chain (R56, R277)
  | cmov (ch : Nat) (f : CopyF)
  | czero (ch : Nat) (f : CopyF)
  | cconv (ch : Nat) (f : CopyF)
  | cexp (ch : Nat) (f : CopyF)
  | ccomp (ch : Nat) (f : CopyF)
  | cdec (ch : Nat) (f : CopyF)
  | cenc (ch : Nat) (f : CopyF)
  | catom (ch : Nat) (f : CopyF)
  | cloop (ch : Nat) (f : CopyF)
  | cif (ch : Nat) (f : CopyF)
  | ccw (ch : Nat) (f : CopyF)
  | ccwSatisfied (ch : Nat)
  | csig (ch : Nat) (f : CopyF)
  | clink (ch : Nat) (f : CopyF)
  | cend (ch : Nat) (f : CopyF)
  | copyChunk (ch : Nat)
  -- sequencers
  | resultLanding (x : SeqId)
  | segmentFetch (x : SeqId)
  | segmentPrefetch (x : SeqId)
  | pageResolution (x : SeqId)
  | waitConditionMet (x : SeqId)
  | fenceComplete (x : SeqId)
  | realnEnd (x : SeqId)
  | scWheelSlot (x : SeqId)
  | heldStorePerform (x : SeqId)
  | crossDieAccess (id : Nat)
  | crossDieDataArrival (x : SeqId)
  | tlbinvComplete (x : SeqId)
  | codeinvComplete (x : SeqId)
  | zerobComplete (x : SeqId)
  | remdataReturn (x : SeqId)
  -- engines
  | nestStepLanding (x : SeqId)
  | nestCompletion (x : SeqId)
  | katCompletion (x : SeqId)
  | acfreeZeroed (t : TileId)
  | vgCompletion (t : TileId)
  | vgFault (t : TileId)
  -- tasks and launch queues
  | arbitrationDecision (g : List SeqId)
  | runOverrun (task : Nat)
  | lqdb (q : BitVec 6)
  | launchQueuePoll (q : BitVec 6)
  | lqctl (q : BitVec 6) (v : Word)
  | tlaunchAccept (x : SeqId)
  | recordReady (q : BitVec 6) (i : Nat)
  | placementBind (q : BitVec 6) (i : Nat) (g : List SeqId)
  | urgentLaunch (q : BitVec 6) (i : Nat) (g : List SeqId)
  | gangStart (task : Nat)
  | taskEnd (task : Nat)
  | preq (v : Word) (host : Bool)
  | gangResume (task : Nat)
  -- traps and registers
  | trapDelivery (x : SeqId)
  | breakpoint (x : SeqId)
  | tend (x : SeqId) (v : Word)
  | start (x : SeqId) (v : Word)
  | remdataWrite (x : SeqId) (v : Word)
  | remdataRead (x : SeqId)
  | cpresumeRetry (t : TileId) (ctr : BitVec 6)
  | cpresumeEnd (t : TileId) (ctr : BitVec 6)
  | hddata (x : SeqId) (ctx : BitVec 2) (v : Word)
  | tickcfg (v : Word)
  | tickPeriodSwitch
  | snapcfg (v : Word)
  | registerWrite (r : RegRef) (v : Word)
  | tickstop
  | tickstopRelease
  | telemetryLatch
  | traceSample (x : SeqId)
  | pageWalk (x : SeqId) (ctx : BitVec 2) (va : Word) (kd : WalkKind)
  -- snapshot
  | snapshotCut
  | settleEnd
  | snapshotResume
  | bankStreamOut (bank : Nat)
  | heldPageCopy (va : Word)
  | marker (f : Flit)
  | locallyComplete
  | done (f : Flit)
  | commit (f : Flit)
  | snapshotAbort (reason : BitVec 8)
  | snapshotTimeLimit
  | abortFlit (f : Flit)
  | rollbackFlit (f : Flit) (intact : Bool)
  | rollbackResume (task : Nat)
  -- fabric
  | fabricMessage (m : Msg)
  | flitReceive (port : Fin 24) (f : Flit) (crcGood : Bool)
  | nak (port : Fin 24) (ack : BitVec 12)
  | linkDown (port : Fin 24)
  | stopGo (port : Fin 24) (stops : BitVec 4)
  | timeFlit (port : Fin 24) (grandMaster : Word)
  | laneRepair (boundary : Fin 4)
  -- host and management
  | hostWrite (h : HostAcc) (data : List (BitVec 8))
  | hostRead (h : HostAcc) (n : Nat)
  | bindKey (f : BindF)
  | tdiLeaveRun (tdi : Nat)
  | spdmRequest (index : BitVec 8)
  | pldmRequest (sensor : BitVec 16)
  | firmwareUpdate (f : FwBank)
  | activateFirmware
  | serviceBankSwitch (die : Fin 4)
  | translate (die : Fin 4) (slot : BitVec 7) (img : Image)
  | revert (die : Fin 4) (slot : BitVec 7)
  | profileGuidedInstall (va : Word) (img : Image)
  | tileRetirement (die : Fin 4) (tile : Fin 64) (spare : Bool)
  | copyEngineReset (t : TileId)
  | mxeReset (t : TileId)
  | groupedUnitReset (t : TileId)
  | sequencerReset (x : SeqId)
  | tileReset (t : TileId)
  | dieReset (d : Fin 4)
  | functionLevelReset
  | coldReset (c : CfgRec)
  | powerOff
  | idleBundle
  | backgroundCapture (va : Word)
  | linkTraining (port : Fin 24)
  | tdispRequest (tdi : Nat) (job : BitVec 16) (state : BitVec 2) (stream : Nat)
  deriving DecidableEq, Repr

end Sys2Proof
end

