-- ==== Sys2Proof/WellFormed.lean ====
section
/-! DEFINITION. Which instruction terms have an encoding: the limits the spec puts on fields beyond their widths. -/

namespace Sys2Proof
open Sys2Proof.Machine

/-- A vector source that adopts the tag of its unit's other input (R38). -/
def VSrc.adopting : VSrc → Bool
  | .zero | .one | .neg | .maxf | .half => true
  | _ => false

/-- A vector destination that is a predicate (R39). -/
def VDest.isPred : VDest → Bool
  | .pred _ => true
  | _ => false


/-- imm9 is 0 unless a source reads it (R85). -/
def immOk (a b : SSrc) (i : BitVec 9) : Bool := decide (a = .imm ∨ b = .imm ∨ i = 0)

/-- No source is the immediate (R85, a dash in R89). -/
def noImm (l : List SSrc) : Bool := l.all (fun a => decide (a ≠ .imm))

/-- Unit operations that read two inputs (R157). -/
def Instr.unitBinary : Instr → Bool
  | .vadd .. | .vsub .. | .vrsub .. | .vmul .. | .vmin .. | .vmax .. | .vand .. | .vor .. | .vxor .. | .vshl ..
  | .vshr .. | .vsar .. | .vceq .. | .vclt .. | .vcle .. | .vsel .. | .vperm .. | .vrot .. | .vbcast .. | .vidx ..
  | .vscale .. | .vscidx .. | .vadds .. | .vsubs .. | .vmulh .. | .vmulhn .. => true
  | _ => false

/-- Unit operations legal in unit A only (R52). -/
def Instr.unitAOnly : Instr → Bool
  | .vperm .. | .vrot .. | .vbcast .. | .vradd .. | .vrmax .. | .vrmin .. | .vscan .. => true
  | _ => false

/-- Unit operations legal in unit C only (R52). -/
def Instr.unitCOnly : Instr → Bool
  | .vrcp .. | .vrsq .. | .vexp2 .. | .vlog2 .. | .vtanh .. | .vsigm .. | .vsqrt .. => true
  | _ => false

/-- The compares (R164). -/
def Instr.unitCompare : Instr → Bool
  | .vceq .. | .vclt .. | .vcle .. => true
  | _ => false

/-- VWID and VNAR change the element count (R52). -/
def Instr.unitCount : Instr → Bool
  | .vwid .. | .vnar .. => true
  | _ => false

/-- VSEL (R165). -/
def Instr.unitSel : Instr → Bool
  | .vsel .. => true
  | _ => false

/-- PASS (R33). -/
def Instr.unitPass : Instr → Bool
  | .pass .. => true
  | _ => false

/-- The fields of a unit operation that it shares with its slot. -/
def Instr.vpos : Instr → Option VPos
  | .pass u | .vabs u | .vneg u | .vradd u | .vrmax u | .vrmin u | .vscan u | .vrcp u | .vrsq u | .vexp2 u | .vlog2 u
  | .vtanh u | .vsigm u | .vsqrt u => some u
  | .vadd u _ | .vsub u _ | .vrsub u _ | .vmul u _ | .vmin u _ | .vmax u _ | .vand u _ | .vor u _ | .vxor u _
  | .vshl u _ | .vshr u _ | .vsar u _ | .vceq u _ | .vclt u _ | .vcle u _ | .vsel u _ | .vperm u _ | .vrot u _
  | .vbcast u _ | .vidx u _ | .vscale u _ | .vscidx u _ | .vadds u _ | .vsubs u _ | .vmulh u _ | .vmulhn u _ => some u
  | .vcvt u _ | .vwid u _ => some u
  | .vnar u _ _ => some u
  | _ => none

/-- The control tag of a conversion is legal (R170 to R172). -/
def Instr.unitTagOk : Instr → Bool
  | .vcvt _ t | .vwid _ t | .vnar _ t _ => tagOk t
  | _ => true

/-- What a unit operation must meet wherever it stands (R33, R52, R159, R170). -/
def unitWf (i : Instr) (u : VPos) : Bool :=
  decide (u.pred.toNat ≤ 8) && i.unitTagOk
    && (!i.unitAOnly || decide (u.unit = .a)) && (!i.unitCOnly || decide (u.unit = .c))
    && (!i.unitCount || decide (u.pred = 0)) && (!i.unitSel || decide (u.pred ≠ 0))

/-- The three operations of a V slot stand together (R33, R38, R52, R164, R175). -/
def vslotWf (a b c : Instr) : Bool :=
  match a.vpos, b.vpos, c.vpos with
  | some ua, some ub, some uc =>
    decide (ua = ⟨.a, ua.a1, ua.dest, ua.pred⟩) && decide (ub = ⟨.b, ua.a1, ua.dest, ua.pred⟩)
      && decide (uc = ⟨.c, ua.a1, ua.dest, ua.pred⟩)
      && unitWf a ua && unitWf b ub && unitWf c uc
      && (!ua.a1.adopting || a.unitBinary)
      && decide ((([a, b, c].filter Instr.unitCount).length) ≤ 1)
      && (!ua.dest.isPred ||
          (if c.unitPass then (if b.unitPass then a.unitCompare else b.unitCompare) else c.unitCompare))
  | _, _, _ => false

/-- A unit operation alone in its slot, the other units PASS. -/
def unitAlone (i : Instr) (u : VPos) : Bool :=
  let p : CUnit → Instr := fun k => .pass ⟨k, u.a1, u.dest, u.pred⟩
  match u.unit with
  | .a => vslotWf i (p .b) (p .c)
  | .b => vslotWf (p .a) i (p .c)
  | .c => vslotWf (p .a) (p .b) i

/-- The second word of STPAIR comes from the specifier after its own (R259). -/
def pairOk : SSrc → Bool
  | .q n | .k n => decide (n.toNat ≤ 14)
  | _ => false

/-- The well-formed instructions: the terms that an encoding stands for. An event has no encoding and no limit here. -/
def Instr.wf : Instr → Bool
  | .mov a _ i => immOk a a i
  | .add a b _ i | .sub a b _ i | .mul a b _ i | .mulh a b _ i | .mulhn a b _ i | .div a b _ i | .divn a b _ i
  | .rem a b _ i | .remn a b _ i | .and a b _ i | .or a b _ i | .xor a b _ i | .andn a b _ i | .shl a b _ i
  | .shr a b _ i | .sar a b _ i | .rol a b _ i | .min a b _ i | .max a b _ i | .minn a b _ i | .maxn a b _ i
  | .seq a b _ i | .sne a b _ i | .slt a b _ i | .sltn a b _ i | .sle a b _ i | .slen a b _ i
  | .ext a b _ i | .extn a b _ i => immOk a b i
  | .dep a b d i => immOk a b i && decide (d ≠ .queue)
  | .addsh a b _ _ => noImm [a, b]
  | .sel _ _ _ c => noImm [c]
  | .clz a _ | .ctz a _ | .popc a _ | .bswap a _ | .chdl a _ _ => noImm [a]
  | .fadd a b _ _ | .fsub a b _ _ | .fmul a b _ _ | .fdiv a b _ _ | .fmin a b _ _ | .fmax a b _ _
  | .fcmp a b _ _ _ => noImm [a, b]
  | .fcvt a _ _ _ | .fsqrt a _ _ => noImm [a]
  | .madd a b _ c => noImm [a, b, c]
  | .sclsetSource _ s => noImm [s]
  | .nset l f v => decide (l.toNat < 6) &&
      (decide (f ≠ 0) || (decide (field v.toNat 19 18 ≠ 3) && decide (field v.toNat 17 16 = 0)))
  | .nsetSource l _ s => decide (l.toNat < 6) && noImm [s]
  | .mxcfgFmt fa fb _ => decide (fa.toNat < 10) && decide (fb.toNat < 10)
  | .vtag _ t => tagOk t
  | .tmode m => decide (m ≠ 3)
  | .pset _ m pa pb n =>
      (match m.toNat with
       | 0 => decide (pa = 0 ∧ pb = 0 ∧ n = 0)
       | 1 => decide (pa = 0 ∧ pb = 0 ∧ n.toNat ≤ 128)
       | 2 => decide (pb = 0 ∧ n = 0)
       | 7 => false
       | _ => decide (n = 0))
  | .brx s | .callx s | .ret s => noImm [s]
  | .leave _ _ n => decide (1 ≤ n.toNat ∧ n.toNat ≤ 6)
  | .ldb a _ _ | .ldbn a _ _ | .ldh a _ _ | .ldhn a _ _ | .ldw a _ _ | .ldwn a _ _ | .ldd a _ _ | .ldpair a _ =>
      noImm [a]
  | .stb a s _ | .sth a s _ | .stw a s _ | .std a s _ => noImm [a, s]
  | .stpair a s _ => noImm [a] && pairOk s
  | .ldv a d t _ => noImm [a] && !d.isPred && tagOk t
  | .ldvs a d t _ => noImm [a] && !d.isPred && tagOk t && decide (t ≠ tMASK) && decide (8 ≤ esz t)
  | .lda a d _ => noImm [a] && !d.isPred
  | .stv a v _ | .stvm a v _ _ | .stvs a v _ | .sta a v _ | .staa a v _ => noImm [a] && !v.adopting
  | .xbc a t => noImm [a] && tagOk t
  | .xins a _ => noImm [a]
  | .xext v _ | .xsum v | .xmax v | .xmsk v _ => !v.adopting
  | .mxgo f => noImm [f.a, f.b, f.c, f.sa, f.sb] && !f.x.adopting
  | .acalloc n s =>
      noImm [s] && (match n with
       | some k => decide (1 ≤ k.toNat ∧ k.toNat ≤ 64)
       | none => true)
  | .acfree s => noImm [s]
  | .acband f => noImm [f.addr] &&
      (if f.valid then decide (f.cnt ≠ 0 ∧ f.lo.toNat + f.cnt.toNat ≤ 64)
       else decide (f.lo = 0 ∧ f.cnt = 0 ∧ f.die = 0 ∧ f.tile = 0) && !f.seq)
  | .aczero a fmt _ => noImm [a] && decide (fmt ≠ 3)
  | .vgtab a => noImm [a]
  | .vggo f => noImm [f.x, f.c] && !f.d.adopting
  | .cpgo h _ => noImm [h]
  | .cwait _ x | .cadd _ x | .cset _ x _ =>
      (match x with
       | .imm _ => true
       | .src a => noImm [a])
  | .rbind _ f e base n => noImm [base] && decide (f ≠ e) && decide (n.toNat < 4096)
  | .fence p q sc => decide (p.toNat ≤ 5 ∧ q.toNat ≤ 3 ∧ sc.toNat ≤ 4)
  | .scld f => noImm [f.addr] && decide (f.value = .q 0 ∧ f.expect = .q 0)
  | .scst f | .scswp f | .scadd f => noImm [f.addr, f.value] && decide (f.expect = .q 0)
  | .sccas f => noImm [f.addr, f.value, f.expect]
  | .snap a b | .rollbk a b => noImm [a, b]
  | .snapq n => decide (n ≠ 3)
  | .ckwait a => noImm [a]
  | .katgo fmt _ => decide (fmt.toNat < 10)
  | .tlaunch a _ => noImm [a]
  | .syswr _ s _ => noImm [s]
  | .tlbinv a sc _ => noImm [a] && decide (sc ≠ 3)
  | .codeinv a sc all => noImm [a] && decide (sc ≠ 3) && (!all || decide (a = .q 0))
  | .zerob a b _ => noImm [a, b]
  | .capq s => noImm [s]
  | i =>
    match i.vpos with
    | some u => unitAlone i u
    | none => true

end Sys2Proof
end

