-- ==== Sys2Proof/Decode.lean ====
section
/-! DEFINITION. The decoder of slots, bundles and copy entries, and after it the encoder, both written from the
encoding tables of the spec (R25 to R35, R37 to R39, R49 to R57 and the entry of each instruction). -/

namespace Sys2Proof
open Sys2Proof.Machine

/-- What the bits of a slot are: an instruction, an unassigned opcode (OPC_UNDEF) or a reserved field (ENC_RSVD), R57. -/
inductive Dec (α : Type) where
  | ok (i : α)
  | undef
  | rsvd
  deriving DecidableEq, Repr

/-- Scalar source specifiers (R37); a reserved value is none. -/
def ssrc (n : Nat) : Option SSrc :=
  if n < 0x10 then some (.q (BitVec.ofNat 4 n))
  else if n < 0x20 then some (.k (BitVec.ofNat 4 (n - 0x10)))
  else match n with
    | 0x20 => some .imm
    | 0x21 => some .zero
    | 0x22 => some .tile
    | 0x23 => some .die
    | 0x24 => some .seq
    | 0x25 => some .gclk
    | 0x26 => some (.lidx 0)
    | 0x27 => some (.lidx 1)
    | 0x28 => some (.lidx 2)
    | 0x29 => some (.lidx 3)
    | 0x2A => some (.lidx 4)
    | 0x2B => some (.lidx 5)
    | _ => none

/-- Scalar destinations (R39). -/
def sdest (n : Nat) : Option SDest :=
  if n = 0 then some .queue
  else if 0x10 ≤ n ∧ n < 0x20 then some (.keep (BitVec.ofNat 4 (n - 0x10)))
  else none

/-- Vector source specifiers (R38). -/
def vsrc (n : Nat) : Option VSrc :=
  if n < 0x10 then some (.vq (BitVec.ofNat 4 n))
  else if n < 0x90 then some (.w (BitVec.ofNat 7 (n - 0x10)))
  else match n with
    | 0x90 => some .xb
    | 0x91 => some .lane
    | 0x92 => some .zero
    | 0x93 => some .one
    | 0x94 => some .neg
    | 0x95 => some .maxf
    | 0x96 => some .half
    | 0x97 => some .ones
    | _ => none

/-- Vector destinations (R39). -/
def vdest (n : Nat) : Option VDest :=
  if n = 0xFF then some .queue
  else if 0x10 ≤ n ∧ n < 0x90 then some (.w (BitVec.ofNat 7 (n - 0x10)))
  else if 0xF0 ≤ n ∧ n < 0xF8 then some (.pred (BitVec.ofNat 3 (n - 0xF0)))
  else none

/-- The conditions of FCMP (R94). -/
def fcond (n : Nat) : Option FCond :=
  match n with
  | 0 => some .eq
  | 1 => some .lt
  | 2 => some .le
  | 3 => some .un
  | 4 => some .ne
  | _ => none

/-- The conversions of FCVT (R95). -/
def fkind (n : Nat) : Option FKind :=
  match n with
  | 0 => some .toS64
  | 1 => some .toN64
  | 2 => some .ofS64
  | 3 => some .ofN64
  | 4 => some .other
  | _ => none

/-- A decoded term that is well-formed is the instruction; otherwise a field is reserved. -/
def Dec.check (o : Option Instr) : Dec Instr :=
  match o with
  | some i => if i.wf then .ok i else .rsvd
  | none => .rsvd

/-- A field that must be zero. -/
def need (b : Bool) : Option Unit := if b then some () else none

/-! ### S slot (R30, R49, R85, R86) -/

/-- Two sources, a destination and imm9. -/
def decSBin (w : Nat) (mk : SSrc → SSrc → SDest → BitVec 9 → Instr) : Option Instr := do
  let a ← ssrc (field w 25 20)
  let b ← ssrc (field w 19 14)
  let d ← sdest (field w 13 9)
  some (mk a b d (BitVec.ofNat 9 (field w 8 0)))

/-- One source: source b must hold 0x00. -/
def decSUn (w : Nat) (mk : SSrc → SDest → BitVec 9 → Instr) : Option Instr := do
  let a ← ssrc (field w 25 20)
  let d ← sdest (field w 13 9)
  need (field w 19 14 = 0)
  some (mk a d (BitVec.ofNat 9 (field w 8 0)))

/-- Three sources, the third in imm9[5:0]. -/
def decSTri (w : Nat) (mk : SSrc → SSrc → SDest → SSrc → Instr) : Option Instr := do
  let a ← ssrc (field w 25 20)
  let b ← ssrc (field w 19 14)
  let d ← sdest (field w 13 9)
  let c ← ssrc (field w 5 0)
  need (field w 8 6 = 0)
  some (mk a b d c)

/-- A floating operation of two sources: W in imm9[8], ctl 0. -/
def decSF (w : Nat) (mk : SSrc → SSrc → SDest → Bool → Instr) : Option Instr := do
  let a ← ssrc (field w 25 20)
  let b ← ssrc (field w 19 14)
  let d ← sdest (field w 13 9)
  need (field w 7 0 = 0)
  some (mk a b d (field w 8 8 = 1))

/-- A unary operation whose imm9 must be 0. -/
def decSUn0 (w : Nat) (mk : SSrc → SDest → Instr) : Option Instr := do
  need (field w 8 0 = 0)
  decSUn w (fun a d _ => mk a d)

/-- An S slot word. -/
def decS (w : Nat) : Dec Instr :=
  match field w 31 26 with
  | 0x00 => .check (decSUn w .mov)
  | 0x03 => .check (do
      need (field w 8 3 = 0)
      decSBin w (fun a b d _ => .addsh a b d (BitVec.ofNat 3 (field w 2 0))))
  | 0x1D => .check (decSTri w .sel)
  | 0x2C => .check (do
      let c ← fcond (field w 7 0)
      decSBin w (fun a b d _ => .fcmp a b d (field w 8 8 = 1) c))
  | 0x2D => .check (do
      let c ← fkind (field w 7 0)
      decSUn w (fun a d _ => .fcvt a d (field w 8 8 = 1) c))
  | 0x2E => .check (do
      need (field w 7 0 = 0)
      decSUn w (fun a d _ => .fsqrt a d (field w 8 8 = 1)))
  | 0x30 => .check (decSUn w .chdl)
  | 0x38 => .check (decSTri w .madd)
  | 0x01 => .check (decSBin w .add)
  | 0x02 => .check (decSBin w .sub)
  | 0x04 => .check (decSBin w .mul)
  | 0x05 => .check (decSBin w .mulh)
  | 0x06 => .check (decSBin w .mulhn)
  | 0x07 => .check (decSBin w .div)
  | 0x08 => .check (decSBin w .divn)
  | 0x09 => .check (decSBin w .rem)
  | 0x0A => .check (decSBin w .remn)
  | 0x0B => .check (decSBin w .and)
  | 0x0C => .check (decSBin w .or)
  | 0x0D => .check (decSBin w .xor)
  | 0x0E => .check (decSBin w .andn)
  | 0x0F => .check (decSBin w .shl)
  | 0x10 => .check (decSBin w .shr)
  | 0x11 => .check (decSBin w .sar)
  | 0x12 => .check (decSBin w .rol)
  | 0x13 => .check (decSBin w .min)
  | 0x14 => .check (decSBin w .max)
  | 0x15 => .check (decSBin w .minn)
  | 0x16 => .check (decSBin w .maxn)
  | 0x17 => .check (decSBin w .seq)
  | 0x18 => .check (decSBin w .sne)
  | 0x19 => .check (decSBin w .slt)
  | 0x1A => .check (decSBin w .sltn)
  | 0x1B => .check (decSBin w .sle)
  | 0x1C => .check (decSBin w .slen)
  | 0x21 => .check (decSBin w .ext)
  | 0x22 => .check (decSBin w .extn)
  | 0x23 => .check (decSBin w .dep)
  | 0x1E => .check (decSUn0 w .clz)
  | 0x1F => .check (decSUn0 w .ctz)
  | 0x20 => .check (decSUn0 w .popc)
  | 0x24 => .check (decSUn0 w .bswap)
  | 0x26 => .check (decSF w .fadd)
  | 0x27 => .check (decSF w .fsub)
  | 0x28 => .check (decSF w .fmul)
  | 0x29 => .check (decSF w .fdiv)
  | 0x2A => .check (decSF w .fmin)
  | 0x2B => .check (decSF w .fmax)
  | _ => .undef

/-! ### C slot (R55) -/

/-- A C slot word. -/
def decC (w : Nat) : Dec Instr :=
  match field w 31 26 with
  | 0x00 => .check (do
      need (field w 25 24 = 0)
      some (.lit (BitVec.ofNat 24 (field w 23 0))))
  | 0x01 => .check (do
      need (field w 25 24 = 0)
      some (.lith (BitVec.ofNat 24 (field w 23 0))))
  | 0x02 => .check (do
      need (field w 6 0 = 0)
      if field w 21 21 = 0 then do
        need (field w 12 7 = 0)
        some (.sclset (BitVec.ofNat 4 (field w 25 22)) (BitVec.ofNat 8 (field w 20 13)))
      else do
        need (field w 20 13 = 0)
        let s ← ssrc (field w 12 7)
        some (.sclsetSource (BitVec.ofNat 4 (field w 25 22)) s))
  | 0x03 => .check (
      if field w 20 20 = 0 then
        some (.nset (BitVec.ofNat 3 (field w 25 23)) (BitVec.ofNat 2 (field w 22 21)) (BitVec.ofNat 20 (field w 19 0)))
      else do
        need (field w 13 0 = 0)
        let s ← ssrc (field w 19 14)
        some (.nsetSource (BitVec.ofNat 3 (field w 25 23)) (BitVec.ofNat 2 (field w 22 21)) s))
  | 0x04 => .check (
      match field w 25 24 with
      | 0 => do
        need (field w 14 0 = 0)
        some (.mxcfgFmt (BitVec.ofNat 4 (field w 23 20)) (BitVec.ofNat 4 (field w 19 16)) (field w 15 15 = 1))
      | 1 => do
        need (field w 23 13 = 0)
        some (.mxcfgPa (BitVec.ofNat 13 (field w 12 0)))
      | 2 => do
        need (field w 23 13 = 0)
        some (.mxcfgPb (BitVec.ofNat 13 (field w 12 0)))
      | _ => none)
  | 0x05 => .check (do
      need (field w 12 0 = 0)
      need (0x10 ≤ field w 25 18 ∧ field w 25 18 < 0x90)
      some (.vtag (BitVec.ofNat 7 (field w 25 18 - 0x10)) (BitVec.ofNat 5 (field w 17 13))))
  | 0x06 => .check (do
      need (field w 23 0 = 0)
      some (.tmode (BitVec.ofNat 2 (field w 25 24))))
  | 0x07 => .check (do
      need (field w 25 24 = 0)
      some (.katk (BitVec.ofNat 24 (field w 23 0))))
  | 0x08 => .check (do
      need (field w 13 8 = 0)
      some (.pset (BitVec.ofNat 3 (field w 25 23)) (BitVec.ofNat 3 (field w 22 20)) (BitVec.ofNat 3 (field w 19 17))
        (BitVec.ofNat 3 (field w 16 14)) (BitVec.ofNat 8 (field w 7 0))))
  | _ => .undef

/-! ### B slot (R31, R50, R103) -/

/-- Source field 0x00. -/
def decBNoSrc (w : Nat) : Option Unit := need (field w 26 21 = 0)

/-- A B slot word. -/
def decB (w : Nat) : Dec Instr :=
  let src := ssrc (field w 26 21)
  let o : BitVec 12 := BitVec.ofNat 12 (field w 20 9)
  let x : BitVec 9 := BitVec.ofNat 9 (field w 8 0)
  let aux0 := need (field w 8 0 = 0)
  let ord0 := need (field w 20 9 = 0)
  match field w 31 27 with
  | 0x00 => .check (do decBNoSrc w; aux0; some (.br o))
  | 0x01 => .check (do let s ← src; aux0; some (.brz s o))
  | 0x02 => .check (do let s ← src; aux0; some (.brnz s o))
  | 0x03 => .check (do let s ← src; ord0; aux0; some (.brx s))
  | 0x04 => .check (do decBNoSrc w; aux0; some (.call o))
  | 0x05 => .check (do let s ← src; ord0; aux0; some (.callx s))
  | 0x06 => .check (do let s ← src; ord0; aux0; some (.ret s))
  | 0x07 => .check (do let s ← src; aux0; some (.loop s o))
  | 0x08 => .check (do decBNoSrc w; some (.loopi x o))
  | 0x09 => .check (do let s ← src; need (field w 8 3 = 0); some (.leave s o (BitVec.ofNat 3 (field w 2 0))))
  | 0x0A => .check (do decBNoSrc w; ord0; some (.realn x))
  | 0x0B => .check (do let s ← src; ord0; some (.trap s x))
  | 0x0C => .check (do decBNoSrc w; ord0; aux0; some .eret)
  | 0x0D => .check (do decBNoSrc w; ord0; aux0; some .texit)
  | 0x0E => .check (do decBNoSrc w; ord0; some (.brk x))
  | _ => .undef

/-! ### M slot (R32, R51) -/

/-- A scalar load. -/
def decMLoad (w : Nat) (mk : SSrc → SDest → BitVec 12 → Instr) : Option Instr := do
  let a ← ssrc (field w 25 20)
  let d ← sdest (field w 19 12)
  some (mk a d (BitVec.ofNat 12 (field w 11 0)))

/-- A scalar store: [19:18] must be 0. -/
def decMStore (w : Nat) (mk : SSrc → SSrc → BitVec 12 → Instr) : Option Instr := do
  let a ← ssrc (field w 25 20)
  need (field w 19 18 = 0)
  let s ← ssrc (field w 17 12)
  some (mk a s (BitVec.ofNat 12 (field w 11 0)))

/-- A vector store with a 12-bit offset. -/
def decMVStore (w : Nat) (mk : SSrc → VSrc → BitVec 12 → Instr) : Option Instr := do
  let a ← ssrc (field w 25 20)
  let v ← vsrc (field w 19 12)
  some (mk a v (BitVec.ofNat 12 (field w 11 0)))

/-- An M slot word. -/
def decM (w : Nat) : Dec Instr :=
  match field w 31 26 with
  | 0x00 => .check (decMLoad w .ldb)
  | 0x01 => .check (decMLoad w .ldbn)
  | 0x02 => .check (decMLoad w .ldh)
  | 0x03 => .check (decMLoad w .ldhn)
  | 0x04 => .check (decMLoad w .ldw)
  | 0x05 => .check (decMLoad w .ldwn)
  | 0x06 => .check (decMLoad w .ldd)
  | 0x07 => .check (decMStore w .stb)
  | 0x08 => .check (decMStore w .sth)
  | 0x09 => .check (decMStore w .stw)
  | 0x0A => .check (decMStore w .std)
  | 0x0B => .check (do
      let a ← ssrc (field w 25 20)
      let d ← vdest (field w 19 12)
      some (.ldv a d (BitVec.ofNat 5 (field w 11 7)) (BitVec.ofNat 7 (field w 6 0))))
  | 0x0C => .check (decMVStore w .stv)
  | 0x0D => .check (do
      let a ← ssrc (field w 25 20)
      let v ← vsrc (field w 19 12)
      some (.stvm a v (BitVec.ofNat 3 (field w 11 9)) (BitVec.ofNat 9 (field w 8 0))))
  | 0x0E => .check (do
      let a ← ssrc (field w 25 20)
      let d ← vdest (field w 19 12)
      need (field w 6 4 = 0)
      some (.ldvs a d (BitVec.ofNat 5 (field w 11 7)) (BitVec.ofNat 4 (field w 3 0))))
  | 0x0F => .check (do
      let a ← ssrc (field w 25 20)
      let v ← vsrc (field w 19 12)
      need (field w 11 4 = 0)
      some (.stvs a v (BitVec.ofNat 4 (field w 3 0))))
  | 0x10 => .check (do
      let a ← ssrc (field w 25 20)
      let d ← vdest (field w 19 12)
      some (.lda a d (BitVec.ofNat 12 (field w 11 0))))
  | 0x11 => .check (decMVStore w .sta)
  | 0x12 => .check (decMVStore w .staa)
  | 0x3E => .check (do
      let a ← ssrc (field w 25 20)
      need (field w 19 12 = 0)
      some (.ldpair a (BitVec.ofNat 12 (field w 11 0))))
  | 0x3F => .check (decMStore w .stpair)
  | _ => .undef

/-! ### X slot (R34, R53) -/

/-- The scalar-to-vector half; none where its op is 0. -/
def decXs (w : Nat) : Dec (Option Instr) :=
  let one : Option Instr → Dec (Option Instr) := fun o =>
    match Dec.check o with
    | .ok i => .ok (some i)
    | .undef => .undef
    | .rsvd => .rsvd
  match field w 31 28 with
  | 0 => if field w 27 16 = 0 then .ok none else .rsvd
  | 1 => one (do
      let a ← ssrc (field w 27 22)
      need (field w 21 21 = 0)
      some (.xbc a (BitVec.ofNat 5 (field w 20 16))))
  | 2 => one (do
      let a ← ssrc (field w 27 22)
      some (.xins a (BitVec.ofNat 6 (field w 21 16))))
  | _ => .undef

/-- The vector-to-scalar half; none where its op is 0. -/
def decXv (w : Nat) : Dec (Option Instr) :=
  let one : Option Instr → Dec (Option Instr) := fun o =>
    match Dec.check o with
    | .ok i => .ok (some i)
    | .undef => .undef
    | .rsvd => .rsvd
  match field w 15 12 with
  | 0 => if field w 11 0 = 0 then .ok none else .rsvd
  | 1 => one (do
      let v ← vsrc (field w 11 4)
      some (.xext v (BitVec.ofNat 4 (field w 3 0))))
  | 2 => one (do
      let v ← vsrc (field w 11 4)
      need (field w 3 0 = 0)
      some (.xsum v))
  | 3 => one (do
      let v ← vsrc (field w 11 4)
      need (field w 3 0 = 0)
      some (.xmax v))
  | 4 => one (do
      let v ← vsrc (field w 11 4)
      need (field w 3 1 = 0)
      some (.xmsk v (field w 0 0 = 1)))
  | _ => .undef

/-- The operations of an X slot: one or two. -/
def decX (w : Nat) : Dec (List Instr) :=
  match decXs w, decXv w with
  | .undef, _ => .undef
  | _, .undef => .undef
  | .rsvd, _ => .rsvd
  | _, .rsvd => .rsvd
  | .ok none, .ok none => .rsvd
  | .ok a, .ok b => .ok (a.toList ++ b.toList)

/-! ### V slot (R33, R52) -/

/-- One unit's operation from its opcode and its second field; none in the first place where the opcode is unassigned,
in the second where a field is reserved. -/
def decUnit (op f2 : Nat) (u : VPos) : Dec Instr :=
  let un : (VPos → Instr) → Dec Instr := fun mk => if f2 = 0 then .ok (mk u) else .rsvd
  let bin : (VPos → VSrc → Instr) → Dec Instr := fun mk =>
    match vsrc f2 with
    | some y => .ok (mk u y)
    | none => .rsvd
  let ctl : (VPos → Tag → Instr) → Dec Instr := fun mk =>
    if field f2 7 5 = 0 then .ok (mk u (BitVec.ofNat 5 (field f2 4 0))) else .rsvd
  match op with
  | 0x00 => un .pass
  | 0x01 => bin .vadd
  | 0x02 => bin .vsub
  | 0x03 => bin .vrsub
  | 0x04 => bin .vmul
  | 0x05 => bin .vmin
  | 0x06 => bin .vmax
  | 0x07 => un .vabs
  | 0x08 => un .vneg
  | 0x09 => bin .vand
  | 0x0A => bin .vor
  | 0x0B => bin .vxor
  | 0x0C => bin .vshl
  | 0x0D => bin .vshr
  | 0x0E => bin .vsar
  | 0x0F => bin .vceq
  | 0x10 => bin .vclt
  | 0x11 => bin .vcle
  | 0x12 => bin .vsel
  | 0x13 => ctl .vcvt
  | 0x14 => ctl .vwid
  | 0x15 => if field f2 7 7 = 0 then .ok (.vnar u (BitVec.ofNat 5 (field f2 4 0)) (BitVec.ofNat 2 (field f2 6 5))) else .rsvd
  | 0x16 => bin .vperm
  | 0x17 => bin .vrot
  | 0x18 => bin .vbcast
  | 0x19 => un .vradd
  | 0x1A => un .vrmax
  | 0x1B => un .vrmin
  | 0x1C => un .vscan
  | 0x1D => bin .vidx
  | 0x20 => un .vrcp
  | 0x21 => un .vrsq
  | 0x22 => un .vexp2
  | 0x23 => un .vlog2
  | 0x24 => un .vtanh
  | 0x25 => un .vsigm
  | 0x26 => un .vsqrt
  | 0x28 => bin .vscale
  | 0x29 => bin .vscidx
  | 0x2A => bin .vadds
  | 0x2B => bin .vsubs
  | 0x2C => bin .vmulh
  | 0x2D => bin .vmulhn
  | _ => .undef

/-- An operation standing in a unit that may not execute it raises OPC_UNDEF (R52). -/
def unitPlace (i : Instr) (k : CUnit) : Bool :=
  (!i.unitAOnly || decide (k = .a)) && (!i.unitCOnly || decide (k = .c))

/-- The unit's part of a decoded V slot, with the place rule of R52. -/
def decUnitAt (op f2 : Nat) (u : VPos) : Dec Instr :=
  match decUnit op f2 u with
  | .ok i => if unitPlace i u.unit then .ok i else .undef
  | .undef => .undef
  | .rsvd =>
    -- the opcode is assigned; its place still comes first (R57, lowest code)
    if (0x16 ≤ op ∧ op ≤ 0x1C ∧ u.unit ≠ .a) ∨ (0x20 ≤ op ∧ op ≤ 0x26 ∧ u.unit ≠ .c) then .undef else .rsvd

/-- The opcode of a unit is assigned and stands where it may (R52, R57). -/
def unitOpc (op : Nat) (k : CUnit) : Bool :=
  match decUnitAt op 0 ⟨k, .vq 0, .queue, 0⟩ with
  | .undef => false
  | _ => true

/-- A V slot: the operations of units A, B and C. -/
def decV (w : Nat) : Dec (Instr × Instr × Instr) :=
  if unitOpc (field w 63 58) .a = true ∧ unitOpc (field w 57 52) .b = true ∧ unitOpc (field w 51 46) .c = true then
    match vsrc (field w 45 38), vdest (field w 13 6) with
    | some a1, some d =>
      let u : CUnit → VPos := fun k => ⟨k, a1, d, BitVec.ofNat 4 (field w 5 2)⟩
      match decUnitAt (field w 63 58) (field w 37 30) (u .a), decUnitAt (field w 57 52) (field w 29 22) (u .b),
        decUnitAt (field w 51 46) (field w 21 14) (u .c) with
      | .ok a, .ok b, .ok c => if field w 1 0 = 0 ∧ vslotWf a b c = true then .ok (a, b, c) else .rsvd
      | _, _, _ => .rsvd
    | _, _ => .rsvd
  else .undef

/-! ### E slot (R35, R54) -/

/-- The counter operand of CWAIT, CADD and CSET (R306). -/
def decCtrArg (w : Nat) : Option CtrArg :=
  if field w 45 45 = 1 then do
    need (field w 51 46 = 0)
    some (.imm (BitVec.ofNat 32 (field w 44 13)))
  else do
    need (field w 44 13 = 0)
    let a ← ssrc (field w 51 46)
    some (.src a)

/-- The fields of an SC operation (R266). -/
def decSc (w : Nat) (mk : ScF → Instr) : Option Instr := do
  let a ← ssrc (field w 57 52)
  let v ← ssrc (field w 51 46)
  let x ← ssrc (field w 45 40)
  need (field w 38 36 = 0)
  need (field w 23 0 = 0)
  some (mk ⟨a, v, x, field w 39 39 = 1, BitVec.ofNat 12 (field w 35 24)⟩)

/-- A ring instruction (R310). -/
def decRing (w : Nat) (mk : BitVec 4 → BitVec 13 → Instr) : Option Instr := do
  need (field w 40 0 = 0)
  some (mk (BitVec.ofNat 4 (field w 57 54)) (BitVec.ofNat 13 (field w 53 41)))

/-- Two scalar sources at [57:52] and [51:46], the rest zero. -/
def decE2 (w : Nat) (mk : SSrc → SSrc → Instr) : Option Instr := do
  let a ← ssrc (field w 57 52)
  let b ← ssrc (field w 51 46)
  need (field w 45 0 = 0)
  some (mk a b)

/-- One scalar source at [57:52], the rest zero. -/
def decE1 (w : Nat) (mk : SSrc → Instr) : Option Instr := do
  let a ← ssrc (field w 57 52)
  need (field w 51 0 = 0)
  some (mk a)

/-- No field. -/
def decE0 (w : Nat) (i : Instr) : Option Instr := do
  need (field w 57 0 = 0)
  some i

/-- An E slot double word. -/
def decE (w : Nat) : Dec Instr :=
  match field w 63 58 with
  | 0x00 => .check (do
      let a ← ssrc (field w 57 52)
      let b ← ssrc (field w 51 46)
      let c ← ssrc (field w 45 40)
      let sa ← ssrc (field w 39 34)
      let sb ← ssrc (field w 33 28)
      let x ← vsrc (field w 27 20)
      need (field w 19 0 = 0)
      some (.mxgo ⟨a, b, c, sa, sb, x⟩))
  | 0x01 => .check (decE0 w .mxstop)
  | 0x04 => .check (do
      need (field w 43 0 = 0)
      let s ← ssrc (field w 56 51)
      if field w 57 57 = 1 then some (.acalloc (some (BitVec.ofNat 7 (field w 50 44))) s)
      else do
        need (field w 50 44 = 0)
        some (.acalloc none s))
  | 0x05 => .check (decE1 w .acfree)
  | 0x06 => .check (do
      let a ← ssrc (field w 57 52)
      need (field w 26 0 = 0)
      some (.acband ⟨a, BitVec.ofNat 2 (field w 51 50), field w 49 49 = 1, BitVec.ofNat 6 (field w 48 43),
        BitVec.ofNat 7 (field w 42 36), BitVec.ofNat 2 (field w 35 34), BitVec.ofNat 6 (field w 33 28),
        field w 27 27 = 1⟩))
  | 0x07 => .check (do
      let a ← ssrc (field w 57 52)
      need (field w 47 0 = 0)
      some (.aczero a (BitVec.ofNat 2 (field w 51 50)) (BitVec.ofNat 2 (field w 49 48))))
  | 0x08 => .check (decE1 w .vgtab)
  | 0x09 => .check (do
      let d ← vsrc (field w 57 50)
      let x ← ssrc (field w 49 44)
      let c ← ssrc (field w 43 38)
      need (field w 23 23 = 0)
      need (field w 7 0 = 0)
      some (.vggo ⟨d, x, c, BitVec.ofNat 6 (field w 37 32), BitVec.ofNat 2 (field w 31 30),
        BitVec.ofNat 6 (field w 29 24), BitVec.ofNat 15 (field w 22 8)⟩))
  | 0x0A => .check (decE0 w .vgstop)
  | 0x0C => .check (do
      let h ← ssrc (field w 57 52)
      need (field w 45 0 = 0)
      some (.cpgo h (BitVec.ofNat 6 (field w 51 46))))
  | 0x0D => .check (do
      need (field w 51 0 = 0)
      some (.cpstop (BitVec.ofNat 6 (field w 57 52))))
  | 0x10 => .check (do
      let x ← decCtrArg w
      need (field w 12 0 = 0)
      some (.cwait (BitVec.ofNat 6 (field w 57 52)) x))
  | 0x11 => .check (do
      let x ← decCtrArg w
      need (field w 12 0 = 0)
      some (.cadd (BitVec.ofNat 6 (field w 57 52)) x))
  | 0x12 => .check (do
      let x ← decCtrArg w
      need (field w 11 0 = 0)
      some (.cset (BitVec.ofNat 6 (field w 57 52)) x (field w 12 12 = 1)))
  | 0x13 => .check (do
      need (field w 51 13 = 0)
      need (field w 10 0 = 0)
      some (.crd (BitVec.ofNat 6 (field w 57 52)) (BitVec.ofNat 2 (field w 12 11))))
  | 0x14 => .check (do
      let b ← ssrc (field w 41 36)
      need (field w 22 0 = 0)
      need (field w 35 23 < 4096)
      some (.rbind (BitVec.ofNat 4 (field w 57 54)) (BitVec.ofNat 6 (field w 53 48)) (BitVec.ofNat 6 (field w 47 42)) b
        (BitVec.ofNat 12 (field w 35 23))))
  | 0x15 => .check (decRing w .rwaitf)
  | 0x16 => .check (decRing w .rwaite)
  | 0x17 => .check (decRing w .radvp)
  | 0x18 => .check (decRing w .radvc)
  | 0x1A => .check (do
      need (field w 48 0 = 0)
      some (.fence (BitVec.ofNat 3 (field w 57 55)) (BitVec.ofNat 3 (field w 54 52)) (BitVec.ofNat 3 (field w 51 49))))
  | 0x1C => .check (decSc w .scld)
  | 0x1D => .check (decSc w .scst)
  | 0x1E => .check (decSc w .scswp)
  | 0x1F => .check (decSc w .scadd)
  | 0x20 => .check (decSc w .sccas)
  | 0x24 => .check (decE2 w .snap)
  | 0x25 => .check (do
      need (field w 57 52 = 0)
      need (field w 49 0 = 0)
      some (.snapq (BitVec.ofNat 2 (field w 51 50))))
  | 0x26 => .check (decE1 w .ckwait)
  | 0x27 => .check (decE2 w .rollbk)
  | 0x28 => .check (do
      need (field w 45 0 = 0)
      some (.katgo (BitVec.ofNat 4 (field w 57 54)) (BitVec.ofNat 8 (field w 53 46))))
  | 0x29 => .check (decE0 w .katcmp)
  | 0x2C => .check (do
      let a ← ssrc (field w 57 52)
      need (field w 45 0 = 0)
      some (.tlaunch a (BitVec.ofNat 6 (field w 51 46))))
  | 0x30 => .check (do
      need (field w 57 52 = 0)
      need (field w 36 0 = 0)
      some (.sysrd (BitVec.ofNat 12 (field w 51 40)) (field w 39 39 = 1) (BitVec.ofNat 2 (field w 38 37))))
  | 0x31 => .check (do
      let s ← ssrc (field w 57 52)
      need (field w 36 0 = 0)
      some (.syswr ⟨BitVec.ofNat 12 (field w 51 40), field w 39 39 = 1⟩ s (BitVec.ofNat 2 (field w 38 37))))
  | 0x32 => .check (do
      let a ← ssrc (field w 57 52)
      need (field w 47 0 = 0)
      some (.tlbinv a (BitVec.ofNat 2 (field w 51 50)) (BitVec.ofNat 2 (field w 49 48))))
  | 0x33 => .check (do
      let a ← ssrc (field w 57 52)
      need (field w 48 0 = 0)
      some (.codeinv a (BitVec.ofNat 2 (field w 51 50)) (field w 49 49 = 1)))
  | 0x34 => .check (do
      let m ← ssrc (field w 57 52)
      let t ← ssrc (field w 51 46)
      need (field w 44 0 = 0)
      some (.zerob t m (field w 45 45 = 1)))
  | 0x35 => .check (decE1 w .capq)
  | _ => .undef

/-! ### Bundles (R25 to R27) -/

/-- A bundle header. -/
structure BundleHead where
  delta : Nat
  mask : Nat
  y : Bool
  run : Nat
  /-- A reserved bit or a wrong run field (R26). -/
  bad : Bool
  deriving DecidableEq, Repr

/-- The fields of a header word (R25, R26). -/
def decHead (w : Nat) : BundleHead :=
  let y := decide (field w 17 17 = 1)
  let run := field w 11 0
  ⟨field w 31 26, field w 25 18, y, run,
    decide (field w 16 12 ≠ 0) || (!y && decide (run ≠ 0)) || (y && decide (run = 0))⟩

/-- The slots of a mask in storage order, with their words (R25, R27). -/
def maskSlots (m : Nat) : List (Slot × Nat) :=
  (if m.testBit 7 then [(.s0, 1)] else []) ++ (if m.testBit 6 then [(.s1, 1)] else [])
    ++ (if m.testBit 5 then [(.b, 1)] else []) ++ (if m.testBit 4 then [(.m, 1)] else [])
    ++ (if m.testBit 3 then [(.v, 2)] else []) ++ (if m.testBit 2 then [(.x, 1)] else [])
    ++ (if m.testBit 1 then [(.e, 2)] else []) ++ (if m.testBit 0 then [(.c, 1)] else [])

/-- Words a bundle takes, by its header: 2 for an idle bundle (R27). -/
def bundleLen (w : Nat) : Nat :=
  let m := (decHead w).mask
  if m = 0 then 2 else 1 + ((maskSlots m).map Prod.snd).sum

/-- One operation as a list. -/
def Dec.single (d : Dec Instr) : Dec (List Instr) :=
  match d with
  | .ok i => .ok [i]
  | .undef => .undef
  | .rsvd => .rsvd

/-- The operations of a slot from its bits. -/
def decSlot (k : Slot) (w : Nat) : Dec (List Instr) :=
  match k with
  | .s0 => (decS w).single
  | .s1 => (decS w).single
  | .b => (decB w).single
  | .m => (decM w).single
  | .v =>
    match decV w with
    | .ok (a, b, c) => .ok [a, b, c]
    | .undef => .undef
    | .rsvd => .rsvd
  | .x => decX w
  | .e => (decE w).single
  | .c => (decC w).single
  | .hdr => if w = 0 then .ok [.idleBundle] else .rsvd

/-- The slots of a bundle from the words after its header. -/
def decSlots : List (Slot × Nat) → List (BitVec 32) → List (Slot × Dec (List Instr))
  | [], _ => []
  | (k, 2) :: l, lo :: hi :: ws => (k, decSlot k (lo.toNat + 2 ^ 32 * hi.toNat)) :: decSlots l ws
  | (k, _) :: l, w :: ws => (k, decSlot k w.toNat) :: decSlots l ws
  | (k, _) :: _, [] => [(k, .rsvd)]

/-- The words of the slots of a bundle, undecoded. -/
def slotWords : List (Slot × Nat) → List (BitVec 32) → List (Slot × Nat)
  | [], _ => []
  | (k, 2) :: l, lo :: hi :: ws => (k, lo.toNat + 2 ^ 32 * hi.toNat) :: slotWords l ws
  | (k, _) :: l, w :: ws => (k, w.toNat) :: slotWords l ws
  | _ :: _, [] => []

/-- The bundle's E slot holds an SC operation by its op, whatever its other fields hold (R265, R266). -/
def scBundle (ws : List (BitVec 32)) : Bool :=
  match ws with
  | [] => false
  | h :: rest => (slotWords (maskSlots (decHead h.toNat).mask) rest).any (fun p =>
      decide (p.1 = .e ∧ 0x1C ≤ p.2 / 2 ^ 58 ∧ p.2 / 2 ^ 58 ≤ 0x20))

/-- A bundle's slots; an idle bundle has its idle word in the header's place (R27). -/
def decBundle (ws : List (BitVec 32)) : List (Slot × Dec (List Instr)) :=
  match ws with
  | [] => []
  | h :: rest =>
    let m := (decHead h.toNat).mask
    if m = 0 then decSlots [(.hdr, 1)] rest else decSlots (maskSlots m) rest

/-- The bundle that holds one operation of a slot, with delta 0: its header and the slot's words. -/
def oneSlotBundle (k : Slot) (w : Nat) : List (BitVec 32) :=
  let bit : Nat :=
    match k with
    | .s0 => 25
    | .s1 => 24
    | .b => 23
    | .m => 22
    | .v => 21
    | .x => 20
    | .e => 19
    | .c => 18
    | .hdr => 0
  match k with
  | .hdr => [0, 0]
  | .v => [BitVec.ofNat 32 (2 ^ bit), BitVec.ofNat 32 w, BitVec.ofNat 32 (w / 2 ^ 32)]
  | .e => [BitVec.ofNat 32 (2 ^ bit), BitVec.ofNat 32 w, BitVec.ofNat 32 (w / 2 ^ 32)]
  | _ => [BitVec.ofNat 32 (2 ^ bit), BitVec.ofNat 32 w]

/-! ### Copy entries (R56, R277) -/

/-- The fields of a 32-byte entry, read as one little-endian number. -/
def decCopyF (w : Nat) : CopyF :=
  { flags := BitVec.ofNat 8 (field w 15 8), aux := BitVec.ofNat 16 (field w 31 16),
    len := BitVec.ofNat 32 (field w 63 32), src := BitVec.ofNat 64 (field w 127 64),
    dst := BitVec.ofNat 64 (field w 191 128), hsrc := BitVec.ofNat 32 (field w 223 192),
    hdst := BitVec.ofNat 32 (field w 255 224) }

/-- The command of a chain entry; an unassigned code is none. -/
def decCopy (ch : Nat) (w : Nat) : Option Instr :=
  match field w 7 0 with
  | 0x01 => some (.cmov ch (decCopyF w))
  | 0x02 => some (.cconv ch (decCopyF w))
  | 0x03 => some (.cexp ch (decCopyF w))
  | 0x04 => some (.ccomp ch (decCopyF w))
  | 0x05 => some (.cdec ch (decCopyF w))
  | 0x06 => some (.cenc ch (decCopyF w))
  | 0x07 => some (.catom ch (decCopyF w))
  | 0x08 => some (.czero ch (decCopyF w))
  | 0x09 => some (.cloop ch (decCopyF w))
  | 0x0A => some (.cif ch (decCopyF w))
  | 0x0B => some (.csig ch (decCopyF w))
  | 0x0C => some (.ccw ch (decCopyF w))
  | 0x0D => some (.clink ch (decCopyF w))
  | 0x0E => some (.cend ch (decCopyF w))
  | _ => none

/-! ### The encoder -/

/-- The specifier of a scalar source (R37). -/
def encSSrc : SSrc → Nat
  | .q n => n.toNat
  | .k n => 0x10 + n.toNat
  | .imm => 0x20
  | .zero => 0x21
  | .tile => 0x22
  | .die => 0x23
  | .seq => 0x24
  | .gclk => 0x25
  | .lidx n => 0x26 + n.val

/-- A scalar destination's field (R39). -/
def encSDest : SDest → Nat
  | .queue => 0
  | .keep n => 0x10 + n.toNat

/-- The specifier of a vector source (R38). -/
def encVSrc : VSrc → Nat
  | .vq n => n.toNat
  | .w n => 0x10 + n.toNat
  | .xb => 0x90
  | .lane => 0x91
  | .zero => 0x92
  | .one => 0x93
  | .neg => 0x94
  | .maxf => 0x95
  | .half => 0x96
  | .ones => 0x97

/-- A vector destination's field (R39). -/
def encVDest : VDest → Nat
  | .queue => 0xFF
  | .w n => 0x10 + n.toNat
  | .pred n => 0xF0 + n.toNat

/-- The control value of a FCMP condition (R94). -/
def encFCond : FCond → Nat
  | .eq => 0
  | .lt => 1
  | .le => 2
  | .un => 3
  | .ne => 4

/-- The control value of a FCVT conversion (R95). -/
def encFKind : FKind → Nat
  | .toS64 => 0
  | .toN64 => 1
  | .ofS64 => 2
  | .ofN64 => 3
  | .other => 4

/-- The S slot word of its five fields (R30). -/
def wordS (op a b d i : Nat) : Nat := op * 2 ^ 26 + a * 2 ^ 20 + b * 2 ^ 14 + d * 2 ^ 9 + i

/-- The S slot word of an instruction. -/
def encS : Instr → Option Nat
  | .mov a d i => some (wordS 0x00 (encSSrc a) 0 (encSDest d) i.toNat)
  | .addsh a b d sh => some (wordS 0x03 (encSSrc a) (encSSrc b) (encSDest d) sh.toNat)
  | .sel a b d c => some (wordS 0x1D (encSSrc a) (encSSrc b) (encSDest d) (encSSrc c))
  | .fcmp a b d k c => some (wordS 0x2C (encSSrc a) (encSSrc b) (encSDest d) (k.toNat * 2 ^ 8 + encFCond c))
  | .fcvt a d k c => some (wordS 0x2D (encSSrc a) 0 (encSDest d) (k.toNat * 2 ^ 8 + encFKind c))
  | .fsqrt a d k => some (wordS 0x2E (encSSrc a) 0 (encSDest d) (k.toNat * 2 ^ 8))
  | .chdl a d o => some (wordS 0x30 (encSSrc a) 0 (encSDest d) o.toNat)
  | .madd a b d c => some (wordS 0x38 (encSSrc a) (encSSrc b) (encSDest d) (encSSrc c))
  | .add a b d i => some (wordS 0x01 (encSSrc a) (encSSrc b) (encSDest d) i.toNat)
  | .sub a b d i => some (wordS 0x02 (encSSrc a) (encSSrc b) (encSDest d) i.toNat)
  | .mul a b d i => some (wordS 0x04 (encSSrc a) (encSSrc b) (encSDest d) i.toNat)
  | .mulh a b d i => some (wordS 0x05 (encSSrc a) (encSSrc b) (encSDest d) i.toNat)
  | .mulhn a b d i => some (wordS 0x06 (encSSrc a) (encSSrc b) (encSDest d) i.toNat)
  | .div a b d i => some (wordS 0x07 (encSSrc a) (encSSrc b) (encSDest d) i.toNat)
  | .divn a b d i => some (wordS 0x08 (encSSrc a) (encSSrc b) (encSDest d) i.toNat)
  | .rem a b d i => some (wordS 0x09 (encSSrc a) (encSSrc b) (encSDest d) i.toNat)
  | .remn a b d i => some (wordS 0x0A (encSSrc a) (encSSrc b) (encSDest d) i.toNat)
  | .and a b d i => some (wordS 0x0B (encSSrc a) (encSSrc b) (encSDest d) i.toNat)
  | .or a b d i => some (wordS 0x0C (encSSrc a) (encSSrc b) (encSDest d) i.toNat)
  | .xor a b d i => some (wordS 0x0D (encSSrc a) (encSSrc b) (encSDest d) i.toNat)
  | .andn a b d i => some (wordS 0x0E (encSSrc a) (encSSrc b) (encSDest d) i.toNat)
  | .shl a b d i => some (wordS 0x0F (encSSrc a) (encSSrc b) (encSDest d) i.toNat)
  | .shr a b d i => some (wordS 0x10 (encSSrc a) (encSSrc b) (encSDest d) i.toNat)
  | .sar a b d i => some (wordS 0x11 (encSSrc a) (encSSrc b) (encSDest d) i.toNat)
  | .rol a b d i => some (wordS 0x12 (encSSrc a) (encSSrc b) (encSDest d) i.toNat)
  | .min a b d i => some (wordS 0x13 (encSSrc a) (encSSrc b) (encSDest d) i.toNat)
  | .max a b d i => some (wordS 0x14 (encSSrc a) (encSSrc b) (encSDest d) i.toNat)
  | .minn a b d i => some (wordS 0x15 (encSSrc a) (encSSrc b) (encSDest d) i.toNat)
  | .maxn a b d i => some (wordS 0x16 (encSSrc a) (encSSrc b) (encSDest d) i.toNat)
  | .seq a b d i => some (wordS 0x17 (encSSrc a) (encSSrc b) (encSDest d) i.toNat)
  | .sne a b d i => some (wordS 0x18 (encSSrc a) (encSSrc b) (encSDest d) i.toNat)
  | .slt a b d i => some (wordS 0x19 (encSSrc a) (encSSrc b) (encSDest d) i.toNat)
  | .sltn a b d i => some (wordS 0x1A (encSSrc a) (encSSrc b) (encSDest d) i.toNat)
  | .sle a b d i => some (wordS 0x1B (encSSrc a) (encSSrc b) (encSDest d) i.toNat)
  | .slen a b d i => some (wordS 0x1C (encSSrc a) (encSSrc b) (encSDest d) i.toNat)
  | .ext a b d i => some (wordS 0x21 (encSSrc a) (encSSrc b) (encSDest d) i.toNat)
  | .extn a b d i => some (wordS 0x22 (encSSrc a) (encSSrc b) (encSDest d) i.toNat)
  | .dep a b d i => some (wordS 0x23 (encSSrc a) (encSSrc b) (encSDest d) i.toNat)
  | .clz a d => some (wordS 0x1E (encSSrc a) 0 (encSDest d) 0)
  | .ctz a d => some (wordS 0x1F (encSSrc a) 0 (encSDest d) 0)
  | .popc a d => some (wordS 0x20 (encSSrc a) 0 (encSDest d) 0)
  | .bswap a d => some (wordS 0x24 (encSSrc a) 0 (encSDest d) 0)
  | .fadd a b d k => some (wordS 0x26 (encSSrc a) (encSSrc b) (encSDest d) (k.toNat * 2 ^ 8))
  | .fsub a b d k => some (wordS 0x27 (encSSrc a) (encSSrc b) (encSDest d) (k.toNat * 2 ^ 8))
  | .fmul a b d k => some (wordS 0x28 (encSSrc a) (encSSrc b) (encSDest d) (k.toNat * 2 ^ 8))
  | .fdiv a b d k => some (wordS 0x29 (encSSrc a) (encSSrc b) (encSDest d) (k.toNat * 2 ^ 8))
  | .fmin a b d k => some (wordS 0x2A (encSSrc a) (encSSrc b) (encSDest d) (k.toNat * 2 ^ 8))
  | .fmax a b d k => some (wordS 0x2B (encSSrc a) (encSSrc b) (encSDest d) (k.toNat * 2 ^ 8))
  | _ => none

/-- The C slot word of an instruction. -/
def encC : Instr → Option Nat
  | .lit l => some l.toNat
  | .lith l => some (0x01 * 2 ^ 26 + l.toNat)
  | .sclset e c => some (0x02 * 2 ^ 26 + e.toNat * 2 ^ 22 + c.toNat * 2 ^ 13)
  | .sclsetSource e s => some (0x02 * 2 ^ 26 + e.toNat * 2 ^ 22 + 2 ^ 21 + encSSrc s * 2 ^ 7)
  | .nset l f v => some (0x03 * 2 ^ 26 + l.toNat * 2 ^ 23 + f.toNat * 2 ^ 21 + v.toNat)
  | .nsetSource l f s => some (0x03 * 2 ^ 26 + l.toNat * 2 ^ 23 + f.toNat * 2 ^ 21 + 2 ^ 20 + encSSrc s * 2 ^ 14)
  | .mxcfgFmt a b g => some (0x04 * 2 ^ 26 + a.toNat * 2 ^ 20 + b.toNat * 2 ^ 16 + g.toNat * 2 ^ 15)
  | .mxcfgPa p => some (0x04 * 2 ^ 26 + 2 ^ 24 + p.toNat)
  | .mxcfgPb p => some (0x04 * 2 ^ 26 + 2 * 2 ^ 24 + p.toNat)
  | .vtag r t => some (0x05 * 2 ^ 26 + (0x10 + r.toNat) * 2 ^ 18 + t.toNat * 2 ^ 13)
  | .tmode m => some (0x06 * 2 ^ 26 + m.toNat * 2 ^ 24)
  | .katk v => some (0x07 * 2 ^ 26 + v.toNat)
  | .pset d m pa pb n =>
      some (0x08 * 2 ^ 26 + d.toNat * 2 ^ 23 + m.toNat * 2 ^ 20 + pa.toNat * 2 ^ 17 + pb.toNat * 2 ^ 14 + n.toNat)
  | _ => none

/-- The B slot word of its four fields (R31). -/
def wordB (op s o x : Nat) : Nat := op * 2 ^ 27 + s * 2 ^ 21 + o * 2 ^ 9 + x

/-- The B slot word of an instruction. -/
def encB : Instr → Option Nat
  | .br o => some (wordB 0x00 0 o.toNat 0)
  | .brz s o => some (wordB 0x01 (encSSrc s) o.toNat 0)
  | .brnz s o => some (wordB 0x02 (encSSrc s) o.toNat 0)
  | .brx s => some (wordB 0x03 (encSSrc s) 0 0)
  | .call o => some (wordB 0x04 0 o.toNat 0)
  | .callx s => some (wordB 0x05 (encSSrc s) 0 0)
  | .ret s => some (wordB 0x06 (encSSrc s) 0 0)
  | .loop s o => some (wordB 0x07 (encSSrc s) o.toNat 0)
  | .loopi n o => some (wordB 0x08 0 o.toNat n.toNat)
  | .leave s o n => some (wordB 0x09 (encSSrc s) o.toNat n.toNat)
  | .realn m => some (wordB 0x0A 0 0 m.toNat)
  | .trap s c => some (wordB 0x0B (encSSrc s) 0 c.toNat)
  | .eret => some (wordB 0x0C 0 0 0)
  | .texit => some (wordB 0x0D 0 0 0)
  | .brk c => some (wordB 0x0E 0 0 c.toNat)
  | _ => none

/-- The M slot word of its four fields (R32). -/
def wordM (op a d o : Nat) : Nat := op * 2 ^ 26 + a * 2 ^ 20 + d * 2 ^ 12 + o

/-- The M slot word of an instruction. -/
def encM : Instr → Option Nat
  | .ldb a d o => some (wordM 0x00 (encSSrc a) (encSDest d) o.toNat)
  | .ldbn a d o => some (wordM 0x01 (encSSrc a) (encSDest d) o.toNat)
  | .ldh a d o => some (wordM 0x02 (encSSrc a) (encSDest d) o.toNat)
  | .ldhn a d o => some (wordM 0x03 (encSSrc a) (encSDest d) o.toNat)
  | .ldw a d o => some (wordM 0x04 (encSSrc a) (encSDest d) o.toNat)
  | .ldwn a d o => some (wordM 0x05 (encSSrc a) (encSDest d) o.toNat)
  | .ldd a d o => some (wordM 0x06 (encSSrc a) (encSDest d) o.toNat)
  | .stb a s o => some (wordM 0x07 (encSSrc a) (encSSrc s) o.toNat)
  | .sth a s o => some (wordM 0x08 (encSSrc a) (encSSrc s) o.toNat)
  | .stw a s o => some (wordM 0x09 (encSSrc a) (encSSrc s) o.toNat)
  | .std a s o => some (wordM 0x0A (encSSrc a) (encSSrc s) o.toNat)
  | .ldv a d t o => some (wordM 0x0B (encSSrc a) (encVDest d) (t.toNat * 2 ^ 7 + o.toNat))
  | .stv a v o => some (wordM 0x0C (encSSrc a) (encVSrc v) o.toNat)
  | .stvm a v p o => some (wordM 0x0D (encSSrc a) (encVSrc v) (p.toNat * 2 ^ 9 + o.toNat))
  | .ldvs a d t k => some (wordM 0x0E (encSSrc a) (encVDest d) (t.toNat * 2 ^ 7 + k.toNat))
  | .stvs a v k => some (wordM 0x0F (encSSrc a) (encVSrc v) k.toNat)
  | .lda a d o => some (wordM 0x10 (encSSrc a) (encVDest d) o.toNat)
  | .sta a v o => some (wordM 0x11 (encSSrc a) (encVSrc v) o.toNat)
  | .staa a v o => some (wordM 0x12 (encSSrc a) (encVSrc v) o.toNat)
  | .ldpair a o => some (wordM 0x3E (encSSrc a) 0 o.toNat)
  | .stpair a s o => some (wordM 0x3F (encSSrc a) (encSSrc s) o.toNat)
  | _ => none

/-- The upper half of an X slot word (R34). -/
def encXs : Instr → Option Nat
  | .xbc a t => some (1 * 2 ^ 28 + encSSrc a * 2 ^ 22 + t.toNat * 2 ^ 16)
  | .xins a g => some (2 * 2 ^ 28 + encSSrc a * 2 ^ 22 + g.toNat * 2 ^ 16)
  | _ => none

/-- The lower half of an X slot word (R34). -/
def encXv : Instr → Option Nat
  | .xext v e => some (1 * 2 ^ 12 + encVSrc v * 2 ^ 4 + e.toNat)
  | .xsum v => some (2 * 2 ^ 12 + encVSrc v * 2 ^ 4)
  | .xmax v => some (3 * 2 ^ 12 + encVSrc v * 2 ^ 4)
  | .xmsk v h => some (4 * 2 ^ 12 + encVSrc v * 2 ^ 4 + h.toNat)
  | _ => none

/-- An X slot word with one half used. -/
def encX (i : Instr) : Option Nat := (encXs i).or (encXv i)

/-- The opcode and the second field of a unit operation (R52). -/
def encUnit : Instr → Option (Nat × Nat)
  | .pass _ => some (0x00, 0)
  | .vadd _ y => some (0x01, encVSrc y)
  | .vsub _ y => some (0x02, encVSrc y)
  | .vrsub _ y => some (0x03, encVSrc y)
  | .vmul _ y => some (0x04, encVSrc y)
  | .vmin _ y => some (0x05, encVSrc y)
  | .vmax _ y => some (0x06, encVSrc y)
  | .vabs _ => some (0x07, 0)
  | .vneg _ => some (0x08, 0)
  | .vand _ y => some (0x09, encVSrc y)
  | .vor _ y => some (0x0A, encVSrc y)
  | .vxor _ y => some (0x0B, encVSrc y)
  | .vshl _ y => some (0x0C, encVSrc y)
  | .vshr _ y => some (0x0D, encVSrc y)
  | .vsar _ y => some (0x0E, encVSrc y)
  | .vceq _ y => some (0x0F, encVSrc y)
  | .vclt _ y => some (0x10, encVSrc y)
  | .vcle _ y => some (0x11, encVSrc y)
  | .vsel _ y => some (0x12, encVSrc y)
  | .vcvt _ t => some (0x13, t.toNat)
  | .vwid _ t => some (0x14, t.toNat)
  | .vnar _ t p => some (0x15, p.toNat * 2 ^ 5 + t.toNat)
  | .vperm _ y => some (0x16, encVSrc y)
  | .vrot _ y => some (0x17, encVSrc y)
  | .vbcast _ y => some (0x18, encVSrc y)
  | .vradd _ => some (0x19, 0)
  | .vrmax _ => some (0x1A, 0)
  | .vrmin _ => some (0x1B, 0)
  | .vscan _ => some (0x1C, 0)
  | .vidx _ y => some (0x1D, encVSrc y)
  | .vrcp _ => some (0x20, 0)
  | .vrsq _ => some (0x21, 0)
  | .vexp2 _ => some (0x22, 0)
  | .vlog2 _ => some (0x23, 0)
  | .vtanh _ => some (0x24, 0)
  | .vsigm _ => some (0x25, 0)
  | .vsqrt _ => some (0x26, 0)
  | .vscale _ y => some (0x28, encVSrc y)
  | .vscidx _ y => some (0x29, encVSrc y)
  | .vadds _ y => some (0x2A, encVSrc y)
  | .vsubs _ y => some (0x2B, encVSrc y)
  | .vmulh _ y => some (0x2C, encVSrc y)
  | .vmulhn _ y => some (0x2D, encVSrc y)
  | _ => none

/-- The V slot double word of three unit operations that stand together (R33). -/
def encV (a b c : Instr) : Option Nat :=
  match encUnit a, encUnit b, encUnit c, a.vpos with
  | some (oa, fa), some (ob, fb), some (oc, fc), some u =>
    some (oa * 2 ^ 58 + ob * 2 ^ 52 + oc * 2 ^ 46 + encVSrc u.a1 * 2 ^ 38 + fa * 2 ^ 30 + fb * 2 ^ 22 + fc * 2 ^ 14
      + encVDest u.dest * 2 ^ 6 + u.pred.toNat * 2 ^ 2)
  | _, _, _, _ => none

/-- The V slot of one unit operation, the other units PASS. -/
def encVAlone (i : Instr) : Option Nat :=
  match i.vpos with
  | some u =>
    let p : CUnit → Instr := fun k => .pass ⟨k, u.a1, u.dest, u.pred⟩
    match u.unit with
    | .a => encV i (p .b) (p .c)
    | .b => encV (p .a) i (p .c)
    | .c => encV (p .a) (p .b) i
  | none => none

/-- The fields of CWAIT, CADD and CSET after the counter (R306). -/
def encCtrArg : CtrArg → Nat
  | .imm x => 2 ^ 45 + x.toNat * 2 ^ 13
  | .src a => encSSrc a * 2 ^ 46

/-- The E slot of an SC operation (R266). -/
def encSc (op : Nat) (f : ScF) : Nat :=
  op * 2 ^ 58 + encSSrc f.addr * 2 ^ 52 + encSSrc f.value * 2 ^ 46 + encSSrc f.expect * 2 ^ 40 + f.w.toNat * 2 ^ 39
    + f.off.toNat * 2 ^ 24

/-- The E slot double word of an instruction. -/
def encE : Instr → Option Nat
  | .mxgo f => some (encSSrc f.a * 2 ^ 52 + encSSrc f.b * 2 ^ 46 + encSSrc f.c * 2 ^ 40 + encSSrc f.sa * 2 ^ 34
      + encSSrc f.sb * 2 ^ 28 + encVSrc f.x * 2 ^ 20)
  | .mxstop => some (0x01 * 2 ^ 58)
  | .acalloc n s => (match n with
      | some k => some (0x04 * 2 ^ 58 + 2 ^ 57 + encSSrc s * 2 ^ 51 + k.toNat * 2 ^ 44)
      | none => some (0x04 * 2 ^ 58 + encSSrc s * 2 ^ 51))
  | .acfree s => some (0x05 * 2 ^ 58 + encSSrc s * 2 ^ 52)
  | .acband f => some (0x06 * 2 ^ 58 + encSSrc f.addr * 2 ^ 52 + f.entry.toNat * 2 ^ 50 + f.valid.toNat * 2 ^ 49
      + f.lo.toNat * 2 ^ 43 + f.cnt.toNat * 2 ^ 36 + f.die.toNat * 2 ^ 34 + f.tile.toNat * 2 ^ 28
      + f.seq.toNat * 2 ^ 27)
  | .aczero a fmt n => some (0x07 * 2 ^ 58 + encSSrc a * 2 ^ 52 + fmt.toNat * 2 ^ 50 + n.toNat * 2 ^ 48)
  | .vgtab a => some (0x08 * 2 ^ 58 + encSSrc a * 2 ^ 52)
  | .vggo f => some (0x09 * 2 ^ 58 + encVSrc f.d * 2 ^ 50 + encSSrc f.x * 2 ^ 44 + encSSrc f.c * 2 ^ 38
      + f.ctr.toNat * 2 ^ 32 + f.fmt.toNat * 2 ^ 30 + f.nb.toNat * 2 ^ 24 + f.kmax.toNat * 2 ^ 8)
  | .vgstop => some (0x0A * 2 ^ 58)
  | .cpgo h c => some (0x0C * 2 ^ 58 + encSSrc h * 2 ^ 52 + c.toNat * 2 ^ 46)
  | .cpstop c => some (0x0D * 2 ^ 58 + c.toNat * 2 ^ 52)
  | .cwait c x => some (0x10 * 2 ^ 58 + c.toNat * 2 ^ 52 + encCtrArg x)
  | .cadd c x => some (0x11 * 2 ^ 58 + c.toNat * 2 ^ 52 + encCtrArg x)
  | .cset c x e => some (0x12 * 2 ^ 58 + c.toNat * 2 ^ 52 + encCtrArg x + e.toNat * 2 ^ 12)
  | .crd c n => some (0x13 * 2 ^ 58 + c.toNat * 2 ^ 52 + n.toNat * 2 ^ 11)
  | .rbind h f e b n => some (0x14 * 2 ^ 58 + h.toNat * 2 ^ 54 + f.toNat * 2 ^ 48 + e.toNat * 2 ^ 42
      + encSSrc b * 2 ^ 36 + n.toNat * 2 ^ 23)
  | .rwaitf h k => some (0x15 * 2 ^ 58 + h.toNat * 2 ^ 54 + k.toNat * 2 ^ 41)
  | .rwaite h k => some (0x16 * 2 ^ 58 + h.toNat * 2 ^ 54 + k.toNat * 2 ^ 41)
  | .radvp h k => some (0x17 * 2 ^ 58 + h.toNat * 2 ^ 54 + k.toNat * 2 ^ 41)
  | .radvc h k => some (0x18 * 2 ^ 58 + h.toNat * 2 ^ 54 + k.toNat * 2 ^ 41)
  | .fence p q n => some (0x1A * 2 ^ 58 + p.toNat * 2 ^ 55 + q.toNat * 2 ^ 52 + n.toNat * 2 ^ 49)
  | .scld f => some (encSc 0x1C f)
  | .scst f => some (encSc 0x1D f)
  | .scswp f => some (encSc 0x1E f)
  | .scadd f => some (encSc 0x1F f)
  | .sccas f => some (encSc 0x20 f)
  | .snap a b => some (0x24 * 2 ^ 58 + encSSrc a * 2 ^ 52 + encSSrc b * 2 ^ 46)
  | .snapq n => some (0x25 * 2 ^ 58 + n.toNat * 2 ^ 50)
  | .ckwait a => some (0x26 * 2 ^ 58 + encSSrc a * 2 ^ 52)
  | .rollbk a b => some (0x27 * 2 ^ 58 + encSSrc a * 2 ^ 52 + encSSrc b * 2 ^ 46)
  | .katgo f v => some (0x28 * 2 ^ 58 + f.toNat * 2 ^ 54 + v.toNat * 2 ^ 46)
  | .katcmp => some (0x29 * 2 ^ 58)
  | .tlaunch a q => some (0x2C * 2 ^ 58 + encSSrc a * 2 ^ 52 + q.toNat * 2 ^ 46)
  | .sysrd x c n => some (0x30 * 2 ^ 58 + x.toNat * 2 ^ 40 + c.toNat * 2 ^ 39 + n.toNat * 2 ^ 37)
  | .syswr x s n => some (0x31 * 2 ^ 58 + encSSrc s * 2 ^ 52 + x.at_.toNat * 2 ^ 40 + x.clr.toNat * 2 ^ 39 + n.toNat * 2 ^ 37)
  | .tlbinv a n k => some (0x32 * 2 ^ 58 + encSSrc a * 2 ^ 52 + n.toNat * 2 ^ 50 + k.toNat * 2 ^ 48)
  | .codeinv a n b => some (0x33 * 2 ^ 58 + encSSrc a * 2 ^ 52 + n.toNat * 2 ^ 50 + b.toNat * 2 ^ 49)
  | .zerob t m k => some (0x34 * 2 ^ 58 + encSSrc m * 2 ^ 52 + encSSrc t * 2 ^ 46 + k.toNat * 2 ^ 45)
  | .capq a => some (0x35 * 2 ^ 58 + encSSrc a * 2 ^ 52)
  | _ => none

/-- A chain entry's 256 bits (R277). -/
def encCopyF (code : Nat) (f : CopyF) : Nat :=
  code + f.flags.toNat * 2 ^ 8 + f.aux.toNat * 2 ^ 16 + f.len.toNat * 2 ^ 32 + f.src.toNat * 2 ^ 64
    + f.dst.toNat * 2 ^ 128 + f.hsrc.toNat * 2 ^ 192 + f.hdst.toNat * 2 ^ 224

/-- The chain entry of a copy command. -/
def encCopy : Instr → Option Nat
  | .cmov _ f => some (encCopyF 0x01 f)
  | .cconv _ f => some (encCopyF 0x02 f)
  | .cexp _ f => some (encCopyF 0x03 f)
  | .ccomp _ f => some (encCopyF 0x04 f)
  | .cdec _ f => some (encCopyF 0x05 f)
  | .cenc _ f => some (encCopyF 0x06 f)
  | .catom _ f => some (encCopyF 0x07 f)
  | .czero _ f => some (encCopyF 0x08 f)
  | .cloop _ f => some (encCopyF 0x09 f)
  | .cif _ f => some (encCopyF 0x0A f)
  | .csig _ f => some (encCopyF 0x0B f)
  | .ccw _ f => some (encCopyF 0x0C f)
  | .clink _ f => some (encCopyF 0x0D f)
  | .cend _ f => some (encCopyF 0x0E f)
  | _ => none

/-- The words of an instruction that has an encoding: its width in bits and its bits, alone in its slot or entry. -/
def encode (i : Instr) : Option (Nat × Nat) :=
  match (encS i).or ((encC i).or ((encB i).or ((encM i).or (encX i)))) with
  | some w => some (32, w)
  | none =>
    match (encVAlone i).or (encE i) with
    | some w => some (64, w)
    | none =>
      match encCopy i with
      | some w => some (256, w)
      | none => none

/-! ### Words of the opcode table -/

/-- The slots in the order in which a lone 32-bit word is tried: the word does not name its slot (R30 to R35, log 9). -/
def Dec.toOption {α : Type} : Dec α → Option α
  | .ok a => some a
  | _ => none

/-- The first instruction a list of X slot operations holds. -/
def firstOf : Option (List Instr) → Option Instr
  | some (i :: _) => some i
  | _ => none

/-- The slot in which a lone 32-bit word stands for an instruction. -/
def tableSlot (w : Nat) : Option (Slot × Instr) :=
  match (decS w).toOption, firstOf (decX w).toOption, (decM w).toOption, (decB w).toOption, (decC w).toOption with
  | some i, _, _, _, _ => some (.s0, i)
  | none, some i, _, _, _ => some (.x, i)
  | none, none, some i, _, _ => some (.m, i)
  | none, none, none, some i, _ => some (.b, i)
  | none, none, none, none, some i => some (.c, i)
  | _, _, _, _, _ => none

/-- The instruction the decoder reads from a word of the opcode table; only 32-bit slot words stand there. -/
def decodeTableWord (nbits w : Nat) : Option Instr :=
  if nbits = 32 ∧ w < 2 ^ 32 then (tableSlot w).map Prod.snd else none

end Sys2Proof
end

