-- ==== Sys2Proof/Config.lean ====
section
/-! DEFINITION. Values this model leaves free: constants with no body, of which nothing can be proved. Each stands where
the spec gives a bound, an implementation value or the contents of something outside, but not the value itself. -/

namespace Sys2Proof.Config

/-- A free 64-bit value, one for each number; the model draws the next number from State.free (log 4). -/
opaque freeWord : Nat → BitVec 64

/-- A free byte of host memory, by PCIe address (log 7). -/
opaque hostByte : Nat → Nat → BitVec 8

/-- The stepping of the part, the word of CAPQ 0 bits [23:16] (R360, log 4). -/
opaque stepping : BitVec 8

/-- The HBM stack that holds a frame: the spec gives no map of the stacks (R15, R384, log 117). -/
opaque hbmStack : Nat → Nat

/-- The number by which PLDM reads TELCFG: the spec gives none (R395, R397, log 120). -/
opaque pldmTelcfg : BitVec 16

/-- The marks of a receive buffer, in flits: above the high mark its channel is stopped, below the low mark it goes again (R391, log 116). -/
opaque highMark : Nat
opaque lowMark : Nat

/-- The HBM bytes available, the word of CAPQ 6 (R360, log 4). -/
opaque hbmAvailable : BitVec 64

/-- The correctly rounded result of a transcendental where the model's own bounds do not decide it: by the number of the
function, the format and the code of the operand (R173, log 17). -/
opaque transcendental : Nat → Nat → Nat → Nat

/-- The SHA3-256 digest of a firmware bank (0) or a configuration record (1), by the number that names its contents (R387, log 21). -/
opaque digest : Nat → Nat → List (BitVec 8)

/-- The second key of AES-256-XTS, which encrypts the tweak, for a slot's 256-bit key: BIND_KEY brings one key and the spec does not
say where the other comes from (R355, R386, log 23). -/
opaque tweakKey : BitVec 256 → BitVec 256

/-- The 24-bit integrity tag of a sector, by key, ciphertext and sector address: the spec names no function (R355, log 23). -/
opaque sectorTag : BitVec 256 → BitVec 512 → Nat → BitVec 24

/-- The key by which a walker's C = 1 page is read where CONF names a slot that is not bound to its job, by slot (R355, R386,
log 23). -/
opaque unboundKey : Nat → BitVec 256

/-- The bytes of a manifest item whose layout the spec does not state: sequencer states, channel and dirty logs, engine state, by
number (R327, log 4). -/
opaque stateBytes : Nat → List (BitVec 8)

/-- The latencies of generation G1, by slot and opcode: the spec gives the tables of G2 and G3 only (R48, log 104). -/
opaque g1Latency : Nat → Nat → Nat

end Sys2Proof.Config
end

