-- ==== Sys2Proof/Machine/Causes.lean ====
section
/-! DEFINITION. The trap causes and their codes (R343), and the kinds of delivery (R344). -/

namespace Sys2Proof.Machine

/-- The causes of R343. -/
inductive Cause where
  | opcUndef | encRsvd | priv | landBad | edgeUnsettled | tagForeign | tagUnknown | loopDepth | codeHeap | segBad | swtrap
  | fmtMismatch | fmtVoid | scaleOvf
  | spRange | bankConflict | accUnowned | align | compressedLoad | canalScope
  | handleStale | handleRevoked | chainBad | mxeBusy | vgGroupOvf | vgStreamBad | nestBad | ringBad | launchBad
  | pfAbsent | pfWrite | pfPriv | pfExec | pfRsvd
  | poisonUse | eccUe | katMismatch | integrityTag | health
  | snapAbort | rollbackEntry | linkDown | gcmTagFail | keyUnbound | ivReplay | ckptBad
  | preempt | step | brk | tickstop | launchqOverrun | sysregBad | supfault | start
  deriving DecidableEq, Repr

/-- The 7-bit code of a cause (R343). -/
def Cause.code : Cause → Nat
  | .opcUndef => 0x00 | .encRsvd => 0x01 | .priv => 0x02 | .landBad => 0x03 | .edgeUnsettled => 0x04
  | .tagForeign => 0x05 | .tagUnknown => 0x06 | .loopDepth => 0x07 | .codeHeap => 0x08 | .segBad => 0x09
  | .swtrap => 0x0A | .fmtMismatch => 0x10 | .fmtVoid => 0x11 | .scaleOvf => 0x13 | .spRange => 0x20
  | .bankConflict => 0x21 | .accUnowned => 0x22 | .align => 0x23 | .compressedLoad => 0x24 | .canalScope => 0x25
  | .handleStale => 0x30 | .handleRevoked => 0x31 | .chainBad => 0x32 | .mxeBusy => 0x33 | .vgGroupOvf => 0x34
  | .vgStreamBad => 0x35 | .nestBad => 0x36 | .ringBad => 0x37 | .launchBad => 0x38 | .pfAbsent => 0x40
  | .pfWrite => 0x41 | .pfPriv => 0x42 | .pfExec => 0x43 | .pfRsvd => 0x44 | .poisonUse => 0x50 | .eccUe => 0x51
  | .katMismatch => 0x52 | .integrityTag => 0x53 | .health => 0x54 | .snapAbort => 0x60 | .rollbackEntry => 0x61
  | .linkDown => 0x62 | .gcmTagFail => 0x63 | .keyUnbound => 0x64 | .ivReplay => 0x65 | .ckptBad => 0x66
  | .preempt => 0x70 | .step => 0x71 | .brk => 0x72 | .tickstop => 0x73 | .launchqOverrun => 0x74
  | .sysregBad => 0x75 | .supfault => 0x76 | .start => 0x77

/-- The kind field of TCAUSE (R339). -/
inductive Kind where
  | s | p | a
  deriving DecidableEq, Repr

/-- The kind's code in TCAUSE [8:7] (R339). -/
def Kind.code : Kind → Nat
  | .s => 0
  | .p => 1
  | .a => 2

end Sys2Proof.Machine
end

