-- ==== Sys2Proof/Machine/Table.lean ====
section
/-! DEFINITION. Sparse tables: a list of (key, value) pairs with strictly rising keys and no value equal to the
table's default. Memory, register files and every numbered collection of the state are such tables. -/

namespace Sys2Proof

/-- A sparse table. An unlisted key holds the default its reader names. -/
abbrev Table (α : Type) := List (Nat × α)

/-- The value at key `n`, or the default `d` where no entry is listed. -/
def tget {α : Type} (d : α) : Table α → Nat → α
  | [], _ => d
  | (k, v) :: t, n => if k = n then v else tget d t n

/-- Put an entry at its place in the key order. -/
def tput {α : Type} : Table α → Nat → α → Table α
  | [], n, v => [(n, v)]
  | (k, w) :: t, n, v =>
    if n < k then (n, v) :: (k, w) :: t
    else if n = k then (n, v) :: t
    else (k, w) :: tput t n v

/-- Remove every entry of a key. -/
def terase {α : Type} : Table α → Nat → Table α
  | [], _ => []
  | (k, w) :: t, n => if k = n then terase t n else (k, w) :: terase t n

/-- Write `v` at key `n`; writing the default removes the entry, so that equal tables are equal data. -/
def tset {α : Type} [DecidableEq α] (d : α) (t : Table α) (n : Nat) (v : α) : Table α :=
  if v = d then terase t n else tput t n v

/-- Change the entry at key `n`. -/
def tmod {α : Type} [DecidableEq α] (d : α) (t : Table α) (n : Nat) (f : α → α) : Table α :=
  tset d t n (f (tget d t n))

/-- Every key of the table is above `lo` and the keys rise strictly. -/
def tsortedFrom {α : Type} : Nat → Table α → Bool
  | _, [] => true
  | lo, (k, _) :: t => decide (lo ≤ k) && tsortedFrom (k + 1) t

/-- The canonical form: keys strictly rising, no listed default. -/
def twf {α : Type} [DecidableEq α] (d : α) (t : Table α) : Bool :=
  tsortedFrom 0 t && t.all (fun e => decide (e.2 ≠ d))

/-- A memory: the bytes of an address space by address; an unlisted byte is 0 (log 5, log 6). -/
abbrev Memory := Table Byte

/-- The canonical form of a memory. -/
def Memory.wf (m : Memory) : Bool := twf 0 m

/-- Remove every entry whose key lies in [lo, hi). -/
def tclear {α : Type} : Table α → Nat → Nat → Table α
  | [], _, _ => []
  | (k, w) :: t, lo, hi => if lo ≤ k ∧ k < hi then tclear t lo hi else (k, w) :: tclear t lo hi

/-- The entries whose keys lie in [lo, hi). -/
def tslice {α : Type} (t : Table α) (lo hi : Nat) : Table α := t.filter (fun e => decide (lo ≤ e.1 ∧ e.1 < hi))

/-- Write every listed entry of `es` over the table. -/
def tputAll {α : Type} [DecidableEq α] (d : α) (t : Table α) (es : Table α) : Table α :=
  es.foldl (fun acc e => tset d acc e.1 e.2) t

end Sys2Proof
end

