-- ==== Sys2Proof/Machine/State.lean ====
section
/-! DEFINITION. The state of one Tyhar 7360 package, as plain data, and the state right after reset.
Every collection is a sparse table or a list. Keys: a tile is 65 * die + tile (64 is the service tile), a sequencer is
2 * tile key + (0 for A, 1 for B), a context is 4 * sequencer key + context. -/

namespace Sys2Proof.Machine

/-! ### Values -/

/-- What a value or granule carries beside its bits (R348): nothing, a poison mark, or an uncorrectable error. -/
inductive Mark where
  | clean | poison | ue
  deriving DecidableEq, Repr

/-- A scalar value with its mark. -/
structure SVal where
  val : Word
  mark : Mark
  deriving DecidableEq, Repr

/-- A vector value with its format tag and its mark. -/
structure Vec where
  tag : Tag
  bits : VBits
  mark : Mark
  deriving DecidableEq, Repr

/-- A never-filled scalar entry reads 0 (R46). -/
def SVal.zero : SVal := ⟨0, .clean⟩

/-- A never-filled vector entry reads all zeros tagged VOID (R46). -/
def Vec.void : Vec := ⟨0, 0, .clean⟩

/-- Sticky flags (R340): VOIDRD, INVALID, DIVZERO, OVERFLOW, UNDERFLOW, INEXACT. -/
structure Flags where
  voidrd : Bool
  invalid : Bool
  divzero : Bool
  overflow : Bool
  underflow : Bool
  inexact : Bool
  deriving DecidableEq, Repr

/-- No flag. -/
def Flags.none : Flags := ⟨false, false, false, false, false, false⟩

/-! ### Results in flight -/

/-- A result in flight, or a replay entry (R42, R346): where it lands and what it brings. -/
structure Flight where
  /-- Number by which a load's data finds it. -/
  id : Nat
  /-- Unfrozen cycles to its landing: it lands at the end of the cycle in which this is 1. -/
  remaining : Nat
  slot : Slot
  /-- Number of its bundle on its sequencer; earlier issue pushes first within one slot (R43). -/
  issued : Nat
  vals : List SVal
  keep : Option (BitVec 4)
  vecs : List Vec
  wreg : Option (BitVec 7)
  xb : Bool
  pred : Option (BitVec 3 × BitVec 128)
  vtag : Option (BitVec 7 × Tag)
  flags : Flags
  /-- A return handle of CALL or CALLX (R45). -/
  ret : Bool
  /-- Its data has arrived; false for a load whose data is not there yet (R17). -/
  ready : Bool
  /-- The grouped operation whose completion its value counts: the sequencer has observed it once the flight lands (R262). -/
  obs : Option Nat
  deriving DecidableEq, Repr

/-! ### Contexts -/

/-- A level of the loop-index stack (R102). -/
structure Level where
  page : BitVec 45
  head : BitVec 12
  fin : BitVec 12
  count : BitVec 32
  index : BitVec 32
  deriving DecidableEq, Repr

/-- A level of the nest shadow (R208). -/
structure NestLevel where
  bound : BitVec 16
  role : BitVec 2
  sa : BitVec 20
  sb : BitVec 20
  sc : BitVec 20
  deriving DecidableEq, Repr

/-- The MXCFG shadow (R208). -/
structure MxCfg where
  fa : BitVec 4
  fb : BitVec 4
  g : Bool
  pa : BitVec 13
  pb : BitVec 13
  deriving DecidableEq, Repr

/-- What a frozen sequencer waits for (R22). -/
inductive Wait where
  /-- REALN: the period and the cycle in which the successor's delta starts (R116). -/
  | realn (period until_ : Nat)
  /-- A delay inside the device: the start of a delivery or of a resumption (R346, R149, R152). -/
  | delay (until_ : Nat)
  /-- A yield bundle's wait, with its stated run (R117). -/
  | yield (run : Nat)
  | ctr (c : BitVec 6) (x : BitVec 32)
  | ringF (h : BitVec 4) (k : BitVec 13)
  | ringE (h : BitVec 4) (k : BitVec 13)
  | ckpt (n : BitVec 32)
  /-- A fence: the stores that have not performed, and the grouped operations whose span must end (R261, R262). -/
  | fence (p q scope : BitVec 3) (ids gth : List Nat)
  | tlbinv (a : Word) (scope kind : BitVec 2)
  | codeinv (a : Word) (scope : BitVec 2) (all : Bool)
  /-- ZEROB, with the cycle from which its banks hold zeros once the zeroing has begun (R358). -/
  | zerob (hbm : Bool) (target mask : Word) (until_ : Option Nat)
  /-- A segment of a page that is not resident (R125). -/
  | fetch (page : BitVec 45) (seg : Nat)
  /-- The resolution of a code handle before its bundle issues, or at a first fetch; the kind needed (R107). -/
  | resolve (h : Word) (kind : BitVec 2)
  /-- An SC operation's wheel position or the end of a hold on its bank (R265, R320). -/
  | wheel
  /-- A store that met a HELD bank (R256). -/
  | held (id : Nat)
  /-- Cross-die data that is late (R17). -/
  | late (id : Nat)
  /-- SYSRD of REMDATA (R342). -/
  | remdata (remsel : Word) (until_ : Nat)
  deriving DecidableEq, Repr

/-- A context of a sequencer (R14, R148). -/
structure Ctx where
  /-- Scalar queue, newest first; entries beyond the list were never filled (R41, R46). -/
  q : List SVal
  vq : List Vec
  keeps : Table SVal
  preds : Table (BitVec 128)
  xb : Vec
  flags : Flags
  /-- Bundle handle of the bundle that issues next (R101). -/
  pos : Word
  /-- A code handle still to be resolved before anything issues, with the landing kind it needs (R61): a task's entry,
  TVEC, a firmware bank's entry. -/
  entry : Option (Word × BitVec 2)
  /-- Unfrozen cycles before the next bundle issues; none until its delta has been read (R28). -/
  countdown : Option Nat
  loops : List Level
  flights : List Flight
  nest : List NestLevel
  cfg : MxCfg
  katHash : BitVec 24
  katExp : BitVec 24
  partw : Word
  jobid : BitVec 16
  ctrmask : Word
  ptbase : Word
  conf : Word
  hdsel : Word
  dbgsel : Word
  /-- Handle descriptors as 8-byte words, key 4 * slot + word (R284, R341). -/
  handles : Table Word
  /-- Everything it waits for; it is frozen while one is left (R22). -/
  waits : List Wait
  /-- Halted at TEXIT (R123). -/
  done : Bool
  /-- Breakpoints do not match the next bundle once (R347). -/
  bpx : Bool
  /-- The task the context is bound to (R139). -/
  task : Option Nat
  /-- Unfrozen cycles run since the last rendezvous, and the cycles of the stated run that bind them, none before the first
  yield (R118). -/
  ran : Nat
  stated : Option Nat
  /-- The segments that its sequencer's chambers held for it when it was switched out, which are read again before it resumes: chamber B or
  not, page and segment (R148, R149, R152). -/
  back : List (Bool × BitVec 45 × Nat)
  deriving DecidableEq, Repr

/-! ### Engines and copy chains -/

/-- A dense nest that runs (R214 to R216). -/
structure Nest where
  /-- Its issue cycle; engine cycles count from the next one. -/
  issued : Nat
  task : Nat
  seq : Nat
  ctx : Nat
  levels : List NestLevel
  cfg : MxCfg
  scl : Table (BitVec 8)
  x : VBits
  a : Nat
  b : Nat
  c : Nat
  sa : Nat
  sb : Nat
  steps : Nat
  /-- Steps that have landed, engine cycles owned since issue, and flags so far. -/
  landed : Nat
  n : Nat
  flags : Flags
  /-- Banks it reads, reserved to it (R218). -/
  banks : List Nat
  deriving DecidableEq, Repr

/-- A known-answer run (R227). -/
structure Kat where
  /-- Its issue cycle; engine cycles count from the next one. -/
  issued : Nat
  seq : Nat
  ctx : Nat
  fmt : BitVec 4
  seed : BitVec 8
  n : Nat
  deriving DecidableEq, Repr

/-- A churn (R232): its state, place in the stream, and the open group. -/
structure Churn where
  live : Bool
  base : Nat
  len : Nat
  at_ : Nat
  /-- 0 ROW, 1 BETWEEN, 2 OPEN, 3 IN, 4 DONE. -/
  st : Nat
  rows : Nat
  groups : Nat
  code : Nat
  last : Nat
  sum : List (BitVec 32)
  poisonLanes : List Bool
  /-- Engine cycles the end of group has stood at the head. -/
  waited : Nat
  deriving DecidableEq, Repr

/-- A grouped operation (R236 to R245). -/
structure Vg where
  /-- Its issue cycle; engine cycles count from the next one. -/
  issued : Nat
  id : Nat
  task : Nat
  seq : Nat
  ctx : Nat
  churns : List Churn
  table : Table (BitVec 32)
  x : Nat
  c : Nat
  ctr : BitVec 6
  fmt : BitVec 2
  nb : Nat
  kmax : Nat
  /-- Engine cycle number, and the one in which the last churn became done or the operation stopped. -/
  cycle : Nat
  ended : Option Nat
  stopAsked : Bool
  stopped : Bool
  fault : Option (Cause × Nat × Nat)
  completed : Bool
  /-- Engine cycles from completion to the last close's write, not fixed by the spec (R244, log 4). -/
  span : Nat
  flags : Flags
  banks : List Nat
  deriving DecidableEq, Repr

/-- A handle descriptor (R284). -/
structure Desc where
  base : Word
  size : Nat
  gen : Nat
  loc : Nat
  attr : Nat
  peer : BitVec 16
  deriving DecidableEq, Repr

/-- An empty slot's descriptor. -/
def Desc.none : Desc := ⟨0, 0, 0, 0, 0, 0⟩

/-- A loop level of a chain (R281). -/
structure CLevel where
  start : Nat
  fin : Nat
  count : Nat
  index : Nat
  ss : Word
  ds : Word
  deriving DecidableEq, Repr

/-- What a chain does (R279, R282, R287). -/
inductive ChainSt where
  /-- It reads its next entry. -/
  | next
  /-- It moves data: the command in progress. -/
  | move (i : Instr)
  /-- CCW waits for a counter (tile, counter, threshold). -/
  | ccw (tile ctr : Nat) (x : BitVec 32)
  /-- It is suspended by a page fault (R287). -/
  | susp (i : Instr) (cause : Cause) (va : Word)
  /-- It has ended but for the link's acknowledgement of what it sent to a peer (R275, R409): its status. -/
  | ending (cause : Option Cause) (v : Word) (stopped : Bool)
  deriving DecidableEq, Repr

/-- A GCM key slot (R297). -/
structure GcmSlot where
  key : BitVec 256
  nonce : BitVec 64
  last : BitVec 32
  tdi : Option Nat
  job : BitVec 16
  deriving DecidableEq, Repr

/-- A copy chain (R273, R276). -/
structure Chain where
  id : Nat
  tile : Nat
  seq : Nat
  ctx : Nat
  task : Option Nat
  ctr : BitVec 6
  pc : Nat
  loops : List CLevel
  st : ChainSt
  /-- Bytes of the command in progress written so far, and its place in its destination. -/
  moved : Nat
  at_ : Nat
  flags : Flags
  poisoned : Nat
  stop : Bool
  /-- The descriptors of the command's handles as it began (R285, R286). -/
  ds : Desc
  dd : Desc
  /-- The revoked slots of the command (R286), and whether the bytes it wrote to a revoked destination are being zeroed. -/
  revoked : List Nat
  wiping : Bool
  /-- The command has passed the checks it makes as it begins to move data (R293, R298). -/
  begun : Bool
  /-- What it moves is compressed (R295). -/
  comp : Bool
  /-- Bytes the command keeps: old values of a CATOM (R296), output not yet written, ciphertext for the tag. -/
  olds : List (Nat × Bool)
  /-- Numbers the command keeps: its place in a packed tensor and the tensor's header (R291). -/
  work : List Nat
  /-- A CDEC has met an uncorrectable source granule, a poisoned one (R299). -/
  ueSeen : Bool
  badSeen : Bool
  /-- Flits that end messages to peers and are not acknowledged: port and sequence number (R409). -/
  acks : List (Nat × BitVec 12)
  /-- The CSIG at this offset has travelled with a message (R409). -/
  carried : Option Nat
  /-- The key slot of a CDEC or CENC in progress, as its check found it; none once the slot is unbound (R298, R386, R414). -/
  slot : Option GcmSlot
  /-- An error a read reported without ending the chain (R356). -/
  err : Option (Cause × Word)
  deriving DecidableEq, Repr

/-- What a bundle starts: a nest, a known-answer run, a grouped operation or a copy chain. It is active from the bundle's
commit (R214, R215, R227, R236, R273). -/
inductive Start where
  | nest (n : Nest)
  | kat (k : Kat)
  | vg (v : Vg)
  | chain (c : Chain)
  /-- A TLAUNCH: sequencer, queue and the rank its record may not exceed (R138). -/
  | launch (seq : Nat) (queue : BitVec 6) (rank : Nat)
  deriving DecidableEq, Repr

/-! ### Bundles -/

/-- A pool access of a sequencer: what it does when it performs (R253). -/
inductive AccKind where
  | load (size : Nat) (signed : Bool)
  | store (size : Nat) (v : Word)
  | ldv (tag : Tag)
  | stv (v : VBits) (mask : BitVec 128)
  | ldvs (tag : Tag) (stride : Int)
  | stvs (tag : Tag) (v : VBits) (stride : Int)
  | lda
  | sta (v : VBits) (tag : Tag)
  | staa (v : VBits) (tag : Tag)
  | ldpair
  | stpair (v w : Word)
  | scld (w : Bool)
  | scst (w : Bool) (v : Word)
  | scswp (w : Bool) (v : Word)
  | scadd (w : Bool) (v : Word)
  | sccas (w : Bool) (v x : Word)
  /-- A half of VGTAB's table: which half (R235). -/
  | vgtab (half : Nat)
  /-- 64 bytes of a TLAUNCH record: which quarter (R138). -/
  | tlaunch (part : Nat)
  deriving DecidableEq, Repr

/-- A pool access that has not performed yet. -/
structure Acc where
  id : Nat
  /-- The cycle in which it performs; none where it is not fixed (R23, R253). -/
  at_ : Option Nat
  seq : Nat
  ctx : Nat
  /-- Target tile key and byte offset. -/
  tile : Nat
  off : Nat
  kind : AccKind
  /-- It crosses a die boundary (R17). -/
  cross : Bool
  deriving DecidableEq, Repr

/-- A booking of a bank for one cycle (R254). -/
structure Booking where
  tile : Nat
  bank : Nat
  cycle : Nat
  seq : Nat
  /-- It came over the canal: such bookings of a cycle are made after the local ones (R254). -/
  canal : Bool
  deriving DecidableEq, Repr

/-- The ring of a chain or counter update: an addition or a setting (R305). -/
structure CtrUpd where
  tile : Nat
  ctr : Nat
  /-- none: add; some: set, and whether the record is emptied. -/
  set : Option Bool
  x : BitVec 32
  /-- The record a completion writes (R303): words 1 to 3, and whether it holds an error or a stop. -/
  rec_ : Option (Word × Word × Word)
  deriving DecidableEq, Repr

/-- What happens between two cycles beside the bundles: an event that the outside brings, or one of a unit whose timing the
spec does not fix (R24, log 3), each with what it needs to be done. -/
inductive Ev where
  /-- An event of the opcode table from outside. -/
  | outside (i : Instr)
  /-- A system register write takes effect: sequencer, context, index, value (R337). -/
  | reg (x c i : Nat) (v : Word)
  /-- The waits of a sequencer's contexts are looked at again. -/
  | waits (x : Nat)
  /-- The copy engine of a tile takes its next steps (R276). -/
  | chain (tile : Nat)
  /-- A cross-die access arrives (R256). -/
  | cross (id : Nat)
  /-- A SYSRD of REMDATA begins; a write of REMDATA arrives (R342). -/
  | remRead (x : Nat)
  | remWrite (x : Nat) (v : Word)
  /-- Released banks of a tile have been zeroed (R221). -/
  | freed (t : Nat)
  /-- A tick: starts, resumptions, rendezvous and decisions (R21, R141, R144). -/
  | tick
  /-- A pending cause is delivered (R344). -/
  | trap (x : Nat)
  /-- A launch queue looks at its next slot (R135). -/
  | poll (q : Nat)
  /-- The oldest pending TLAUNCH record of a sequencer is accepted or refused (R138). -/
  | accept (x : Nat)
  /-- The window records are looked at: readiness and placement (R137, R139). -/
  | place
  /-- A task whose members have all halted may end (R154). -/
  | ends (task : Nat)
  /-- The gang halts for a forced pre-emption (R151). -/
  | halt (task : Nat)
  /-- A snapshot begins, a rollback is asked for, and the snapshot unit's work of a cycle (R315 to R332). -/
  | snapBegin (n : Nat)
  | rollback (n : Nat)
  /-- The halt of a rollback (R332). -/
  | rollHalt (n : Nat)
  | snap
  /-- The copy of a HELD page for which a write waits (R322). -/
  | held (va : Word)
  /-- The package's clocks stop at an armed tick; a sample or a telemetry block is written (R362, R363, R396). -/
  | clocks
  | bankSwitch (die : Nat)
  /-- A soft error in a pool granule (tile key, granule), an HBM granule or a keep: the mark it leaves. -/
  | strikePool (tile gran : Nat) (m : Mark)
  | strikeHbm (gran : Nat) (m : Mark)
  | strikeKeep (ctx keep : Nat) (m : Mark)
  /-- One in an entry of a scalar or vector queue of a context, and in the internal temporary of a microcoded bundle (R100, R348). -/
  | strikeQ (ctx entry : Nat) (m : Mark)
  | strikeVq (ctx entry : Nat) (m : Mark)
  | strikeTemp (seq : Nat)
  /-- A reset that a write of RESETCTL names is asked for (R401). -/
  | resetAsked (v : Word)
  /-- A corrected error (R356, R359). -/
  | corrected
  deriving DecidableEq, Repr

/-- An effect of a committed bundle, or of an engine, at the end of a later cycle. -/
inductive Eff where
  /-- SYSRD.clr (R337). -/
  | flagsClear (seq ctx : Nat) (v : Word)
  | scl (seq ctx : Nat) (e : BitVec 4) (code : BitVec 8)
  | nest (seq ctx : Nat) (level : BitVec 3) (fld : BitVec 2) (v : BitVec 20)
  | mxFmt (seq ctx : Nat) (fa fb : BitVec 4) (g : Bool)
  | mxPa (seq ctx : Nat) (p : BitVec 13)
  | mxPb (seq ctx : Nat) (p : BitVec 13)
  | tmode (seq ctx : Nat) (m : BitVec 2)
  | katExp (seq ctx : Nat) (v : BitVec 24)
  /-- Staged table of VGTAB becomes the shadow (R235). -/
  | vgtab (seq ctx : Nat)
  /-- An event that follows, such as a register write (R337). -/
  | ev (e : Ev)
  /-- A write of REMDATA takes REMSEL as it stands at the end of its issue cycle (R342). -/
  | remWrite (seq : Nat) (v : Word)
  | ctr (u : CtrUpd)
  | ringBind (tile : Nat) (owner : Nat × Nat) (h : BitVec 4) (f e : BitVec 6) (base : BitVec 32) (n : Nat)
  | ringP (tile : Nat) (h : BitVec 4) (k : BitVec 13)
  | ringC (tile : Nat) (h : BitVec 4) (k : BitVec 13)
  | grant (seq ctx : Nat) (n : Nat) (flight : Nat)
  | free (seq ctx : Nat) (mask : Word)
  | zeroSlots (tile slot n : Nat) (tag : Tag)
  | band (tile slot : Nat) (e : BitVec 2) (b : Option (Nat × Nat × Nat))
  | crd (seq ctx : Nat) (c : BitVec 6) (sel : BitVec 2) (flight : Nat)
  /-- A system register is read for a flight of context c: sequencer, context and index read (R337). -/
  | sysr (seq ctx : Nat) (index : Nat) (c : Nat) (clr : Bool) (flight : Nat)
  | mxstop (seq : Nat)
  | vgstop (tile task : Nat)
  | cpstop (seq ctx : Nat) (ctr : BitVec 6)
  /-- The frames of a ZEROB read zero from the end of its issue cycle (R358). -/
  | zerobStart (seq : Nat) (target mask : Word)
  deriving DecidableEq, Repr

/-- A cause found in a bundle: its class in the order of R345, its slot, and its place in the entry's order. -/
structure Found where
  rank : Nat
  slot : Slot
  ord : Nat
  cause : Cause
  tval : Word
  ms : Nat
  deriving DecidableEq, Repr

/-- Where a bundle's B slot sends execution (R105). -/
inductive Target where
  | none
  /-- A landing of the issuing page, by its word. -/
  | word (w : BitVec 12)
  /-- A resolved code handle's bundle. -/
  | handle (h : Word)
  | eret
  | texit
  deriving DecidableEq, Repr

/-- What a V slot's units have formed so far (R157). -/
structure VPipe where
  /-- The slot's first operand as read, an adopting port with the tag it adopted (R38, R159). -/
  a1 : Vec
  parts : List Vec
  flags : Flags
  lanes : Bool
  mask : Bool
  deriving DecidableEq, Repr

/-- The internal temporary of a microcoded bundle, from micro-step 0 to micro-step 1 (R99, R100, R259): MADD's product with the addend
and the flight that the sum lands by, or the address that a pair access forms. -/
structure Temp where
  flight : Nat
  val : SVal
  addend : Word
  deriving DecidableEq, Repr

/-- The bundle that is issuing: its slots still to run, and what its slots have staged. Nothing of it takes effect
before it commits (R7, R348). -/
structure Bundle where
  active : Bool
  seq : Nat
  ctx : Nat
  pos : Word
  size : Nat
  yieldRun : Option Nat
  number : Nat
  /-- The slot in focus, and the operations after it. -/
  focus : Slot
  todo : List (Slot × Instr)
  found : List Found
  flights : List Flight
  accs : List Acc
  effs : List (Nat × Eff)
  books : List Booking
  starts : List Start
  vpipe : VPipe
  /-- It is an exit bundle by its B slot or by its place at the chain's end (R110). -/
  exit : Bool
  /-- The code handle in another page that it transfers to, with the landing kind it needs (R107). -/
  cross : Option (Word × BitVec 2)
  target : Target
  /-- Loop levels to pop and a level to push (R112, R114). -/
  pops : Nat
  push : Option Level
  waits : List Wait
  /-- SWTRAP or BREAK after commit (R121). -/
  post : Option (Cause × Word)
  /-- The bundle is microcoded: its second step runs in the next cycle (R100). -/
  micro : Bool
  /-- Internal temporaries between its two micro-steps. -/
  temps : List Temp
  /-- Causes that hold only if the partner's bundle of this cycle, which waits for its canal bookings, stays (R215, log 92). -/
  cond : List Found
  /-- The results of its own slots as its words give them: scalar, vector, and neither (R110). -/
  own : Nat × Nat × Nat
  deriving DecidableEq, Repr

/-! ### Sequencers -/

/-- Why context 0 of a sequencer does not run (R123, R342, R347). -/
inductive Halt where
  | run | texit | bringup | supfault
  deriving DecidableEq, Repr

/-- A cause waiting for delivery (R344, R345). -/
structure Pend where
  kind : Kind
  cause : Cause
  tval : Word
  slot : Nat
  ms : Nat
  re : Bool
  bpx : Bool
  /-- The context whose bundle has shown a cause of kind P; 0 for the others. -/
  ctx : Nat
  deriving DecidableEq, Repr

/-- What a committed bundle does at the end of its issue cycle, after the cycle's landings. -/
inductive Tail where
  /-- Its context begins to wait (R22, R307). -/
  | wait (seq ctx : Nat) (w : List Wait)
  /-- ERET (R347). -/
  | eret (seq : Nat)
  /-- TEXIT (R123). -/
  | texit (seq ctx : Nat)
  /-- A posted cause (R121, R361). -/
  | post (seq : Nat) (p : Pend)
  /-- A trace record of a taken transfer (R362). -/
  | trace (seq ctx : Nat) (h v : Word)
  /-- A member halts at the end of the cycle in which its second micro-step runs (R151). -/
  | halt (seq ctx : Nat)
  deriving DecidableEq, Repr

/-- A segment of a page as the bundle walk finds it (R61 to R63). -/
structure Seg where
  off : Nat
  len : Nat
  next : Nat
  bad : Bool
  starts : List Nat
  deriving DecidableEq, Repr

/-- What a sequencer holds of a page it has resolved: header, landing table and walk (R59 to R64). -/
structure PageInfo where
  /-- The context whose translation it was resolved under. -/
  ctx : Nat
  page : BitVec 45
  frames : Nat
  landings : List Nat
  segs : List Seg
  /-- CODEINV has dropped it; the chamber that is issuing finishes its segment (R354). -/
  stale : Bool
  deriving DecidableEq, Repr

/-- A chamber: a resident segment, its bytes expanded from memory at the time of its fetch (R29, R124). -/
structure Chamber where
  /-- The context whose translation its segment was fetched under. -/
  ctx : Nat
  page : BitVec 45
  seg : Nat
  words : List (BitVec 32)
  /-- A CODEINV has dropped it, and its page has been read again since: only the bundle that was about to transfer out of it still
  issues from it (R354). -/
  old : Bool
  deriving DecidableEq, Repr

/-- A TLAUNCH copy waiting for acceptance (R138). -/
structure Launch where
  queue : BitVec 6
  rank : Nat
  bytes : List (BitVec 8)
  bad : Bool
  full : Bool
  deriving DecidableEq, Repr

/-- A sequencer (R13, R338). -/
structure Seq where
  active : Option Nat
  halt : Halt
  /-- Context 0 runs a delivery, and the context it interrupted (R346). -/
  serving : Bool
  inter : Option Nat
  /-- Context 0 as it stood when a delivery interrupted context 0 itself outside any delivery (R344, log 22). -/
  saved0 : Option Ctx
  tcause : Word
  tval : Word
  tbundle : Word
  tstat : Word
  tvec : Word
  dbgctl : Word
  bph : Table Word
  remsel : Word
  tend : Bool
  pend : List Pend
  chamA : Option Chamber
  chamB : Option Chamber
  /-- The chamber that holds the bundle issued last is B. -/
  inB : Bool
  pages : List PageInfo
  launches : List Launch
  /-- REMDATA writes on their way: REMSEL and the value (R342). -/
  remq : List (Word × Word)
  /-- The task a held member holds for (R141). -/
  hold : Option Nat
  bundles : Nat
  /-- A bundle in its second micro-step: it commits at the end of this cycle (R100). -/
  micro : Option Bundle
  microOld : Option Ctx
  issueCycles : Nat
  frozenCycles : Nat
  ctx0Cycles : Nat
  /-- Grouped operations whose completion the sequencer has observed (R262). -/
  seenVg : List Nat
  deriving DecidableEq, Repr

/-! ### Tiles -/

/-- A counter: value and error record (R301, R302). -/
structure Counter where
  value : BitVec 32
  w1 : Word
  w2 : Word
  w3 : Word
  deriving DecidableEq, Repr

/-- A ring handle (R308). -/
structure Ring where
  owner : Option (Nat × Nat)
  f : BitVec 6
  e : BitVec 6
  n : Nat
  p : BitVec 32
  c : BitVec 32
  deriving DecidableEq, Repr

/-- The role a resident task's partition word gives a bank (R249). -/
inductive Role where
  | free | regs | acc | scratch
  deriving DecidableEq, Repr

/-- A pool bank (R220, R299, R317, R357). -/
structure Bank where
  owner : Option Nat
  last : Option Nat
  role : Role
  alloc : Bool
  held : Bool
  /-- Sealed by a CDEC of this chain (R299). -/
  sealed : Option Nat
  /-- Being zeroed until the end of this cycle (R221, R358). -/
  zeroTo : Option Nat
  deriving DecidableEq, Repr

/-- A band entry (R221): rows and drainer. -/
structure Band where
  lo : Nat
  cnt : Nat
  seq : Nat
  deriving DecidableEq, Repr

/-- A tile: its sync unit, its banks and its engines. -/
structure Tile where
  counters : Table Counter
  rings : Table Ring
  banks : Table Bank
  /-- Tags of accumulator slots, key 4 * bank + slot (R190, R220). -/
  slotTags : Table Tag
  /-- Band entries, key 4 * slot number + entry (R221). -/
  bands : Table Band
  /-- Tags of the register places, key offset / 512 (R190, R251). -/
  regTags : Table Tag
  /-- Marks of the register places. -/
  regMarks : Table Mark
  nestA : Option Nest
  nestB : Option Nest
  katA : Option Kat
  katB : Option Kat
  vg : Option Vg
  /-- GCLK from which ALTERNATE windows count (R213). -/
  origin : Nat
  /-- Marked unavailable (R359). -/
  gone : Bool
  mxeCycles : Nat
  vgCycles : Nat
  cpeBytes : Nat
  deriving DecidableEq, Repr

/-- What a task holds on one tile beside its banks: TMODE, the scale table, the value table shadow (R198, R212, R235). -/
structure TaskTile where
  tmode : BitVec 2
  scl : Table (BitVec 8)
  vtab : Table (BitVec 32)
  vtabBad : Table Bool
  /-- The table VGTAB is reading. -/
  inVtab : Table (BitVec 32)
  inBad : Table Bool
  deriving DecidableEq, Repr

/-- Marks of a 64-byte granule (R295, R348). -/
structure Gran where
  mark : Mark
  comp : Bool
  deriving DecidableEq, Repr

/-! ### Tasks -/

/-- Where a task stands (R139 to R154). -/
inductive TaskSt where
  /-- Bound, waiting for its start tick. -/
  | bound
  | running
  /-- Suspended at a yield, or by forced pre-emption. -/
  | waiting
  /-- Halted for a snapshot cut (R316). -/
  | cut
  /-- Halted by a rollback until every member has issued ERET (R332). -/
  | rolled
  deriving DecidableEq, Repr

/-- A launch record as the queues hold it (R127). -/
structure Record where
  queue : BitVec 6
  seqno : BitVec 16
  job : BitVec 16
  bytes : List (BitVec 8)
  /-- Every dependence in use has reached its threshold (R137). -/
  ready : Bool
  deriving DecidableEq, Repr

/-- A resident task (R139, R142). -/
structure Task where
  id : Nat
  rec_ : Record
  /-- Member sequencers with the context each gives, in member order. -/
  members : List (Nat × Nat)
  rank : Nat
  slice : Nat
  st : TaskSt
  /-- Where it stood before a cut (R316). -/
  was : TaskSt
  boundTick : Nat
  boundNo : Nat
  lastStart : Option Nat
  age : Nat
  miss : Nat
  ovr : Bool
  run : Nat
  /-- The cycle at which the remaining slice of the sequencers it runs on is 0 (R142). -/
  rem : Int
  /-- The cycle from which preparation is complete (R140). -/
  readyAt : Nat
  /-- A forced pre-emption is requested: the halt cycle and SUP (R151). -/
  preempt : Option (Nat × Bool × Nat)
  /-- It was pre-empted: the cycle of its halt (R152). -/
  haltedAt : Option Nat
  /-- It has been picked, and starts or resumes on the first tick at or after this cycle (R141, R149). -/
  resumeAt : Option Nat
  ending : Bool
  /-- Ended by TEND: its done counters are not signalled (R347). -/
  killed : Bool
  deriving DecidableEq, Repr

/-- A launch queue (R134). -/
structure LQueue where
  base : Word
  en : Bool
  tl : Bool
  ur : Bool
  sz : Nat
  tail : BitVec 16
  next : BitVec 16
  stop : BitVec 2
  job : BitVec 16
  window : List Record
  deriving DecidableEq, Repr

/-! ### Translation, snapshot, fabric, management -/

/-- A cached translation (R353). -/
structure Tlb where
  die : Nat
  root : Nat
  va : Nat
  size : Nat
  frame : Nat
  pte : Word
  job : BitVec 16
  deriving DecidableEq, Repr

/-- A message appended to a channel's log (R325). -/
structure Logged where
  src : BitVec 16
  plane : BitVec 5
  vc : BitVec 2
  msg : Msg
  deriving DecidableEq, Repr

/-- An install record (R378). -/
structure Install where
  va : Word
  leaf : Nat
  source : Nat
  job : BitVec 16
  frame : Nat
  frames : Nat
  errata : BitVec 32
  pass : BitVec 8
  cached : Bool
  /-- Its leaf has C = 1: the image is encrypted under the request's xkey (R377). -/
  conf : Bool
  /-- The request's xkey slot (R367, R377). -/
  xslot : Nat
  revert : Bool
  /-- REVERT requests that wait: the reply address and the done reference of each (R380). -/
  asked : List (Nat × Nat)
  /-- The second image of the page, built and not installed yet (R381). -/
  next : Option Image
  deriving DecidableEq, Repr

/-- A captured page of a checkpoint (R322, R327). -/
structure PageCopy where
  va : Nat
  size : Nat
  frame : Nat
  /-- The address of its leaf entry, which names the page in every table that leads to it. -/
  at_ : Nat
  bytes : Table Byte
  /-- Marks of its granules and integrity tags of its sectors. -/
  grans : Table Gran
  tags : Table (BitVec 24)
  snap : Nat
  deriving DecidableEq, Repr

/-- An image of the code heap as it stood at a cut: its install record, its page's leaf entry, its bytes as stored and their tags
(R383). -/
structure ImageCopy where
  rec_ : Install
  leaf : Word
  bytes : Table Byte
  tags : Table (BitVec 24)
  deriving DecidableEq, Repr

/-- An entry of a manifest part (R327). -/
structure ManEntry where
  place : Word
  size : Nat
  store : BitVec 16
  kind : BitVec 8
  snap : Nat
  addr : Word
  hash : BitVec 256
  /-- The address of a page's leaf entry, which is not in the entry's bytes; 0 for another item. -/
  leaf : Nat
  deriving DecidableEq, Repr

/-- The coordinator's root record (R328): each package with the address and the hash of its part, and the record's hash. -/
structure Root where
  num : Nat
  job : BitVec 16
  count : Nat
  prev : Nat
  parts : List (BitVec 16 × Word × BitVec 256)
  hash : BitVec 256
  deriving DecidableEq, Repr

/-- What one package stores of a snapshot (R318, R319, R327). -/
structure Ckpt where
  num : Nat
  manifest : List ManEntry
  ctxs : Table Ctx
  tasks : List Task
  tiles : Table Tile
  ttiles : Table TaskTile
  chains : List Chain
  pool : Table Byte
  grans : Table Gran
  banks : List Nat
  pages : List PageCopy
  /-- Images of the code heap that captured contexts are in (R383). -/
  images : List ImageCopy
  log : List Logged
  dirty : List Nat
  /-- Where its manifest part stands in the store, and the part's hash (R327, R328). -/
  addr : Word
  hash : BitVec 256
  deriving DecidableEq, Repr

/-- A channel on which a marker is awaited or has come (R324): sender, plane, virtual channel. -/
structure Chan where
  src : BitVec 16
  plane : BitVec 5
  vc : BitVec 2
  deriving DecidableEq, Repr

/-- The snapshot unit of the package (R313 to R333). -/
structure Snap where
  cfg : Word
  store : Word
  list_ : Word
  b : BitVec 32
  k : BitVec 32
  a : BitVec 32
  inc : BitVec 16
  phase : BitVec 4
  reason : BitVec 4
  /-- Bytes of the store that are in use. -/
  used : Nat
  /-- The number of the snapshot in progress, or of the last that was; its cut tick, its cut once that is over; and the cut for which
  gangs are still halted (R316, R318). -/
  now : Nat
  cut : Option Nat
  halted : Option Nat
  /-- Snapshots that have begun and wait for the one before them to be locally complete, each with the package list that was read as
  it began (R313, R315). -/
  begin_ : List (Nat × List (BitVec 16))
  /-- The package list of the snapshot in progress, or of a rollback (R313). -/
  members : List (BitVec 16)
  marked : List (Nat × Chan)
  log : List Logged
  /-- DONE flits at the coordinator: snapshot, package, address and hash of its part (R328). -/
  done : List (Nat × BitVec 16 × Word × BitVec 256)
  /-- The dirty log and the pages that are HELD, by the addresses of their leaf entries (R321). -/
  dirty : List Nat
  full : Bool
  /-- Root tables that the job's walks have gone through (R321, log 119). -/
  tables : List Nat
  heldPages : List Nat
  heldBanks : List Nat
  /-- Traffic waiting at the package (R316), and messages waiting for a rollback (R332); each message with the highest snapshot
  number whose marker had come on its channel when it arrived (R325). -/
  waiting : List (Msg × Nat)
  hostWaiting : List HostOp
  roots : List Root
  part : Option Ckpt
  /-- The sequencer states of the snapshot in progress are in the store (R318). -/
  states : Bool
  ckpts : List Ckpt
  /-- Control flits of an incarnation that this package has not rolled back to (R332). -/
  early : List Flit
  /-- A rollback that has been asked for and has not halted its gangs: its number, its incarnation, and whether what other packages
  hold of the manifest has its hashes (R331, R332). -/
  asked : Option (Nat × BitVec 16 × Bool)
  /-- A rollback in progress: its number. -/
  rolling : Option Nat
  /-- Members that have issued ERET for it, by task. -/
  entered : List Nat
  /-- The coordinator's time limits: a snapshot and the cycle in which its limit is over (R313, R329). -/
  limits : List (Nat × Nat)
  deriving DecidableEq, Repr

/-- One Speam port (R388 to R391). -/
structure Link where
  up : Bool
  txSeq : BitVec 12
  rxNext : BitVec 12
  /-- Flits that are not acknowledged, and how often each of them has been replayed (R390). -/
  retry : List Flit
  tries : List Nat
  stops : BitVec 4
  /-- Virtual channels this port has stopped at the sender (R325). -/
  stopped : BitVec 4
  /-- Virtual channels whose receive buffer has passed its high mark and not fallen below its low mark since (R391). -/
  full : BitVec 4
  sent : Nat
  received : Nat
  replays : Nat
  stoppedCycles : Nat
  lastGood : Nat
  /-- Snapshot flits of the package's own that wait for the link or their channel, in order (R390, R391). -/
  queue : List Flit
  deriving DecidableEq, Repr

/-- An XTS key slot (R355). -/
structure XtsSlot where
  key : BitVec 256
  tdi : Option Nat
  job : BitVec 16
  deriving DecidableEq, Repr

/-- A TDI (R385): job, state (0 CONFIG_UNLOCKED, 1 CONFIG_LOCKED, 2 RUN, 3 ERROR) and stream. -/
structure Tdi where
  job : BitVec 16
  state : BitVec 2
  stream : Nat
  deriving DecidableEq, Repr

/-- A write that the device has sent to the host: bytes by address, and whether its TLP is poisoned (R289). -/
structure Tlp where
  bytes : Table Byte
  bad : Bool
  deriving DecidableEq, Repr

/-- An answer the device has given to the outside. -/
inductive Reply where
  | read (data : List (BitVec 8)) (poisoned : Bool)
  | unsupported
  | accepted
  | refusedReq
  | words (l : List Word)
  deriving DecidableEq, Repr

/-- An entry of the translation cache (R376). -/
structure CacheEntry where
  hash : BitVec 128
  tag : BitVec 16
  built : BitVec 32
  relevance : BitVec 32
  frames : Nat
  pass : BitVec 8
  frame : Nat
  used : Nat
  deriving DecidableEq, Repr

/-! ### Outside -/

/-- Where the package stands inside a cycle (log 2). -/
inductive Phase where
  | start
  | issue (l : List Nat)
  | perform
  | engines
  | effects
  | landing
  | tail
  deriving DecidableEq, Repr

/-! ### The state -/

/-- The package. -/
structure State where
  /-- GCLK (R20). -/
  gclk : Nat
  phase : Phase
  agenda : List Ev
  /-- The model's own: what the outside brings, by cycle (log 3). -/
  env : List (Nat × Ev)
  /-- The model's own: the next free value's number (log 4). -/
  free : Nat
  /-- The model's own: the next number of an access, a flight, a task or a chain. -/
  fresh : Nat
  bundle : Bundle
  seqs : Table Seq
  ctxs : Table Ctx
  tiles : Table Tile
  ttiles : Table TaskTile
  /-- Pool bytes, key 2^22 * tile key + offset; an unlisted byte is 0. -/
  pool : Table Byte
  /-- Granule marks of the pools, key 2^16 * tile key + offset / 64. -/
  poolGran : Table Gran
  /-- HBM bytes as stored, by physical address; an unlisted byte is 0. A C = 1 page's are ciphertext (R355). -/
  hbm : Table Byte
  hbmGran : Table Gran
  /-- Integrity tags of the HBM sectors, by sector number; an unlisted tag is 0 (R355). -/
  hbmTag : Table (BitVec 24)
  /-- HBM ranges that a ZEROB is zeroing: base and bytes (R358). -/
  zeroing : List (Nat × Nat)
  accs : List Acc
  books : List Booking
  /-- Bundles of this cycle that make an access over the canal, until the local bookings of the cycle stand: the bundle, its context
  before it, and whether it has committed (R254, log 92). -/
  parked : List (Bundle × Ctx × Bool)
  pending : List (Nat × Eff)
  /-- Sticky flags due in this cycle's landing, by sequencer and context (R216, R223, R238, R266). -/
  flagsDue : List (Nat × Nat × Flags)
  /-- What happens at the end of the cycle after the landings, in order. -/
  tails : List Tail
  chains : List Chain
  tasks : List Task
  lqs : Table LQueue
  schedcfg : Table (BitVec 8)
  tickK : BitVec 5
  tickNext : BitVec 5
  health : Word
  preq : Word
  tickstop : Word
  /-- Every clock is gated (R363). -/
  stopped : Bool
  power : Bool
  trcctl : Word
  trcPos : Nat
  ftbase : Word
  tlb : List Tlb
  lanes : Table (BitVec 8)
  /-- Die boundaries that run at half width (R394). -/
  half : List Nat
  snap : Snap
  /-- This package's number (R313). -/
  pkg : BitVec 16
  links : Table Link
  outbox : List Flit
  /-- Data flits of messages that have not ended, by channel. -/
  partials : List (Chan × List Flit)
  /-- TELCFG, whether a composite sample was dropped, and the values of the sample before (R396). -/
  telcfg : Word
  telDropped : Bool
  telLast : Table Word
  resetctl : Word
  /-- The tile and die resets that RESETCTL has asked for and that are not done (R401). -/
  resetWaits : List Word
  gcm : Table GcmSlot
  xts : Table XtsSlot
  tdis : Table Tdi
  fwActive : FwBank
  fwInactive : FwBank
  /-- Service tiles that still run the old bank after an activation (R398). -/
  fwSwitch : List Nat
  /-- An activation waits for the end of a snapshot or rollback (R398). -/
  fwPending : Bool
  /-- Tiles under reset, each with the last cycle of it (R402). -/
  resets : List (Nat × Nat)
  /-- The die boundaries under repair, each with the first cycle after it (R394). -/
  laneUntil : Table Nat
  errata : BitVec 32
  cfg : CfgRec
  cache : List CacheEntry
  installs : List Install
  replies : List Reply
  /-- Writes to the host, in order. -/
  tlps : List Tlp
  /-- Counters of PCIe bytes read and written (R396). -/
  pcieIn : Nat
  pcieOut : Nat
  /-- Counters of bytes read and written by HBM stack, and of retries by die boundary (R396). -/
  hbmRead : Table Nat
  hbmWritten : Table Nat
  ucieRetries : Table Nat
  /-- The trim of the arithmetic clock that the last time flit has brought, in parts per million (R392). -/
  trim : Int
  deriving DecidableEq, Repr

/-- Why the machine stops with a fault: there is no such reason. The part reports every error by a cause, a completion
record or a freeze, after each of which it goes on (R22, R302, R343); no step of this model faults, which is safe. -/
inductive Fault where
  deriving DecidableEq, Repr

/-- Why the model refuses a step. -/
inductive Refusal where
  /-- An instruction whose meaning is not written yet; safe: nothing is claimed of it. -/
  | notModelled (mnemonic : String)
  deriving DecidableEq, Repr

/-! ### Reset -/

/-- A context at creation, and context 0 after reset (R46, R84, R155, R208, log 13). -/
def Ctx.init : Ctx :=
  { q := [], vq := [], keeps := [], preds := [], xb := Vec.void, flags := Flags.none, pos := 0, entry := none,
    countdown := none, loops := [], flights := [], nest := List.replicate 6 ⟨1, 0, 0, 0, 0⟩,
    cfg := ⟨0, 0, false, 1, 1⟩, katHash := 0, katExp := 0, partw := 0, jobid := 0, ctrmask := 0, ptbase := 0,
    conf := 0, hdsel := 0, dbgsel := 0, handles := [], waits := [], done := false, bpx := false, task := none,
    ran := 0, stated := none, back := [] }

/-- No bundle is issuing. -/
def Bundle.idle : Bundle :=
  { active := false, seq := 0, ctx := 0, pos := 0, size := 0, yieldRun := none, number := 0, focus := .hdr, todo := [],
    found := [], flights := [], accs := [], effs := [], books := [], starts := [], vpipe := ⟨Vec.void, [], Flags.none, false, false⟩,
    exit := false, cross := none, target := .none, pops := 0, push := none, waits := [], post := none, micro := false, temps := [],
    cond := [], own := (0, 0, 0) }

/-- A compute sequencer after reset: halted for bring-up, its registers as R338 and R342 give them (log 12). -/
def Seq.init : Seq :=
  { active := none, halt := .bringup, serving := false, inter := none, saved0 := none, tcause := 0, tval := 0, tbundle := 0, tstat := 0,
    tvec := 0, dbgctl := 0, bph := [], remsel := 0, tend := false, pend := [], chamA := none, chamB := none,
    inB := false, pages := [], launches := [], remq := [], hold := none, bundles := 0, micro := none, microOld := none, issueCycles := 0,
    frozenCycles := 0, ctx0Cycles := 0, seenVg := [] }

/-- A counter after cold reset (R301). -/
def Counter.init : Counter := ⟨0, 0, 0, 0⟩

/-- A ring handle that is not bound (R308). -/
def Ring.init : Ring := ⟨none, 0, 0, 0, 0, 0⟩

/-- A bank that no task claims. -/
def Bank.init : Bank := ⟨none, none, .free, false, false, none, none⟩

/-- A tile after cold reset (R402). -/
def Tile.init : Tile :=
  { counters := [], rings := [], banks := [], slotTags := [], bands := [], regTags := [], regMarks := [],
    nestA := none, nestB := none, katA := none, katB := none, vg := none, origin := 0, gone := false, mxeCycles := 0,
    vgCycles := 0, cpeBytes := 0 }

/-- A task's tile state at its start (R198, R212, R235). -/
def TaskTile.init : TaskTile := ⟨0, [], [], [], [], []⟩

/-- A granule without a mark. -/
def Gran.clean : Gran := ⟨.clean, false⟩

/-- A launch queue after reset (R134). -/
def LQueue.init : LQueue := ⟨0, false, false, false, 0, 0, 0, 3, 0, []⟩

/-- A port after reset, before its link has trained (log 12). -/
def Link.init : Link := ⟨false, 0, 0, [], [], 0, 0, 0, 0, 0, 0, 0, 0, []⟩

/-- The snapshot unit after reset (R313, R314, log 12). -/
def Snap.init : Snap :=
  { cfg := 0, store := 0, list_ := 0, b := 0, k := 0, a := 0, inc := 0, phase := 0, reason := 0, used := 0, now := 0,
    cut := none, halted := none, begin_ := [], members := [], marked := [], log := [], done := [], dirty := [], full := false, tables := [],
    heldPages := [], heldBanks := [], waiting := [], early := [], hostWaiting := [], roots := [], part := none, states := false, ckpts := [], asked := none,
    rolling := none, entered := [], limits := [] }

/-- The firmware bank whose header values stand for the flash's contents (R342, R398, log 8). -/
def FwBank.init : FwBank := ⟨0, 0, 0, 0, 0, true, 0⟩

/-- The configuration record at reset (R399, log 11). -/
def CfgRec.init : CfgRec :=
  { magic := 0xD7A1C0F6, version := 0, svn := 0, serial := 0, tileMap := [], repairs := [], bins := [], heapBase := 0,
    heapSize := 0x4000000, health := 0, reserved := [], signed := true, content := 0 }

/-- The context 0 of a service-tile sequencer at the bank's entry (R342). -/
def Ctx.service (f : FwBank) : Ctx := { Ctx.init with pos := f.entry, entry := some (f.entry, 2), ptbase := f.ptbase }

/-- A service-tile sequencer after reset (R342). -/
def Seq.service (f : FwBank) : Seq := { Seq.init with active := some 0, halt := .run, tvec := f.tvec }

/-- The sequencer keys of the four service tiles. -/
def serviceSeqs : List Nat := [128, 129, 258, 259, 388, 389, 518, 519]

/-- The package right after cold reset (R402): GCLK 0, every register at its reset value, memories zero. -/
def State.reset : State :=
  { gclk := 0, phase := .start, agenda := [], env := [], free := 0, fresh := 0, bundle := Bundle.idle,
    seqs := serviceSeqs.map (fun x => (x, Seq.service FwBank.init)),
    ctxs := serviceSeqs.map (fun x => (4 * x, Ctx.service FwBank.init)),
    tiles := [], ttiles := [], pool := [], poolGran := [], hbm := [], hbmGran := [], hbmTag := [], zeroing := [], accs := [], books := [], parked := [],
    pending := [], flagsDue := [], tails := [], chains := [], tasks := [], lqs := [], schedcfg := [], tickK := 8, tickNext := 8,
    health := 0, preq := 0, tickstop := 0, stopped := false, power := true, trcctl := 0, trcPos := 0, ftbase := 0,
    tlb := [], lanes := [], half := [], snap := Snap.init, pkg := 0, links := [], outbox := [], partials := [],
    telcfg := 20 <<< 58, telDropped := false, telLast := [], resetctl := 0, resetWaits := [], gcm := [], xts := [],
    tdis := [], fwActive := FwBank.init, fwInactive := { FwBank.init with content := 1 }, fwSwitch := [], fwPending := false, resets := [], laneUntil := [], errata := 0, cfg := CfgRec.init,
    cache := [], installs := [], replies := [], tlps := [], pcieIn := 0, pcieOut := 0, hbmRead := [], hbmWritten := [], ucieRetries := [], trim := 0 }

end Sys2Proof.Machine
end

