-- ==== Sys2Proof/Machine/Flags.lean ====
section
/-! DEFINITION. The sticky flags: their combination, their word and the sets an operation gives (R96, R160, R302, R340). -/

namespace Sys2Proof.Machine

/-- The OR of two flag sets (R96, R160). -/
def Flags.or (a b : Flags) : Flags :=
  ⟨a.voidrd || b.voidrd, a.invalid || b.invalid, a.divzero || b.divzero, a.overflow || b.overflow,
    a.underflow || b.underflow, a.inexact || b.inexact⟩

/-- INVALID alone. -/
def Flags.inv : Flags := { Flags.none with invalid := true }

/-- INVALID where the condition holds. -/
def Flags.invIf (b : Bool) : Flags := { Flags.none with invalid := b }

/-- DIVZERO alone. -/
def Flags.dz : Flags := { Flags.none with divzero := true }

/-- INEXACT where the condition holds. -/
def Flags.inxIf (b : Bool) : Flags := { Flags.none with inexact := b }

/-- OVERFLOW with INEXACT. -/
def Flags.ovf : Flags := { Flags.none with overflow := true, inexact := true }

/-- FLAGS as a word (R340). -/
def Flags.toWord (f : Flags) : Word :=
  BitVec.ofNat 64 (f.voidrd.toNat * 32 + f.invalid.toNat * 16 + f.divzero.toNat * 8 + f.overflow.toNat * 4
    + f.underflow.toNat * 2 + f.inexact.toNat)

/-- FLAGS from a word; reserved bits are dropped (R5, R340). -/
def Flags.ofWord (w : Word) : Flags :=
  ⟨w.getLsbD 5, w.getLsbD 4, w.getLsbD 3, w.getLsbD 2, w.getLsbD 1, w.getLsbD 0⟩

/-- The five sticky flags of a completion record, INVALID down to INEXACT (R302). -/
def Flags.five (f : Flags) : Nat :=
  f.invalid.toNat * 16 + f.divzero.toNat * 8 + f.overflow.toNat * 4 + f.underflow.toNat * 2 + f.inexact.toNat

end Sys2Proof.Machine
end

