-- ==== Sys2Proof/Machine/Float.lean ====
section
/-! DEFINITION. Number formats: exact values, one rounding to nearest-even, IEEE arithmetic, conversions and the
transcendentals (R93 to R96, R162, R173, R184 to R195). A code is a natural number below 2 to the format's width. -/

namespace Sys2Proof.Machine

/-! ### Formats (R184) -/

/-- What a format's largest exponent codes hold. -/
inductive Special where
  /-- Infinities and NaNs, as F64. -/
  | ieee
  /-- One NaN code of each sign, no infinity: E4M3. -/
  | nanOnly
  /-- Neither. -/
  | none
  deriving DecidableEq, Repr

/-- A floating format: exponent bits, fraction bits, bias. -/
structure Fmt where
  eb : Nat
  fb : Nat
  bias : Nat
  sp : Special
  deriving DecidableEq, Repr

def fmtF64 : Fmt := ⟨11, 52, 1023, .ieee⟩
def fmtF32 : Fmt := ⟨8, 23, 127, .ieee⟩
def fmtBF16 : Fmt := ⟨8, 7, 127, .ieee⟩
def fmtF16 : Fmt := ⟨5, 10, 15, .ieee⟩
def fmtE5M2 : Fmt := ⟨5, 2, 15, .ieee⟩
def fmtE4M3 : Fmt := ⟨4, 3, 7, .nanOnly⟩
def fmtE3M2 : Fmt := ⟨3, 2, 3, .none⟩
def fmtE2M3 : Fmt := ⟨2, 3, 1, .none⟩
def fmtE2M1 : Fmt := ⟨2, 1, 1, .none⟩

/-- The floating format of a tag. -/
def fmtOf (t : Tag) : Option Fmt :=
  match t.toNat with
  | 1 => some fmtF64
  | 2 => some fmtF32
  | 3 => some fmtBF16
  | 4 => some fmtF16
  | 5 => some fmtE5M2
  | 6 => some fmtE4M3
  | 7 => some fmtE3M2
  | 8 => some fmtE2M3
  | 9 => some fmtE2M1
  | _ => none

/-- The weight of the sign bit. -/
def Fmt.sign (f : Fmt) : Nat := 2 ^ (f.eb + f.fb)

/-- The code of the largest finite magnitude (R184). -/
def Fmt.maxMag (f : Fmt) : Nat :=
  match f.sp with
  | .ieee => (2 ^ f.eb - 1) * 2 ^ f.fb - 1
  | .nanOnly => 2 ^ (f.eb + f.fb) - 2
  | .none => 2 ^ (f.eb + f.fb) - 1

/-- The code of infinity; meaningful for IEEE formats. -/
def Fmt.infMag (f : Fmt) : Nat := (2 ^ f.eb - 1) * 2 ^ f.fb

/-- The canonical NaN (R185). -/
def Fmt.nan (f : Fmt) : Nat :=
  match f.sp with
  | .ieee => (2 ^ f.eb - 1) * 2 ^ f.fb + 2 ^ (f.fb - 1)
  | .nanOnly => 2 ^ (f.eb + f.fb) - 1
  | .none => 2 ^ (f.eb + f.fb) - 1

/-- An exact value: a signed zero, ± m × 2^e with m above 0, an infinity, or a NaN (signalling or quiet). -/
inductive FV where
  | zero (neg : Bool)
  | fin (neg : Bool) (m : Nat) (e : Int)
  | inf (neg : Bool)
  | nan (neg signalling : Bool)
  deriving DecidableEq, Repr

/-- The value of a code (R184, R185). Bits above the format are ignored (R186). -/
def Fmt.decode (f : Fmt) (code : Nat) : FV :=
  let c := code % (2 * f.sign)
  let neg := decide (f.sign ≤ c)
  let mag := c % f.sign
  let e := mag / 2 ^ f.fb
  let fr := mag % 2 ^ f.fb
  if f.sp = .ieee ∧ e = 2 ^ f.eb - 1 then
    if fr = 0 then .inf neg
    else .nan neg (decide (f.fb > 2) && decide (fr < 2 ^ (f.fb - 1)))
  else if f.sp = .nanOnly ∧ mag = f.sign - 1 then .nan neg false
  else if mag = 0 then .zero neg
  else if e = 0 then .fin neg fr (1 - (f.bias : Int) - f.fb)
  else .fin neg (2 ^ f.fb + fr) ((e : Int) - f.bias - f.fb)

/-- A code's sign. -/
def Fmt.signed (f : Fmt) (neg : Bool) (mag : Nat) : Nat := if neg then f.sign + mag else mag

/-- m × 2^e rounded to nearest, ties to even, without an upper limit on the exponent: the magnitude code, and whether the
rounding changed the value. `sticky` says that the exact value is a little above m × 2^e, by less than one unit of m (R191). -/
def Fmt.roundMag (f : Fmt) (m : Nat) (e : Int) (sticky : Bool) : Nat × Bool :=
  let emin : Int := 1 - f.bias
  let top : Int := (Nat.log2 m : Int) + e
  let base : Int := if top < emin then emin else top
  let q : Int := base - f.fb
  let k : Nat := (base - emin).toNat
  if q ≤ e then (k * 2 ^ f.fb + m * 2 ^ (e - q).toNat, sticky)
  else
    let sh := (q - e).toNat
    let n := m / 2 ^ sh
    let r := m % 2 ^ sh
    let half := 2 ^ (sh - 1)
    let up := decide (half < r) || (decide (r = half) && (sticky || decide (n % 2 = 1)))
    (k * 2 ^ f.fb + n + up.toNat, decide (r ≠ 0) || sticky)

/-- The flags of a rounded magnitude in range (R96, R191). "Tiny after rounding" is tested on the rounded code for arithmetic as R191
has it for conversions, which is the model's reading (log 89). -/
def Fmt.roundFlags (f : Fmt) (mag : Nat) (inx : Bool) : Flags :=
  { Flags.none with inexact := inx, underflow := inx && decide (mag < 2 ^ f.fb) }

/-- One arithmetic rounding: overflow goes to infinity (R93, R162, R216). -/
def Fmt.arith (f : Fmt) (neg : Bool) (m : Nat) (e : Int) (sticky : Bool) : Nat × Flags :=
  let (mag, inx) := f.roundMag m e sticky
  if f.maxMag < mag then (f.signed neg f.infMag, Flags.ovf)
  else (f.signed neg mag, f.roundFlags mag inx)

/-- One conversion rounding: saturates to the largest finite magnitude (R191). -/
def Fmt.sat (f : Fmt) (neg : Bool) (m : Nat) (e : Int) : Nat × Flags :=
  let (mag, inx) := f.roundMag m e false
  if f.maxMag < mag then (f.signed neg f.maxMag, Flags.ovf)
  else (f.signed neg mag, f.roundFlags mag inx)

/-- An exact value rounded for arithmetic; a NaN is the canonical one (R185). -/
def Fmt.ofFV (f : Fmt) (v : FV) : Nat × Flags :=
  match v with
  | .zero n => (f.signed n 0, Flags.none)
  | .fin n m e => f.arith n m e false
  | .inf n => (f.signed n f.infMag, Flags.none)
  | .nan _ _ => (f.nan, Flags.none)

/-! ### Exact arithmetic -/

/-- An integer times a power of two, as a value; zero is +0. -/
def FV.ofInt (i : Int) (e : Int) : FV :=
  if i = 0 then .zero false else .fin (decide (i < 0)) i.natAbs e

/-- The signed mantissa. -/
def signedMant (neg : Bool) (m : Nat) : Int := if neg then -(m : Int) else m

/-- The sign inverted. -/
def FV.neg : FV → FV
  | .zero n => .zero (!n)
  | .fin n m e => .fin (!n) m e
  | .inf n => .inf (!n)
  | .nan n q => .nan n q

/-- A signalling NaN. -/
def FV.snan : FV → Bool
  | .nan _ q => q
  | _ => false

/-- A NaN. -/
def FV.isNan : FV → Bool
  | .nan _ _ => true
  | _ => false

/-- The exact sum; ∞ − ∞ is a NaN with INVALID (R93). A zero sum of unlike terms is +0. -/
def FV.add (a b : FV) : FV × Flags :=
  match a, b with
  | .nan n q, y => (.nan n false, Flags.invIf (q || y.snan))
  | x, .nan n q => (.nan n false, Flags.invIf (q || x.snan))
  | .inf n, .inf m => if n = m then (.inf n, Flags.none) else (.nan false false, Flags.inv)
  | .inf n, _ => (.inf n, Flags.none)
  | _, .inf m => (.inf m, Flags.none)
  | .zero n, .zero m => (.zero (n && m), Flags.none)
  | .zero _, y => (y, Flags.none)
  | x, .zero _ => (x, Flags.none)
  | .fin n m e, .fin n' m' e' =>
    let lo := if e ≤ e' then e else e'
    (FV.ofInt (signedMant n m * 2 ^ (e - lo).toNat + signedMant n' m' * 2 ^ (e' - lo).toNat) lo, Flags.none)

/-- The exact product; 0 × ∞ is a NaN with INVALID. -/
def FV.mul (a b : FV) : FV × Flags :=
  match a, b with
  | .nan n q, y => (.nan n false, Flags.invIf (q || y.snan))
  | x, .nan n q => (.nan n false, Flags.invIf (q || x.snan))
  | .inf _, .zero _ => (.nan false false, Flags.inv)
  | .zero _, .inf _ => (.nan false false, Flags.inv)
  | .inf n, .inf m => (.inf (n != m), Flags.none)
  | .inf n, .fin m _ _ => (.inf (n != m), Flags.none)
  | .fin n _ _, .inf m => (.inf (n != m), Flags.none)
  | .zero n, .zero m => (.zero (n != m), Flags.none)
  | .zero n, .fin m _ _ => (.zero (n != m), Flags.none)
  | .fin n _ _, .zero m => (.zero (n != m), Flags.none)
  | .fin n m e, .fin n' m' e' => (.fin (n != n') (m * m') (e + e'), Flags.none)

/-- Scaling by a power of two is exact (R200, R207). -/
def FV.scale (a : FV) (k : Int) : FV :=
  match a with
  | .fin n m e => .fin n m (e + k)
  | x => x

/-- Order of two values that are not NaN: a < b; −0 equals +0. -/
def FV.lt (a b : FV) : Bool :=
  match a, b with
  | .inf n, .inf m => n && !m
  | .inf n, _ => n
  | _, .inf m => !m
  | .zero _, .zero _ => false
  | .zero _, .fin n _ _ => !n
  | .fin n _ _, .zero _ => n
  | .fin n m e, .fin n' m' e' =>
    let lo := if e ≤ e' then e else e'
    decide (signedMant n m * 2 ^ (e - lo).toNat < signedMant n' m' * 2 ^ (e' - lo).toNat)
  | _, _ => false

/-- Equality of two values that are not NaN. -/
def FV.eq (a b : FV) : Bool := !a.isNan && !b.isNan && !a.lt b && !b.lt a

/-- The sign of a value. -/
def FV.sign : FV → Bool
  | .zero n => n
  | .fin n _ _ => n
  | .inf n => n
  | .nan n _ => n

/-! ### Arithmetic on codes (R93, R162) -/

/-- Rounded result of an exact operation. -/
def Fmt.finish (f : Fmt) (r : FV × Flags) : Nat × Flags :=
  let (c, g) := f.ofFV r.1
  (c, r.2.or g)

def Fmt.add (f : Fmt) (a b : Nat) : Nat × Flags := f.finish ((f.decode a).add (f.decode b))

def Fmt.sub (f : Fmt) (a b : Nat) : Nat × Flags :=
  let y := f.decode b
  f.finish ((f.decode a).add y.neg)

def Fmt.mul (f : Fmt) (a b : Nat) : Nat × Flags := f.finish ((f.decode a).mul (f.decode b))

/-- Division (R93): x ÷ 0 is an infinity with DIVZERO; 0 ÷ 0 and ∞ ÷ ∞ are NaN with INVALID. -/
def Fmt.div (f : Fmt) (a b : Nat) : Nat × Flags :=
  let x := f.decode a
  let y := f.decode b
  match x, y with
  | .nan _ q, y => (f.nan, Flags.invIf (q || y.snan))
  | _, .nan _ q => (f.nan, Flags.invIf q)
  | .inf _, .inf _ => (f.nan, Flags.inv)
  | .zero _, .zero _ => (f.nan, Flags.inv)
  | .inf n, y => (f.signed (n != y.sign) f.infMag, Flags.none)
  | .fin n _ _, .zero m => (f.signed (n != m) f.infMag, Flags.dz)
  | .zero n, y => (f.signed (n != y.sign) 0, Flags.none)
  | .fin n _ _, .inf m => (f.signed (n != m) 0, Flags.none)
  | .fin n m e, .fin n' m' e' =>
    let k := f.fb + 4 + Nat.log2 m' + 1
    let num := m * 2 ^ k
    f.arith (n != n') (num / m') (e - e' - k) (decide (num % m' ≠ 0))

/-- Integer square root, one bit a time from bit `k` down. -/
def isqrtAux : Nat → Nat → Nat → Nat
  | 0, _, r => r
  | k + 1, n, r =>
    let t := r + 2 ^ k
    isqrtAux k n (if t * t ≤ n then t else r)

/-- The largest r with r × r ≤ n. -/
def isqrt (n : Nat) : Nat := isqrtAux (Nat.log2 n / 2 + 1) n 0

/-- Square root (R93): −0 is −0; any other negative value is NaN with INVALID. -/
def Fmt.sqrt (f : Fmt) (a : Nat) : Nat × Flags :=
  match f.decode a with
  | .nan _ q => (f.nan, Flags.invIf q)
  | .zero n => (f.signed n 0, Flags.none)
  | .inf false => (f.infMag, Flags.none)
  | .inf true => (f.nan, Flags.inv)
  | .fin true _ _ => (f.nan, Flags.inv)
  | .fin false m e =>
    let k := 2 * (f.fb + 4) + (if e % 2 = 0 then 0 else 1)
    let n := m * 2 ^ k
    let r := isqrt n
    f.arith false r ((e - k) / 2) (decide (r * r ≠ n))

/-- The lesser number; −0 is below +0; a NaN gives way (R93, R162). -/
def Fmt.minmax (f : Fmt) (max : Bool) (a b : Nat) : Nat × Flags :=
  let x := f.decode a
  let y := f.decode b
  let fl := Flags.invIf (x.snan || y.snan)
  if x.isNan && y.isNan then (f.nan, fl)
  else if x.isNan then (b % (2 * f.sign), fl)
  else if y.isNan then (a % (2 * f.sign), fl)
  else
    let less := x.lt y || (x.eq y && x.sign && !y.sign)
    (if less != max then a % (2 * f.sign) else b % (2 * f.sign), fl)

/-- A comparison and its flags: quiet NaNs set INVALID under lt and le only (R94, R164). -/
def Fmt.cmp (f : Fmt) (c : FCond) (a b : Nat) : Bool × Flags :=
  let x := f.decode a
  let y := f.decode b
  let un := x.isNan || y.isNan
  let sig := x.snan || y.snan
  match c with
  | .eq => (!un && x.eq y, Flags.invIf sig)
  | .ne => (un || !x.eq y, Flags.invIf sig)
  | .lt => (!un && x.lt y, Flags.invIf un)
  | .le => (!un && (x.lt y || x.eq y), Flags.invIf un)
  | .un => (un, Flags.invIf sig)

/-! ### Conversions (R191 to R193) -/

/-- The integer range of a width. -/
def intMin (signed : Bool) (w : Nat) : Int := if signed then -(2 ^ (w - 1) : Int) else 0
def intMax (signed : Bool) (w : Nat) : Int := if signed then 2 ^ (w - 1) - 1 else 2 ^ w - 1

/-- An integer's code of width w. -/
def intCode (w : Nat) (i : Int) : Nat := (BitVec.ofInt w i).toNat

/-- The integer a code of width w stands for. -/
def intVal (signed : Bool) (w : Nat) (c : Nat) : Int :=
  if signed then (BitVec.ofNat w c).toInt else ((c % 2 ^ w : Nat) : Int)

/-- Saturation to an integer range. -/
def clampInt (signed : Bool) (w : Nat) (i : Int) : Int :=
  if i < intMin signed w then intMin signed w else if intMax signed w < i then intMax signed w else i

/-- m × 2^e rounded to an integer, ties to even, and whether that changed it. -/
def roundInt (m : Nat) (e : Int) : Nat × Bool :=
  if 0 ≤ e then (m * 2 ^ e.toNat, false)
  else
    let sh := (-e).toNat
    let n := m / 2 ^ sh
    let r := m % 2 ^ sh
    let half := 2 ^ (sh - 1)
    let up := decide (half < r) || (decide (r = half) && decide (n % 2 = 1))
    (n + up.toNat, decide (r ≠ 0))

/-- A value to an integer format (R95, R192, R193). -/
def toInt (signed : Bool) (w : Nat) (v : FV) : Nat × Flags :=
  let lim : Bool → Nat := fun n => intCode w (if n then intMin signed w else intMax signed w)
  match v with
  | .zero _ => (0, Flags.none)
  | .inf n => (lim n, Flags.inv)
  | .nan n _ => (lim n, Flags.inv)
  | .fin n m e =>
    let (r, inx) := roundInt m e
    let i := signedMant n r
    if i < intMin signed w ∨ intMax signed w < i then (lim n, Flags.inv)
    else (intCode w i, Flags.inxIf inx)

/-- A value to a floating format, saturating (R191, R192). -/
def Fmt.convert (f : Fmt) (v : FV) : Nat × Flags :=
  match v with
  | .zero n => (f.signed n 0, Flags.none)
  | .fin n m e => f.sat n m e
  | .inf n => if f.sp = .ieee then (f.signed n f.infMag, Flags.none) else (f.signed n f.maxMag, Flags.ovf)
  | .nan n q => if f.sp = .none then (f.signed n f.maxMag, Flags.inv) else (f.nan, Flags.invIf q)

/-- The exact value of an element of a tag. -/
def elemVal (t : Tag) (c : Nat) : FV :=
  match fmtOf t with
  | some f => f.decode c
  | none => FV.ofInt (intVal (tagSigned t) (esz t) c) 0

/-- The code of an element as a conversion reads it: a 6-bit element ignores bits [7:6] of its byte (R186). -/
def codeOf (t : Tag) (c : Nat) : Nat := if t = tE3M2 ∨ t = tE2M3 then c % 64 else c

/-- rne_sat of an element of tag s into tag t (R8, R186, R191 to R193): an integer into an integer saturates without a flag. E3M2 and
E2M3 into themselves clear bits [7:6] (R186 against R195, log 112). -/
def convElem (s t : Tag) (c : Nat) : Nat × Flags :=
  let c := codeOf s c
  if s = t then (c % 2 ^ esz t, Flags.none)
  else
    match fmtOf t with
    | some f => f.convert (elemVal s c)
    | none =>
      match fmtOf s with
      | some g => toInt (tagSigned t) (esz t) (g.decode c)
      | none =>
        (intCode (esz t) (clampInt (tagSigned t) (esz t) (intVal (tagSigned s) (esz s) c)), Flags.none)

/-! ### Transcendentals (R173)

Each value is enclosed between two integers scaled by 2 to the power `prec`; where both bounds round alike the rounding of
the exact value is that one (log 17). -/

/-- Fraction bits of the enclosures. -/
def prec : Nat := 160

/-- One. -/
def fxOne : Nat := 2 ^ prec

/-- An enclosure: low and high bound. -/
abbrev Encl := Nat × Nat

/-- Product of two enclosures of non-negative numbers. -/
def fxMul (a b : Encl) : Encl := (a.1 * b.1 / fxOne, a.2 * b.2 / fxOne + 1)

/-- Quotient of two enclosures, the divisor's low bound above 0. -/
def fxDiv (a b : Encl) : Encl := (a.1 * fxOne / b.2, a.2 * fxOne / b.1 + 1)

/-- Σ x^k / k! for k from 1, the terms after the n-th bounded by the last one. -/
def expSeries : Nat → Nat → Encl → Encl → Encl → Encl
  | 0, _, _, term, acc => (acc.1, acc.2 + term.2 + 1)
  | n + 1, k, x, term, acc =>
    let t := fxMul term x
    let t' : Encl := (t.1 / k, t.2 / k + 1)
    expSeries n (k + 1) x t' (acc.1 + t'.1, acc.2 + t'.2)

/-- e^x for 0 ≤ x ≤ 1. -/
def fxExp (x : Encl) : Encl := expSeries 60 1 x (fxOne, fxOne) (fxOne, fxOne)

/-- Σ z^(2k+1) / (2k+1) for 0 ≤ z ≤ 1/2, the tail bounded by the last term. -/
def atanhSeries : Nat → Nat → Encl → Encl → Encl → Encl
  | 0, _, _, p, acc => (acc.1, acc.2 + p.2 + 1)
  | n + 1, k, z2, p, acc =>
    let p' := fxMul p z2
    atanhSeries n (k + 2) z2 p' (acc.1 + p'.1 / k, acc.2 + p'.2 / k + 1)

/-- artanh z. -/
def fxAtanh (z : Encl) : Encl := atanhSeries 110 3 (fxMul z z) z z

/-- ln 2 = 2 artanh (1/3). -/
def fxLn2 : Encl :=
  let t := fxAtanh (fxOne / 3, fxOne / 3 + 1)
  (2 * t.1, 2 * t.2)

/-- The two bounds, as m × 2^e, round to one code: that code, inexact. Otherwise the free value (log 17). -/
def roundEncl (f : Fmt) (fn code : Nat) (neg : Bool) (v : Encl) (e : Int) : Nat × Flags :=
  let lo := f.arith neg v.1 (e - prec) true
  let hi := f.arith neg v.2 (e - prec) false
  if v.1 ≠ 0 ∧ lo.1 = hi.1 then (lo.1, lo.2.or (Flags.inxIf true))
  else (Config.transcendental fn f.eb code, Flags.inxIf true)

/-- A fixed-point enclosure of m × 2^e, for values below 2^20. -/
def fxOf (m : Nat) (e : Int) : Encl :=
  let k : Int := e + prec
  if 0 ≤ k then (m * 2 ^ k.toNat, m * 2 ^ k.toNat)
  else (m / 2 ^ (-k).toNat, m / 2 ^ (-k).toNat + 1)

/-- e^x for any non-negative enclosure below 2^20: whole powers of two taken out by ln 2. -/
def fxExpBig (x : Encl) : Encl × Nat :=
  let n := x.1 / fxLn2.2
  let r : Encl := (x.1 - n * fxLn2.2, x.2 - n * fxLn2.1)
  (fxExp r, n)

/-- 2^x. -/
def Fmt.exp2 (f : Fmt) (c : Nat) : Nat × Flags :=
  match f.decode c with
  | .nan _ q => (f.nan, Flags.invIf q)
  | .zero _ => f.arith false 1 0 false
  | .inf true => (0, Flags.none)
  | .inf false => (f.infMag, Flags.none)
  | .fin n m e =>
    if 20 ≤ (Nat.log2 m : Int) + e then
      if n then (0, { Flags.none with underflow := true, inexact := true }) else (f.infMag, Flags.ovf)
    else if 0 ≤ e then f.arith false 1 (signedMant n (m * 2 ^ e.toNat)) false
    else
      let sh := (-e).toNat
      let ip : Int := signedMant n m / 2 ^ sh
      let fr : Nat := ((signedMant n m) % 2 ^ sh).toNat
      if fr = 0 then f.arith false 1 ip false
      else roundEncl f 2 c false (fxExp (fxMul (fxOf fr e) fxLn2)) ip

/-- log2 x. -/
def Fmt.log2 (f : Fmt) (c : Nat) : Nat × Flags :=
  match f.decode c with
  | .nan _ q => (f.nan, Flags.invIf q)
  | .zero _ => (f.signed true f.infMag, Flags.dz)
  | .inf true => (f.nan, Flags.inv)
  | .inf false => (f.infMag, Flags.none)
  | .fin true _ _ => (f.nan, Flags.inv)
  | .fin false m e =>
    let l := Nat.log2 m
    let ex : Int := l + e
    if m = 2 ^ l then
      if ex = 0 then (0, Flags.none) else f.arith (decide (ex < 0)) ex.natAbs 0 false
    else
      -- log2 (m / 2^l) = 2 artanh ((m - 2^l) / (m + 2^l)) / ln 2, in (0, 1)
      let z := fxDiv (fxOf (m - 2 ^ l) 0) (fxOf (m + 2 ^ l) 0)
      let t := fxAtanh z
      let g := fxDiv (2 * t.1, 2 * t.2) fxLn2
      if 0 ≤ ex then roundEncl f 3 c false (ex.toNat * fxOne + g.1, ex.toNat * fxOne + g.2) 0
      else
        let w := ex.natAbs * fxOne
        roundEncl f 3 c true (w - g.2, w - g.1) 0

/-- 1 ÷ x. -/
def Fmt.rcp (f : Fmt) (c : Nat) : Nat × Flags := f.div (f.bias * 2 ^ f.fb) c

/-- 1 ÷ √x. -/
def Fmt.rsq (f : Fmt) (c : Nat) : Nat × Flags :=
  match f.decode c with
  | .nan _ q => (f.nan, Flags.invIf q)
  | .zero n => (f.signed n f.infMag, Flags.dz)
  | .inf false => (0, Flags.none)
  | .inf true => (f.nan, Flags.inv)
  | .fin true _ _ => (f.nan, Flags.inv)
  | .fin false m e =>
    -- 1/√(m 2^e) = √(2^(2k)/m') 2^(-k - e'/2) with e' even
    let m' := if e % 2 = 0 then m else 2 * m
    let e' : Int := if e % 2 = 0 then e else e - 1
    let k := f.fb + 6 + Nat.log2 m'
    let n := 2 ^ (2 * k) / m'
    let r := isqrt n
    f.arith false r (-(k : Int) - e' / 2) (decide (r * r * m' ≠ 2 ^ (2 * k)))

/-- tanh x = (1 − e^(−2x)) ÷ (1 + e^(−2x)), odd in x. -/
def Fmt.tanh (f : Fmt) (c : Nat) : Nat × Flags :=
  match f.decode c with
  | .nan _ q => (f.nan, Flags.invIf q)
  | .zero n => (f.signed n 0, Flags.none)
  | .inf n => (f.signed n (f.bias * 2 ^ f.fb), Flags.none)
  | .fin n m e =>
    let top := (Nat.log2 m : Int) + e
    if 6 ≤ top then
      -- |x| ≥ 64: 1 − 2^(-180) rounds as its bounds do
      roundEncl f 4 c n (fxOne - 1, fxOne) 0
    else if top < -24 then
      -- x − x³/3 < tanh x < x
      let big := m * 2 ^ prec
      let lo := f.arith n (big - big / 2 ^ (2 * (-top).toNat - 2) - 1) (e - prec) true
      let hi := f.arith n (big - 1) (e - prec) true
      if lo.1 = hi.1 then (lo.1, lo.2.or (Flags.inxIf true)) else (Config.transcendental 4 f.eb c, Flags.inxIf true)
    else
      let (ex, k) := fxExpBig (let x := fxOf m e; (2 * x.1, 2 * x.2))
      -- t = e^(2x) = ex × 2^k, tanh = (t − 1) / (t + 1)
      let t : Encl := (ex.1 * 2 ^ k, ex.2 * 2 ^ k)
      let num : Encl := (t.1 - fxOne, t.2 - fxOne)
      let den : Encl := (t.1 + fxOne, t.2 + fxOne)
      roundEncl f 4 c n (num.1 * fxOne / den.1, num.2 * fxOne / den.2 + 1) 0

/-- 1 ÷ (1 + e^(−x)). -/
def Fmt.sigm (f : Fmt) (c : Nat) : Nat × Flags :=
  match f.decode c with
  | .nan _ q => (f.nan, Flags.invIf q)
  | .zero _ => f.arith false 1 (-1) false
  | .inf true => (0, Flags.none)
  | .inf false => (f.bias * 2 ^ f.fb, Flags.none)
  | .fin n m e =>
    let top := (Nat.log2 m : Int) + e
    if 8 ≤ top then
      if n then (0, { Flags.none with underflow := true, inexact := true }) else roundEncl f 5 c false (fxOne - 1, fxOne) 0
    else
      let (ex, k) := fxExpBig (fxOf m e)
      let t : Encl := (ex.1 * 2 ^ k, ex.2 * 2 ^ k)
      -- σ(|x|) = t / (t + 1), σ(−|x|) = 1 / (t + 1)
      if n then
        let num := fxOne * 2 ^ (prec + k)
        roundEncl f 5 c false (num / (t.2 + fxOne), num / (t.1 + fxOne) + 1) (-(k : Int))
      else roundEncl f 5 c false (t.1 * fxOne / (t.1 + fxOne), t.2 * fxOne / (t.2 + fxOne) + 1) 0

end Sys2Proof.Machine
end

