-- ==== Sys2Proof/Machine/Ops.lean ====
section
/-! DEFINITION. The named operations over the state: places, registers, memories, marks, what a bundle stages, and taking
and returning from a trap. Every meaning is written over these. -/

namespace Sys2Proof.Machine

/-! ### Keys and places (R10 to R16) -/

/-- 65 × die + tile. -/
def tileKey (t : TileId) : Nat := 65 * t.die.val + t.tile.val

/-- 2 × tile key + (0 for A, 1 for B). -/
def seqKey (x : SeqId) : Nat := 2 * tileKey x.at_ + x.b.toNat

/-- The tile key of a sequencer. -/
def tileOf (x : Nat) : Nat := x / 2

/-- The die of a tile. -/
def dieOf (t : Nat) : Nat := t / 65

/-- The tile's number on its die; 64 is the service tile (R12). -/
def tileNo (t : Nat) : Nat := t % 65

/-- A service tile (R12). -/
def isService (t : Nat) : Bool := decide (tileNo t = 64)

/-- The key of the sequencer to which D causes go: A of the service tile of a die (R344). -/
def serviceOf (die : Nat) : Nat := 2 * (65 * die + 64)

/-- The identifier of a sequencer key, for events that name one. -/
def seqIdOf (x : Nat) : SeqId :=
  ⟨⟨⟨x / 130 % 4, by omega⟩, ⟨x / 2 % 65, by omega⟩⟩, decide (x % 2 = 1)⟩

/-- The identifier of a tile key. -/
def tileIdOf (t : Nat) : TileId := ⟨⟨t / 65 % 4, by omega⟩, ⟨t % 65, by omega⟩⟩

/-- Boundaries between two dies of the ring (R10). -/
def dieHops (a b : Nat) : Nat :=
  let d := if a ≤ b then b - a else a - b
  min d (4 - d)

/-- The hop count of R16, by tile numbers. No rule gives the service tile a place on the grid (R12), and its context 0 makes canal
accesses (R419): that its number 64 counts as row 8, column 0 is the model's choice (log 85). -/
def hops (a b : Nat) : Nat :=
  let gap : Nat → Nat → Nat := fun x y => if x ≤ y then y - x else x - y
  gap (tileNo a / 8) (tileNo b / 8) + gap (tileNo a % 8) (tileNo b % 8) + 16 * dieHops (dieOf a) (dieOf b)

/-- The requester code of a sequencer (R255): kind, die, tile, sequencer. -/
def requester (kind x : Nat) : Nat :=
  kind * 2 ^ 10 + dieOf (tileOf x) * 2 ^ 8 + (tileNo (tileOf x) % 64) * 4 + (x % 2) * 2

/-! ### Accessors -/

/-- A sequencer's state. -/
def State.seq (s : State) (x : Nat) : Seq := tget Seq.init s.seqs x

/-- Replace a sequencer's state. -/
def State.setSeq (s : State) (x : Nat) (q : Seq) : State := { s with seqs := tput s.seqs x q }

/-- Change a sequencer's state. -/
def State.modSeq (s : State) (x : Nat) (f : Seq → Seq) : State := s.setSeq x (f (s.seq x))

/-- The key of a context. -/
def ctxKey (x c : Nat) : Nat := 4 * x + c

/-- A context's state. -/
def State.ctx (s : State) (x c : Nat) : Ctx := tget Ctx.init s.ctxs (ctxKey x c)

/-- Replace a context's state. -/
def State.setCtx (s : State) (x c : Nat) (k : Ctx) : State := { s with ctxs := tput s.ctxs (ctxKey x c) k }

/-- Change a context's state. -/
def State.modCtx (s : State) (x c : Nat) (f : Ctx → Ctx) : State := s.setCtx x c (f (s.ctx x c))

/-- A tile's state. -/
def State.tile (s : State) (t : Nat) : Tile := tget Tile.init s.tiles t

/-- Replace a tile's state. -/
def State.setTile (s : State) (t : Nat) (r : Tile) : State := { s with tiles := tput s.tiles t r }

/-- Change a tile's state. -/
def State.modTile (s : State) (t : Nat) (f : Tile → Tile) : State := s.setTile t (f (s.tile t))

/-- The key under which a context's TMODE, scale table and value table shadow are held: its task's on its tile, or its own
where it has no task (R198, R212, R235). -/
def State.ttKey (s : State) (x c : Nat) : Nat :=
  match (s.ctx x c).task with
  | some t => 512 * (t + 1) + tileOf x
  | none => 2 ^ 40 + ctxKey x c

/-- That state. -/
def State.tt (s : State) (x c : Nat) : TaskTile := tget TaskTile.init s.ttiles (s.ttKey x c)

/-- Change it. -/
def State.modTt (s : State) (x c : Nat) (f : TaskTile → TaskTile) : State :=
  { s with ttiles := tput s.ttiles (s.ttKey x c) (f (s.tt x c)) }

/-- A bank of a tile. -/
def Tile.bank (t : Tile) (b : Nat) : Bank := tget Bank.init t.banks b

/-- Change a bank. -/
def Tile.modBank (t : Tile) (b : Nat) (f : Bank → Bank) : Tile := { t with banks := tput t.banks b (f (t.bank b)) }

/-- A counter. -/
def Tile.counter (t : Tile) (c : Nat) : Counter := tget Counter.init t.counters c

/-- Change a counter. -/
def Tile.modCounter (t : Tile) (c : Nat) (f : Counter → Counter) : Tile :=
  { t with counters := tput t.counters c (f (t.counter c)) }

/-- A ring handle. -/
def Tile.ring (t : Tile) (h : Nat) : Ring := tget Ring.init t.rings h

/-- A resident task by its number. -/
def State.task (s : State) (id : Nat) : Option Task := s.tasks.find? (fun t => decide (t.id = id))

/-- Change a task. -/
def State.modTask (s : State) (id : Nat) (f : Task → Task) : State :=
  { s with tasks := s.tasks.map (fun t => if t.id = id then f t else t) }

/-- A number that no access, flight, task or chain has. -/
def State.bump (s : State) : State := { s with fresh := s.fresh + 1 }

/-- The next free value (log 4). -/
def State.freeWord (s : State) : Word := Config.freeWord s.free

/-- After a free value is taken. -/
def State.drawn (s : State) : State := { s with free := s.free + 1 }

/-- GCLK as the port reads it (R20, R37). -/
def State.clock (s : State) : Word := BitVec.ofNat 64 s.gclk

/-- A cycle that is a tick (R21). -/
def State.isTick (s : State) (t : Nat) : Bool := decide (t % 2 ^ s.tickK.toNat = 0)

/-- The least multiple of p at or after t (R116). -/
def nextMultiple (p t : Nat) : Nat := (t + p - 1) / p * p

/-! ### Bytes -/

/-- n bytes from `a`, as one little-endian number (R2). -/
def rdBytes (m : Table Byte) (a : Nat) : Nat → Nat
  | 0 => 0
  | n + 1 => (tget 0 m a).toNat + 256 * rdBytes m (a + 1) n

/-- Write the low n bytes of v from `a` upwards. -/
def wrBytes (m : Table Byte) (a : Nat) : Nat → Nat → Table Byte
  | 0, _ => m
  | n + 1, v => wrBytes (tset 0 m a (BitVec.ofNat 8 v)) (a + 1) n (v / 256)

/-- Write a list of bytes from `a` upwards. -/
def wrList (m : Table Byte) (a : Nat) : List Byte → Table Byte
  | [] => m
  | b :: l => wrList (tset 0 m a b) (a + 1) l

/-- Read n bytes as a list. -/
def rdList (m : Table Byte) (a : Nat) (n : Nat) : List Byte := (List.range n).map (fun i => tget 0 m (a + i))

/-- The key of a pool byte. -/
def poolKey (t off : Nat) : Nat := 2 ^ 22 * t + off

/-- The key of a pool granule. -/
def granKey (t off : Nat) : Nat := 2 ^ 16 * t + off / 64

/-- Marks of a pool granule. -/
def State.gran (s : State) (t off : Nat) : Gran := tget Gran.clean s.poolGran (granKey t off)

/-- Marks of an HBM granule. -/
def State.hgran (s : State) (a : Nat) : Gran := tget Gran.clean s.hbmGran (a / 64)

/-- The offsets, one in each 64-byte granule, that [off, off + n) touches. -/
def granules (off n : Nat) : List Nat :=
  if n = 0 then [] else (List.range ((off + n - 1) / 64 - off / 64 + 1)).map (fun i => 64 * (off / 64 + i))

/-- Some granule of a pool range carries a poison or error mark (R348). -/
def State.poolBad (s : State) (t off n : Nat) : Bool :=
  (granules off n).any (fun g => decide ((s.gran t g).mark ≠ .clean))

/-- Some granule of a pool range carries the compressed mark (R295). -/
def State.poolComp (s : State) (t off n : Nat) : Bool := (granules off n).any (fun g => (s.gran t g).comp)

/-- n bytes of a pool as a number. A bank being zeroed reads zeros (R221, R358). -/
def State.rdPool (s : State) (t off n : Nat) : Nat := rdBytes s.pool (poolKey t off) n

/-- Set marks of a pool granule. -/
def State.setGran (s : State) (t off : Nat) (g : Gran) : State :=
  { s with poolGran := tset Gran.clean s.poolGran (granKey t off) g }

/-- A write of [off, off + n) clears the marks of the granules it covers whole (R348); `comp` is what the compressed mark
becomes, or none where the writer leaves it (R295). -/
def State.markWrite (s : State) (t off n : Nat) (m : Mark) (comp : Option Bool) : State :=
  (granules off n).foldl (fun s g =>
    let old := s.gran t g
    let whole := decide (off ≤ g ∧ g + 64 ≤ off + n)
    s.setGran t g ⟨if m ≠ .clean then m else if whole then .clean else old.mark, comp.getD old.comp⟩) s

/-- Write the low n bytes of v into a pool, with no mark. -/
def State.wrPool (s : State) (t off n v : Nat) : State :=
  { s with pool := wrBytes s.pool (poolKey t off) n v }

/-- A sequencer's store of n bytes (R264, R295, R348). -/
def State.store (s : State) (t off n v : Nat) : State := (s.wrPool t off n v).markWrite t off n .clean none

/-- Zero a range of a pool and its marks. -/
def State.zeroPool (s : State) (t off n : Nat) : State :=
  { s with pool := tclear s.pool (poolKey t off) (poolKey t (off + n)),
           poolGran := tclear s.poolGran (granKey t off) (granKey t (off + n - 1) + 1) }

/-- n bytes of HBM as a number (R15); bytes beyond 384 GB do not exist and read 0 (R384). -/
def State.rdHbm (s : State) (a n : Nat) : Nat := rdBytes s.hbm a n

/-- Bytes of HBM (R14). -/
def hbmBytes : Nat := 384 * 10 ^ 9

/-- Zero a range of HBM, its marks and its tags. -/
def State.zeroHbm (s : State) (a n : Nat) : State :=
  { s with
    hbm := tclear s.hbm a (a + n), hbmGran := tclear s.hbmGran (a / 64) ((a + n + 63) / 64),
    hbmTag := tclear s.hbmTag (a / 64) ((a + n + 63) / 64) }

/-- What has been written into frames that a ZEROB is zeroing is discarded (R358). -/
def State.keepZero (s : State) : State := s.zeroing.foldl (fun s r => s.zeroHbm r.1 r.2) s

/-- Write the low n bytes of v into HBM, stored as they are and with no tag; what lies beyond it is ignored, and what lies in
frames that a ZEROB is zeroing is discarded (R355, R358, R384). -/
def State.wrHbm (s : State) (a n v : Nat) : State :=
  if a + n ≤ hbmBytes then
    { s with
      hbm := wrBytes s.hbm a n v, hbmTag := tclear s.hbmTag (a / 64) ((a + n + 63) / 64) }.keepZero
  else s

/-! ### Banks, claims and reach (R132, R249 to R252, R419) -/

/-- Bytes in a bank. -/
def bankSize : Nat := 0x10000

/-- Fields of a partition word (R249). -/
def partVbase (w : Word) : Nat := field w.toNat 37 32
def partVA (w : Word) : Nat := field w.toNat 31 29
def partVB (w : Word) : Nat := field w.toNat 28 26
def partAbase (w : Word) : Nat := field w.toNat 25 20
def partAcount (w : Word) : Nat := field w.toNat 19 13
def partSbase (w : Word) : Nat := field w.toNat 12 7
def partScount (w : Word) : Nat := field w.toNat 6 0

/-- Banks of the register run (R250). -/
def partVcount (w : Word) : Nat := (partVA w + partVB w + 3) / 4

/-- The role the partition word gives a bank (R249, R250). -/
def partRole (w : Word) (b : Nat) : Role :=
  if partVbase w ≤ b ∧ b < partVbase w + partVcount w then .regs
  else if partAbase w ≤ b ∧ b < partAbase w + partAcount w then .acc
  else if partSbase w ≤ b ∧ b < partSbase w + partScount w then .scratch
  else .free

/-- Two runs share a bank. -/
def overlap (a n b m : Nat) : Bool := decide (0 < n ∧ 0 < m ∧ a < b + m ∧ b < a + n)

/-- A partition word is well formed, whatever the members (R250). -/
def partOk (w : Word) : Bool :=
  decide (w.toNat < 2 ^ 38) && decide (partVA w ≤ 4) && decide (partVB w ≤ 4) && decide (1 ≤ partVA w + partVB w)
    && decide (partVbase w + partVcount w ≤ 64) && decide (partAcount w ≤ 64)
    && decide (partAbase w + partAcount w ≤ 64) && decide (1 ≤ partScount w)
    && decide (partSbase w + partScount w ≤ 64)
    && !overlap (partVbase w) (partVcount w) (partAbase w) (partAcount w)
    && !overlap (partVbase w) (partVcount w) (partSbase w) (partScount w)
    && !overlap (partAbase w) (partAcount w) (partSbase w) (partScount w)

/-- Named registers of a context (R40, R250): 32 for each quarter; context 0 has none (R419). -/
def State.regCount (s : State) (x c : Nat) : Nat :=
  if c = 0 then 0
  else 32 * (if x % 2 = 1 then partVB (s.ctx x c).partw else partVA (s.ctx x c).partw)

/-- The pool offset of a named register (R251). -/
def State.regPlace (s : State) (x c n : Nat) : Nat :=
  let w := (s.ctx x c).partw
  let j := n / 32 + (if x % 2 = 1 then partVA w else 0)
  (partVbase w + j / 4) * bankSize + (j % 4) * 0x4000 + (n % 32) * 512

/-- The bank of a pool offset. -/
def bankOf (off : Nat) : Nat := off / bankSize

/-- The graver of two marks. -/
def Mark.worst (a b : Mark) : Mark :=
  match a, b with
  | .ue, _ => .ue
  | _, .ue => .ue
  | .poison, _ => .poison
  | _, .poison => .poison
  | _, _ => .clean

/-- The mark of a pool range: the gravest of its granules' (R348). -/
def State.poolMark (s : State) (t off n : Nat) : Mark := (granules off n).foldl (fun m g => m.worst (s.gran t g).mark) .clean

/-- A named register's value with its tag and mark: what landed in it with a mark, or a mark of the granules it lies in (R251, R348). -/
def State.wreg (s : State) (x c n : Nat) : Vec :=
  let off := s.regPlace x c n
  let t := s.tile (tileOf x)
  ⟨tget 0 t.regTags (off / 512), BitVec.ofNat 4096 (s.rdPool (tileOf x) off 512),
    (tget .clean t.regMarks (off / 512)).worst (s.poolMark (tileOf x) off 512)⟩

/-- Write a named register (R47, R251). -/
def State.setWreg (s : State) (x c n : Nat) (v : Vec) : State :=
  let off := s.regPlace x c n
  (s.store (tileOf x) off 512 v.bits.toNat).modTile (tileOf x) (fun t =>
    { t with regTags := tput t.regTags (off / 512) v.tag, regMarks := tput t.regMarks (off / 512) v.mark })

/-- The task of a context claims a bank of a tile as scratch; context 0 may use any bank that no resident task's register
run holds; a sealed bank is refused (R252, R299, R419). -/
def State.scratchOk (s : State) (x c t b : Nat) : Bool :=
  let k := (s.tile t).bank b
  if c = 0 then decide (b < 64 ∧ ¬(k.owner.isSome ∧ k.role = .regs) ∧ k.sealed = none)
  else decide (b < 64 ∧ k.role = .scratch ∧ k.owner.isSome ∧ k.owner = (s.ctx x c).task ∧ k.sealed = none)

/-- A bank has the accumulator role for a context's drains (R223, R419). -/
def State.accOk (s : State) (x c t b : Nat) : Bool :=
  let k := (s.tile t).bank b
  decide (b < 64 ∧ k.role = .acc ∧ k.owner.isSome) && (decide (c = 0) || decide (k.owner = (s.ctx x c).task))

/-- Every bank that [off, off + n) touches satisfies p. -/
def banksAll (off n : Nat) (p : Nat → Bool) : Bool :=
  (List.range (bankOf (off + n - 1) - bankOf off + 1)).all (fun i => p (bankOf off + i))

/-- The sequencers in one instance of a domain (R130). -/
def domainSize (d : Nat) : Nat :=
  match d with
  | 0 => 1
  | 1 => 2
  | 2 => 8
  | 3 => 32
  | 4 => 128
  | _ => 512

/-- A little-endian field of a launch record (R127). -/
def recField (l : List Byte) (off n : Nat) : Nat :=
  match n with
  | 0 => 0
  | n + 1 => (l.getD off 0).toNat + 256 * recField l (off + 1) n

/-- The level words of a record, as many as it declares (R127, R129). -/
def recLevels (l : List Byte) : List Nat :=
  (List.range (recField l 2 1)).map (fun j => recField l (0x40 + 4 * j) 4)

/-- Sizes m of the inner levels in sequencers, with each level's word (R130). -/
def levelSizes (l : List Byte) : List (Nat × Nat) :=
  let lv := recLevels l
  let outer := lv.any (fun w => decide (5 ≤ field w 31 29))
  let inner := lv.filter (fun w => decide (field w 31 29 < 5))
  match inner with
  | [] => []
  | w :: rest =>
    let m0 := if outer then 512 / (max 1 (field w 25 16)) else domainSize (field w 31 29)
    rest.foldl (fun acc v => acc ++ [(v, ((acc.getLast?.map Prod.snd).getD m0) / (max 1 (field v 25 16)))]) [(w, m0)]

/-- A scope at or above CANAL reaches the tiles of the task within the member at its level; an outer level's member is the
whole gang of this package (R132). -/
def State.canalReach (s : State) (x c t : Nat) : Bool :=
  if c = 0 then decide (tileNo t < 64)
  else if t = tileOf x then true
  else match (s.ctx x c).task.bind s.task with
    | none => false
    | some k =>
      let pos := k.members.findIdx (fun m => decide (m.1 = x))
      let whole := (recLevels k.rec_.bytes).any (fun w => decide (5 ≤ field w 31 29 ∧ 1 ≤ field w 28 26))
      (whole && k.members.any (fun m => decide (tileOf m.1 = t)))
        || (levelSizes k.rec_.bytes).any (fun lm =>
            decide (1 ≤ field lm.1 28 26) && decide (0 < lm.2)
              && (k.members.zipIdx).any (fun m => decide (tileOf m.1.1 = t ∧ m.2 / lm.2 = pos / lm.2)))

/-- The widest scope of a task's levels: 0 OWN to 4 JOB; context 0 has JOB (R132, R419). -/
def State.scope (s : State) (c : Nat) (task : Option Nat) : Nat :=
  if c = 0 then 4
  else match task.bind s.task with
    | none => 0
    | some k => (recLevels k.rec_.bytes).foldl (fun a w => max a (field w 28 26)) 0

/-- The task claims the tile's MXE: its partition word claims an accumulator bank (R139, R419). -/
def State.claimsMxe (s : State) (x c : Nat) : Bool :=
  decide (c ≠ 0) && (s.ctx x c).task.isSome && decide (1 ≤ partAcount (s.ctx x c).partw)

/-! ### Source operands of the bundle that issues (R36 to R38) -/

/-- The issuing sequencer and context. -/
def State.ix (s : State) : Nat := s.bundle.seq
def State.ic (s : State) : Nat := s.bundle.ctx
def State.icx (s : State) : Ctx := s.ctx s.ix s.ic

/-- The value a scalar source names, read at the start of the issue cycle (R37); `imm` is the slot's immediate. -/
def State.rdS (s : State) (a : SSrc) (imm : Word) : SVal :=
  match a with
  | .q n => s.icx.q.getD n.toNat SVal.zero
  | .k n => tget SVal.zero s.icx.keeps n.toNat
  | .imm => ⟨imm, .clean⟩
  | .zero => SVal.zero
  | .tile => ⟨BitVec.ofNat 64 (tileNo (tileOf s.ix)), .clean⟩
  | .die => ⟨BitVec.ofNat 64 (dieOf (tileOf s.ix)), .clean⟩
  | .seq => ⟨BitVec.ofNat 64 (s.ix % 2), .clean⟩
  | .gclk => ⟨s.clock, .clean⟩
  | .lidx n => ⟨((s.icx.loops[n.val]?).map (fun l => l.index.setWidth 64)).getD 0, .clean⟩

/-- Its 64 bits. -/
def State.valS (s : State) (a : SSrc) : Word := (s.rdS a 0).val

/-- Element i of a vector under a width. -/
def elemAt (w : Nat) (v : VBits) (i : Nat) : Nat := (v.toNat >>> (w * i)) % 2 ^ w

/-- A vector number from the codes of its elements, element 0 lowest (R156). -/
def packElems (w : Nat) : List Nat → Nat
  | [] => 0
  | c :: l => c % 2 ^ w + 2 ^ w * packElems w l

/-- A vector from its elements' codes. -/
def vecOf (w : Nat) (l : List Nat) : VBits := BitVec.ofNat 4096 (packElems w l)

/-- n elements of a vector. -/
def unpack (w : Nat) (v : VBits) (n : Nat) : List Nat := (List.range n).map (elemAt w v)

/-- The same code in every element. -/
def splat (t : Tag) (c : Nat) : VBits := vecOf (esz t) (List.replicate (elems t) c)

/-- The value a vector source names; an adopting port reads as VOID here (R38). -/
def State.rdV (s : State) (v : VSrc) : Vec :=
  match v with
  | .vq n => s.icx.vq.getD n.toNat Vec.void
  | .w n => s.wreg s.ix s.ic n.toNat
  | .xb => s.icx.xb
  | .lane => ⟨tN32, vecOf 32 (List.range 128), .clean⟩
  | .ones => ⟨tMASK, BitVec.allOnes 4096, .clean⟩
  | _ => Vec.void

/-- The element code an adopting port gives in a tag; none where the tag has no such value (R38). IDX is unsigned (R187). The spec
gives no value for neg and half in IDX, nor for one, neg, maxf and half in MASK: that they are FMT_MISMATCH, as half is in an integer
tag, is the model's choice (log 84). -/
def adoptCode (v : VSrc) (t : Tag) : Option Nat :=
  match v, fmtOf t with
  | .zero, _ => some 0
  | .one, some f => some (f.arith false 1 0 false).1
  | .one, none => if tagInt t || decide (t = tIDX) then some 1 else none
  | .neg, some f => some (f.arith true 1 0 false).1
  | .neg, none => if tagInt t then some (2 ^ esz t - 1) else none
  | .maxf, some f => some f.maxMag
  | .maxf, none => if tagInt t || decide (t = tIDX) then some (intMax (tagSigned t) (esz t)).toNat else none
  | .half, some f => some (f.arith false 1 (-1) false).1
  | _, _ => none

/-! ### What a bundle stages -/

/-- A cause is found (R345): its class, cause and TVAL. -/
def State.find (s : State) (rank : Nat) (c : Cause) (v : Word) : State :=
  { s with bundle := { s.bundle with
      found := s.bundle.found ++ [⟨rank, s.bundle.focus, s.bundle.found.length, c, v, 0⟩] } }

/-- A cause of micro-step 1 (R100). -/
def State.findMicro (s : State) (c : Cause) (v : Word) : State :=
  { s with bundle := { s.bundle with
      found := s.bundle.found ++ [⟨4, s.bundle.focus, s.bundle.found.length, c, v, 1⟩] } }

/-- A source read's cause (R348): ECC_UE or POISON_USE, with the specifier. -/
def State.useMark (s : State) (m : Mark) (spec : Nat) : State :=
  match m with
  | .clean => s
  | .poison => s.find 1 .poisonUse (BitVec.ofNat 64 spec)
  | .ue => s.find 1 .eccUe (BitVec.ofNat 64 spec)

/-- The bundle reads a scalar source. -/
def State.useS (s : State) (a : SSrc) : State := s.useMark (s.rdS a 0).mark (encSSrc a)

/-- The bundle reads a vector source. -/
def State.useV (s : State) (v : VSrc) : State := s.useMark (s.rdV v).mark (encVSrc v)

/-- An engine start reads a vector source: of its marks only an uncorrectable error is found with the decode causes, a poison mark at
the step of its checks that names it (R214, R237). -/
def State.useVUe (s : State) (v : VSrc) : State := if (s.rdV v).mark = .ue then s.useV v else s

/-- A result of the bundle with nothing in it yet, landing `lat` cycles after issue (R42). -/
def State.flight (s : State) (lat : Nat) : Flight :=
  { id := s.fresh, remaining := lat + 1, slot := s.bundle.focus, issued := s.bundle.number, vals := [], keep := none,
    vecs := [], wreg := none, xb := false, pred := none, vtag := none, flags := Flags.none, ret := false, ready := true, obs := none }

/-- Stage a result. -/
def State.fly (s : State) (f : Flight) : State :=
  { s with fresh := s.fresh + 1, bundle := { s.bundle with flights := s.bundle.flights ++ [f] } }

/-- The keep a scalar destination names. -/
def destKeep : SDest → Option (BitVec 4)
  | .queue => none
  | .keep n => some n

/-- land(dest, v, lat) of a scalar result, with the flags it sets (R8, R96). -/
def State.landS (s : State) (d : SDest) (v : Word) (lat : Nat) (fl : Flags) : State :=
  s.fly { s.flight lat with vals := [⟨v, .clean⟩], keep := destKeep d, flags := fl }

/-- land of a vector result. -/
def State.landV (s : State) (d : VDest) (vs : List Vec) (lat : Nat) (fl : Flags) (xb : Bool) : State :=
  s.fly { s.flight lat with
    vecs := vs, flags := fl, xb := xb,
    wreg := match d with
      | .w n => some n
      | _ => none }

/-- Stage an effect at the end of cycle c + n. -/
def State.stage (s : State) (n : Nat) (e : Eff) : State :=
  { s with bundle := { s.bundle with effs := s.bundle.effs ++ [(n, e)] } }

/-- Stage a pool access. -/
def State.access (s : State) (a : Acc) : State :=
  { s with fresh := s.fresh + 1, bundle := { s.bundle with accs := s.bundle.accs ++ [a] } }

/-- The sequencer waits after the bundle commits (R22). -/
def State.waitFor (s : State) (w : Wait) : State :=
  { s with bundle := { s.bundle with waits := s.bundle.waits ++ [w] } }

/-- The bundle's handle as page and word (R101). -/
def pageOf (h : Word) : BitVec 45 := h.extractLsb' 12 45
def wordOf (h : Word) : BitVec 12 := h.setWidth 12

/-- A handle from a page and its low 12 bits, sign copied (R65, R101). -/
def mkHandle (p : BitVec 45) (w : BitVec 12) : Word := (p ++ w).signExtend 64

/-- The sign rule of a code handle (R65). -/
def handleOk (h : Word) : Bool := decide (h = mkHandle (pageOf h) (wordOf h))

/-! ### Slot order (R43, R58) -/

/-- The place of a slot in mask order; the header last. -/
def Slot.idx : Slot → Nat
  | .s0 => 0
  | .s1 => 1
  | .b => 2
  | .m => 3
  | .v => 4
  | .x => 5
  | .e => 6
  | .c => 7
  | .hdr => 8

/-- One found cause comes before another (R345). -/
def Found.before (a b : Found) : Bool :=
  decide (a.rank < b.rank) || (decide (a.rank = b.rank) &&
    (decide (Slot.idx a.slot < Slot.idx b.slot) || (decide (Slot.idx a.slot = Slot.idx b.slot) && decide (a.ord < b.ord))))

/-- The cause that is delivered of those a bundle shows (R345). -/
def pickFound : List Found → Option Found
  | [] => none
  | a :: l =>
    match pickFound l with
    | none => some a
    | some b => if b.before a then some b else some a

/-! ### Trace (R362) -/

/-- Write a trace record: kind, cause, sequencer, context, handle and value. -/
def State.trace (s : State) (kind : Nat) (cause : Nat) (x c : Nat) (h v : Word) : State :=
  if (s.seq x).dbgctl.getLsbD 8 then
    let base := field s.trcctl.toNat 63 20 * 256
    let size := 2 ^ (field s.trcctl.toNat 19 16 + 12)
    let w := s.gclk % 2 ^ 64 + h.toNat * 2 ^ 64 + v.toNat * 2 ^ 128 + kind * 2 ^ 192 + cause * 2 ^ 200
      + (dieOf (tileOf x) * 2 ^ 8 + tileNo (tileOf x) % 64 * 4 + (x % 2) * 2) * 2 ^ 208 + c * 2 ^ 224
    { s.wrHbm (base + 32 * (s.trcPos % size)) 32 w with trcPos := (s.trcPos + 1) % size }
  else s

/-! ### Taking a trap and returning from one (R344 to R348) -/

/-- A cause becomes pending on a sequencer. -/
def State.post (s : State) (x : Nat) (p : Pend) : State := s.modSeq x (fun q => { q with pend := q.pend ++ [p] })

/-- An asynchronous cause for context 0 of a sequencer (R344). -/
def State.postA (s : State) (x : Nat) (c : Cause) (v : Word) : State := s.post x ⟨.a, c, v, 0, 0, false, false, 0⟩

/-- A device cause: it goes to context 0 of sequencer A of a die's service tile, die 0's but for LINK_DOWN (R344). -/
def State.postD (s : State) (die : Nat) (c : Cause) (v : Word) : State := s.postA (serviceOf die) c v

/-- A cause raised in context 0: the sequencer halts every context and SUPFAULT is delivered under D (R347). -/
def State.supFault (s : State) (x : Nat) : State :=
  let t := tileOf x
  let s := s.modSeq x (fun q => { q with active := none, halt := .supfault, serving := false })
  let s := if isService t then { s with health := s.health ||| (1 <<< 62) } else s
  s.postD 0 .supfault (BitVec.ofNat 64 (dieOf t * 2 ^ 16 + tileNo t * 2 ^ 8 + x % 2))

/-- The order in which pending events of a boundary are taken (R345). -/
def Pend.order (p : Pend) : Nat :=
  match p.kind, p.cause with
  | .s, _ => 0
  | .p, .step => 200
  | .p, c => 1 + c.code
  | .a, .tickstop => 300
  | .a, .preempt => 301
  | .a, .rollbackEntry => 302
  | .a, c => 400 + c.code

/-- The pending event that is taken first, and the rest. -/
def takeFirst : List Pend → Option (Pend × List Pend)
  | [] => none
  | p :: l =>
    match takeFirst l with
    | none => some (p, l)
    | some (q, r) => if q.order < p.order then some (q, p :: r) else some (p, l)

/-- TSTAT of a delivery (R339). -/
def tstatOf (inflight : Nat) (c : Nat) (p : Pend) : Word :=
  BitVec.ofNat 64 (min inflight 255 * 2 ^ 16 + p.bpx.toNat * 2 ^ 15 + (p.slot % 8) * 2 ^ 12 + (p.ms % 16) * 2 ^ 8
    + (c % 4) * 2 ^ 6 + p.re.toNat * 2 ^ 5)

/-- Results of a flight that a delivery holds for replay (R339, R346). -/
def resultsOf (f : Flight) : Nat := f.vals.length + f.vecs.length + f.pred.isSome.toNat + f.vtag.isSome.toNat

/-- TSTAT of a delivery by which context 0 starts again at ERET: the slot and the micro-step are the new cause's; the replay state,
the context and what it says of the resume bundle stay (R339, R347). -/
def tstatAgain (old : Word) (p : Pend) : Word :=
  (old &&& 0xFFFFFFFFFFFF80FF) ||| BitVec.ofNat 64 ((p.slot % 8) * 2 ^ 12 + (p.ms % 16) * 2 ^ 8)

/-- TCAUSE of a delivery (R339). -/
def tcauseOf (p : Pend) : Word := BitVec.ofNat 64 (p.kind.code * 2 ^ 7 + p.cause.code)

/-- Context 0 begins at TVEC after a delay that the spec bounds by 128 cycles and does not fix (R346, log 4). What it had in
flight itself, if it ran before outside any delivery, does not land in the delivery (log 22). -/
def State.enterTvec (s : State) (x : Nat) : State :=
  let d := s.freeWord.toNat % 64
  let s := s.drawn
  s.modCtx x 0 (fun k => { k with
    pos := (s.seq x).tvec, entry := some ((s.seq x).tvec, 2), countdown := none, done := false, flights := [], waits := [.delay (s.gclk + 1 + d)] })

/-- A sequencer leaves the segment that it issues from: what a CODEINV has dropped is held no longer (R354). -/
def Seq.dropOld (q : Seq) : Seq :=
  let gone : Chamber → Bool := fun k => k.old || q.pages.any (fun p => p.stale && decide (p.ctx = k.ctx ∧ p.page = k.page))
  { q with
    chamA := q.chamA.filter (fun k => !gone k), chamB := q.chamB.filter (fun k => !gone k), pages := q.pages.filter (fun p => !p.stale) }

/-- TAKING A TRAP, for every cause: context 0 of the sequencer takes the delivery, the interrupted context stays as it
stands with its results in flight as replay entries, and TCAUSE, TVAL, TBUNDLE and TSTAT take the delivery (R346). -/
def State.deliver (s : State) (x : Nat) (p : Pend) : State :=
  let q := s.seq x
  match q.halt with
  | .bringup => s.post x p
  | .supfault => s.post x p
  | _ =>
    if q.serving then
      -- a delivery is in progress: a cause raised in context 0 is a SUPFAULT, another event waits for ERET (R347)
      if p.kind = .a then s.post x p else s.supFault x
    else if q.active = some 0 ∧ p.kind ≠ .a then s.supFault x
    else
      -- a context that a delivery interrupted before context 0 halted itself at TEXIT stays the one to resume (R123)
      let i := q.active.or q.inter
      let c := i.getD 0
      let k := s.ctx x c
      let n := if i.isSome then (k.flights.map resultsOf).sum else 0
      let s := s.trace 1 p.cause.code x c k.pos p.tval
      let s := s.modSeq x (fun q => { q.dropOld with
        active := some 0, halt := .run, serving := true, inter := i,
        saved0 := if q.active = some 0 then some k else none,
        tcause := tcauseOf p, tval := p.tval, tbundle := if i.isSome then k.pos else 0,
        -- a resume bundle that has not issued since its ERET still matches no breakpoint once (R347)
        tstat := tstatOf n c { p with bpx := p.bpx || (i.isSome && k.bpx) } })
      s.enterTvec x

/-- A wait that a context resumes in: a REALN's tick is the least multiple of its period at or after the resume (R120). -/
def Wait.resumed (w : Wait) (t : Nat) : Wait :=
  match w with
  | .realn p _ => .realn p (nextMultiple p t)
  | w => w

/-- A member that is halted for a cut takes no A or P cause until it resumes (R316). -/
def State.cutHeld (s : State) (x : Nat) : Bool :=
  match (s.seq x).hold.bind s.task with
  | some t => decide (t.st = .cut)
  | none => false

/-- A task that a rollback has restored waits for the ERETs of its members (R332); a cut that comes meanwhile changes nothing of that. -/
def Task.rolled (t : Task) : Bool := decide (t.st = .rolled) || decide (t.st = .cut ∧ t.was = .rolled)

/-- An ERET ends the ROLLBACK_ENTRY of a member sequencer of a restored gang (R332). -/
def State.countEntry (s : State) (x : Nat) : State :=
  let q := s.seq x
  if q.serving && decide (q.tcause = BitVec.ofNat 64 (Kind.a.code * 2 ^ 7 + Cause.rollbackEntry.code))
      && s.tasks.any (fun t => t.rolled && t.members.any (fun m => decide (m.1 = x))) then
    { s with snap := { s.snap with entered := x :: s.snap.entered } }
  else s

/-- RETURN FROM A TRAP, at the end of ERET's issue cycle (R347): the interrupted context goes on in the next cycle. Context 0 has then halted
until the next trap is delivered to it (R123, R412, log 73). -/
def State.eret (s : State) (x : Nat) : State :=
  let q := s.seq x
  let s := (s.trace 2 0 x 0 (s.ctx x 0).pos 0).countEntry x
  match takeFirst (q.pend.filter (fun p => decide (p.kind = .a) && !s.cutHeld x)) with
  | some (p, _) =>
    if q.serving then
      -- a cause is pending: context 0 restarts at TVEC; the saved context stays as it is
      let s := s.trace 1 p.cause.code x (q.inter.getD 0) q.tbundle p.tval
      let s := s.modSeq x (fun q => { q with
        pend := q.pend.erase p, tcause := tcauseOf p, tval := p.tval, tstat := tstatAgain q.tstat p })
      s.enterTvec x
    else s.modSeq x (fun q => { q with active := none, halt := .texit })
  | none =>
    match q.inter with
    | none => s.modSeq x (fun q => { q with active := none, halt := .texit, serving := false })
    | some 0 =>
      let k := q.saved0.getD (s.ctx x 0)
      let s := s.setCtx x 0 { k with waits := k.waits.map (fun w => w.resumed (s.gclk + 1)) }
      s.modSeq x (fun q => { q with serving := false, inter := none, saved0 := none })
    | some c =>
      let k := s.ctx x c
      let t := k.task.bind s.task
      let runs : Bool := decide (t.map (fun t => t.st) = some .running)
      -- a member that a rollback restored waits for the ERETs of its gang (R332)
      let rolled : Bool := (t.map Task.rolled).getD false
      let s := s.modCtx x c (fun k => { k with
        waits := k.waits.map (fun w => w.resumed (s.gclk + 1)), bpx := q.tstat.getLsbD 15 })
      s.modSeq x (fun q => { q with
        active := if runs then some c else none, halt := .texit, serving := false, inter := none,
        hold := if rolled then k.task else q.hold })

end Sys2Proof.Machine
end

