-- ==== Sys2Proof/Machine/Translate.lean ====
section
/-! DEFINITION. Address translation: page table entries, the walk, frame owners, encrypted sectors and the translation store (R349
to R357). -/

namespace Sys2Proof.Machine

/-! ### Page table entries (R350) -/

def pteV (e : Nat) : Bool := e.testBit 0
def pteR (e : Nat) : Bool := e.testBit 1
def pteW (e : Nat) : Bool := e.testBit 2
def pteX (e : Nat) : Bool := e.testBit 3
def pteU (e : Nat) : Bool := e.testBit 4
def pteG (e : Nat) : Bool := e.testBit 5
def pteL (e : Nat) : Bool := e.testBit 6
def pteS (e : Nat) : Nat := field e 8 7
def pteSN (e : Nat) : Nat := field e 10 9
def pteC (e : Nat) : Bool := e.testBit 11
def pteFrame (e : Nat) : Nat := field e 51 12 * 4096

/-- The size of a leaf read at a level, or none where L, S or the level forbid it (R349, R350). -/
def leafSize (level : Nat) (e : Nat) : Option Nat :=
  match level, pteS e with
  | 3, 0 => some (2 ^ 12)
  | 3, 1 => some (2 ^ 16)
  | 2, 0 => some (2 ^ 21)
  | 2, 1 => some (2 ^ 25)
  | 2, 2 => some (2 ^ 29)
  | _, _ => none

/-- A leaf is legal at its level (R352). -/
def leafOk (level : Nat) (e : Nat) : Bool :=
  match leafSize level e with
  | none => false
  | some n => decide (field e 63 52 = 0) && decide (pteSN e ≠ 3) && decide (pteFrame e % n = 0)

/-- A table pointer is legal: reserved bits 0, and the frame aligned to its table (R350). -/
def pointerOk (level : Nat) (e : Nat) : Bool :=
  decide (field e 63 52 = 0) && decide (field e 11 1 = 0) && (decide (2 ≤ level) || decide (field e 14 12 = 0))
    && decide (level ≤ 2)

/-- The index of a virtual address at a level (R349). -/
def vaIndex (level va : Nat) : Nat :=
  match level with
  | 0 => field va 56 45
  | 1 => field va 44 33
  | 2 => field va 32 21
  | _ => field va 20 12

/-- What a walk finds: the leaf, its size and where the entry lies. -/
structure Leaf where
  pte : Nat
  size : Nat
  at_ : Nat
  deriving DecidableEq, Repr

/-- The walk of R352 down to the leaf, from a level and its table; `fuel` counts the levels left. -/
def walkFrom (m : Table Byte) (va : Nat) : Nat → Nat → Nat → Except Cause Leaf
  | 0, _, _ => .error .pfRsvd
  | fuel + 1, level, base =>
    let at_ := base + 8 * vaIndex level va
    let e := rdBytes m at_ 8
    if !pteV e then .error .pfAbsent
    else if pteL e then
      if leafOk level e then .ok ⟨e, (leafSize level e).getD 4096, at_⟩ else .error .pfRsvd
    else if pointerOk level e then walkFrom m va fuel (level + 1) (pteFrame e) else .error .pfRsvd

/-- For whom a walk is made: its PTBASE, whether it is a task, CONF and JOBID (R335, R351, R355, R357). -/
structure Walker where
  die : Nat
  ptbase : Word
  task : Bool
  conf : Word
  job : BitVec 16
  /-- The leaf's frames are the package's own HBM; a peer's or the host's have no owner here (R284, R357). -/
  here : Bool
  deriving DecidableEq, Repr

/-- The walker of a context. -/
def State.walker (s : State) (x c : Nat) : Walker :=
  let k := s.ctx x c
  ⟨dieOf (tileOf x), k.ptbase, decide (c ≠ 0), k.conf, k.jobid, true⟩

/-- The permission checks of R352 on a leaf. -/
def leafPermit (w : Walker) (kd : WalkKind) (e : Nat) : Option Cause :=
  if (w.task && !pteU e) || (decide (kd = .read) && !pteR e) || (pteC e && !w.conf.getLsbD 63) then some .pfPriv
  else if decide (kd = .write) && !pteW e then some .pfWrite
  else if decide (kd = .fetch) && !pteX e then some .pfExec
  else none

/-- An address lies in the code heap (R366). -/
def State.heapHas (s : State) (a : Nat) : Bool := decide (s.cfg.heapBase ≤ a ∧ a < s.cfg.heapBase + s.cfg.heapSize)

/-- The 16-bit owner of the frame at a physical address (R357); every frame of the code heap carries 0xFFFF (R366). -/
def State.owner (s : State) (a : Nat) : Nat :=
  if s.heapHas a then 0xFFFF else s.rdHbm (field s.ftbase.toNat 51 20 * 2 ^ 20 + 2 * (a / 4096)) 2

/-- Set it. -/
def State.setOwner (s : State) (a j : Nat) : State :=
  s.wrHbm (field s.ftbase.toNat 51 20 * 2 ^ 20 + 2 * (a / 4096)) 2 j

/-! ### Encrypted sectors (R355, R356) -/

/-- The key of an XTS slot for a job: a slot serves the contexts of the job it is bound to (R355, R386). -/
def State.xkey (s : State) (slot : Nat) (job : BitVec 16) : BitVec 256 :=
  let k := tget ⟨0, none, 0⟩ s.xts (slot % 32)
  if k.tdi.isSome ∧ k.job = job then k.key else Config.unboundKey (slot % 32)

/-- The key under which a walker's page is stored; none where the page has C = 0. -/
def State.pageKey (s : State) (w : Walker) (pte : Nat) : Option (BitVec 256) :=
  if pteC pte then some (s.xkey w.conf.toNat w.job) else none

/-- A key's bytes. -/
def keyBytes (k : BitVec 256) : List Nat := beBytes 32 k.toNat

/-- The 64 bytes of a sector as stored. -/
def State.sectorRaw (s : State) (q : Nat) : List Nat := (List.range 64).map (fun i => (tget 0 s.hbm (64 * q + i)).toNat)

/-- The tag that a sector's stored bytes have under a key; 0 on pages with C = 0. -/
def tagUnder (key : Option (BitVec 256)) (raw : List Nat) (q : Nat) : BitVec 24 :=
  match key with
  | none => 0
  | some k => Config.sectorTag k (BitVec.ofNat 512 (ofLe raw)) q

/-- A sector's tag is not the one that a read under a key asks for (R356). -/
def State.tagBad (s : State) (key : Option (BitVec 256)) (q : Nat) : Bool :=
  decide (tget 0 s.hbmTag q ≠ tagUnder key (s.sectorRaw q) q)

/-- The sector's bytes as a key reads them. -/
def State.sectorPlain (s : State) (k : BitVec 256) (q : Nat) : List Nat :=
  xtsDec (keyBytes k) (keyBytes (Config.tweakKey k)) q (s.sectorRaw q)

/-- Bytes written into a sector under a key; those that `f` leaves out stay what the key reads there. -/
def State.putSector (s : State) (k : BitVec 256) (q : Nat) (f : Nat → Option Nat) : State :=
  let old := s.sectorPlain k q
  let raw := xtsEnc (keyBytes k) (keyBytes (Config.tweakKey k)) q ((List.range 64).map (fun i => (f i).getD (old.getD i 0)))
  { s with
    hbm := wrList s.hbm (64 * q) (raw.map (BitVec.ofNat 8)), hbmTag := tset 0 s.hbmTag q (tagUnder (some k) raw q) }

/-- An address lies in frames that a ZEROB is zeroing (R358). -/
def State.zeroes (s : State) (a : Nat) : Bool := s.zeroing.any (fun r => decide (r.1 ≤ a ∧ a < r.1 + r.2))

/-- One byte of HBM through a key, and whether its sector is bad: marked, or its tag does not match (R356). Frames being zeroed read
zeros (R358). -/
def State.hbmByte (s : State) (a : Nat) (key : Option (BitVec 256)) : Nat × Bool :=
  if s.zeroes a then (0, false)
  else
    let b := match key with
      | none => (tget 0 s.hbm a).toNat
      | some k => (s.sectorPlain k (a / 64)).getD (a % 64) 0
    (b, decide ((s.hgran a).mark ≠ .clean) || s.tagBad key (a / 64))

/-- Memory as a page's readers find it: n bytes from its base through its key (R355). -/
def State.pageView (s : State) (base n : Nat) (key : Option (BitVec 256)) : Table Byte :=
  match key with
  | none => s.hbm
  | some _ => (List.range n).foldl (fun m i => tset 0 m (base + i) (BitVec.ofNat 8 (s.hbmByte (base + i) key).1)) s.hbm

/-- A read of a range that finds a sector with a wrong tag leaves it poisoned (R356). -/
def State.poisonBad (s : State) (a n : Nat) (key : Option (BitVec 256)) : State :=
  (granules a n).foldl (fun s g =>
    if (s.hgran g).mark = .clean ∧ s.tagBad key (g / 64) = true ∧ s.zeroes g = false then
      { s with hbmGran := tset Gran.clean s.hbmGran (g / 64) { s.hgran g with mark := .poison } }
    else s) s

/-- One frame passes to a job: zeroed unless it is the job's already or the code heap's, and zeros are what the job's key reads
there (R357). -/
def State.claimFrame (s : State) (w : Walker) (c : Bool) (a : Nat) : State :=
  let o := s.owner a
  if o = w.job.toNat ∨ o = 0xFFFF then s
  else
    let s := s.zeroHbm a 4096
    let s := if c then
        ((List.range 64).foldl (fun s i => s.putSector (s.xkey w.conf.toNat w.job) (a / 64 + i) (fun _ => some 0)) s).keepZero
      else s
    s.setOwner a w.job.toNat

/-- The job whose pages the dirty log follows is this walker's (R313, R321). -/
def State.snapJob (s : State) (j : BitVec 16) : Bool :=
  s.snap.cfg.getLsbD 63 && decide (s.snap.cfg.toNat % 2 ^ 16 = j.toNat)

/-- Entries the dirty log may hold: one for each 64 KiB of store (R321). -/
def Snap.logRoom (n : Snap) : Nat := (n.store.toNat % 2 ^ 16) * 2 ^ 14

/-- A page enters the dirty log by its leaf entry's address, or the full flag is set (R321). -/
def Snap.logDirty (n : Snap) (at_ : Nat) : Snap :=
  if at_ ∈ n.dirty then n
  else if n.dirty.length < n.logRoom then { n with dirty := n.dirty ++ [at_] } else { n with full := true }

/-- The root table of a PTBASE. -/
def rootOf (ptbase : Nat) : Nat := field ptbase 51 15 * 2 ^ 15

/-- The tables of a job: those of its resident contexts, and those that its walks have gone through (log 119). -/
def State.jobRoots (s : State) (j : BitVec 16) : List Nat :=
  (((s.ctxs.filter (fun e => decide (e.1 % 4 ≠ 0 ∧ e.2.jobid = j ∧ e.2.task.isSome) && e.2.ptbase.getLsbD 0)).map (fun e =>
    rootOf e.2.ptbase.toNat)) ++ (if s.snap.cfg.setWidth 16 = j then s.snap.tables else [])).dedup

/-- A walker's pages are pages of the snapshot job: it is of the job, or it walks one of the job's tables (R313, R321). -/
def State.jobWalk (s : State) (w : Walker) : Bool :=
  s.snap.cfg.getLsbD 63 && (s.snapJob w.job || decide (rootOf w.ptbase.toNat ∈ s.jobRoots (s.snap.cfg.setWidth 16)))

/-- The first write to a CLEAN page makes it DIRTY, in its entry and, of a job page of this package's, in the log (R321, R352). -/
def State.dirty (s : State) (w : Walker) (l : Leaf) : State :=
  if pteSN l.pte = 0 then
    let s := s.wrHbm l.at_ 8 (l.pte + 2 ^ 9)
    if w.here && s.jobWalk w then { s with snap := s.snap.logDirty l.at_ } else s
  else s

/-- A walk of job pages goes through its root table. -/
def State.noteTable (s : State) (w : Walker) : State :=
  if s.jobWalk w = true ∧ rootOf w.ptbase.toNat ∉ s.snap.tables then
    { s with snap := { s.snap with tables := rootOf w.ptbase.toNat :: s.snap.tables } }
  else s

/-- A walk of the page tables (R352): the leaf, with frame owners and the page's snapshot state kept. -/
def State.walk (s : State) (w : Walker) (va : Nat) (kd : WalkKind) : Except Cause Leaf × State :=
  if w.ptbase.getLsbD 0 = false then (.error .pfAbsent, s)
  else
    match walkFrom s.hbm va 4 0 (field w.ptbase.toNat 51 15 * 2 ^ 15) with
    | .error c => (.error c, s)
    | .ok l =>
      match leafPermit w kd l.pte with
      | some c => (.error c, s)
      | none =>
        let s := if w.task && w.here then
            (List.range (l.size / 4096)).foldl (fun s i => s.claimFrame w (pteC l.pte) (pteFrame l.pte + 4096 * i)) s
          else s
        let s := if kd = .write then (s.noteTable w).dirty w l else s.noteTable w
        let sn := if kd = .write ∧ pteSN l.pte = 0 then l.pte + 2 ^ 9 else l.pte
        let t : Tlb := ⟨w.die, w.ptbase.toNat, va / l.size * l.size, l.size, pteFrame l.pte, BitVec.ofNat 64 sn, w.job⟩
        (.ok { l with pte := sn }, { s with tlb := t :: s.tlb.filter (fun u => decide (¬(u.die = t.die ∧ u.root = t.root
          ∧ u.va = t.va))) })

/-- A cached translation that serves the access: permission, and for a write a page already DIRTY (R321, R353). -/
def State.tlbHit (s : State) (w : Walker) (va : Nat) (kd : WalkKind) : Option Tlb :=
  s.tlb.find? (fun t => decide (t.die = w.die ∧ t.root = w.ptbase.toNat ∧ t.va ≤ va ∧ va < t.va + t.size)
    && (leafPermit w kd t.pte.toNat).isNone && (decide (kd ≠ .write) || decide (pteSN t.pte.toNat = 1)))

/-- Translate one address: the physical address, the leaf's entry word and whether the page is confidential. -/
def State.translate (s : State) (w : Walker) (va : Nat) (kd : WalkKind) : Except Cause (Nat × Nat) × State :=
  match s.tlbHit w va kd with
  | some t => (.ok (t.frame + (va - t.va), t.pte.toNat), s)
  | none =>
    match s.walk w va kd with
    | (.error c, s) => (.error c, s)
    | (.ok l, s) => (.ok (pteFrame l.pte + va % l.size, l.pte), s)

/-- Remove the cached translations of a predicate. -/
def State.dropTlb (s : State) (p : Tlb → Bool) : State := { s with tlb := s.tlb.filter (fun t => !p t) }

/-- Cached translations of job pages lose write permission at a cut, whoever walked (R321, R353). -/
def State.cutTlb (s : State) (j : BitVec 16) : State :=
  { s with tlb := s.tlb.map (fun t =>
      if t.job = j ∨ rootOf t.root ∈ s.jobRoots j then { t with pte := t.pte &&& ~~~(4 : Word) } else t) }

end Sys2Proof.Machine
end

