-- ==== Sys2Proof/Machine/Pages.lean ====
section
/-! DEFINITION. Code pages: the header, the landing table, the bundle walk, the segment chain, resolution of code handles,
and the chambers (R59 to R65, R101, R106, R107, R124, R125, R364). -/

namespace Sys2Proof.Machine

/-! ### Reading a page (R59 to R63) -/

/-- A page image in memory: its physical base and its bytes. -/
structure Image0 where
  base : Nat
  size : Nat
  deriving DecidableEq, Repr

/-- A 32-bit word of memory. -/
def rd32 (m : Table Byte) (a : Nat) : BitVec 32 := BitVec.ofNat 32 (rdBytes m a 4)

/-- A header is valid (R60). That the chain head lies inside the image is read of the whole 8-byte segment header there, the model's
choice (log 108). -/
def headerOk (m : Table Byte) (base : Nat) : Bool :=
  let frames := rdBytes m (base + 6) 1
  let n := rdBytes m (base + 8) 2
  let lo := rdBytes m (base + 0xA) 2
  let ch := rdBytes m (base + 0xC) 2
  let size := frames * 4096
  decide (rdBytes m base 4 = 0xD7A10C0D) && decide (1 ≤ frames ∧ frames ≤ 4) && decide (1 ≤ n ∧ n ≤ 4096)
    && decide (lo % 4 = 0 ∧ lo + 4 * n ≤ size) && decide (ch % 4 = 0 ∧ ch + 8 ≤ size)
    && decide (rdBytes m (base + 7) 1 = 0 ∧ rdBytes m (base + 0xE) 2 = 0 ∧ rdBytes m (base + 0x14) 12 = 0
        ∧ rdBytes m (base + 0x30) 16 = 0)

/-- The bundle starts of a segment, from one start to the next, up to a limit (R61). -/
def walkStarts (m : Table Byte) (base : Nat) : Nat → Nat → Nat → List Nat
  | 0, _, _ => []
  | fuel + 1, off, lim =>
    if off + 4 ≤ lim then
      off :: walkStarts m base fuel (off + 4 * bundleLen (rdBytes m (base + off) 4)) lim
    else []

/-- The offset after `n` bundles from `off`. -/
def afterBundles (m : Table Byte) (base : Nat) : Nat → Nat → Nat
  | 0, off => off
  | n + 1, off => afterBundles m base n (off + 4 * bundleLen (rdBytes m (base + off) 4))

/-- The segment at an offset, with its malformation (R62, R63). -/
def readSeg (m : Table Byte) (base size off : Nat) : Seg :=
  let h := rdBytes m (base + off) 8
  let len := field h 15 0
  let next := field h 31 16
  let count := field h 40 32
  let lim := min (off + 8 + len) size
  let bad := decide (count = 0 ∨ 256 < count ∨ field h 63 41 ≠ 0 ∨ size < off + 8 + len)
    || decide (afterBundles m base (min count 257) (off + 8) ≠ off + 8 + len)
  ⟨off, len, next, bad, walkStarts m base 4096 (off + 8) lim⟩

/-- The segments along the chain, each once (R61). -/
def walkSegs (m : Table Byte) (base size : Nat) : Nat → Nat → List Nat → List Seg
  | 0, _, _ => []
  | fuel + 1, off, seen =>
    if off % 4 = 0 ∧ off + 8 ≤ size ∧ off ∉ seen then
      let g := readSeg m base size off
      g :: (if g.next = 0 then [] else walkSegs m base size fuel g.next (off :: seen))
    else []

/-- What a sequencer keeps of a page at a physical base (R107, R364): none where the header is not valid. -/
def readPage (m : Table Byte) (page : BitVec 45) (base : Nat) : Option PageInfo :=
  if headerOk m base then
    let frames := rdBytes m (base + 6) 1
    let n := rdBytes m (base + 8) 2
    let lo := rdBytes m (base + 0xA) 2
    let ch := rdBytes m (base + 0xC) 2
    some ⟨0, page, frames, (List.range n).map (fun i => rdBytes m (base + lo + 4 * i) 4),
      walkSegs m base (frames * 4096) 4096 ch [], false⟩
  else none

/-- The generation tag of a page (R59). -/
def pageTag (m : Table Byte) (base : Nat) : Nat := rdBytes m (base + 4) 2

/-! ### Landings (R61) -/

/-- An offset is a bundle start of the page. -/
def PageInfo.isStart (p : PageInfo) (off : Nat) : Bool := p.segs.any (fun g => decide (off ∈ g.starts))

/-- A landing entry is usable (R61). -/
def PageInfo.usable (p : PageInfo) (e : Nat) : Bool :=
  decide (field e 31 18 = 0) && decide (field e 17 16 ≠ 3) && p.isStart (field e 15 0)

/-- The kinds a transfer accepts: 0 a branch (BRANCH or ENTRY), 1 RET (RETURN), 2 a task's entry (ENTRY) (R61, R106). -/
def kindOk (need : BitVec 2) (kind : Nat) : Bool :=
  match need.toNat with
  | 1 => decide (kind = 1)
  | 2 => decide (kind = 2)
  | _ => decide (kind = 0 ∨ kind = 2)

/-- landing(ordinal) of R108: the word of the landing's bundle; none is LAND_BAD (R61). -/
def PageInfo.landing (p : PageInfo) (ord : Nat) (need : BitVec 2) : Option (BitVec 12) :=
  match p.landings[ord]? with
  | none => none
  | some e =>
    if p.usable e && kindOk need (field e 17 16) then some (BitVec.ofNat 12 (field e 15 0 / 4)) else none

/-- A bundle is a landing bundle: its offset is that of a usable landing (R110). -/
def PageInfo.isLanding (p : PageInfo) (w : BitVec 12) : Bool :=
  p.landings.any (fun e => p.usable e && decide (field e 15 0 = 4 * w.toNat))

/-- The segment in which a bundle start stands. Where two segments overlap, the spec does not say which of them a start in both
belongs to: the first along the chain is the model's choice (R61, R63, log 86). -/
def PageInfo.segOf (p : PageInfo) (w : BitVec 12) : Option Seg :=
  p.segs.find? (fun g => decide (4 * w.toNat ∈ g.starts))

/-- The segment whose fault is raised where nothing starts at a word: the one whose first bundle would stand there
(R63). -/
def PageInfo.badSeg (_p : PageInfo) (w : BitVec 12) : Nat := 4 * w.toNat - 8

/-- What follows a bundle along the chain (R64, R105): a word of the page, or the page's end. -/
inductive After where
  | word (w : BitVec 12)
  | exit
  /-- A next field that names no place for a segment header: the segment there is malformed (R63). -/
  | bad (off : Nat)
  deriving DecidableEq, Repr

/-- The element after `a` in a list. -/
def succIn : List Nat → Nat → Option Nat
  | [], _ => none
  | [_], _ => none
  | b :: c :: l, a => if b = a then some c else succIn (c :: l) a

/-- The first bundle start from the segment that a next field names: a malformed segment in which nothing starts is passed, as the walk
passes it (R61, R63, log 86). -/
def PageInfo.startFrom (p : PageInfo) : Nat → Nat → After
  | 0, next => .bad next
  | fuel + 1, next =>
    if next = 0 then .exit
    else if next % 4 = 0 ∧ next + 8 ≤ p.frames * 4096 then
      match p.segs.find? (fun g => decide (g.off = next)) with
      | none => .word (BitVec.ofNat 12 ((next + 8) / 4))
      | some g =>
        match g.starts with
        | o :: _ => .word (BitVec.ofNat 12 (o / 4))
        | [] => p.startFrom fuel g.next
    else .bad next

/-- next(b) of R105 within the page. -/
def PageInfo.after (p : PageInfo) (w : BitVec 12) : After :=
  match p.segOf w with
  | none => .exit
  | some g =>
    match succIn g.starts (4 * w.toNat) with
    | some o => .word (BitVec.ofNat 12 (o / 4))
    | none => p.startFrom (p.segs.length + 1) g.next

/-- What follows a bundle stands in its segment. -/
def PageInfo.sameSegment (p : PageInfo) (w : BitVec 12) : Bool :=
  match p.segOf w, p.after w with
  | some g, .word v => decide (4 * v.toNat ∈ g.starts)
  | _, _ => false

/-- The walk of R112 from a word reaches the end landing before the chain's end and meets no bundle twice. -/
def PageInfo.reaches (p : PageInfo) : Nat → BitVec 12 → BitVec 12 → List (BitVec 12) → Bool
  | 0, _, _, _ => false
  | fuel + 1, w, fin, seen =>
    if w = fin then true
    else if w ∈ seen then false
    else match p.after w with
      | .exit => false
      | .bad _ => false
      | .word v => p.reaches fuel v fin (w :: seen)

/-- The lowest RETURN landing at a word (R109). -/
def PageInfo.returnOrd (p : PageInfo) (w : BitVec 12) : Option Nat :=
  let l := p.landings
  let i := l.findIdx (fun e => p.usable e && decide (field e 17 16 = 1) && decide (field e 15 0 = 4 * w.toNat))
  if i < l.length then some i else none

/-! ### What a sequencer holds (R107, R124) -/

/-- The context that runs. -/
def Seq.runs (q : Seq) : Nat := q.active.getD 0

/-- The page the running context has resolved. -/
def Seq.page (q : Seq) (p : BitVec 45) : Option PageInfo := q.pages.find? (fun i => decide (i.page = p ∧ i.ctx = q.runs))

/-- Remember a page for the running context. -/
def Seq.keepPage (q : Seq) (i : PageInfo) : Seq :=
  { q with pages := { i with ctx := q.runs } :: q.pages.filter (fun j => decide (j.page ≠ i.page ∨ j.ctx ≠ q.runs)) }

/-- A chamber holds a segment for a context. -/
def Chamber.holds (x : Option Chamber) (c : Nat) (p : BitVec 45) (seg : Nat) : Bool :=
  match x with
  | some k => decide (k.ctx = c ∧ k.page = p ∧ k.seg = seg) && !k.old
  | none => false

/-- A chamber from which a bundle of the page still issues although the page has been dropped and read again (R354). -/
def Chamber.lingers (x : Option Chamber) (c : Nat) (p : BitVec 45) : Bool :=
  match x with
  | some k => decide (k.ctx = c ∧ k.page = p) && k.old
  | none => false

/-- The segment is resident for the running context (R124). -/
def Seq.resident (q : Seq) (p : BitVec 45) (seg : Nat) : Bool :=
  Chamber.holds q.chamA q.runs p seg || Chamber.holds q.chamB q.runs p seg

/-- Nothing that was read for a context is left: another task takes it, or its task goes back to a snapshot (R140, R332). -/
def Seq.forget (q : Seq) (c : Nat) : Seq :=
  let other : Chamber → Bool := fun k => decide (k.ctx ≠ c)
  { q with
    chamA := q.chamA.filter other, chamB := q.chamB.filter other, pages := q.pages.filter (fun i => decide (i.ctx ≠ c)) }

/-- The words of a bundle in a chamber, as many as its header asks for. -/
def Chamber.bundle (c : Chamber) (w : BitVec 12) : List (BitVec 32) :=
  let i := w.toNat - (c.seg + 8) / 4
  let l := c.words.drop i
  match l with
  | [] => []
  | h :: _ => l.take (bundleLen h.toNat)

/-- The words of the bundle at a handle where its segment is resident, and whether chamber B holds it. -/
def Seq.bundleAt (q : Seq) (h : Word) : Option (List (BitVec 32) × Bool) :=
  if Chamber.lingers q.chamA q.runs (pageOf h) then q.chamA.map (fun c => (c.bundle (wordOf h), false))
  else if Chamber.lingers q.chamB q.runs (pageOf h) then q.chamB.map (fun c => (c.bundle (wordOf h), true))
  else match q.page (pageOf h) with
  | none => none
  | some p =>
    match p.segOf (wordOf h) with
    | none => none
    | some g =>
      if Chamber.holds q.chamA q.runs (pageOf h) g.off then q.chamA.map (fun c => (c.bundle (wordOf h), false))
      else if Chamber.holds q.chamB q.runs (pageOf h) g.off then q.chamB.map (fun c => (c.bundle (wordOf h), true))
      else none

/-- A chamber holds the bundle at a handle for the running context. -/
def Seq.standsIn (q : Seq) (pos : Word) (x : Option Chamber) : Bool :=
  Chamber.lingers x q.runs (pageOf pos) || match (q.page (pageOf pos)).bind (fun p => p.segOf (wordOf pos)) with
  | some g => Chamber.holds x q.runs (pageOf pos) g.off
  | none => false

/-- The chamber that does not hold the bundle which causes the fetch takes a segment; where neither holds it, the one that does
not hold the bundle issued last (R125). -/
def Seq.intoOther (q : Seq) (pos : Word) (c : Chamber) : Seq :=
  let inB := if q.standsIn pos q.chamA then false else q.standsIn pos q.chamB || q.inB
  if inB then { q with chamA := some c } else { q with chamB := some c }

/-- The bundles of a body, from its head along the chain to its end landing (R112). -/
def PageInfo.body (p : PageInfo) : Nat → BitVec 12 → BitVec 12 → List (BitVec 12)
  | 0, _, _ => []
  | fuel + 1, w, fin =>
    if w = fin then []
    else w :: (match p.after w with
      | .word v => p.body fuel v fin
      | _ => [])

/-- A chamber holding a bundle of the body of an active level of the current page is pinned (R124). -/
def chamberPinned (k : Ctx) (p : PageInfo) (c : Option Chamber) : Bool :=
  match c with
  | none => false
  | some ch =>
    decide (ch.page = pageOf k.pos ∧ ch.ctx = p.ctx) && k.loops.any (fun l => decide (l.page = ch.page) &&
      (p.body 4096 l.head l.fin).any (fun w => match p.segOf w with
        | some g => decide (g.off = ch.seg)
        | none => false))

/-! ### Resolution (R107, R364) -/

/-- A page header that is read has the generation this part executes (R364). -/
def tagFault (tag : Nat) : Option Cause :=
  if tag = 0x0300 then none else if tag = 0x0100 ∨ tag = 0x0200 then some .tagForeign else some .tagUnknown

/-- Memory as a fetch through a leaf reads an image of up to four frames (R29, R355). -/
def State.codeView (s : State) (w : Walker) (base pte : Nat) : Table Byte := s.pageView base 0x4000 (s.pageKey w pte)

/-- The fault a resolution ends in. -/
structure ResFault where
  cause : Cause
  tval : Word
  deriving DecidableEq, Repr

/-- Resolve a code handle for a context: translate its page, check the header, then the tag, then the landing, then the
segment; the page is kept, and the handle of the bundle it names is given (R60, R61, R65, R106, R107, R364). -/
def State.resolve (s : State) (x c : Nat) (h : Word) (need : BitVec 2) : Except ResFault Word × State :=
  if !handleOk h then (.error ⟨.landBad, h⟩, s)
  else
    let va := (mkHandle (pageOf h) 0).toNat % 2 ^ 57
    match s.translate (s.walker x c) va .fetch with
    | (.error e, s) => (.error ⟨e, mkHandle (pageOf h) 0⟩, s)
    | (.ok (base, pte), s) =>
      let m := s.codeView (s.walker x c) base pte
      match readPage m (pageOf h) base with
      | none => (.error ⟨.landBad, h⟩, s)
      | some p =>
        match tagFault (pageTag m base) with
        | some e => (.error ⟨e, h⟩, s)
        | none =>
          match p.landing (wordOf h).toNat need with
          | none => (.error ⟨.landBad, h⟩, s)
          | some w =>
            match p.segOf w with
            | none => (.error ⟨.segBad, BitVec.ofNat 64 (p.badSeg w)⟩, s)
            | some g =>
              if g.bad then (.error ⟨.segBad, BitVec.ofNat 64 g.off⟩, s)
              else
                let words := (List.range (g.len / 4)).map (fun i => rd32 m (base + g.off + 8 + 4 * i))
                let s := s.modSeq x (fun q =>
                  let q := q.keepPage p
                  if q.resident p.page g.off then q else q.intoOther (s.ctx x c).pos ⟨q.runs, p.page, g.off, words, false⟩)
                (.ok (mkHandle p.page w), s)

/-- Expand a segment of a page already resolved (R125): read through translation now. -/
def State.expand (s : State) (x c : Nat) (page : BitVec 45) (seg : Nat) : Except Cause (List (BitVec 32)) × State :=
  let va := (mkHandle page 0).toNat % 2 ^ 57
  match s.translate (s.walker x c) va .fetch with
  | (.error e, s) => (.error e, s)
  | (.ok (base, pte), s) =>
    let m := s.codeView (s.walker x c) base pte
    let len := rdBytes m (base + seg) 2
    (.ok ((List.range (len / 4)).map (fun i => rd32 m (base + seg + 8 + 4 * i))), s)

end Sys2Proof.Machine
end

