-- ==== Sys2Proof/Machine/Issue.lean ====
section
/-! DEFINITION. Issue and commit of a bundle: decode faults, the freezes before issue, the edge contract, the choice of a
cause, the successor and loop completion (R28, R57, R58, R105, R107, R110, R113, R265, R345, R348). -/

namespace Sys2Proof.Machine

/-! ### Properties of operations that the bundle as a whole needs -/

/-- The named register of a vector source. -/
def vsrcWregs : VSrc → List Nat
  | .w n => [n.toNat]
  | _ => []

/-- The named register of a vector destination. -/
def vdestWregs : VDest → List Nat
  | .w n => [n.toNat]
  | _ => []

/-- The second vector operand of a unit operation. -/
def unitSecond : Instr → Option VSrc
  | .vadd _ y | .vsub _ y | .vrsub _ y | .vmul _ y | .vmin _ y | .vmax _ y | .vand _ y | .vor _ y | .vxor _ y
  | .vshl _ y | .vshr _ y | .vsar _ y | .vceq _ y | .vclt _ y | .vcle _ y | .vsel _ y | .vperm _ y | .vrot _ y
  | .vbcast _ y | .vidx _ y | .vscale _ y | .vscidx _ y | .vadds _ y | .vsubs _ y | .vmulh _ y | .vmulhn _ y => some y
  | _ => none

/-- The named registers an operation names as sources or destination (R40). -/
def wregsOf (i : Instr) : List Nat :=
  match i with
  | .ldv _ d _ _ | .ldvs _ d _ _ | .lda _ d _ => vdestWregs d
  | .stv _ v _ | .stvm _ v _ _ | .stvs _ v _ | .sta _ v _ | .staa _ v _ => vsrcWregs v
  | .xext v _ | .xsum v | .xmax v | .xmsk v _ => vsrcWregs v
  | .vtag r _ => [r.toNat]
  | .mxgo f => vsrcWregs f.x
  | .vggo f => vsrcWregs f.d
  | i =>
    match i.vpos with
    | some u => vsrcWregs u.a1 ++ vdestWregs u.dest ++ (unitSecond i).toList.flatMap vsrcWregs
    | none => []

/-- A system register's read is marked SV (R338). -/
def svRead (index : Nat) : Bool :=
  !decide (index = 0x010 ∨ index = 0x011 ∨ index = 0x012 ∨ index = 0x013 ∨ index = 0x040 ∨ index = 0x041 ∨ index = 0x042)

/-- The indices of R338. -/
def sysKnown (index : Nat) : Bool :=
  decide (index ≤ 0x00B ∨ (0x010 ≤ index ∧ index ≤ 0x01A) ∨ index = 0x020 ∨ index = 0x030
    ∨ (0x040 ≤ index ∧ index ≤ 0x049) ∨ index = 0x050 ∨ index = 0x051 ∨ (0x100 ≤ index ∧ index < 0x240))

/-- An operation a task context may not issue (R335, R337). -/
def privileged (i : Instr) : Bool :=
  match i with
  | .eret | .syswr .. | .tlbinv .. | .codeinv .. | .zerob .. | .snap .. | .rollbk .. => true
  | .sysrd x _ c => (sysKnown x.toNat && svRead x.toNat) || decide (c ≠ 0)
  | _ => false

/-- An SC operation (R266). -/
def scOf (i : Instr) : Option ScF :=
  match i with
  | .scld f | .scst f | .scswp f | .scadd f | .sccas f => some f
  | _ => none

/-- An exit bundle's instruction (R110). -/
def isExit (i : Instr) : Bool :=
  match i with
  | .brx _ | .call _ | .callx _ | .ret _ | .eret | .texit => true
  | _ => false

/-- The B slot's operation. -/
def slotB (l : List (Slot × Instr)) : Option Instr := (l.find? (fun p => decide (p.1 = .b))).map Prod.snd

/-! ### Decode faults (R57, R58) -/

/-- The bit of a slot in TVAL of a decode fault (R58). -/
def slotBit (k : Slot) : Nat := 2 ^ (match k with
  | .hdr => 8
  | k => 7 - Slot.idx k)

/-- The decode causes one operation shows for a context. -/
def instrFaults (x c regs : Nat) (y : Bool) (i : Instr) : List Cause :=
  (if (scOf i).isSome && isService (tileOf x) then [.opcUndef] else [])
    ++ (match i with
        | .realn _ => if y then [.encRsvd] else []
        | _ => [])
    ++ (if c ≠ 0 ∧ privileged i = true then [.priv] else [])
    ++ (if (wregsOf i).any (fun n => decide (regs ≤ n)) then [.spRange] else [])

/-- The decode causes of a bundle, by slot. -/
def bundleFaults (x c regs : Nat) (h : BundleHead) (l : List (Slot × Dec (List Instr))) : List (Slot × Cause) :=
  (if h.bad then [(.hdr, .encRsvd)] else [])
    ++ l.flatMap (fun p =>
      match p.2 with
      | .undef => [(p.1, Cause.opcUndef)]
      | .rsvd => [(p.1, Cause.encRsvd)]
      | .ok is => (is.flatMap (instrFaults x c regs h.y)).map (fun e => (p.1, e)))

/-- A numeric tag: neither MASK nor IDX nor VOID. -/
def accNum (t : Tag) : Bool := decide (tagClass t ≠ .void ∧ t ≠ tMASK ∧ t ≠ tIDX)

/-- The tag that a unit puts out for inputs of two tags, and how many parts it makes of one (R158, R164, R170 to R172, R201). -/
def tagAfter (i : Instr) (x y : Tag) : Tag × Nat :=
  match i with
  | .vceq _ _ | .vclt _ _ | .vcle _ _ => (tMASK, 1)
  | .vand _ _ | .vor _ _ | .vxor _ _ => (if x = tMASK then y else x, 1)
  | .vcvt _ t => (t, 1)
  | .vnar _ t _ => (t, 1)
  | .vscidx _ _ => (tIDX, 1)
  | .vwid _ t =>
    let f := elems x / elems t
    (t, if accNum x && accNum t && decide (elems x = f * elems t) && decide (f = 2 ∨ f = 4) then f else 1)
  | _ => (x, 1)

/-- The parts of a V slot's output, from the tags its operands have now (R38, R157, R171). -/
def State.slotParts (s : State) (l : List Instr) : Nat :=
  let tag : VSrc → Tag := fun v => (s.rdV v).tag
  let second : Instr → Option VSrc := unitSecond
  let first : Tag := match l with
    | [] => tVOID
    | i :: _ => match i.vpos with
      | some u => if u.a1.adopting then ((second i).map tag).getD tVOID else tag u.a1
      | none => tVOID
  (l.foldl (fun (a : Tag × Nat) i =>
    let y := match second i with
      | some v => if v.adopting then a.1 else tag v
      | none => a.1
    let r := tagAfter i a.1 y
    (r.1, a.2 * r.2)) (first, 1)).2

/-- A widening part beyond the partition: SP_RANGE of the V slot, a decode fault though the number of parts is that of the operand's tag
(R58, R171, R175). -/
def State.widenFaults (s : State) (regs : Nat) (l : List (Slot × Dec (List Instr))) : List (Slot × Cause) :=
  l.flatMap (fun p =>
    match p.1, p.2 with
    | .v, .ok is =>
      match (is.head?.bind Instr.vpos).map VPos.dest with
      | some (.w n) => if n.toNat < regs ∧ regs < n.toNat + s.slotParts is then [(.v, .spRange)] else []
      | _ => []
    | _, _ => [])

/-- The lowest code of a list of causes. -/
def lowestCause : List (Slot × Cause) → Option Cause
  | [] => none
  | (_, a) :: l =>
    match lowestCause l with
    | none => some a
    | some b => if b.code < a.code then some b else some a

/-- The decode fault that is reported, with its TVAL and its slot: of several that show it, the first in mask order, the header
before them (R58, R339). -/
def decodeFault (l : List (Slot × Cause)) : Option (Cause × Word × Nat) :=
  match lowestCause l with
  | none => none
  | some a =>
    let slots := [Slot.hdr, .s0, .s1, .b, .m, .v, .x, .e, .c].filter (fun k => decide ((k, a) ∈ l))
    some (a, BitVec.ofNat 64 ((slots.map slotBit).sum), Slot.idx (slots.headD .hdr) % 8)

/-! ### The edge contract (R110) -/

/-- The results of an operation, as its word gives them: scalar pushes, vector pushes and register writes, and writes of a predicate or
relabellings that push nothing; `parts` is how many vectors its V slot lands. The return handle of a call is exempt. -/
def ownResults (parts : Nat) (k : Slot) (i : Instr) : Nat × Nat × Nat :=
  match k with
  | .s0 => (1, 0, 0)
  | .s1 => (1, 0, 0)
  | .v =>
    match i.vpos with
    | some u =>
      if u.unit = .c then
        match u.dest with
        | .pred _ => (0, 0, 1)
        | _ => (0, parts, 0)
      else (0, 0, 0)
    | none => (0, 0, 0)
  | _ =>
    match i with
    | .xbc .. | .xins .. | .ldv .. | .ldvs .. | .lda .. => (0, 1, 0)
    | .vtag .. | .pset .. => (0, 0, 1)
    | .ldpair .. => (2, 0, 0)
    | .xext .. | .xsum .. | .xmax .. | .xmsk .. | .lit .. | .lith .. | .ldb .. | .ldbn .. | .ldh .. | .ldhn .. | .ldw .. | .ldwn ..
      | .ldd .. | .scld .. | .scswp .. | .scadd .. | .sccas .. | .acalloc .. | .crd .. | .snapq .. | .sysrd .. | .capq .. => (1, 0, 0)
    | _ => (0, 0, 0)

/-- Counts of results, added. -/
def addResults (a b : Nat × Nat × Nat) : Nat × Nat × Nat := (a.1 + b.1, a.2.1 + b.2.1, a.2.2 + b.2.2)

/-- The results of a bundle's operations. -/
def State.ownOf (s : State) (ops : List (Slot × Instr)) : Nat × Nat × Nat :=
  let parts := s.slotParts ((ops.filter (fun a => decide (a.1 = .v))).map Prod.snd)
  ops.foldl (fun n a => addResults n (ownResults parts a.1 a.2)) (0, 0, 0)

/-- Results a flight counts for: scalar, vector, and predicate writes and relabellings that push nothing. -/
def flightCount (f : Flight) : Nat × Nat × Nat :=
  if f.ret then (0, 0, 0)
  else (f.vals.length, f.vecs.length,
    if f.vals = [] ∧ f.vecs = [] ∧ (f.pred.isSome ∨ f.vtag.isSome) then 1 else 0)

/-- TVAL of EDGE_UNSETTLED for results in flight and a bundle's own; 0 where there are none. -/
def edgeCounts (l : List Flight) (own : Nat × Nat × Nat) : Nat :=
  let n := l.foldl (fun n f => addResults n (flightCount f)) own
  n.1 % 256 + (n.2.1 % 256) * 2 ^ 8 + (n.2.2 % 256) * 2 ^ 16

/-! ### Taken transfers, read at the start of the issue cycle -/

/-- The B operation transfers (R105). -/
def State.takes (s : State) (i : Instr) : Bool :=
  match i with
  | .br _ | .call _ | .brx _ | .callx _ | .ret _ => true
  | .brz a _ => decide ((s.rdS a 1).val = 0)
  | .brnz a _ => decide ((s.rdS a 1).val ≠ 0)
  | .leave a _ _ => decide ((s.rdS a 1).val ≠ 0)
  | .loop a _ => decide ((s.rdS a 1).val.toNat % 2 ^ 32 = 0)
  | .loopi n _ => decide (n = 0)
  | _ => false

/-- The B operation never falls through off the end of the chain: it transfers, enters a body that follows it, or faults (R112). -/
def bindsPage (i : Instr) : Bool :=
  match i with
  | .loop _ _ => true
  | .loopi _ _ => true
  | .eret => true
  | .texit => true
  | _ => false

/-- The B operation makes its bundle an exit bundle (R110). -/
def exits (i : Instr) : Bool :=
  match i with
  | .brx _ => true
  | .call _ => true
  | .callx _ => true
  | .ret _ => true
  | .eret => true
  | .texit => true
  | _ => false

/-- The page at the next 4 KiB virtual address, at ordinal 0 (R64). -/
def nextPage (h : Word) : Word := mkHandle (pageOf h + 1) 0

/-- The code handle in another page that a bundle transfers to, with the landing kind it needs (R106, R107). -/
def State.crossTarget (s : State) (p : PageInfo) (b : Option Instr) : Option (Word × BitVec 2) :=
  let pos := s.bundle.pos
  let other : SSrc → BitVec 2 → Option (Word × BitVec 2) := fun a k =>
    let h := s.valS a
    if handleOk h ∧ pageOf h ≠ pageOf pos then some (h, k) else none
  match b with
  | some (.brx a) => other a 0
  | some (.callx a) => other a 0
  | some (.ret a) => other a 1
  | b =>
    if (b.map (fun i => s.takes i || bindsPage i)).getD false then none
    else if p.after (wordOf pos) = .exit then some (nextPage pos, 0) else none

/-- The target of a code handle is resolved and its segment resident (R107). One that fails in a page already held fails as it is
resolved. -/
def Seq.resolved (q : Seq) (h : Word) (need : BitVec 2) : Bool :=
  match q.page (pageOf h) with
  | none => false
  | some p =>
    match p.landing (wordOf h).toNat need with
    | none => false
    | some w =>
      match p.segOf w with
      | none => false
      | some g => !p.stale && !g.bad && q.resident p.page g.off

/-- The bundle a resolved code handle names; none is LAND_BAD (R106). -/
def Seq.handleTarget (q : Seq) (h : Word) (need : BitVec 2) : Option Word :=
  if handleOk h then
    match q.page (pageOf h) with
    | none => none
    | some p => (p.landing (wordOf h).toNat need).map (mkHandle p.page)
  else none

/-! ### Before issue -/

/-- The sequencer owns this cycle's wheel position (R265). -/
def State.ownsWheel (s : State) (x : Nat) : Bool :=
  decide (s.gclk % 512 = (128 * dieOf (tileOf x) + 2 * tileNo (tileOf x) + x % 2) % 512)

/-- The bank an SC operation would act on is HELD (R320). -/
def State.scHeld (s : State) (f : ScF) : Bool :=
  let e := (s.valS f.addr).toNat % 2 ^ 22 + f.off.toNat * 4 * (1 + f.w.toNat)
  ((s.tile (tileOf s.ix)).bank (bankOf e)).held

/-- Add a wait to a context. -/
def State.addWait (s : State) (x c : Nat) (w : Wait) : State :=
  s.modCtx x c (fun k => { k with waits := k.waits ++ [w] })

/-- A synchronous cause cancels the bundle about to issue (R7, R344). -/
def State.cancel (s : State) (x : Nat) (c : Cause) (v : Word) (slot ms : Nat) (bpx : Bool) : State :=
  { s with bundle := Bundle.idle }.deliver x ⟨.s, c, v, slot, ms, true, bpx, 0⟩

/-- An enabled breakpoint names the bundle (R361). -/
def Seq.breakAt (q : Seq) (h : Word) : Option Nat :=
  [0, 1, 2, 3].find? (fun i => q.dbgctl.getLsbD i && decide (tget 0 q.bph i = h))

/-- Begin to issue the bundle of a sequencer's running context: decode faults, breakpoints and the freezes before issue; otherwise its
operations stand in s.bundle, the first in focus, with the transfer into another page that is to be resolved before it issues
(R58, R107, R265, R361). -/
def State.begin_ (s : State) (x : Nat) : State :=
  let q := s.seq x
  match q.active with
  | none => s
  | some c =>
    let k := s.ctx x c
    match q.page (pageOf k.pos), q.bundleAt k.pos with
    | some p, some (ws, inB) =>
      let h := decHead (ws.headD 0).toNat
      let slots := decBundle ws
      let ops := slots.flatMap (fun a =>
        match a.2 with
        | .ok is => is.map (fun i => (a.1, i))
        | _ => [])
      let s := { s with bundle := { Bundle.idle with
        seq := x, ctx := c, pos := k.pos, size := bundleLen (ws.headD 0).toNat,
        yieldRun := if h.y then some h.run else none, number := q.bundles } }
      match (if c ≠ 0 ∧ k.bpx = false then q.breakAt k.pos else none) with
      | some i => s.cancel x .brk (BitVec.ofNat 64 (2 ^ 63 + i)) 0 0 true
      | none =>
        -- the freeze of an SC operation comes before every cause of its bundle (R267)
        if scBundle ws && !isService (tileOf x) && !s.ownsWheel x then { s with bundle := Bundle.idle }.addWait x c .wheel
        else
        match decodeFault (bundleFaults x c (s.regCount x c) h slots ++ s.widenFaults (s.regCount x c) slots) with
        | some (e, v, slot) => s.cancel x e v slot 0 false
        | none =>
          let sc := ops.findSome? (fun a => scOf a.2)
          if p.stale && (((slotB ops).map s.takes).getD false || !p.sameSegment (wordOf k.pos)) then
            { s with bundle := Bundle.idle }.addWait x c (.fetch (pageOf k.pos) 0)
          else if (sc.map (fun f => s.scHeld f)).getD false then
            { s with bundle := Bundle.idle }.addWait x c .wheel
          else
            { s with bundle := { s.bundle with
              active := true, todo := ops, own := s.ownOf ops, cross := s.crossTarget p (slotB ops),
              exit := decide (p.after (wordOf k.pos) = After.exit) || ((slotB ops).map exits).getD false } }.modSeq x (fun q =>
                { q with inB := inB })
    | _, _ => s

/-! ### Commit (R105, R113, R121, R345, R348) -/

/-- The completion rule of R113 from next(b). -/
def complete (page : BitVec 45) : List Level → BitVec 12 → List Level × BitVec 12
  | [], w => ([], w)
  | l :: rest, w =>
    if l.page = page ∧ w = l.fin then
      if l.index.toNat + 1 < l.count.toNat then ({ l with index := l.index + 1 } :: rest, l.head)
      else complete page rest w
    else (l :: rest, w)

/-- Where the bundle's context goes on: its loop stack, its position, and a handle still to be resolved. -/
structure Succ where
  loops : List Level
  pos : Word
  entry : Option (Word × BitVec 2)
  deriving DecidableEq, Repr

/-- The successor of the bundle (R105, R113, R114). The completion rule is not applied to a fall-through that leaves the page, whatever the
word of its successor: the model's choice (log 109). -/
def State.successor (s : State) : Succ :=
  let b := s.bundle
  let k := s.icx
  let page := pageOf b.pos
  let popped := k.loops.drop b.pops
  match b.target with
  | .word w => ⟨popped, mkHandle page w, none⟩
  | .handle h => ⟨popped, h, none⟩
  | _ =>
    match (s.seq s.ix).page page with
    | none => ⟨popped, b.pos, none⟩
    | some p =>
      match b.push with
      | some l => ⟨l :: popped, mkHandle page l.head, none⟩
      | none =>
        match p.after (wordOf b.pos) with
        | .word w =>
          let r := complete page popped w
          ⟨r.1, mkHandle page r.2, none⟩
        | .bad off => ⟨popped, mkHandle page (BitVec.ofNat 12 ((off + 8) / 4)), some (BitVec.ofNat 64 off, 3)⟩
        | .exit =>
          match (s.seq s.ix).handleTarget (nextPage b.pos) 0 with
          | some h => ⟨popped, h, none⟩
          | none => ⟨popped, nextPage b.pos, some (nextPage b.pos, 0)⟩

/-- The edge contract at the bundle's issue (R110): an exit bundle with results in flight, its own included, or a landing
bundle with earlier ones. -/
def State.edgeFault (s : State) : Option Word :=
  let b := s.bundle
  let k := s.icx
  match (s.seq s.ix).page (pageOf b.pos) with
  | none => none
  | some p =>
    let exit := b.exit || decide (p.after (wordOf b.pos) = .exit) || (match b.target with
      | .handle _ => true
      | .eret => true
      | .texit => true
      | _ => false) || b.flights.any (fun f => f.ret)
    let land := p.isLanding (wordOf b.pos)
    let n := if exit then edgeCounts k.flights b.own else if land then edgeCounts k.flights (0, 0, 0) else 0
    if n = 0 then none else some (BitVec.ofNat 64 n)

/-- Bookings already standing, with those the bundle has made. -/
def State.booked (s : State) (t bank cycle : Nat) : Option Nat :=
  ((s.books ++ s.bundle.books).find? (fun b => decide (b.tile = t ∧ b.bank = bank ∧ b.cycle = cycle))).map
    (fun b => b.seq)

/-- One more in an 8-bit field of HEALTH that saturates (R359). -/
def healthMore (h : Word) (lo : Nat) : Word := if field h.toNat (lo + 7) lo = 255 then h else h + BitVec.ofNat 64 (2 ^ lo)

/-- The bundle is cancelled: one of its causes is delivered (R345); HEALTH counts a KAT_MISMATCH (R359). -/
def State.cancelBundle (s : State) (f : Found) : State :=
  (if f.cause = .katMismatch then { s with health := healthMore s.health 32 } else s).cancel s.bundle.seq f.cause f.tval
    (Slot.idx f.slot % 8) f.ms false

/-- Engines a committed bundle starts (R214, R227, R236, R273). -/
def State.startUp (s : State) (a : Start) : State :=
  match a with
  | .nest n => s.modTile (tileOf n.seq) (fun t => if n.seq % 2 = 1 then { t with nestB := some n } else { t with nestA := some n })
  | .kat k => s.modTile (tileOf k.seq) (fun t => if k.seq % 2 = 1 then { t with katB := some k } else { t with katA := some k })
  | .vg v => s.modTile (tileOf v.seq) (fun t => { t with vg := some v })
  | .chain c => { s with chains := s.chains ++ [c] }
  | .launch x q rank => s.modSeq x (fun k => { k with launches := k.launches ++ [⟨q, rank, [], false, false⟩] })

/-- A start of a bundle that is cancelled in micro-step 1 is as though it had not been made (R100). -/
def State.startUndo (s : State) (a : Start) : State :=
  match a with
  | .nest n => s.modTile (tileOf n.seq) (fun t => if n.seq % 2 = 1 then { t with nestB := none } else { t with nestA := none })
  | .kat k => s.modTile (tileOf k.seq) (fun t => if k.seq % 2 = 1 then { t with katB := none } else { t with katA := none })
  | .vg v => s.modTile (tileOf v.seq) (fun t => { t with vg := none })
  | .chain c => { s with chains := s.chains.filter (fun d => decide (d.id ≠ c.id)) }
  | .launch x _ _ => s.modSeq x (fun k => { k with launches := k.launches.dropLast })

/-- When an effect of a bundle that issued in cycle c is due. A microcoded bundle commits at the end of c + 1; what it reads of
counters and system registers is as at the end of c all the same (R100, R306, R337). -/
def Bundle.dueAt (b : Bundle) (c : Nat) (e : Nat × Eff) : Nat × Eff :=
  let late := if b.micro then 1 else 0
  match e.2 with
  | .crd .. => (c + e.1, e.2)
  | .sysr .. => (c + e.1, e.2)
  | _ => (c + max e.1 late, e.2)

/-- The bookings that a bundle makes over the canal. -/
def Bundle.canals (b : Bundle) : List Booking := b.books.filter (fun k => k.canal)

/-- The code handle that the bundle transfers to and that is still to be resolved before the bundle issues (R107). -/
def State.unresolved (s : State) : Option (Word × BitVec 2) :=
  match s.bundle.cross with
  | some (h, need) => if (s.seq s.bundle.seq).resolved h need then none else some (h, need)
  | none => none

/-- The causes that stand before a bundle's target is resolved: its source reads and the edge contract (R107, R126, R345). -/
def early (l : List Found) : List Found := l.filter (fun f => decide (f.rank ≤ 2))

/-- What a bundle does as it commits, once its cycle's landings are over: ERET, TEXIT and the causes it posts (R121, R345, R347). A
microcoded bundle does it at the end of its second micro-step (R100). -/
def Bundle.closing (b : Bundle) (k : Ctx) : List Tail :=
  (match b.target with
    | .eret => [Tail.eret b.seq]
    | .texit => [Tail.texit b.seq b.ctx]
    | _ => [])
    ++ (match b.post with
        | some (e, v) => [Tail.post b.seq ⟨.p, e, v, 2, 0, false, false, b.ctx⟩]
        | none => [])
    ++ (if b.ctx ≠ 0 ∧ k.dbgsel.getLsbD 63 = true then [Tail.post b.seq ⟨.p, .step, 0, 0, 0, false, false, b.ctx⟩] else [])

/-- A bundle is looked at again once the cycle's local bookings stand: it asks for banks over the canal (R254), or a cause of it hangs
on a bundle that does (R215). -/
def Bundle.waits_ (b : Bundle) : Bool := decide (b.canals ≠ [] ∨ b.cond ≠ [])

/-- The bundle is cancelled with one of its causes, or commits: its results fly, its accesses and effects are due, and its context
moves on (R345, R348). One whose target in another page is not resolved has not issued: its sequencer freezes for the resolution
first (R107). -/
def State.commitBundle (s : State) : State :=
  let b := s.bundle
  let x := b.seq
  let c := b.ctx
  let edge := match s.edgeFault with
    | some v => [(⟨2, .hdr, 0, .edgeUnsettled, v, 0⟩ : Found)]
    | none => []
  match s.unresolved with
  | some (h, need) =>
    match pickFound (early (b.found ++ edge)) with
    | some f => s.cancelBundle f
    | none => { s with bundle := Bundle.idle }.addWait x c (.resolve h need)
  | none =>
  match pickFound (b.found ++ edge) with
  | some f =>
    if b.waits_ = false then s.cancelBundle f
    else { s with bundle := Bundle.idle, parked := s.parked ++ [({ b with active := false, found := b.found ++ edge }, s.icx, false)] }
  | none =>
    let k := s.icx
    let n := s.successor
    let taken := (match b.target with
      | .none => false
      | _ => true)
    let moves := (match b.target with
      | .word _ => true
      | .handle _ => true
      | _ => false)
    let yield := match b.yieldRun with
      | some r => if c = 0 then [] else [Wait.yield r]
      | none => []
    let waits := b.waits ++ yield
    let tails :=
      (if moves then [Tail.trace x c b.pos n.pos] else []) ++ (if waits = [] then [] else [Tail.wait x c waits])
        ++ (if b.micro then [] else b.closing k)
    let s := s.setCtx x c { k with
      flights := k.flights ++ b.flights, pos := n.pos, entry := n.entry, loops := n.loops, countdown := none, bpx := false }
    let s := { s with
      bundle := Bundle.idle, accs := s.accs ++ b.accs, books := s.books ++ b.books.filter (fun k => !k.canal),
      parked := if b.waits_ then s.parked ++ [({ b with active := false }, k, true)] else s.parked,
      pending := s.pending ++ b.effs.map (b.dueAt s.gclk), tails := s.tails ++ tails }
    -- a start of which a cause still hangs on another bundle takes place when that is settled
    let s := if b.cond = [] then b.starts.foldl State.startUp s else s
    let leaves := taken || decide (pageOf n.pos ≠ pageOf b.pos)
    s.modSeq x (fun q =>
      let q := if leaves || (q.chamA.toList ++ q.chamB.toList).any (fun k => k.old) then q.dropOld else q
      { q with
      bundles := q.bundles + 1, issueCycles := q.issueCycles + 1,
      micro := if b.micro then some { b with active := false } else q.micro,
      microOld := if b.micro then some k else q.microOld })

/-- Some things less one of each of others. -/
def lessAll {α : Type} [DecidableEq α] (l r : List α) : List α := r.foldl (fun l a => l.erase a) l

/-- What a bundle that issued in cycle c has put into the package is taken out again (R7, R100). -/
def State.retract (s : State) (b : Bundle) (c : Nat) : State :=
  b.starts.foldl State.startUndo { s with
    accs := lessAll s.accs b.accs,
    books := lessAll s.books b.books,
    pending := lessAll s.pending (b.effs.map (b.dueAt c)) }

/-- Micro-step 1 of a microcoded bundle finds a cause: the bundle is cancelled as though it had not issued, and so is what
its context would issue in this cycle (R100, R259). -/
def State.cancelMicro (s : State) (x : Nat) (b : Bundle) (old : Ctx) (slot : Slot) (c : Cause) (v : Word) : State :=
  let s := s.retract b (s.gclk - 1)
  -- a SYSRD.clr of the bundle has read FLAGS at the end of its issue cycle; it clears nothing
  let s := { s with pending := s.pending.filter (fun e => match e.2 with
    | .flagsClear y _ _ => decide (y ≠ x)
    | _ => true) }
  let k := s.ctx x b.ctx
  let s := s.setCtx x b.ctx { k with
    pos := b.pos, entry := none, loops := old.loops, countdown := some 0,
    flights := k.flights.filter (fun f => decide (f.issued ≠ b.number)), waits := [] }
  let s := s.modSeq x (fun q => { q with micro := none, microOld := none })
  s.cancel x c v (Slot.idx slot % 8) 1 false

end Sys2Proof.Machine
end

