-- ==== Sys2Proof/Machine/Operands.lean ====
section
/-! DEFINITION. How the slots form their operands: the immediates of the S slot, the operand forms of the C and B slots,
the addresses of the M and E slots, and the format checks of the vector units (R85, R104, R158, R179, R252, R257). -/

namespace Sys2Proof.Machine

/-- What a step answers. -/
abbrev Out := Host.Outcome State Fault Refusal

/-! ### Scalar operands -/

/-- The immediate of an S operation marked S (R85). -/
def immS (i : BitVec 9) : Word := i.signExtend 64

/-- The immediate of an S operation marked Z (R85). -/
def immZ (i : BitVec 9) : Word := i.setWidth 64

/-- A scalar operation of one source (R87). -/
def scalar1 (s : State) (a : SSrc) (imm : Word) (d : SDest) (lat : Nat) (f : Word → Word × Flags) : Out :=
  let r := f (s.rdS a imm).val
  .next ((s.useS a).landS d r.1 lat r.2)

/-- A scalar operation of two sources (R87). -/
def scalar2 (s : State) (a b : SSrc) (imm : Word) (d : SDest) (lat : Nat) (f : Word → Word → Word × Flags) : Out :=
  let r := f (s.rdS a imm).val (s.rdS b imm).val
  .next (((s.useS a).useS b).landS d r.1 lat r.2)

/-- A result without flags. -/
def plain (w : Word) : Word × Flags := (w, Flags.none)

/-- The width bit of a scalar floating operation (R86, R93). -/
def fmtW (w : Bool) : Fmt := if w then fmtF64 else fmtF32

/-- A floating result as 64 bits (R93). -/
def floatRes (r : Nat × Flags) : Word × Flags := (BitVec.ofNat 64 r.1, r.2)

/-- The value a B slot source reads, 1 where it is the immediate (R104). -/
def State.condB (s : State) (a : SSrc) : Word := (s.rdS a 1).val

/-! ### Pool addresses (R179, R252) -/

/-- A formed pool address: target tile key, byte offset, and whether it goes over the canal. -/
structure PoolAddr where
  tile : Nat
  off : Nat
  canal : Bool
  deriving DecidableEq, Repr

/-- A canal form address names a compute tile (R179, R252). -/
def canalForm (a : Word) : Bool := decide (a.toNat >>> 30 = 1)

/-- The local or canal address of the value a, with a scaled offset; none breaks the address form (R179). -/
def poolAddr (own : Nat) (a : Word) (scaled : Nat) (canalToo : Bool) : Option PoolAddr :=
  let e := a.toNat % 2 ^ 22 + scaled
  if 2 ^ 22 ≤ e then none
  else if a.toNat < 2 ^ 22 then some ⟨own, e, false⟩
  else if canalToo && canalForm a then some ⟨65 * field a.toNat 29 28 + field a.toNat 27 22, e, true⟩
  else none

/-- The target rule an access must meet (R252). -/
inductive TargetRule where
  | scratch
  | acc
  deriving DecidableEq, Repr

/-- An access keeps the target rule of its instruction (R252). -/
def State.targetOk (s : State) (p : PoolAddr) (size : Nat) (rule : TargetRule) : Bool :=
  decide (p.off + size ≤ 2 ^ 22) && banksAll p.off size (fun b =>
    match rule with
    | .scratch => s.scratchOk s.ix s.ic p.tile b
    | .acc => s.accOk s.ix s.ic p.tile b)

/-- The address checks of an SC operation in the order of its entry: the form and the target rule, then alignment (R267, R345). -/
def State.checkSc (s : State) (a : Word) (scaled size : Nat) : Except (Cause × Word) PoolAddr :=
  match poolAddr (tileOf s.ix) a scaled false with
  | none => .error (.spRange, if a.toNat < 2 ^ 22 then BitVec.ofNat 64 (a.toNat % 2 ^ 22 + scaled) else a)
  | some p =>
    if s.targetOk p size .acc = false then .error (.spRange, BitVec.ofNat 64 p.off)
    else if p.off % size ≠ 0 then .error (.align, BitVec.ofNat 64 p.off)
    else .ok p

/-- The address checks of R252 in their order: form, alignment, reach, target rule. -/
def State.checkAddr (s : State) (a : Word) (scaled size align : Nat) (canalToo : Bool) (rule : TargetRule) :
    Except (Cause × Word) PoolAddr :=
  let own := tileOf s.ix
  match poolAddr own a scaled canalToo with
  | none => .error (.spRange,
      if a.toNat < 2 ^ 22 ∨ (canalToo && canalForm a) = true then BitVec.ofNat 64 (a.toNat % 2 ^ 22 + scaled) else a)
  | some p =>
    if p.off % align ≠ 0 then .error (.align, BitVec.ofNat 64 p.off)
    else if p.canal && !s.canalReach s.ix s.ic p.tile then .error (.canalScope, a)
    else if s.targetOk p size rule then .ok p
    else .error (.spRange, BitVec.ofNat 64 p.off)

/-- The perform cycle of an access to a place, none where the spec does not fix it (R253). -/
def State.performAt (s : State) (p : PoolAddr) (extra : Nat) : Option Nat :=
  if p.canal then
    if dieOf p.tile = dieOf (tileOf s.ix) then some (s.gclk + 4 + hops (tileOf s.ix) p.tile) else none
  else some (s.gclk + 1 + extra)

/-- The latency of a load from a place, `base` where it is local (R48, R253). -/
def State.loadLat (s : State) (p : PoolAddr) (base : Nat) : Nat :=
  if p.canal then 8 + 2 * hops (tileOf s.ix) p.tile else base

end Sys2Proof.Machine
end

