-- ==== Sys2Proof/Machine/Control.lean ====
section
/-! DEFINITION. The B slot: sequencer control (R101 to R126). -/

namespace Sys2Proof.Machine

/-! ### Targets -/

/-- What the issuing sequencer holds of its bundle's page. -/
def State.bundlePage (s : State) : Option PageInfo := (s.seq s.ix).page (pageOf s.bundle.pos)

/-- The code handle of an ordinal of the bundle's page. -/
def State.ordHandle (s : State) (o : BitVec 12) : Word := mkHandle (pageOf s.bundle.pos) o

/-- landing(ordinal) of R108. -/
def State.landingOf (s : State) (o : BitVec 12) : Option (BitVec 12) :=
  s.bundlePage.bind (fun p => p.landing o.toNat 0)

/-- Set the bundle's target. -/
def State.goTo (s : State) (t : Target) : State := { s with bundle := { s.bundle with target := t } }

/-- Transfer to a landing of the bundle's page, or LAND_BAD (R106). -/
def State.goLanding (s : State) (o : BitVec 12) : State :=
  match s.landingOf o with
  | some w => s.goTo (.word w)
  | none => s.find 3 .landBad (s.ordHandle o)

/-- Transfer to a code handle whose page the bundle's issue has resolved, or LAND_BAD (R106, R107). -/
def State.goHandle (s : State) (h : Word) (need : BitVec 2) : State :=
  match (s.seq s.ix).handleTarget h need with
  | some t => s.goTo (.handle t)
  | none => s.find 3 .landBad h

/-- The return handle of a call (R109): it lands in the queue and in k15 one cycle later, exempt from the edge contract
(R45). Without a RETURN landing after the bundle, LAND_BAD with the bundle's own handle. -/
def State.leaveReturn (s : State) : State :=
  let ret := s.bundlePage.bind (fun p =>
    match p.after (wordOf s.bundle.pos) with
    | .word w => p.returnOrd w
    | _ => none)
  match ret with
  | some o => s.fly { s.flight 1 with vals := [⟨s.ordHandle (BitVec.ofNat 12 o), .clean⟩], keep := some 15, ret := true }
  | none => s.find 3 .landBad s.bundle.pos

/-! ### Branches, calls and returns (R108, R109) -/

def execBr (o : BitVec 12) (s : State) : Out := .next (s.goLanding o)

def execBrz (a : SSrc) (o : BitVec 12) (s : State) : Out :=
  let u := s.useS a
  .next (if s.condB a = 0 then u.goLanding o else u)

def execBrnz (a : SSrc) (o : BitVec 12) (s : State) : Out :=
  let u := s.useS a
  .next (if s.condB a ≠ 0 then u.goLanding o else u)

def execBrx (a : SSrc) (s : State) : Out := .next ((s.useS a).goHandle (s.valS a) 0)

def execCall (o : BitVec 12) (s : State) : Out := .next ((s.goLanding o).leaveReturn)

def execCallx (a : SSrc) (s : State) : Out := .next (((s.useS a).goHandle (s.valS a) 0).leaveReturn)

def execRet (a : SSrc) (s : State) : Out := .next ((s.useS a).goHandle (s.valS a) 1)

/-! ### Loops (R112, R114) -/

/-- LOOP and LOOPI with a count (R112). -/
def State.enterLoop (s : State) (n : BitVec 32) (e : BitVec 12) : State :=
  match s.bundlePage, s.landingOf e with
  | some p, some fin =>
    match p.after (wordOf s.bundle.pos) with
    | .word head =>
      if head = fin ∨ p.reaches 4096 head fin [] = false then s.find 3 .landBad (s.ordHandle e)
      else if n = 0 then s.goTo (.word fin)
      else if s.icx.loops.length = 6 then s.find 3 .loopDepth 6
      else { s with bundle := { s.bundle with push := some ⟨pageOf s.bundle.pos, head, fin, n, 0⟩ } }
    | _ => s.find 3 .landBad (s.ordHandle e)
  | _, _ => s.find 3 .landBad (s.ordHandle e)

def execLoop (a : SSrc) (e : BitVec 12) (s : State) : Out := .next ((s.useS a).enterLoop ((s.condB a).setWidth 32) e)

def execLoopi (n : BitVec 9) (e : BitVec 12) (s : State) : Out := .next (s.enterLoop (n.setWidth 32) e)

def execLeave (a : SSrc) (o : BitVec 12) (n : BitVec 3) (s : State) : Out :=
  let u := s.useS a
  if s.condB a = 0 then .next u
  else
    match s.landingOf o with
    | none => .next (u.find 3 .landBad (s.ordHandle o))
    | some w =>
      if s.icx.loops.length < n.toNat then .next (u.find 3 .loopDepth (BitVec.ofNat 64 s.icx.loops.length))
      else
        let u := u.goTo (.word w)
        .next { u with bundle := { u.bundle with pops := n.toNat } }

/-! ### The tick, traps, return and exit (R116, R121 to R123) -/

/-- REALN (R116). -/
def execRealn (m : BitVec 9) (s : State) : Out :=
  let p := (max m.toNat 1) * 2 ^ s.tickK.toNat
  let t := nextMultiple p (s.gclk + 1)
  .next (if t = s.gclk + 1 then s else s.waitFor (.realn p t))

/-- TRAP (R121): posted after its bundle commits. -/
def execTrap (a : SSrc) (code : BitVec 9) (s : State) : Out :=
  let u := s.useS a
  if s.condB a = 0 then .next u
  else .next { u with bundle := { u.bundle with post := some (.swtrap, code.setWidth 64) } }

/-- BRK (R121). -/
def execBrk (code : BitVec 9) (s : State) : Out :=
  .next { s with bundle := { s.bundle with post := some (.brk, code.setWidth 64) } }

/-- ERET (R122): the return happens at the end of the bundle's issue cycle (R347); its privilege is checked at decode. -/
def execEret (s : State) : Out := .next (s.goTo .eret)

/-- TEXIT (R123): the sequencer's context halts after the bundle commits. -/
def execTexit (s : State) : Out := .next (s.goTo .texit)

end Sys2Proof.Machine
end

