-- ==== Sys2Proof/Machine/Engines.lean ====
section
/-! DEFINITION. The matrix engine of a tile: who owns its cycles, dense nests, known-answer runs, the grouped operation,
and the reservations they hold (R204 to R247). -/

namespace Sys2Proof.Machine

/-! ### CRC-32C (R227, R292) -/

/-- Eight shifts of the reflected Castagnoli polynomial. -/
def crcShift : Nat → Nat → Nat
  | 0, c => c
  | n + 1, c => crcShift n (if c % 2 = 1 then (c / 2) ^^^ 0x82F63B78 else c / 2)

/-- CRC-32C of a list of byte values. -/
def crc32c (l : List Nat) : Nat :=
  (l.foldl (fun c b => crcShift 8 (c ^^^ (b % 256))) 0xFFFFFFFF) ^^^ 0xFFFFFFFF

/-! ### Input formats (R204) -/

/-- What an input format code fixes. -/
structure MxFmt where
  kf : Nat
  cpk : Nat
  elem : Tag
  acc : Tag
  scaled : Bool
  deriving DecidableEq, Repr

/-- The formats of R204. -/
def mxFmt (c : BitVec 4) : Option MxFmt :=
  match c.toNat with
  | 0 => some ⟨1, 1, tBF16, tF32, false⟩
  | 1 => some ⟨1, 1, tF16, tF32, false⟩
  | 2 => some ⟨2, 1, tE5M2, tF32, true⟩
  | 3 => some ⟨2, 1, tE4M3, tF32, true⟩
  | 4 => some ⟨4, 1, tE3M2, tF32, true⟩
  | 5 => some ⟨4, 1, tE2M3, tF32, true⟩
  | 6 => some ⟨8, 1, tE2M1, tF32, true⟩
  | 7 => some ⟨1, 4, tF32, tF32, false⟩
  | 8 => some ⟨1, 4, tF64, tF64, false⟩
  | 9 => some ⟨2, 1, tS8, tS32, false⟩
  | _ => none

/-- The two operands may differ only within codes 2 to 3 or 4 to 5 (R204). -/
def mxPairOk (a b : BitVec 4) : Bool :=
  decide (a.toNat < 10 ∧ b.toNat < 10)
    && (decide (a = b) || decide (2 ≤ a.toNat ∧ a.toNat ≤ 3 ∧ 2 ≤ b.toNat ∧ b.toNat ≤ 3)
      || decide (4 ≤ a.toNat ∧ a.toNat ≤ 5 ∧ 4 ≤ b.toNat ∧ b.toNat ≤ 5))

/-- The format that fixes a nest's steps: that of operand A; B's agrees with it in all but the element (R204). -/
def MxCfg.fmt (c : MxCfg) : MxFmt := (mxFmt c.fa).getD ⟨1, 1, tBF16, tF32, false⟩

/-- The element tag of operand B. -/
def MxCfg.elemB (c : MxCfg) : Tag := ((mxFmt c.fb).map MxFmt.elem).getD tBF16

/-! ### Sharing the engine (R149, R213) -/

/-- A task runs, or it is ending and its work goes on (R154, R347); what a cut has halted stands still (R316). -/
def State.runs (s : State) (task : Nat) : Bool :=
  match s.task task with
  | some t => decide (t.st = .running) || (t.ending && decide (t.st ≠ .cut))
  | none => false

/-- TMODE of a task on a tile (R212). -/
def State.modeOf (s : State) (task tile : Nat) : BitVec 2 :=
  (tget TaskTile.init s.ttiles (512 * (task + 1) + tile)).tmode

/-- A mode gives engine cycles to a sequencer at all (R213). -/
def modeOwns (m : BitVec 2) (x : Nat) : Bool :=
  match m.toNat with
  | 0 => decide (x % 2 = 0)
  | 1 => decide (x % 2 = 1)
  | _ => true

/-- Cycle t is an engine cycle of sequencer x for a task that runs (R213). -/
def State.ownsCycle (s : State) (task x t : Nat) : Bool :=
  let m := s.modeOf task (tileOf x)
  if m.toNat < 2 then modeOwns m x else decide (((t - (s.tile (tileOf x)).origin) / 8) % 2 = x % 2)

/-- Engine cycles of a sequencer in the cycles from t, k of them. -/
def State.ownedIn (s : State) (task x t : Nat) : Nat → Nat
  | 0 => 0
  | k + 1 => (if s.ownsCycle task x t then 1 else 0) + s.ownedIn task x (t + 1) k

/-! ### The steps of a nest (R205 to R209) -/

/-- Index of each level at a step, n0 fastest (R209). -/
def nestIdx : List NestLevel → Nat → List (NestLevel × Nat)
  | [], _ => []
  | l :: rest, s => (l, s % l.bound.toNat) :: nestIdx rest (s / l.bound.toNat)

/-- Steps of a nest (R209). -/
def nestSteps (l : List NestLevel) : Nat := l.foldl (fun a v => a * v.bound.toNat) 1

/-- Offsets of a step: A, gather block, B, tile (R209). -/
structure NestPoint where
  offA : Int
  g : Int
  offB : Int
  t : Int
  deriving DecidableEq, Repr

/-- A level's part of an offset. -/
def strideSum (l : List (NestLevel × Nat)) (f : NestLevel → Int) : Int :=
  l.foldl (fun a p => a + (p.2 : Int) * f p.1) 0

/-- The point of a step, t counted from the tile of C. -/
def nestPoint (lv : List NestLevel) (gather : Bool) (ctile s : Nat) : NestPoint :=
  let ix := nestIdx lv s
  let block : NestLevel → Bool := fun l => gather && decide (l.role = 1)
  { offA := 2 * strideSum ix (fun l => if block l then 0 else l.sa.toInt),
    g := strideSum ix (fun l => if block l then l.sa.toInt else 0),
    offB := 2 * strideSum ix (fun l => l.sb.toInt),
    t := ctile + strideSum ix (fun l => l.sc.toInt) }

/-- The row of A that index m selects in gather block g; none is a zero row (R206). -/
def rowA (gather : Bool) (x : VBits) (g : Int) (m : Nat) : Option Nat :=
  if gather then
    let v := elemAt 16 x (64 * g.toNat + m)
    if v = 0xFFFF then none else some v
  else some m

/-- Bytes of one operand's chunk in a step (R205). -/
def chunkBytes (f : MxFmt) : Nat := f.kf * esz f.elem / 8

/-- A chunk's start: row r of an operand at base with a pitch, at an offset (R205). -/
def chunkAt (base pitch r : Nat) (off : Int) : Int := (base : Int) + (r * pitch * 32 : Nat) + off

/-- The byte that holds the scale nibble of an element, and which nibble it is (R207): `d` is the element's bit offset from
its operand's base. -/
def nibbleAt (region : Nat) (w : Nat) (d : Int) : Int × Nat :=
  let block := d / (32 * (w : Int))
  ((region : Int) + block / 2, (block % 2).toNat)

/-- Scale regions a chunk's elements need: the byte addresses of their nibbles (R207). -/
def chunkNibbles (f : MxFmt) (base region : Nat) (at_ : Int) : List Int :=
  if f.scaled then
    ((List.range f.kf).map (fun j => (nibbleAt region (esz f.elem) ((at_ - base) * 8 + (esz f.elem * j : Nat))).1)).dedup
  else []

/-- One operand of a step. -/
structure Operand where
  base : Nat
  region : Nat
  elem : Tag
  rows : List (Option Int)
  deriving DecidableEq, Repr

/-- Where the 64 rows of A and of B start in a step. -/
def nestOperands (z : Nest) (p : NestPoint) : Operand × Operand :=
  let rows := List.range 64
  (⟨z.a, z.sa, z.cfg.fmt.elem, rows.map (fun m => (rowA z.cfg.g z.x p.g m).map (fun r => chunkAt z.a z.cfg.pa.toNat r p.offA))⟩,
    ⟨z.b, z.sb, z.cfg.elemB, rows.map (fun n => some (chunkAt z.b z.cfg.pb.toNat n p.offB))⟩)

/-- The byte ranges an operand reads in a step: start and length. -/
def Operand.ranges (o : Operand) (f : MxFmt) : List (Int × Nat) :=
  let f := { f with elem := o.elem }
  o.rows.flatMap (fun r =>
    match r with
    | none => []
    | some a => (a, chunkBytes f) :: (chunkNibbles f o.base o.region a).map (fun b => (b, 1)))

/-- The first address of a byte range that does not lie in a scratch bank the context claims on its tile. -/
def State.firstFail (s : State) (x c : Nat) (r : Int × Nat) : Option Int :=
  if r.2 = 0 then none
  else if r.1 < 0 then some r.1
  else
    let a := r.1.toNat
    let n := bankOf (a + r.2 - 1) - bankOf a
    ((a :: (List.range n).map (fun i => (bankOf a + i + 1) * bankSize)).find? (fun o =>
      !s.scratchOk x c (tileOf x) (bankOf o))).map Int.ofNat

/-- The first address that the steps from k on read and may not: step by step, A's rows with their nibbles, then B's. The order of the
search is the model's choice (R214, log 94). -/
def State.rangeFail (s : State) (z : Nest) : Nat → Nat → Option Int
  | 0, _ => none
  | n + 1, k =>
    let o := nestOperands z (nestPoint z.levels z.cfg.g (z.c / 0x4000) k)
    match (o.1.ranges z.cfg.fmt ++ o.2.ranges z.cfg.fmt).findSome? (s.firstFail z.seq z.ctx) with
    | some a => some a
    | none => s.rangeFail z n (k + 1)

/-- The banks the steps from k on read (R218). -/
def nestBanks (z : Nest) : Nat → Nat → List Nat → List Nat
  | 0, _, acc => acc
  | n + 1, k, acc =>
    let o := nestOperands z (nestPoint z.levels z.cfg.g (z.c / 0x4000) k)
    let bs := (o.1.ranges z.cfg.fmt ++ o.2.ranges z.cfg.fmt).flatMap (fun r =>
      [bankOf r.1.toNat, bankOf (r.1.toNat + r.2 - 1)])
    nestBanks z n (k + 1) (bs.foldl (fun l b => if b ∈ l then l else l ++ [b]) acc)

/-- The accumulator tiles of the steps from k on, in order. -/
def nestTiles (z : Nest) : Nat → Nat → List Int
  | 0, _ => []
  | n + 1, k => (nestPoint z.levels z.cfg.g (z.c / 0x4000) k).t :: nestTiles z n (k + 1)

/-! ### Arithmetic of a step (R207, R216, R217) -/

/-- One operand element with its scale, and whether a granule it comes from is bad. -/
structure MxElem where
  v : FV
  /-- Its scale entry is 0xFF. -/
  nan : Bool
  bad : Bool
  deriving DecidableEq, Repr

/-- Element j of the chunk at an address. -/
def State.mxElem (s : State) (tile : Nat) (f : MxFmt) (o : Operand) (scl : Table (BitVec 8)) (at_ : Int) (j : Nat) : MxElem :=
  let w := esz o.elem
  let bit := at_.toNat * 8 + w * j
  let c := (s.rdPool tile (bit / 8) ((w + 7) / 8)) >>> (bit % 8) % 2 ^ w
  let bad := s.poolBad tile (bit / 8) ((w + 7) / 8)
  if f.scaled then
    let nb := nibbleAt o.region w ((at_ - o.base) * 8 + (w * j : Nat))
    let e := (tget 0x7F scl (field (s.rdPool tile nb.1.toNat 1) (4 * nb.2 + 3) (4 * nb.2))).toNat
    let badN := s.poolBad tile nb.1.toNat 1
    if e = 0xFF then ⟨.nan false false, true, bad || badN⟩
    else ⟨(elemVal o.elem c).scale ((e : Int) - 127), false, bad || badN⟩
  else ⟨elemVal o.elem c, false, bad⟩

/-- The kf elements of every row; a zero row gives +0 (R206). -/
def State.mxRows (s : State) (tile : Nat) (f : MxFmt) (o : Operand) (scl : Table (BitVec 8)) : List (List MxElem) :=
  o.rows.map (fun r =>
    (List.range f.kf).map (fun j =>
      match r with
      | none => ⟨.zero false, false, false⟩
      | some a => s.mxElem tile f o scl a j))

/-- The exact sum of the products of two chunks, its flags, and whether it is bad (R216, R217). -/
def dotRow (a b : List MxElem) : FV × Flags × Bool :=
  (a.zip b).foldl (fun acc p =>
    let m := p.1.v.mul p.2.v
    let t := acc.1.add m.1
    (t.1, ((acc.2.1.or m.2).or t.2).or (Flags.invIf (p.1.nan || p.2.nan)), acc.2.2 || p.1.bad || p.2.bad))
    (.zero true, Flags.none, false)

/-- The integer an exact value stands for. -/
def FV.int : FV → Int
  | .fin n m e => signedMant n m * 2 ^ e.toNat
  | _ => 0

/-- acc_round(c + v) in an accumulator format (R216). -/
def accAdd (acc : Tag) (c : Nat) (v : FV) : Nat × Flags :=
  match fmtOf acc with
  | some f => f.finish ((f.decode c).add v)
  | none => (intCode 32 (intVal true 32 c + v.int), Flags.none)

/-- The pool offset of a tile: a slot number times 16 KiB (R209, R220). -/
def tileOff (t : Nat) : Nat := t * 0x4000

/-- Mark the granules of a row whose elements are bad: `per` elements in each granule. -/
def State.markBad (s : State) (tile off per : Nat) (bad : List Bool) : State :=
  (List.range (bad.length / per)).foldl (fun s k =>
    if (bad.drop (k * per)).take per |>.any id then
      s.setGran tile (off + 64 * k) { s.gran tile (off + 64 * k) with mark := .poison }
    else s) s

/-- One row m of a step: 64 elements of the tile take their sums. -/
def State.nestRow (s : State) (tile : Nat) (acc : Tag) (base m : Nat) (a : List MxElem) (bs : List (List MxElem)) :
    State × Flags :=
  let w := esz acc
  let off := base + m * (8 * w)
  let old := s.rdPool tile off (8 * w)
  let r := (bs.zipIdx).map (fun p =>
    let d := dotRow a p.1
    let c := accAdd acc ((old >>> (w * p.2)) % 2 ^ w) d.1
    (c.1, c.2.or d.2.1, d.2.2))
  let s := s.wrPool tile off (8 * w) (packElems w (r.map (fun t => t.1)))
  (s.markBad tile off (512 / w) (r.map (fun t => t.2.2)), r.foldl (fun f t => f.or t.2.1) Flags.none)

/-- A step lands (R216). -/
def State.nestStep (s : State) (z : Nest) (k : Nat) : State × Flags :=
  let p := nestPoint z.levels z.cfg.g (z.c / 0x4000) k
  let f := z.cfg.fmt
  let o := nestOperands z p
  let tile := tileOf z.seq
  let as := s.mxRows tile f o.1 z.scl
  let bs := s.mxRows tile f o.2 z.scl
  (as.zipIdx).foldl (fun (q : State × Flags) r =>
    let t := q.1.nestRow tile f.acc (tileOff p.t.toNat) r.2 r.1 bs
    (t.1, q.2.or t.2)) (s, Flags.none)

/-- Engine cycles of a nest to its completion (R216). -/
def Nest.last (z : Nest) : Nat := 8 + z.steps * z.cfg.fmt.cpk

/-! ### Known-answer runs (R227) -/

/-- Engine cycles of a run. -/
def Kat.last (k : Kat) : Nat := 8 + 16 * ((mxFmt k.fmt).map MxFmt.cpk).getD 1

/-- The 24-bit hash of a run (R227). -/
def katHash (fmt : BitVec 4) (seed : BitVec 8) : BitVec 24 :=
  let kk := 16 * ((mxFmt fmt).map MxFmt.kf).getD 1
  let av : Nat → Nat → Int := fun m k => (((5 * m + 3 * k + seed.toNat) % 7 : Nat) : Int) - 3
  let bv : Nat → Nat → Int := fun k n => (((2 * k + 7 * n + seed.toNat) % 7 : Nat) : Int) - 3
  let words := (List.range 4096).map (fun i =>
    let m := i / 64
    let n := i % 64
    intCode 32 ((List.range kk).foldl (fun acc k => acc + av m k * bv k n) 0))
  let bytes := words.flatMap (fun w => [w % 256, w / 256 % 256, w / 65536 % 256, w / 16777216])
  BitVec.ofNat 24 (crc32c bytes)

/-! ### The grouped operation (R231 to R246) -/

/-- Bytes of an activation column (R234). -/
def colBytes (fmt : BitVec 2) : Nat :=
  match fmt.toNat with
  | 0 => 128
  | 1 => 256
  | _ => 64

/-- The tag of the activations (R234). -/
def actTag (fmt : BitVec 2) : Tag :=
  match fmt.toNat with
  | 0 => tBF16
  | 1 => tF32
  | 2 => tE4M3
  | _ => tE5M2

/-- Where a column lies (R234). -/
def Vg.colAt (v : Vg) (k : Nat) : Nat := v.x + (k % v.nb) * bankSize + (k / v.nb) * colBytes v.fmt

/-- Element b of a column as an F32 code: widened exactly, a NaN canonical, no flag (R234). -/
def State.actElem (s : State) (tile : Nat) (v : Vg) (k b : Nat) : Nat :=
  let n := colBytes v.fmt / 64
  let c := s.rdPool tile (v.colAt k + b * n) n
  match elemVal (actTag v.fmt) c with
  | .nan _ _ => fmtF32.nan
  | y => (fmtF32.ofFV y).1

/-- A stream word (R231). -/
inductive VgWord where
  | pos (p : Nat)
  | opn (code : Nat)
  | endGroup
  | endRow
  | endStream
  | pad
  | bad
  deriving DecidableEq, Repr

/-- What a word is. -/
def vgWord (w : Nat) : VgWord :=
  if w < 0x8000 then .pos w
  else if w < 0xC000 then (if field w 13 8 = 0 then .opn (w % 256) else .bad)
  else match w with
    | 0xC000 => .endGroup
    | 0xD000 => .endRow
    | 0xE000 => .endStream
    | 0xF000 => .pad
    | _ => .bad

/-- What a churn's head is found to be: a word, or a fault (R232, R241). -/
inductive VgHead where
  | word (w : VgWord)
  | fault (c : Cause)
  deriving DecidableEq, Repr

/-- The word at a churn's head, checked against its state (R232). `fuel` skips pads. -/
def State.vgHead (s : State) (tile : Nat) (v : Vg) (h : Churn) : Nat → VgHead × Churn
  | 0 => (.fault .vgStreamBad, h)
  | fuel + 1 =>
    if h.len ≤ h.at_ then (.fault .vgStreamBad, h)
    else
      let a := h.base + h.at_
      match (s.gran tile a).mark with
      | .ue => (.fault .eccUe, h)
      | .poison => (.fault .poisonUse, h)
      | .clean =>
        match vgWord (s.rdPool tile a 2) with
        | .pad => s.vgHead tile v { h with at_ := h.at_ + 2 } fuel
        | .bad => (.fault .vgStreamBad, h)
        | .pos p =>
          if (h.st = 2 ∧ p < v.kmax) ∨ (h.st = 3 ∧ h.last < p ∧ p < v.kmax) then (.word (.pos p), h)
          else (.fault .vgStreamBad, h)
        | .opn c =>
          if h.st = 0 then (if h.rows < 8 then (.word (.opn c), h) else (.fault .vgStreamBad, h))
          else if h.st = 1 then (if h.groups < 64 then (.word (.opn c), h) else (.fault .vgGroupOvf, h))
          else (.fault .vgStreamBad, h)
        | .endGroup => if h.st = 3 then (.word .endGroup, h) else (.fault .vgStreamBad, h)
        | .endRow =>
          if (h.st = 0 ∧ h.rows < 8) ∨ h.st = 1 then (.word .endRow, h) else (.fault .vgStreamBad, h)
        | .endStream => if h.st = 0 then (.word .endStream, h) else (.fault .vgStreamBad, h)

/-- Step 1 of R239: consume opens, ends of row and the end of stream at the head. -/
def State.vgConsume (s : State) (tile : Nat) (v : Vg) : Nat → Churn → Churn × Option Cause
  | 0, h => (h, none)
  | fuel + 1, h =>
    if h.st = 4 then (h, none)
    else
      match s.vgHead tile v h 0x200000 with
      | (.fault c, h) => (h, some c)
      | (.word (.opn c), h) =>
        s.vgConsume tile v fuel { h with
          at_ := h.at_ + 2, st := 2, code := c, groups := if h.st = 0 then 1 else h.groups + 1,
          sum := List.replicate 64 0, poisonLanes := List.replicate 64 false }
      | (.word .endRow, h) => s.vgConsume tile v fuel { h with at_ := h.at_ + 2, st := 0, rows := h.rows + 1, groups := 0 }
      | (.word .endStream, h) => ({ h with at_ := h.at_ + 2, st := 4 }, none)
      | (_, h) => (h, none)

/-- A position's column is added to the open group (R238, R246). -/
def State.vgAdd (s : State) (tile : Nat) (v : Vg) (h : Churn) (p : Nat) : Churn × Flags :=
  let r := (List.range 64).map (fun b =>
    let t := fmtF32.add (h.sum.getD b 0).toNat (s.actElem tile v p b)
    (BitVec.ofNat 32 t.1, t.2))
  let n := colBytes v.fmt / 64
  let bad := (List.range 64).map (fun b => s.poolBad tile (v.colAt p + b * n) n)
  ({ h with
      sum := r.map Prod.fst, poisonLanes := (h.poisonLanes.zip bad).map (fun q => q.1 || q.2),
      at_ := h.at_ + 2, st := 3, last := p },
    r.foldl (fun f t => f.or t.2) Flags.none)

/-- Step 2 of R239 for one churn: up to `fuel` positions, each from a bank not yet granted. -/
def State.vgGather (s : State) (tile : Nat) (v : Vg) : Nat → Churn → List Nat → Flags →
    Churn × List Nat × Flags × Option Cause
  | 0, h, granted, fl =>
    if h.st = 4 then (h, granted, fl, none)
    else
      match s.vgHead tile v h 0x200000 with
      | (.fault c, h) => (h, granted, fl, some c)
      | (_, h) => (h, granted, fl, none)
  | fuel + 1, h, granted, fl =>
    if h.st = 4 then (h, granted, fl, none)
    else
      match s.vgHead tile v h 0x200000 with
      | (.fault c, h) => (h, granted, fl, some c)
      | (.word (.pos p), h) =>
        let b := p % v.nb
        if b ∈ granted then (h, granted, fl, none)
        else
          let r := s.vgAdd tile v h p
          s.vgGather tile v fuel r.1 (b :: granted) (fl.or r.2)
      | (_, h) => (h, granted, fl, none)

/-- A churn's head is an end of group that may close. -/
def State.vgAtEnd (s : State) (tile : Nat) (v : Vg) (h : Churn) : Bool :=
  decide (h.st = 3) && (match (s.vgHead tile v h 0x200000).1 with
    | .word .endGroup => true
    | _ => false)

/-- The churn that closes: the one that has waited longest, the lower number first (R239). -/
def vgPick : List (Nat × Churn × Bool) → Option (Nat × Churn)
  | [] => none
  | (i, h, e) :: l =>
    match vgPick l with
    | none => if e then some (i, h) else none
    | some (j, k) => if e && decide (k.waited ≤ h.waited) then some (i, h) else some (j, k)

/-- The close of a group (R238, R246): the tile's column takes the product. -/
def State.vgClose (s : State) (tile : Nat) (v : Vg) (i : Nat) (h : Churn) : State × Flags :=
  let col := 8 * h.rows + i
  let tab := (tget 0 v.table h.code).toNat
  (List.range 64).foldl (fun (q : State × Flags) b =>
    let prod := fmtF32.mul (h.sum.getD b 0).toNat tab
    let off := v.c + 256 * b + 4 * col
    let r := fmtF32.add (q.1.rdPool tile off 4) prod.1
    let s := q.1.wrPool tile off 4 r.1
    let s := if h.poisonLanes.getD b false then s.setGran tile off { s.gran tile off with mark := .poison } else s
    (s, (q.2.or prod.2).or r.2)) (s, Flags.none)

/-- The fault of the lowest-numbered churn (R241): cause, churn and byte offset of the word. -/
def firstFault : List (Nat × Churn × Option Cause) → Option (Cause × Nat × Nat)
  | [] => none
  | (i, h, some c) :: _ => some (c, i, h.at_)
  | (_, _, none) :: l => firstFault l

/-- One engine cycle of a grouped operation that has not ended (R239, R240, R241). -/
def State.vgCycle (s : State) (tile : Nat) (v : Vg) : State × Vg :=
  let n := v.cycle + 1
  let c1 := v.churns.map (fun h => s.vgConsume tile v 0x400000 h)
  let c2 := c1.foldl (fun (acc : List (Churn × Option Cause) × List Nat × Flags) p =>
    match p.2 with
    | some c => (acc.1 ++ [(p.1, some c)], acc.2)
    | none =>
      let r := s.vgGather tile v 8 p.1 acc.2.1 Flags.none
      (acc.1 ++ [(r.1, r.2.2.2)], r.2.1, acc.2.2.or r.2.2.1)) ([], [], Flags.none)
  let l := (c2.1.zipIdx).map (fun p => (p.2, p.1.1, p.1.2))
  let ends := l.map (fun p => (p.1, p.2.1, s.vgAtEnd tile v p.2.1 && p.2.2.isNone))
  let closing := vgPick ends
  let r := match closing with
    | some (i, h) => s.vgClose tile v i h
    | none => (s, Flags.none)
  let churns := ends.map (fun p =>
    if (closing.map Prod.fst) = some p.1 then { p.2.1 with at_ := p.2.1.at_ + 2, st := 1, waited := 0 }
    else if p.2.2 then { p.2.1 with waited := p.2.1.waited + 1 } else p.2.1)
  let fault := firstFault l
  let stop : Bool := fault.isNone && (v.stopAsked || churns.all (fun h => decide (h.st = 4)))
  let ended := if stop then some n else none
  (r.1, { v with
    churns := churns, cycle := n, ended := ended, stopped := v.stopAsked && fault.isNone, fault := fault,
    flags := (v.flags.or c2.2.2).or r.2 })

/-- A churn's fault stops the operation at the end of that engine cycle (R241). -/
def vgFaultStop (v : Vg) : Vg :=
  if v.fault.isSome ∧ v.ended = none then { v with ended := some v.cycle } else v

/-- A further engine cycle: the streams are walked, or the eight cycles before completion pass; a VGSTOP stops it there too
(R240, R242). -/
def State.vgNext (s : State) (tile : Nat) (v : Vg) : State × Vg :=
  match v.ended with
  | none => s.vgCycle tile v
  | some _ =>
    if v.stopAsked && !v.stopped && v.fault.isNone && !v.completed then
      (s, { v with cycle := v.cycle + 1, ended := some (v.cycle + 1), stopped := true })
    else (s, { v with cycle := v.cycle + 1 })

/-- The operation completes in this engine cycle. -/
def Vg.due (v : Vg) : Bool :=
  match v.ended with
  | some e => decide (e + 8 ≤ v.cycle) && !v.completed
  | none => false

/-- Whether it completes within k more engine cycles. -/
def State.vgEnds (s : State) (tile : Nat) (v : Vg) : Nat → Bool
  | 0 => v.due || v.completed
  | k + 1 => v.due || v.completed || (let r := s.vgNext tile v; r.1.vgEnds tile (vgFaultStop r.2) k)

/-! ### Reservations and bookings (R218, R243, R254, R255) -/

/-- A nest still runs in cycle p, its task running on without a pause: fewer engine cycles than it needs have passed. -/
def State.nestHolds (s : State) (z : Nest) (p : Nat) : Bool :=
  let t := max s.gclk (z.issued + 1)
  !s.runs z.task || decide (z.n + s.ownedIn z.task z.seq t (p - t) < z.last)

/-- The engine that has reserved a bank of a tile in cycle p, as a requester code (R218, R243). -/
def State.reservedBy (s : State) (t bank p : Nat) : Option Nat :=
  let r := s.tile t
  let nest : Option Nest → Option Nat := fun o =>
    match o with
    | some z => if bank ∈ z.banks ∧ s.nestHolds z p = true then some (requester 1 z.seq) else none
    | none => none
  let grp : Option Nat :=
    match r.vg with
    | some v =>
      if bank ∈ v.banks ∧ v.completed = false ∧ (s.runs v.task && s.vgEnds t v (p - max s.gclk (v.issued + 1))) = false then
        some (requester 2 v.seq)
      else none
    | none => none
  ((nest r.nestA).or (nest r.nestB)).or grp

/-- A bank is free for an engine, fabric or host access in this cycle (R256). -/
def State.bankFree (s : State) (t bank : Nat) : Bool :=
  (s.booked t bank s.gclk).isNone && (s.reservedBy t bank s.gclk).isNone

/-- A tile is under reset in this cycle (R402). -/
def State.underReset (s : State) (t : Nat) : Bool := s.resets.any (fun r => decide (r.1 = t ∧ s.gclk ≤ r.2))

/-- Crossings between dies wait (R394). -/
def State.crossWait (s : State) : Bool := s.laneUntil.any (fun (e : Nat × Nat) => decide (s.gclk < e.2))

/-- TVAL of BANK_CONFLICT (R255). -/
def conflictVal (holder loser t bank : Nat) : Word :=
  BitVec.ofNat 64 (holder * 2 ^ 28 + loser * 2 ^ 16 + dieOf t * 2 ^ 12 + (tileNo t % 64) * 2 ^ 6 + bank)

/-- An access of a sequencer conflicts on a bank in its perform cycle (R254). -/
def State.conflictOf (s : State) (x t bank p : Nat) : Option Word :=
  let loser := requester 0 x
  match (s.booked t bank p).map (fun y => requester 0 y) with
  | some h => some (conflictVal h loser t bank)
  | none => (s.reservedBy t bank p).map (fun h => conflictVal h loser t bank)

/-- The access of the issuing sequencer conflicts on a bank in its perform cycle (R254). -/
def State.conflict (s : State) (t bank p : Nat) : Option Word := s.conflictOf s.ix t bank p

/-- The bundle books a bank for a cycle. -/
def State.book (s : State) (t bank p : Nat) : State :=
  { s with bundle := { s.bundle with books := s.bundle.books ++ [⟨t, bank, p, s.ix, false⟩] } }

/-- The bundle asks for banks over the canal: they are tested and booked once the local bookings of the cycle stand (R254). -/
def State.bookCanal (s : State) (t : Nat) (banks : List Nat) (p : Nat) : State :=
  { s with bundle := { s.bundle with books := s.bundle.books ++ banks.map (fun b => (⟨t, b, p, s.ix, true⟩ : Booking)) } }

/-- The banks a range touches. -/
def banksOf (off n : Nat) : List Nat :=
  if n = 0 then [] else (List.range (bankOf (off + n - 1) - bankOf off + 1)).map (fun i => bankOf off + i)

/-- Book every bank of a list for a cycle, or find the conflict; `micro` says that micro-step 1 does it (R259). An access in the bundle of an
MXGO to a bank that its nest reads counts, where it is local, as booked before the MXGO issued; a canal booking is made after it and
conflicts: the model's choice (R218, log 113). -/
def State.bookAll (s : State) (t : Nat) (banks : List Nat) (p : Nat) (micro : Bool) : State :=
  match banks.findSome? (fun b => s.conflict t b p) with
  | some v => if micro then s.findMicro .bankConflict v else s.find 3 .bankConflict v
  | none => banks.foldl (fun s b => s.book t b p) s

/-! ### Accumulator tiles and drains (R220 to R225) -/

/-- The tag of an accumulator slot (R190). -/
def State.slotTag (s : State) (t slot : Nat) : Tag := tget 0 (s.tile t).slotTags slot

/-- The tile number that stands for a slot: an F64 tile is named by its even slot (R220, R221). -/
def State.tileNumber (s : State) (t slot : Nat) : Nat := if s.slotTag t slot = tF64 then slot / 2 * 2 else slot

/-- The rows of a tile that [off, off + n) touches, first and last (R220, R223). -/
def State.rowsOf (s : State) (t off n : Nat) : Nat × Nat :=
  let slot := off / 0x4000
  if s.slotTag t slot = tF64 then
    let o := off - tileOff (slot / 2 * 2)
    (o / 512, (o + n - 1) / 512)
  else
    let o := off % 0x4000
    (o / 256, (o + n - 1) / 256)

/-- Band entries of a tile (R221). -/
def State.bandsOf (s : State) (t tno : Nat) : List Band :=
  (List.range 4).filterMap (fun e => (tslice (s.tile t).bands (4 * tno + e) (4 * tno + e + 1)).head?.map Prod.snd)

/-- A grouped operation that was there as the cycle began owns the tile (R7, R225, R244). -/
def State.vgOwns (s : State) (t tno : Nat) : Bool :=
  match (s.tile t).vg with
  | some v => decide (v.issued ≠ s.gclk ∧ v.c / 0x4000 = tno)
  | none => false

/-- The bank of a slot is allocated. -/
def State.slotAlloc (s : State) (t slot : Nat) : Bool := ((s.tile t).bank (slot / 4)).alloc

/-- A drain of an allocated tile is allowed (R222); context 0 is not checked against bands (R419). -/
def State.drainOk (s : State) (t off n : Nat) : Bool :=
  let tno := s.tileNumber t (off / 0x4000)
  let rows := s.rowsOf t off n
  let bands := s.bandsOf t tno
  !s.vgOwns t tno &&
    (decide (s.ic = 0)
      || (if bands = [] then decide (tileOf s.ix = t)
          else bands.any (fun b => decide (b.seq = s.ix ∧ b.lo ≤ rows.1 ∧ rows.2 < b.lo + b.cnt))))

end Sys2Proof.Machine
end

