-- ==== Sys2Proof/Machine/MemOps.lean ====
section
/-! DEFINITION. The M slot: loads and stores of a pool, checked and booked at issue (R179 to R183, R223 to R226, R252 to
R259). The bytes move in the perform cycle (Perform.lean). -/

namespace Sys2Proof.Machine

/-! ### Shared forms -/

/-- TVAL of a format cause (R158): unit, tag of x, tag of y. -/
def fmtTval (unit : Nat) (x y : Tag) : Word := BitVec.ofNat 64 (unit + x.toNat * 2 ^ 8 + y.toNat * 2 ^ 16)

/-- The access crosses a die boundary (R253). -/
def State.crossDie (s : State) (p : PoolAddr) : Bool := p.canal && decide (dieOf p.tile ≠ dieOf (tileOf s.ix))

/-- The cycle an access performs in, and for a cross-die one the first it may perform in (R253). -/
def State.performCycle (s : State) (p : PoolAddr) (extra : Nat) : Nat :=
  if p.canal then s.gclk + 4 + hops (tileOf s.ix) p.tile else s.gclk + 1 + extra

/-- Some bank of a range is HELD (R317). -/
def State.anyHeld (s : State) (t : Nat) (banks : List Nat) : Bool := banks.any (fun b => ((s.tile t).bank b).held)

/-- Book a checked access unless it crosses a die; a same-die canal access books after the local ones (R254, R256). -/
def State.bookAccess (s : State) (p : PoolAddr) (banks : List Nat) : State :=
  if s.crossDie p then s
  else if p.canal then s.bookCanal p.tile banks (s.performCycle p 0)
  else s.bookAll p.tile banks (s.performCycle p 0) false

/-- Stage a load: its flight waits for the data of the access of the same number (R17, R253). -/
def State.stageLoad (s : State) (p : PoolAddr) (banks : List Nat) (f : Flight) (k : AccKind) (extra : Nat) (micro : Bool) : State :=
  let s' := if micro then s else s.bookAccess p banks
  let f := { f with id := s.fresh, ready := false }
  (s'.fly f).access ⟨f.id, some (s.performCycle p extra), s.ix, s.ic, p.tile, p.off, k, s.crossDie p⟩

/-- Stage a store. Whether it meets a HELD bank shows in its perform cycle (R256, R320). -/
def State.stageStore (s : State) (p : PoolAddr) (banks : List Nat) (k : AccKind) (extra : Nat) (micro : Bool) : State :=
  (if micro then s else s.bookAccess p banks).access
    ⟨s.fresh, some (s.performCycle p extra), s.ix, s.ic, p.tile, p.off, k, s.crossDie p⟩

/-- A scalar load (R257, R258). -/
def scalarLoad (s : State) (a : SSrc) (d : SDest) (o : BitVec 12) (size : Nat) (signed : Bool) : Out :=
  let u := s.useS a
  match s.checkAddr (s.valS a) (o.toNat * size) size size true .scratch with
  | .error e => .next (u.find 3 e.1 e.2)
  | .ok p =>
    if s.poolComp p.tile p.off size then .next (u.find 3 .compressedLoad (BitVec.ofNat 64 p.off))
    else
      .next (u.stageLoad p (banksOf p.off size)
        { s.flight (s.loadLat p 4) with vals := [SVal.zero], keep := destKeep d } (.load size signed) 0 false)

/-- A scalar store (R257, R258). -/
def scalarStore (s : State) (a v : SSrc) (o : BitVec 12) (size : Nat) : Out :=
  let u := (s.useS a).useS v
  match s.checkAddr (s.valS a) (o.toNat * size) size size true .scratch with
  | .error e => .next (u.find 3 e.1 e.2)
  | .ok p => .next (u.stageStore p (banksOf p.off size) (.store size (s.valS v)) 0 false)

/-- A vector result still to come, in a destination. -/
def State.vecFlight (s : State) (d : VDest) (lat : Nat) : Flight :=
  { s.flight lat with
    vecs := [Vec.void],
    wreg := match d with
      | .w n => some n
      | _ => none }

/-! ### Scalar loads and stores (R257) -/

def execLdb (a : SSrc) (d : SDest) (o : BitVec 12) (s : State) : Out := scalarLoad s a d o 1 true
def execLdbn (a : SSrc) (d : SDest) (o : BitVec 12) (s : State) : Out := scalarLoad s a d o 1 false
def execLdh (a : SSrc) (d : SDest) (o : BitVec 12) (s : State) : Out := scalarLoad s a d o 2 true
def execLdhn (a : SSrc) (d : SDest) (o : BitVec 12) (s : State) : Out := scalarLoad s a d o 2 false
def execLdw (a : SSrc) (d : SDest) (o : BitVec 12) (s : State) : Out := scalarLoad s a d o 4 true
def execLdwn (a : SSrc) (d : SDest) (o : BitVec 12) (s : State) : Out := scalarLoad s a d o 4 false
def execLdd (a : SSrc) (d : SDest) (o : BitVec 12) (s : State) : Out := scalarLoad s a d o 8 false
def execStb (a v : SSrc) (o : BitVec 12) (s : State) : Out := scalarStore s a v o 1
def execSth (a v : SSrc) (o : BitVec 12) (s : State) : Out := scalarStore s a v o 2
def execStw (a v : SSrc) (o : BitVec 12) (s : State) : Out := scalarStore s a v o 4
def execStd (a v : SSrc) (o : BitVec 12) (s : State) : Out := scalarStore s a v o 8

/-! ### Vector loads and stores (R180, R181) -/

/-- LDV (R180). -/
def execLdv (a : SSrc) (d : VDest) (t : Tag) (o : BitVec 7) (s : State) : Out :=
  let u := s.useS a
  match s.checkAddr (s.valS a) (o.toNat * 512) 512 512 true .scratch with
  | .error e => .next (u.find 3 e.1 e.2)
  | .ok p =>
    if s.poolComp p.tile p.off 512 then .next (u.find 3 .compressedLoad (BitVec.ofNat 64 p.off))
    else .next (u.stageLoad p (banksOf p.off 512) (s.vecFlight d (s.loadLat p 5)) (.ldv t) 0 false)

/-- STV (R180): the tag is not stored. -/
def execStv (a : SSrc) (v : VSrc) (o : BitVec 12) (s : State) : Out :=
  let u := (s.useS a).useV v
  match s.checkAddr (s.valS a) (o.toNat * 512) 512 512 true .scratch with
  | .error e => .next (u.find 3 e.1 e.2)
  | .ok p => .next (u.stageStore p (banksOf p.off 512) (.stv (s.rdV v).bits (BitVec.allOnes 128)) 0 false)

/-- STVM (R180): the lanes where the predicate is 1. -/
def execStvm (a : SSrc) (v : VSrc) (pr : BitVec 3) (o : BitVec 9) (s : State) : Out :=
  let u := (s.useS a).useV v
  match s.checkAddr (s.valS a) (o.toNat * 512) 512 512 true .scratch with
  | .error e => .next (u.find 3 e.1 e.2)
  | .ok p => .next (u.stageStore p (banksOf p.off 512) (.stv (s.rdV v).bits (tget 0 s.icx.preds pr.toNat)) 0 false)

/-- The signed stride of a strided access (R181). -/
def State.stride (s : State) (k : BitVec 4) : Int := (s.valS (.k k)).toInt

/-- The element addresses of a strided access. -/
def strideAddrs (base : Nat) (st : Int) (n : Nat) : List Int := (List.range n).map (fun i => (base : Int) + (i : Int) * st)

/-- The first element address that fails: form, alignment, target rule (R181, R183, R252). -/
def State.strideFail (s : State) (size : Nat) (addrs : List Int) : Option (Cause × Word) :=
  addrs.findSome? (fun a =>
    if a < 0 ∨ (2 ^ 22 : Int) ≤ a then some (.spRange, BitVec.ofInt 64 a)
    else if a.toNat % size ≠ 0 then some (.align, BitVec.ofInt 64 a)
    else if s.scratchOk s.ix s.ic (tileOf s.ix) (bankOf a.toNat) then none
    else some (.spRange, BitVec.ofInt 64 a))

/-- The banks a strided access touches, each once. -/
def strideBanks (addrs : List Int) : List Nat := (addrs.map (fun a => bankOf a.toNat)).dedup

/-- LDVS (R181). -/
def execLdvs (a : SSrc) (d : VDest) (t : Tag) (k : BitVec 4) (s : State) : Out :=
  let u := (s.useS a).useS (.k k)
  let base := s.valS a
  let w := esz t / 8
  let addrs := strideAddrs (base.toNat % 2 ^ 22) (s.stride k) (elems t)
  if 2 ^ 22 ≤ base.toNat then .next (u.find 3 .spRange base)
  else
    match s.strideFail w addrs with
    | some e => .next (u.find 3 e.1 e.2)
    | none =>
      match addrs.find? (fun x => s.poolComp (tileOf s.ix) x.toNat w) with
      | some x => .next (u.find 3 .compressedLoad (BitVec.ofInt 64 x))
      | none =>
        .next (u.stageLoad ⟨tileOf s.ix, base.toNat, false⟩ (strideBanks addrs) (s.vecFlight d 5) (.ldvs t (s.stride k)) 0 false)

/-- STVS (R181): the causes of the source's tag come before those of its addresses. -/
def execStvs (a : SSrc) (v : VSrc) (k : BitVec 4) (s : State) : Out :=
  let u := ((s.useS a).useV v).useS (.k k)
  let x := s.rdV v
  let base := s.valS a
  let w := esz x.tag / 8
  let addrs := strideAddrs (base.toNat % 2 ^ 22) (s.stride k) (elems x.tag)
  if x.tag = tVOID then .next (u.find 3 .fmtVoid 0)
  else if x.tag = tMASK ∨ esz x.tag < 8 then .next (u.find 3 .fmtMismatch (fmtTval 0 x.tag 0))
  else if 2 ^ 22 ≤ base.toNat then .next (u.find 3 .spRange base)
  else
    match s.strideFail w addrs with
    | some e => .next (u.find 3 e.1 e.2)
    | none =>
      .next (u.stageStore ⟨tileOf s.ix, base.toNat, false⟩ (strideBanks addrs) (.stvs x.tag x.bits (s.stride k)) 0 false)

/-! ### Accumulator drains (R223 to R226) -/

/-- LDA (R223): a bank that is not allocated is not checked against bands and reads VOID zeros. -/
def execLda (a : SSrc) (d : VDest) (o : BitVec 12) (s : State) : Out :=
  let u := s.useS a
  match s.checkAddr (s.valS a) (o.toNat * 512) 512 512 true .acc with
  | .error e => .next (u.find 3 e.1 e.2)
  | .ok p =>
    let slot := p.off / 0x4000
    let s' := u.stageLoad p (banksOf p.off 512) (s.vecFlight d (s.loadLat p 5)) .lda 0 false
    if s.slotAlloc p.tile slot && !s.drainOk p.tile p.off 512 then
      .next (s'.find 3 .accUnowned (BitVec.ofNat 64 (s.tileNumber p.tile slot)))
    else .next s'

/-- STA and STAA (R223, R225, R226). -/
def drainStore (s : State) (a : SSrc) (v : VSrc) (o : BitVec 12) (k : VBits → Tag → AccKind) : Out :=
  let u := (s.useS a).useV v
  let x := s.rdV v
  match s.checkAddr (s.valS a) (o.toNat * 512) 512 512 true .acc with
  | .error e => .next (u.find 3 e.1 e.2)
  | .ok p =>
    let slot := p.off / 0x4000
    let t := s.slotTag p.tile slot
    let s' := u.stageStore p (banksOf p.off 512) (k x.bits t) 0 false
    if !s.slotAlloc p.tile slot || !s.drainOk p.tile p.off 512 then
      .next (s'.find 3 .accUnowned (BitVec.ofNat 64 (s.tileNumber p.tile slot)))
    else if x.tag = tVOID then .next (s'.find 3 .fmtVoid (fmtTval 0 0 t))
    else if x.tag ≠ t then .next (s'.find 3 .fmtMismatch (fmtTval 0 x.tag t))
    else .next s'

def execSta (a : SSrc) (v : VSrc) (o : BitVec 12) (s : State) : Out := drainStore s a v o .sta

def execStaa (a : SSrc) (v : VSrc) (o : BitVec 12) (s : State) : Out := drainStore s a v o .staa

/-! ### Pairs (R259) -/

/-- The specifier after a pair's first. -/
def pairNext : SSrc → SSrc
  | .q n => .q (n + 1)
  | .k n => .k (n + 1)
  | a => a

/-- A pair access is microcoded: the address that its micro-step 0 forms is an internal temporary that micro-step 1 reads (R259). -/
def State.pairMicro (s : State) (e : Word) : State :=
  { s with bundle := { s.bundle with
      micro := true, temps := s.bundle.temps ++ [⟨s.fresh, ⟨e, .clean⟩, 0⟩] } }

/-- LDPAIR (R259): the word at e, then the word at e + 8; micro-step 1 books the bank. -/
def execLdpair (a : SSrc) (o : BitVec 12) (s : State) : Out :=
  let u := s.useS a
  let u := u.pairMicro (s.valS a + BitVec.ofNat 64 (o.toNat * 16))
  match s.checkAddr (s.valS a) (o.toNat * 16) 16 16 false .scratch with
  | .error e => .next (u.find 3 e.1 e.2)
  | .ok p =>
    if s.poolComp p.tile p.off 16 then .next (u.find 3 .compressedLoad (BitVec.ofNat 64 p.off))
    else .next (u.stageLoad p [] { s.flight 5 with vals := [SVal.zero, SVal.zero] } .ldpair 1 true)

/-- STPAIR (R259). -/
def execStpair (a v : SSrc) (o : BitVec 12) (s : State) : Out :=
  let u := ((s.useS a).useS v).useS (pairNext v)
  let u := u.pairMicro (s.valS a + BitVec.ofNat 64 (o.toNat * 16))
  match s.checkAddr (s.valS a) (o.toNat * 16) 16 16 false .scratch with
  | .error e => .next (u.find 3 e.1 e.2)
  | .ok p => .next (u.stageStore p [] (.stpair (s.valS v) (s.valS (pairNext v))) 1 true)

end Sys2Proof.Machine
end

