-- ==== Sys2Proof/Machine/Sysregs.lean ====
section
/-! DEFINITION. The system registers: which index is whose, what a read returns, and which event a write is (R134, R143, R150,
R335 to R342, R359, R361 to R363). -/

namespace Sys2Proof.Machine

/-! ### Indices (R338) -/

/-- A per-context register. -/
def sysPerCtx (i : Nat) : Bool := decide (0x010 ≤ i ∧ i ≤ 0x01A)

/-- A register of the sequencer. -/
def sysPerSeq (i : Nat) : Bool := decide (i ≤ 0x00B)

/-- A register that cannot be written: RO in its Access column. -/
def sysRo (i : Nat) : Bool :=
  decide (i ≤ 0x003 ∨ i = 0x011 ∨ i = 0x012 ∨ i = 0x01A ∨ i = 0x041)

/-- The checks of R337 that raise SYSREG_BAD, apart from those of REMDATA. -/
def sysRefuse (x i c : Nat) (write clr : Bool) : Bool :=
  !sysKnown i || (write && sysRo i) || (clr && decide (i ≠ 0x010)) || (decide (c ≠ 0) && !sysPerCtx i)
    || (decide (i = 0x01A) && decide (c = 0)) || (decide (i = 0x050 ∨ i = 0x051) && !isService (tileOf x))

/-- The fields of REMSEL (R342): the sequencer's place in the die, the context and the index. -/
def remSeq (die : Nat) (w : Word) : Nat := 2 * (65 * die + field w.toNat 25 20) + field w.toNat 19 19
def remCtx (w : Word) : Nat := field w.toNat 18 17
def remIndex (w : Word) : Nat := field w.toNat 11 0

/-- REMSEL selects a register that the target refuses (R342). -/
def remRefuse (w : Word) (write : Bool) : Bool :=
  !(sysPerSeq (remIndex w) || sysPerCtx (remIndex w)) || sysRefuse 0 (remIndex w) (remCtx w) write false
    || decide (remCtx w ≠ 0)

/-- REMSEL as it stands at the end of this cycle (R342). -/
def State.remselNow (s : State) (x : Nat) : Word :=
  s.pending.foldl (fun w e =>
    match e.2 with
    | .ev (.reg y _ 0x050 v) => if e.1 = s.gclk ∧ y = x then v &&& 0x3FE0FFF else w
    | _ => w) (s.seq x).remsel

/-! ### Reads -/

/-- One replay entry (R362): a result that waits, with its remaining count. -/
structure Replay where
  remaining : Nat
  vector : Bool
  dest : Nat
  tag : Tag
  mark : Mark
  data : VBits
  deriving DecidableEq, Repr

/-- The replay entries of a flight, one for each result. -/
def replayOf (f : Flight) : List Replay :=
  let sd := match f.keep with
    | some k => encSDest (.keep k)
    | none => encSDest .queue
  let vd : Nat → Nat := fun j => match f.wreg with
    | some n => encVDest (.w (n + BitVec.ofNat 7 j))
    | none => encVDest .queue
  f.vals.map (fun v => ⟨f.remaining, false, sd, 0, v.mark, v.val.setWidth 4096⟩)
    ++ (f.vecs.zipIdx).map (fun v => ⟨f.remaining, true, vd v.2, v.1.tag, v.1.mark, v.1.bits⟩)
    ++ (match f.pred with
      | some (p, v) => [⟨f.remaining, true, encVDest (.pred p), tMASK, .clean, v.setWidth 4096⟩]
      | none => [])
    ++ (match f.vtag with
      | some (r, t) => [⟨f.remaining, true, encVDest (.w r), t, .clean, 0⟩]
      | none => [])

/-- DBGDATA: the saved state of a context that DBGSEL selects (R362). -/
def Ctx.window (k : Ctx) : Word :=
  let item := k.dbgsel.toNat % 2 ^ 16
  match field k.dbgsel.toNat 19 16 with
  | 0 => if item < 16 then (tget SVal.zero k.keeps item).val else 0
  | 1 =>
    if item < 16 then (k.q.getD item SVal.zero).val
    else if item < 32 ∧ k.q.length ≤ item - 16 then 1 <<< 63 else 0
  | 2 =>
    if item < 1024 then BitVec.ofNat 64 (elemAt 64 (k.vq.getD (item / 64) Vec.void).bits (item % 64))
    else if item < 1040 then (k.vq.getD (item - 1024) Vec.void).tag.setWidth 64 else 0
  | 3 =>
    match (k.flights.flatMap replayOf)[item / 65]? with
    | none => 0
    | some r =>
      if item % 65 = 0 then
        BitVec.ofNat 64 (r.remaining % 2 ^ 16 + r.vector.toNat * 2 ^ 16 + r.dest * 2 ^ 24 + r.tag.toNat * 2 ^ 32
          + (if r.mark = .clean then 0 else 1) * 2 ^ 37)
      else BitVec.ofNat 64 (elemAt 64 r.data (item % 65 - 1))
  | 4 =>
    match k.loops[item]? with
    | some l => if item < 6 then l.index ++ l.count else 0
    | none => 0
  | 5 => if item = 0 then k.pos else 0
  | _ => 0

/-- A launch queue's registers. -/
def State.lq (s : State) (q : Nat) : LQueue := tget LQueue.init s.lqs q

/-- LQCTL as a word (R134). -/
def LQueue.ctl (l : LQueue) : Word :=
  BitVec.ofNat 64 (l.en.toNat * 2 ^ 31 + l.tl.toNat * 2 ^ 30 + l.ur.toNat * 2 ^ 29 + l.sz % 16)

/-- LQSTAT as a word (R134). -/
def LQueue.stat (l : LQueue) : Word :=
  BitVec.ofNat 64 (l.tail.toNat * 2 ^ 32 + l.next.toNat * 2 ^ 16 + l.stop.toNat)

/-- A handle descriptor word (R284, R341). -/
def Ctx.hword (k : Ctx) : Nat := 4 * (k.hdsel.toNat % 256) + field k.hdsel.toNat 9 8

/-- The value a system register reads, FLAGS and REMDATA apart (R337, R338); a write-only register reads 0 (R6). -/
def State.sysRead (s : State) (x c i : Nat) : Word :=
  let q := s.seq x
  let k := s.ctx x c
  if 0x200 ≤ i ∧ i < 0x240 then (s.lq (i - 0x200)).job.setWidth 64
  else if 0x100 ≤ i ∧ i < 0x200 then
    let l := s.lq ((i - 0x100) / 4)
    match i % 4 with
    | 0 => l.base
    | 1 => l.ctl
    | 2 => l.stat
    | _ => 0
  else
    match i with
    | 0x000 => q.tcause
    | 0x001 => q.tval
    | 0x002 => q.tbundle
    | 0x003 => q.tstat
    | 0x004 => q.tvec
    | 0x006 => q.dbgctl
    | 0x008 => tget 0 q.bph 0
    | 0x009 => tget 0 q.bph 1
    | 0x00A => tget 0 q.bph 2
    | 0x00B => tget 0 q.bph 3
    | 0x010 => k.flags.toWord
    | 0x011 => if c = 0 then 0 else k.partw
    | 0x012 => (s.tt x c).tmode.setWidth 64
    | 0x013 => if c = 0 then 0 else k.jobid.setWidth 64
    | 0x014 => k.ctrmask
    | 0x015 => k.ptbase
    | 0x016 => k.conf
    | 0x017 => k.hdsel
    | 0x018 => tget 0 k.handles k.hword
    | 0x019 => k.dbgsel
    | 0x01A => k.window
    | 0x030 => (tget 4 s.schedcfg (dieOf (tileOf x))).setWidth 64
    | 0x040 => s.tickNext.setWidth 64
    | 0x041 => s.clock
    | 0x042 => s.health
    | 0x043 => s.preq
    | 0x044 => s.snap.cfg
    | 0x045 => s.snap.store
    | 0x046 => s.tickstop
    | 0x047 => s.trcctl
    | 0x048 => s.ftbase
    | 0x049 => s.snap.list_
    | 0x050 => q.remsel
    | _ => 0

/-! ### Capabilities -/

/-- The package's flash, measured by CAPQ (R360): the word of an index. -/
def State.capWord (s : State) (i : Nat) : Word :=
  let live : Nat → Nat := fun d =>
    if s.cfg.good then ((List.range 64).filter (fun t => !(s.tile (65 * d + t)).gone)).length else 0
  match i with
  | 0 => BitVec.ofNat 64 (0x7360 + Config.stepping.toNat * 2 ^ 16)
  | 1 => 0x0300
  | 2 => BitVec.ofNat 64 (live 0 + live 1 * 2 ^ 8 + live 2 * 2 ^ 16 + live 3 * 2 ^ 24)
  | 3 => BitVec.ofNat 64 (64 + 64 * 2 ^ 16)
  | 4 => BitVec.ofNat 64 (4 + 32 * 2 ^ 8 + 2 * 2 ^ 16 + 256 * 2 ^ 24)
  | 5 => BitVec.ofNat 64 (2 ^ 12 + 2 ^ 16 + 2 ^ 21 + 2 ^ 25 + 2 ^ 29)
  | 6 => Config.hbmAvailable
  | 7 => s.errata.setWidth 64
  | _ => BitVec.allOnes 64

end Sys2Proof.Machine
end

