-- ==== Sys2Proof/Machine/Eslot.lean ====
section
/-! DEFINITION. The E slot: engine starts and stops, accumulator banks, copy chains, counters and rings, fences, the SC
operations, snapshots, known-answer runs, launches and the system operations (R138, R213 to R229, R233 to R244, R258,
R261 to R267, R273, R274, R301 to R311, R330, R337, R353, R354, R358, R360). -/

namespace Sys2Proof.Machine

/-! ### Engine state as the issuing sequencer meets it -/

/-- The issuing tile. -/
def State.itile (s : State) : Nat := tileOf s.ix

/-- A failed check ends the operation's own checks: the first one that fails is the one it shows. -/
def bad (u : State) (c : Cause) (v : Word) : Out := .next (u.find 3 c v)

/-- A nest or known-answer run of a sequencer is active. -/
def State.engineOf (s : State) (x : Nat) : Bool :=
  let t := s.tile (tileOf x)
  if x % 2 = 1 then t.nestB.isSome || t.katB.isSome else t.nestA.isSome || t.katA.isSome

/-- The package without what bundles of the issuing sequencer's partner have started that still wait for their canal bookings in this
cycle (R215, R254). -/
def State.calm (s : State) : State :=
  s.parked.foldl (fun s e =>
    if e.2.2 && decide (e.1.seq ≠ s.ix ∧ tileOf e.1.seq = tileOf s.ix) then e.1.starts.foldl State.startUndo s else s) s

/-- A cause of the bundle in focus that holds only if the partner's bundle stays (R215, log 92). -/
def State.suspect (s : State) (c : Cause) (v : Word) : State :=
  { s with bundle := { s.bundle with cond := s.bundle.cond ++ [⟨3, s.bundle.focus, s.bundle.found.length, c, v, 0⟩] } }

/-- A check that finds an engine or a chain place taken: the cause stands, or hangs on what the partner's bundle comes to. -/
def State.busyCheck (s u : State) (c : Cause) (p : State → Option Word) (go : State → Out) : Out :=
  match p s with
  | none => go u
  | some v => if (p s.calm).isSome then .next (u.find 3 c v) else go (u.suspect c v)

/-- The claim, mode and busy checks of R214, in order: the TVAL of MXE_BUSY. -/
def State.engineBusy (s : State) : Option Word :=
  let m := (s.tt s.ix s.ic).tmode
  let x := s.ix
  if !s.claimsMxe x s.ic then some 0
  else if !modeOwns m x then some 2
  else if s.engineOf x || (decide (m.toNat < 2) && s.engineOf (x / 2 * 2 + (1 - x % 2))) then some 1
  else if (s.tile s.itile).vg.isSome then some 3
  else none

/-- The slots a nest writes. -/
def nestSlots (z : Nest) : List Int :=
  let ts := nestTiles z z.steps 0
  if z.cfg.fmt.acc = tF64 then ts.flatMap (fun t => [t, t + 1]) else ts

/-- A nest or grouped operation that was running as the cycle began writes a slot of the tile (R7, R221, R244, log 92). -/
def State.slotBusy (s : State) (t slot : Nat) : Bool :=
  let r := s.tile t
  let nest : Option Nest → Bool := fun o => match o with
    | some z => decide (z.issued ≠ s.gclk) && decide ((slot : Int) ∈ nestSlots z)
    | none => false
  nest r.nestA || nest r.nestB || (match r.vg with
    | some v => decide (v.issued ≠ s.gclk ∧ v.c / 0x4000 = slot)
    | none => false)

/-- The slot lies in an accumulator-role bank allocated to the issuing task (R214, R221). -/
def State.slotMine (s : State) (slot : Int) : Bool :=
  decide (0 ≤ slot ∧ slot < 256) && s.accOk s.ix s.ic s.itile (slot.toNat / 4) && s.slotAlloc s.itile slot.toNat

/-! ### MXGO (R214) -/

/-- Gather blocks of a nest: the least and the greatest g of any step (R209). -/
def gRange (lv : List NestLevel) : Int × Int :=
  lv.foldl (fun a l =>
    if l.role = 1 then
      let e := ((l.bound.toNat : Int) - 1) * l.sa.toInt
      (a.1 + min 0 e, a.2 + max 0 e)
    else a) (0, 0)

/-- Some step of an F64 nest names an odd tile. -/
def oddTile (lv : List NestLevel) (ctile : Nat) : Bool :=
  decide (ctile % 2 = 1) || lv.any (fun l => decide (1 < l.bound.toNat ∧ l.sc.toInt % 2 ≠ 0))

/-- The nest validity checks of R214, step 3. -/
def nestBad (lv : List NestLevel) (cfg : MxCfg) (ctile : Nat) (f : MxgoF) : Option Word :=
  if lv.any (fun l => decide (l.bound = 0 ∨ l.role = 3)) then some 1
  else if !mxPairOk cfg.fa cfg.fb then some 2
  else if cfg.g && decide ((gRange lv).1 < 0 ∨ 3 < (gRange lv).2) then some 3
  else if cfg.fmt.acc = tF64 ∧ oddTile lv ctile = true then some 4
  else if !cfg.fmt.scaled && decide (f.sa ≠ .q 0 ∨ f.sb ≠ .q 0) then some 5
  else none

/-- The first address that breaks a condition. -/
def firstAddr (l : List Word) (p : Word → Bool) : Option Word := l.find? p

/-- The nest that an MXGO would start. -/
def State.mxgoNest (s : State) (f : MxgoF) : Nest :=
  let k := s.icx
  let t := s.tt s.ix s.ic
  let z : Nest :=
    { issued := s.gclk, task := k.task.getD 0, seq := s.ix, ctx := s.ic, levels := k.nest, cfg := k.cfg, scl := t.scl,
      x := (s.rdV f.x).bits, a := (s.valS f.a).toNat, b := (s.valS f.b).toNat, c := (s.valS f.c).toNat,
      sa := (s.valS f.sa).toNat, sb := (s.valS f.sb).toNat, steps := nestSteps k.nest, landed := 0, n := 0,
      flags := Flags.none, banks := [] }
  { z with banks := nestBanks z z.steps 0 [] }

/-- MXGO. With G = 0 an X field that is not 0x00 is ignored, for R214 names no cause for it: the model's choice (log 110). -/
def execMxgo (f : MxgoF) (s : State) : Out :=
  let k := s.icx
  let scaled := k.cfg.fmt.scaled
  let u := ((s.useS f.a).useS f.b).useS f.c
  let u := if scaled then (u.useS f.sa).useS f.sb else u
  let u := if k.cfg.g then u.useVUe f.x else u
  s.busyCheck u .mxeBusy State.engineBusy (fun u =>
    match nestBad k.nest k.cfg (field (s.valS f.c).toNat 21 14) f with
    | some v => bad u .nestBad v
    | none =>
      let srcs := [s.valS f.a, s.valS f.b] ++ (if scaled then [s.valS f.sa, s.valS f.sb] else [])
      let c := s.valS f.c
      match firstAddr srcs (fun a => decide (a.toNat % 32 ≠ 0)), decide (c.toNat % 0x4000 ≠ 0) with
      | some a, _ => bad u .align a
      | none, true => bad u .align c
      | none, false =>
        match firstAddr (srcs ++ [c]) (fun a => decide (2 ^ 22 ≤ a.toNat)) with
        | some a => bad u .spRange a
        | none =>
          let z := s.mxgoNest f
          match s.rangeFail z z.steps 0 with
          | some a => bad u .spRange (BitVec.ofInt 64 a)
          | none =>
            let ts := nestTiles z z.steps 0
            let acc := k.cfg.fmt.acc
            match ts.find? (fun t => !(s.slotMine t && (decide (acc ≠ tF64) || s.slotMine (t + 1)))) with
            | some t => bad u .accUnowned (BitVec.ofInt 64 t)
            | none =>
              match (nestSlots z).find? (fun t => decide (s.slotTag s.itile t.toNat ≠ acc)) with
              | some t => bad u .fmtMismatch (fmtTval 0 (s.slotTag s.itile t.toNat) 0)
              | none =>
                let x := s.rdV f.x
                if k.cfg.g ∧ x.tag = tVOID then bad u .fmtVoid 0
                else if k.cfg.g ∧ x.tag ≠ tN16 then bad u .fmtMismatch (fmtTval 0 x.tag 0)
                else if k.cfg.g ∧ x.mark = .poison then bad u .poisonUse (BitVec.ofNat 64 (encVSrc f.x))
                else .next { u with bundle := { u.bundle with starts := u.bundle.starts ++ [.nest z] } })

/-- MXSTOP (R219): a step whose first engine cycle falls after c does not take place. -/
def execMxstop (s : State) : Out := .next (s.stage 0 (.mxstop s.ix))

/-! ### Accumulator banks (R221) -/

/-- ACALLOC: the grant lands after 2 cycles. -/
def execAcalloc (n : Option (BitVec 7)) (a : SSrc) (s : State) : Out :=
  let u := if n.isSome then s else s.useS a
  if !s.claimsMxe s.ix s.ic then bad u .mxeBusy 0
  else
    let m := match n with
      | some k => k.toNat
      | none => (s.valS a).toNat
    .next ((u.stage 0 (.grant s.ix s.ic m s.fresh)).landS .queue 0 2 Flags.none)

/-- ACFREE. -/
def execAcfree (a : SSrc) (s : State) : Out :=
  let u := s.useS a
  let m := s.valS a
  let banks := (List.range 64).filter (fun b => m.getLsbD b)
  let unowned := banks.filter (fun b => !(s.accOk s.ix s.ic s.itile b && ((s.tile s.itile).bank b).alloc))
  if !s.claimsMxe s.ix s.ic then bad u .mxeBusy 0
  else if unowned ≠ [] then bad u .accUnowned (BitVec.ofNat 64 (unowned.map (fun b => 2 ^ b)).sum)
  else if banks.any (fun b => (List.range 4).any (fun i => s.slotBusy s.itile (4 * b + i))) then bad u .mxeBusy 1
  else .next (u.stage 0 (.free s.ix s.ic m))

/-- The tag ACZERO names. -/
def zeroTag (fmt : BitVec 2) : Tag :=
  match fmt.toNat with
  | 0 => tF32
  | 1 => tF64
  | _ => tS32

/-- ACZERO: n slots from the addressed one, at the end of cycle c + 1. -/
def execAczero (a : SSrc) (fmt n : BitVec 2) (s : State) : Out :=
  let u := s.useS a
  let v := s.valS a
  let slot := v.toNat / 0x4000
  let k := n.toNat + 1
  if !s.claimsMxe s.ix s.ic then bad u .mxeBusy 0
  else if 2 ^ 22 ≤ v.toNat then bad u .spRange v
  else if 4 < slot % 4 + k then bad u .spRange v
  else if v.toNat % 0x4000 ≠ 0 then bad u .align v
  else if fmt = 1 ∧ (slot % 2 = 1 ∨ k % 2 = 1) then bad u .align v
  else if !s.slotMine slot then bad u .accUnowned (BitVec.ofNat 64 slot)
  else if (List.range k).any (fun i => s.slotBusy s.itile (slot + i)) then bad u .mxeBusy 1
  else .next (u.stage 1 (.zeroSlots s.itile slot k (zeroTag fmt)))

/-- ACBAND: band entry e of the tile at the end of cycle c + 1. -/
def execAcband (f : BandF) (s : State) : Out :=
  let u := s.useS f.addr
  let v := s.valS f.addr
  let slot := v.toNat / 0x4000
  if !s.claimsMxe s.ix s.ic then bad u .mxeBusy 0
  else if 2 ^ 22 ≤ v.toNat then bad u .spRange v
  else if v.toNat % 0x4000 ≠ 0 then bad u .align v
  else if !s.slotMine slot then bad u .accUnowned (BitVec.ofNat 64 slot)
  else
    let b := if f.valid then some (f.lo.toNat, f.cnt.toNat, 2 * (65 * f.die.toNat + f.tile.toNat) + f.seq.toNat) else none
    .next (u.stage 1 (.band s.itile slot f.entry b))

/-! ### Grouped operations (R235 to R242) -/

/-- VGTAB: 512 bytes in cycle c + 1 and 512 bytes in cycle c + 2. -/
def execVgtab (a : SSrc) (s : State) : Out :=
  let u := s.useS a
  let v := s.valS a
  if !s.claimsMxe s.ix s.ic then bad u .mxeBusy 0
  else if 2 ^ 22 ≤ v.toNat ∨ 2 ^ 22 < v.toNat + 1024
      ∨ banksAll v.toNat 1024 (fun b => s.scratchOk s.ix s.ic s.itile b) = false then bad u .spRange v
  else if v.toNat % 1024 ≠ 0 then bad u .align v
  else
    let half : State → Nat → State := fun u i =>
      let u := u.bookAll s.itile [bankOf v.toNat] (s.gclk + 1 + i) false
      u.access ⟨u.fresh, some (s.gclk + 1 + i), s.ix, s.ic, s.itile, v.toNat + 512 * i, .vgtab i, false⟩
    .next ((half (half u 0) 1).stage 2 (.vgtab s.ix s.ic))

/-- A descriptor entry breaks R233. -/
def descBad (w : Nat) : Bool :=
  if w < 2 ^ 63 then decide (w ≠ 0)
  else decide (field w 62 44 ≠ 0 ∨ field w 43 22 % 2 = 1 ∨ field w 43 22 = 0)

/-- The churn a descriptor entry starts (R233, R237). -/
def churnOf (w : Nat) : Churn :=
  { live := decide (2 ^ 63 ≤ w), base := field w 21 0, len := field w 43 22, at_ := 0, st := if 2 ^ 63 ≤ w then 0 else 4,
    rows := 0, groups := 0, code := 0, last := 0, sum := List.replicate 64 0, poisonLanes := List.replicate 64 false,
    waited := 0 }

/-- The banks of a stream. -/
def streamBanks (h : Churn) : List Nat := if h.live then banksOf h.base h.len else []

/-- The first address of a grouped operation's activations that fails R237, step 5: the place of X in the first bank that is not a
claimed scratch bank, else the first byte after a bank that its columns run over (log 94). -/
def State.actFail (s : State) (x nb k : Nat) (fmt : BitVec 2) : Option Nat :=
  match (List.range nb).find? (fun j => !s.scratchOk s.ix s.ic s.itile (bankOf x + j)) with
  | some j => some (x + j * bankSize)
  | none =>
    if bankSize < x % bankSize + (k + nb - 1) / nb * colBytes fmt then some ((bankOf x + 1) * bankSize) else none

/-- The claim and busy checks of R237, in order: the TVAL of MXE_BUSY. -/
def State.vggoBusy (s : State) : Option Word :=
  if !s.claimsMxe s.ix s.ic then some 0
  else if s.engineOf s.ix || s.engineOf (s.ix / 2 * 2 + (1 - s.ix % 2)) then some 1
  else if (s.tile s.itile).vg.isSome then some 3
  else none

/-- VGGO: the checks of R237 in their order. -/
def execVggo (f : VggoF) (s : State) : Out :=
  let u := ((s.useVUe f.d).useS f.x).useS f.c
  let d := s.rdV f.d
  let ws := unpack 64 d.bits 8
  let x := s.valS f.x
  let c := s.valS f.c
  let nb := f.nb.toNat + 1
  let k := f.kmax.toNat + 1
  let hs := ws.map churnOf
  let live := hs.filter (fun h => h.live)
  -- the banks that hold a column (R218, R234, R243)
  let actBanks := (List.range (min nb k)).map (fun i => bankOf x.toNat + i)
  let t := s.tt s.ix s.ic
  s.busyCheck u .mxeBusy State.vggoBusy (fun u =>
  if d.tag = tVOID then bad u .fmtVoid 0
  else if d.tag ≠ tS64 then bad u .fmtMismatch (fmtTval 0 d.tag 0)
  else if d.mark = .poison then bad u .poisonUse (BitVec.ofNat 64 (encVSrc f.d))
  else
    match ws.findIdx? descBad with
    | some j => bad u .vgStreamBad (BitVec.ofNat 64 (j * 2 ^ 8 + 1))
    | none =>
      if x.toNat % 64 ≠ 0 then bad u .align x
      else if c.toNat % 0x4000 ≠ 0 then bad u .align c
      else
        match live.find? (fun h => decide (h.base % 32 ≠ 0)) with
        | some h => bad u .align (BitVec.ofNat 64 h.base)
        | none =>
          if 2 ^ 22 ≤ x.toNat then bad u .spRange x
          else if 2 ^ 22 ≤ c.toNat then bad u .spRange c
          else
            match (s.actFail x.toNat nb k f.fmt).or
                ((live.findSome? (fun h => s.firstFail s.ix s.ic (h.base, h.len))).map Int.toNat) with
            | some a => bad u .spRange (BitVec.ofNat 64 a)
            | none =>
              match actBanks.find? (fun b => decide (b ∈ hs.flatMap streamBanks)) with
              | some b => bad u .bankConflict (BitVec.ofNat 64 b)
              | none =>
                match live.find? (fun h => s.poolComp s.itile h.base h.len) with
                | some h => bad u .compressedLoad (BitVec.ofNat 64 h.base)
                | none =>
                  let tno := c.toNat / 0x4000
                  if !s.slotMine tno then bad u .accUnowned (BitVec.ofNat 64 tno)
                  else if s.slotTag s.itile tno ≠ tF32 then bad u .fmtMismatch (fmtTval 0 (s.slotTag s.itile tno) 0)
                  else
                    match (List.range 256).find? (fun e => tget false t.vtabBad e) with
                    | some e => bad u .poisonUse (BitVec.ofNat 64 e)
                    | none =>
                      let v : Vg :=
                        { issued := s.gclk, id := s.fresh, task := s.icx.task.getD 0, seq := s.ix, ctx := s.ic, churns := hs,
                          table := t.vtab, x := x.toNat, c := c.toNat, ctr := f.ctr, fmt := f.fmt, nb := nb, kmax := k,
                          cycle := 0, ended := if live = [] then some 0 else none, stopAsked := false, stopped := false,
                          fault := none, completed := false, span := s.freeWord.toNat % 17, flags := Flags.none,
                          banks := (actBanks ++ hs.flatMap streamBanks).dedup }
                      let u := u.drawn.bump
                      .next { u with bundle := { u.bundle with starts := u.bundle.starts ++ [.vg v] } })

/-- VGSTOP (R242). -/
def execVgstop (s : State) : Out :=
  if !s.claimsMxe s.ix s.ic then bad s .mxeBusy 0 else .next (s.stage 0 (.vgstop s.itile (s.icx.task.getD 0)))

/-! ### Copy chains (R273, R274) -/

/-- The tile's 16 chain places are taken, as the bundle's check finds it: sequencer B's counts a chain that sequencer A has started in the
same cycle, the model's choice between a check against the state as the cycle began (R7) and the limit of 16 (R276, log 92). -/
def State.chainsFull (s : State) : Option Word :=
  if 16 ≤ (s.chains.filter (fun c => decide (c.tile = s.itile))).length then some 1 else none

/-- CPGO. -/
def execCpgo (a : SSrc) (ctr : BitVec 6) (s : State) : Out :=
  let u := s.useS a
  let h := s.valS a
  if 2 ^ 22 ≤ h.toNat ∨ 2 ^ 22 < h.toNat + 32
      ∨ banksAll h.toNat 32 (fun b => s.scratchOk s.ix s.ic s.itile b) = false then bad u .spRange h
  else if h.toNat % 32 ≠ 0 then bad u .align h
  else
    s.busyCheck u .chainBad State.chainsFull (fun u =>
    let c : Chain :=
      { id := s.fresh, tile := s.itile, seq := s.ix, ctx := s.ic, task := s.icx.task, ctr := ctr, pc := h.toNat,
        loops := [], st := .next, moved := 0, at_ := 0, flags := Flags.none, poisoned := 0, stop := false, ds := Desc.none, dd := Desc.none, revoked := [], wiping := false,
        begun := false, comp := false, olds := [], work := [], ueSeen := false, badSeen := false, acks := [], slot := none,
        carried := none, err := none }
    let u := u.bump
    .next { u with bundle := { u.bundle with starts := u.bundle.starts ++ [.chain c] } })

/-- CPSTOP. -/
def execCpstop (ctr : BitVec 6) (s : State) : Out := .next (s.stage 0 (.cpstop s.ix s.ic ctr))

/-! ### Counters (R306) -/

/-- The operand's low 32 bits. -/
def State.ctrArg (s : State) (a : CtrArg) : BitVec 32 :=
  match a with
  | .imm x => x
  | .src a => (s.valS a).setWidth 32

/-- The bundle reads the operand. -/
def State.useArg (s : State) (a : CtrArg) : State :=
  match a with
  | .imm _ => s
  | .src a => s.useS a

/-- CWAIT (R307). -/
def execCwait (c : BitVec 6) (x : CtrArg) (s : State) : Out := .next ((s.useArg x).waitFor (.ctr c (s.ctrArg x)))

/-- CADD: at the end of cycle c + 1. -/
def execCadd (c : BitVec 6) (x : CtrArg) (s : State) : Out :=
  .next ((s.useArg x).stage 1 (.ctr ⟨s.itile, c.toNat, none, s.ctrArg x, none⟩))

/-- CSET: with X the record is emptied. -/
def execCset (c : BitVec 6) (x : CtrArg) (e : Bool) (s : State) : Out :=
  .next ((s.useArg x).stage 1 (.ctr ⟨s.itile, c.toNat, some e, s.ctrArg x, none⟩))

/-- CRD: the value or a record word as at the end of cycle c, after 2 cycles. -/
def execCrd (c : BitVec 6) (sel : BitVec 2) (s : State) : Out :=
  .next ((s.stage 0 (.crd s.ix s.ic c sel s.fresh)).landS .queue 0 2 Flags.none)

/-! ### Rings (R308 to R311) -/

/-- The owner a ring handle bound by the issuing context has. -/
def State.ringOwner (s : State) : Nat × Nat :=
  match s.ic, s.icx.task with
  | 0, _ => (1, ctxKey s.ix 0)
  | _, some t => (0, t)
  | c, none => (1, ctxKey s.ix c)

/-- TVAL of RING_BAD. -/
def ringTval (h : BitVec 4) (op : Nat) : Word := BitVec.ofNat 64 (h.toNat * 2 ^ 16 + op)

/-- RBIND. -/
def execRbind (h : BitVec 4) (f e : BitVec 6) (base : SSrc) (n : BitVec 12) (s : State) : Out :=
  let u := s.useS base
  let o := ((s.tile s.itile).ring h.toNat).owner
  if o.isSome ∧ o ≠ some s.ringOwner then bad u .ringBad (ringTval h 0x14)
  else .next (u.stage 1 (.ringBind s.itile s.ringOwner h f e ((s.valS base).setWidth 32) (n.toNat + 1)))

/-- The causes of a ring instruction of k slots. -/
def State.ringBad (s : State) (h : BitVec 4) (k : BitVec 13) : Bool :=
  let r := (s.tile s.itile).ring h.toNat
  decide (r.owner ≠ some s.ringOwner) || decide (r.n < k.toNat + 1)

/-- RWAITF. -/
def execRwaitf (h : BitVec 4) (k : BitVec 13) (s : State) : Out :=
  if s.ringBad h k then bad s .ringBad (ringTval h 0x15) else .next (s.waitFor (.ringF h k))

/-- RWAITE. -/
def execRwaite (h : BitVec 4) (k : BitVec 13) (s : State) : Out :=
  if s.ringBad h k then bad s .ringBad (ringTval h 0x16) else .next (s.waitFor (.ringE h k))

/-- The addition of k + 1 to a counter of the own tile. -/
def State.ringAdd (s : State) (c : BitVec 6) (k : BitVec 13) : Eff :=
  .ctr ⟨s.itile, c.toNat, none, k.setWidth 32 + 1, none⟩

/-- RADVP. -/
def execRadvp (h : BitVec 4) (k : BitVec 13) (s : State) : Out :=
  if s.ringBad h k then bad s .ringBad (ringTval h 0x17)
  else .next ((s.stage 1 (.ringP s.itile h k)).stage 1 (s.ringAdd ((s.tile s.itile).ring h.toNat).f k))

/-- RADVC. -/
def execRadvc (h : BitVec 4) (k : BitVec 13) (s : State) : Out :=
  if s.ringBad h k then bad s .ringBad (ringTval h 0x18)
  else .next ((s.stage 1 (.ringC s.itile h k)).stage 1 (s.ringAdd ((s.tile s.itile).ring h.toNat).e k))

/-! ### FENCE (R261, R262) -/

/-- A tile's pool lies within a fence's scope. -/
def inScope (own : Nat) (scope : BitVec 3) (t : Nat) : Bool :=
  match scope.toNat with
  | 0 => decide (t = own)
  | 1 => decide (t = own)
  | 2 => decide (dieOf t = dieOf own)
  | _ => true

/-- An access that writes memory. -/
def AccKind.writes : AccKind → Bool
  | .store .. | .stv .. | .stvs .. | .sta .. | .staa .. | .stpair .. | .scst .. | .scswp .. | .scadd .. | .sccas .. => true
  | _ => false

/-- Stores of the issuing sequencer, whichever context issued them, that have not performed (R262). -/
def State.unperformed (s : State) (scope : BitVec 3) : List Nat :=
  (s.accs.filter (fun a => decide (a.seq = s.ix) && a.kind.writes && inScope s.itile scope a.tile)).map (fun a => a.id)

/-- The completion of a grouped operation of a tile counts as observed by the issuing sequencer (R262): it has observed the counter; or,
for a drainer over the canal, which has no instruction that reads the counter of another tile, the operation is of its own task and a
sequencer of that tile has (log 93). -/
def State.seenBy (s : State) (t : Nat) (v : Vg) : Bool :=
  if t = s.itile then decide (v.id ∈ (s.seq s.ix).seenVg)
  else decide (some v.task = s.icx.task) && [2 * t, 2 * t + 1].any (fun y => decide (v.id ∈ (s.seq y).seenVg))

/-- Grouped operations whose closes are prior to a fence: completed ones in its scope that the issuing sequencer has observed (R244,
R262). -/
def State.openSpans (s : State) (scope : BitVec 3) : List Nat :=
  s.tiles.filterMap (fun e => match e.2.vg with
    | some v => if v.completed && inScope s.itile scope e.1 && s.seenBy e.1 v then some v.id else none
    | none => none)

/-- FENCE: the stores of the sequencer that have not performed, or the spans of grouped operations it has observed; the
writes of the other paths that are prior have performed when their signal is observed. -/
def execFence (p q scope : BitVec 3) (s : State) : Out :=
  let ids := if p = 0 then s.unperformed scope else []
  let gth := if p = 3 then s.openSpans scope else []
  .next (if ids = [] ∧ gth = [] then s else s.waitFor (.fence p q scope ids gth))

/-! ### SC operations (R265 to R267) -/

/-- The word's size. -/
def scSize (f : ScF) : Nat := if f.w then 8 else 4

/-- An SC operation: its checks, its booking and its access in cycle c + 2; `push` where it lands the old value. -/
def scOp (s : State) (f : ScF) (val expect : Bool) (k : AccKind) (push : Bool) : Out :=
  let u := s.useS f.addr
  let u := if val then u.useS f.value else u
  let u := if expect then u.useS f.expect else u
  match s.checkSc (s.valS f.addr) (f.off.toNat * scSize f) (scSize f) with
  | .error e => bad u e.1 e.2
  | .ok p =>
    let slot := p.off / 0x4000
    let t := s.slotTag p.tile slot
    if !s.slotAlloc p.tile slot || !s.drainOk p.tile p.off (scSize f) then
      bad u .accUnowned (BitVec.ofNat 64 (s.tileNumber p.tile slot))
    else if (if f.w then t ≠ tF64 else t ≠ tF32 ∧ t ≠ tS32) then bad u .fmtMismatch (fmtTval 0 t 0)
    else
      let u := u.bookAll p.tile [bankOf p.off] (s.gclk + 2) false
      let id := u.fresh
      let u := if push then u.fly { s.flight 6 with id := id, vals := [SVal.zero], ready := false } else u
      .next (u.access ⟨id, some (s.gclk + 2), s.ix, s.ic, p.tile, p.off, k, false⟩)

def execScld (f : ScF) (s : State) : Out := scOp s f false false (.scld f.w) true
def execScst (f : ScF) (s : State) : Out := scOp s f true false (.scst f.w (s.valS f.value)) false
def execScswp (f : ScF) (s : State) : Out := scOp s f true false (.scswp f.w (s.valS f.value)) true
def execScadd (f : ScF) (s : State) : Out := scOp s f true false (.scadd f.w (s.valS f.value)) true
def execSccas (f : ScF) (s : State) : Out :=
  scOp s f true true (.sccas f.w (s.valS f.value) (s.valS f.expect)) true

/-! ### Snapshots (R330) -/

/-- SNAPCFG enables the snapshots of a job. -/
def State.ckptJob (s : State) (j : BitVec 16) : Bool := s.snapJob j

/-- SNAP. -/
def execSnap (num job : SSrc) (s : State) : Out :=
  let u := (s.useS num).useS job
  let n := (s.valS num).setWidth 32
  if !s.ckptJob ((s.valS job).setWidth 16) then bad u .ckptBad 1
  else if n.toNat ≤ s.snap.b.toNat then .next u
  else if n.toNat ≠ s.snap.b.toNat + 1 then bad u .ckptBad 2
  else .next (u.stage 0 (.ev (.snapBegin n.toNat)))

/-- The phase of snapshot B: none while it waits for the one before it, aborted where it was given up in that wait (R315, R330). -/
def Snap.phaseOfB (n : Snap) : Nat :=
  if n.begin_.any (fun b => decide (b.1 = n.b.toNat)) then 0 else if n.now = n.b.toNat then n.phase.toNat else 6

/-- The words of SNAPQ. -/
def State.snapWord (s : State) (sel : BitVec 2) : Word :=
  match sel.toNat with
  | 0 => BitVec.ofNat 64 (s.snap.b.toNat * 2 ^ 32 + s.snap.phaseOfB * 2 ^ 28 + s.snap.reason.toNat * 2 ^ 24 + s.snap.inc.toNat)
  | 1 => s.snap.k.setWidth 64
  | _ => s.snap.a.setWidth 64

/-- SNAPQ. -/
def execSnapq (sel : BitVec 2) (s : State) : Out := .next (s.landS .queue (s.snapWord sel) 2 Flags.none)

/-- CKWAIT: JOBID of context 0 reads 0 (R357). -/
def execCkwait (num : SSrc) (s : State) : Out :=
  let u := s.useS num
  if !s.ckptJob (if s.ic = 0 then 0 else s.icx.jobid) then bad u .ckptBad 1
  else .next (u.waitFor (.ckpt ((s.valS num).setWidth 32)))

/-- ROLLBK. -/
def execRollbk (num job : SSrc) (s : State) : Out :=
  let u := (s.useS num).useS job
  let n := (s.valS num).setWidth 32
  if !s.ckptJob ((s.valS job).setWidth 16) then bad u .ckptBad 1
  else if n ≠ s.snap.k then bad u .ckptBad 3
  else .next (u.stage 0 (.ev (.rollback n.toNat)))

/-! ### Known-answer runs (R227, R229) -/

/-- KATGO. -/
def execKatgo (fmt : BitVec 4) (seed : BitVec 8) (s : State) : Out :=
  s.busyCheck s .mxeBusy State.engineBusy (fun u =>
    .next { u with bundle := { u.bundle with starts := u.bundle.starts ++ [.kat ⟨s.gclk, s.ix, s.ic, fmt, seed, 0⟩] } })

/-- KATCMP. A run that is paused with another task of the sequencer counts as active: the model's choice (R229, log 114). -/
def execKatcmp (s : State) : Out :=
  let t := s.tile s.itile
  let k := s.icx
  if (if s.ix % 2 = 1 then t.katB else t.katA).isSome then bad s .mxeBusy 1
  else if k.katHash ≠ k.katExp then bad s .katMismatch (BitVec.ofNat 64 (k.katHash.toNat * 2 ^ 24 + k.katExp.toNat))
  else .next s

/-! ### TLAUNCH (R138) -/

/-- The rank that bounds the ranks of a context's records: its task's; context 0 has no rank to bound by. -/
def State.rankOf (s : State) : Nat :=
  match s.icx.task.bind s.task with
  | some t => t.rank
  | none => 15

/-- TLAUNCH: 64 bytes per cycle in cycles c + 1 to c + 4. -/
def execTlaunch (a : SSrc) (q : BitVec 6) (s : State) : Out :=
  let u := s.useS a
  let x := s.valS a
  if 2 ^ 22 ≤ x.toNat ∨ s.scratchOk s.ix s.ic s.itile (bankOf x.toNat) = false then bad u .spRange x
  else if x.toNat % 256 ≠ 0 then bad u .align x
  else if (s.lq q.toNat).tl = false then bad u .priv (q.setWidth 64)
  else if 4 ≤ (s.seq s.ix).launches.length then bad u .launchBad 1
  else
    let part : State → Nat → State := fun u i =>
      let u := u.bookAll s.itile [bankOf x.toNat] (s.gclk + 1 + i) false
      u.access ⟨u.fresh, some (s.gclk + 1 + i), s.ix, s.ic, s.itile, x.toNat + 64 * i, .tlaunch i, false⟩
    let u := part (part (part (part u 0) 1) 2) 3
    .next { u with bundle := { u.bundle with starts := u.bundle.starts ++ [.launch s.ix q s.rankOf] } }

/-! ### System registers (R337) -/

/-- SYSRD: the register as at the end of cycle c, after 2 cycles; REMDATA freezes the issuer until its value is there
(R342). -/
def execSysrd (i : BitVec 12) (clr : Bool) (c : BitVec 2) (s : State) : Out :=
  let n := i.toNat
  let ctx := if s.ic = 0 then c.toNat else if sysPerCtx n then s.ic else 0
  if sysRefuse s.ix n ctx false clr then bad s .sysregBad (i.setWidth 64)
  else if n = 0x051 then
    let w := s.remselNow s.ix
    if remRefuse w false then bad s .sysregBad (i.setWidth 64)
    else .next (s.stage 0 (.ev (.remRead s.ix)))
  else .next ((s.stage 0 (.sysr s.ix ctx n s.ic clr s.fresh)).landS .queue 0 2 Flags.none)

/-- SYSWR: at the end of cycle c + 1, under the register's Access column; C is SYSRD's, and on FLAGS it changes nothing here
(log 102). -/
def execSyswr (i : SysIndex) (a : SSrc) (c : BitVec 2) (s : State) : Out :=
  let u := s.useS a
  let n := i.at_.toNat
  if sysRefuse s.ix n c.toNat true i.clr then bad u .sysregBad (i.at_.setWidth 64)
  else if n = 0x051 then
    if remRefuse (s.remselNow s.ix) true then bad u .sysregBad (i.at_.setWidth 64)
    else .next (u.stage 0 (.remWrite s.ix (s.valS a)))
  else .next (u.stage 1 (.ev (.reg s.ix c.toNat n (s.valS a))))

/-! ### Translation, code and memory (R353, R354, R358) -/

/-- TLBINV. -/
def execTlbinv (a : SSrc) (scope kind : BitVec 2) (s : State) : Out :=
  .next ((s.useS a).waitFor (.tlbinv (s.valS a) scope kind))

/-- CODEINV. -/
def execCodeinv (a : SSrc) (scope : BitVec 2) (all : Bool) (s : State) : Out :=
  .next ((if all then s else s.useS a).waitFor (.codeinv (s.valS a) scope all))

/-- ZEROB. -/
def execZerob (target mask : SSrc) (hbm : Bool) (s : State) : Out :=
  let u := (s.useS mask).useS target
  let t := s.valS target
  let m := s.valS mask
  if hbm then
    if t.toNat % 4096 ≠ 0 ∨ m = 0 ∨ 2 ^ 20 < m.toNat then bad u .spRange t
    else .next ((u.waitFor (.zerob true t m none)).stage 0 (.zerobStart s.ix t m))
  else if canalForm t = false then bad u .spRange t
  else .next (u.waitFor (.zerob false t m none))

/-- CAPQ (R360). -/
def execCapq (a : SSrc) (s : State) : Out :=
  .next ((s.useS a).landS .queue (s.capWord ((s.valS a).toNat % 2 ^ 16)) 2 Flags.none)

end Sys2Proof.Machine
end

