-- ==== Sys2Proof/Machine/Perform.lean ====
section
/-! DEFINITION. Pool accesses perform: the bytes move, loads find their flights, stores that meet a HELD bank wait, cross-die
accesses arrive, and the second step of a microcoded bundle books its bank (R17, R22, R100, R181, R223, R235, R253, R256,
R259, R264, R266, R320, R348). -/

namespace Sys2Proof.Machine

/-! ### Canal bookings of a cycle (R254) -/

/-- The sequencer of a tail. -/
def Tail.seqOf (t : Tail) : Nat :=
  match t with
  | .wait x _ _ => x
  | .eret x => x
  | .texit x _ => x
  | .post x _ => x
  | .trace x _ _ _ => x
  | .halt x _ => x

/-- A bundle that committed in this cycle is cancelled as though it had not issued: a bank that it asked for over the canal is not to
be had (R7, R254). -/
def State.uncommit (s : State) (b : Bundle) (old : Ctx) : State :=
  let x := b.seq
  let s := s.retract b s.gclk
  let s := { s with tails := s.tails.filter (fun t => decide (t.seqOf ≠ x)) }
  (s.setCtx x b.ctx old).modSeq x (fun q => { q with
    bundles := q.bundles - 1, issueCycles := q.issueCycles - 1, micro := none, microOld := none })

/-- The partner's bundle on the tile has a start of this cycle that stands: a nest, a known-answer run, a grouped operation or, for a
copy chain, all the places being taken (R215, R276). -/
def State.partnerStands (s : State) (b : Bundle) : Bool :=
  let t := s.tile (tileOf b.seq)
  let a := decide (b.seq % 2 = 1)
  (match if a then t.nestA else t.nestB with
    | some z => decide (z.issued = s.gclk)
    | none => false)
  || (match if a then t.katA else t.katB with
    | some z => decide (z.issued = s.gclk)
    | none => false)
  || (match t.vg with
    | some v => decide (v.issued = s.gclk)
    | none => false)
  || decide (16 ≤ (s.chains.filter (fun c => decide (c.tile = tileOf b.seq))).length)

/-- One bundle that asks for banks over the canal, once the local bookings of its cycle stand: they are booked, or BANK_CONFLICT
cancels it. A cause that hangs on its partner's bundle, which comes before it, stands where that bundle does; where it was
cancelled, the starts take place now (R215, R254, log 92). -/
def State.settleOne (s : State) (e : Bundle × Ctx × Bool) : State :=
  let b := e.1
  let ks := b.canals
  let clash := match ks.findSome? (fun k => s.conflictOf b.seq k.tile k.bank k.cycle) with
    | some v => [(⟨3, .m, b.found.length, .bankConflict, v, 0⟩ : Found)]
    | none => []
  let cond := if s.partnerStands b then b.cond else []
  match pickFound (b.found ++ cond ++ clash) with
  | none =>
    let s := { s with books := s.books ++ ks }
    if b.cond = [] then s else b.starts.foldl State.startUp s
  | some f =>
    let s := if e.2.2 then s.uncommit (if b.cond = [] then b else { b with starts := [] }) e.2.1 else s
    { s with bundle := b }.cancelBundle f

/-- The canal bookings of a cycle, in increasing order of die, tile and sequencer (R254). -/
def State.settleCanal (s : State) : State := s.parked.foldl State.settleOne { s with parked := [] }

/-! ### One access -/

/-- Change a context's flight of a number. -/
def Ctx.modFlight (k : Ctx) (id : Nat) (f : Flight → Flight) : Ctx :=
  { k with flights := k.flights.map (fun g => if g.id = id then f g else g) }

/-- Change the flight of a number in a context, and in what a delivery has saved of context 0 itself (R346). -/
def State.modFlight (s : State) (x c id : Nat) (f : Flight → Flight) : State :=
  (s.modCtx x c (fun k => k.modFlight id f)).modSeq x (fun q =>
    if c = 0 then { q with saved0 := q.saved0.map (fun k => k.modFlight id f) } else q)

/-- A load's data arrives in its flight. -/
def State.arrive (s : State) (a : Acc) (f : Flight → Flight) : State :=
  s.modFlight a.seq a.ctx a.id (fun g => { f g with ready := true })

/-- The mark a load's value lands with (R182, R257). -/
def State.loadMark (s : State) (t off n : Nat) : Mark := if s.poolBad t off n then .poison else .clean

/-- The signed stride's element offsets. -/
def Acc.places (a : Acc) (t : Tag) (st : Int) : List Nat := (strideAddrs a.off st (elems t)).map Int.toNat

/-- The banks an access touches. -/
def Acc.banks (a : Acc) : List Nat :=
  match a.kind with
  | .load n _ => banksOf a.off n
  | .store n _ => banksOf a.off n
  | .ldvs t st => ((a.places t st).map bankOf).dedup
  | .stvs t _ st => ((a.places t st).map bankOf).dedup
  | .ldpair => banksOf a.off 16
  | .stpair _ _ => banksOf a.off 16
  | .tlaunch _ => banksOf a.off 64
  | .scld w | .scst w _ | .scswp w _ | .scadd w _ | .sccas w _ _ => banksOf a.off (if w then 8 else 4)
  | _ => banksOf a.off 512

/-- A bank is being zeroed in this cycle: stores to it are discarded (R358). -/
def State.zeroingBank (s : State) (t b : Nat) : Bool :=
  match ((s.tile t).bank b).zeroTo with
  | some e => decide (s.gclk ≤ e)
  | none => false

/-- Every byte of a granule is among those that parts of one store write: offset, bytes and value of each. -/
def partsCover (l : List (Nat × Nat × Nat)) (g : Nat) : Bool :=
  (List.range 64).all (fun i => l.any (fun p => decide (p.1 ≤ g + i ∧ g + i < p.1 + p.2.1)))

/-- A store of several parts: the granules that the parts cover whole together lose their marks (R264, R348). -/
def State.storeParts (s : State) (t : Nat) (l : List (Nat × Nat × Nat)) : State :=
  let s := l.foldl (fun s p => s.wrPool t p.1 p.2.1 p.2.2) s
  ((l.flatMap (fun p => granules p.1 p.2.1)).dedup.filter (partsCover l)).foldl (fun s g => s.markWrite t g 64 .clean none) s

/-- Bytes of the lanes a mask selects, 4 bytes a lane (R180). -/
def State.storeMask (s : State) (t off : Nat) (v : VBits) (m : BitVec 128) : State :=
  if m = BitVec.allOnes 128 then s.store t off 512 v.toNat
  else s.storeParts t (((List.range 128).filter (fun i => m.getLsbD i)).map (fun i => (off + 4 * i, 4, elemAt 32 v i)))

/-- STAA (R223): every element of the 512 bytes takes the sum; a granule that was marked stays marked. -/
def State.addRows (s : State) (t off : Nat) (v : VBits) (tag : Tag) : State × Flags :=
  let w := esz tag
  let old := s.rdPool t off 512
  let r := (List.range (4096 / w)).map (fun i => match fmtOf tag with
    | some f => f.add ((old >>> (w * i)) % 2 ^ w) (elemAt w v i)
    | none => ((((old >>> (w * i)) % 2 ^ w) + elemAt w v i) % 2 ^ w, Flags.none))
  (s.wrPool t off 512 (packElems w (r.map Prod.fst)), r.foldl (fun f p => f.or p.2) Flags.none)

/-- The old value of an SC operation as it lands (R266). -/
def scOld (tag : Tag) (w : Bool) (v : Nat) : Word :=
  if tag = tS32 then sextTo64 32 v else BitVec.ofNat 64 (v % (if w then 2 ^ 64 else 2 ^ 32))

/-- SCADD's sum in the tile's format (R216, R266). -/
def scSum (tag : Tag) (a b : Nat) : Nat × Flags :=
  match fmtOf tag with
  | some f => f.add a b
  | none => ((a + b) % 2 ^ 32, Flags.none)

/-- An SC operation's read-modify-write: what it writes of the old value, and the flags; `always` for SCST, which writes over
a poisoned granule too (R266). -/
def State.scRmw (s : State) (a : Acc) (w : Bool) (always push : Bool) (f : Tag → Nat → Option (Nat × Flags)) : State :=
  let n := if w then 8 else 4
  let old := s.rdPool a.tile a.off n
  let tag := s.slotTag a.tile (a.off / 0x4000)
  let badG := s.poolBad a.tile a.off n
  let s := if push then
      s.arrive a (fun g => { g with vals := [⟨scOld tag w old, if badG then .poison else .clean⟩] })
    else s
  if badG && !always then s
  else
    match f tag old with
    | some (v, fl) => { s.wrPool a.tile a.off n v with flagsDue := s.flagsDue ++ [(a.seq, a.ctx, fl)] }
    | none => s

/-- The low bits an SC operation of a width uses. -/
def scLow (w : Bool) (v : Word) : Nat := v.toNat % (if w then 2 ^ 64 else 2 ^ 32)

/-- Where half of a VGTAB's table is taken in as it performs: by sequencer, and by its issue cycle, which lies 1 or 2 cycles back
(R235). -/
def State.vtabHalf (s : State) (x half : Nat) : Nat := 512 * (x % 2) + 256 * ((s.gclk + 1 + half) % 2) + 128 * half

/-- A load that performs in a tile under reset lands zeros marked poisoned, in the format its instruction gives it (R189, R402). -/
def State.poisonLoad (s : State) (a : Acc) : State :=
  match a.kind with
  | .vgtab half =>
    let base := s.vtabHalf a.seq half
    s.modTt a.seq a.ctx (fun t => { t with
      inVtab := (List.range 128).foldl (fun m i => tset 0 m (base + i) 0) t.inVtab,
      inBad := (List.range 128).foldl (fun m i => tset false m (base + i) true) t.inBad })
  | .ldv t => s.arrive a (fun g => { g with vecs := [⟨t, 0, .poison⟩] })
  | .ldvs t _ => s.arrive a (fun g => { g with vecs := [⟨t, 0, .poison⟩] })
  | .tlaunch _ => s.modSeq a.seq (fun q => { q with launches := q.launches.map (fun l =>
      if l.full then l else { l with bad := true, bytes := List.replicate 256 0, full := true }) })
  | _ => s.arrive a (fun g => { g with
      vals := g.vals.map (fun _ => ⟨0, .poison⟩), vecs := g.vecs.map (fun _ => { Vec.void with mark := .poison }) })

/-- An access performs (R253, R264). -/
def State.performAcc (s : State) (a : Acc) : State :=
  let dead : Bool := a.kind.writes && a.banks.any (fun b => s.zeroingBank a.tile b)
  let s := { s with accs := s.accs.filter (fun b => decide (b.id ≠ a.id)) }
  if s.underReset a.tile then (if a.kind.writes then s.arrive a (fun g => g) else s.poisonLoad a)
  else if dead then
    s.arrive a (fun g => g)
  else
    match a.kind with
    | .load n sg =>
      let v := s.rdPool a.tile a.off n
      s.arrive a (fun g => { g with
        vals := [⟨if sg then sextTo64 (8 * n) v else BitVec.ofNat 64 v, s.loadMark a.tile a.off n⟩] })
    | .store n v => s.store a.tile a.off n v.toNat
    | .ldv t =>
      s.arrive a (fun g => { g with
        vecs := [⟨t, BitVec.ofNat 4096 (s.rdPool a.tile a.off 512), s.loadMark a.tile a.off 512⟩] })
    | .stv v m => s.storeMask a.tile a.off v m
    | .ldvs t st =>
      let w := esz t / 8
      let es := a.places t st
      s.arrive a (fun g => { g with
        vecs := [⟨t, vecOf (esz t) (es.map (fun o => s.rdPool a.tile o w)),
          if es.any (fun o => s.poolBad a.tile o w) then .poison else .clean⟩] })
    | .stvs t v st =>
      let w := esz t / 8
      s.storeParts a.tile (((a.places t st).zipIdx).map (fun o => (o.1, w, elemAt (esz t) v o.2)))
    | .lda =>
      let slot := a.off / 0x4000
      if s.slotAlloc a.tile slot then
        s.arrive a (fun g => { g with
          vecs := [⟨s.slotTag a.tile slot, BitVec.ofNat 4096 (s.rdPool a.tile a.off 512), s.loadMark a.tile a.off 512⟩] })
      else s.arrive a (fun g => { g with vecs := [Vec.void], flags := { g.flags with voidrd := true } })
    | .sta v _ => s.store a.tile a.off 512 v.toNat
    | .staa v t =>
      let r := s.addRows a.tile a.off v t
      { r.1 with flagsDue := r.1.flagsDue ++ [(a.seq, a.ctx, r.2)] }
    | .ldpair =>
      let val : Nat → SVal := fun o => ⟨BitVec.ofNat 64 (s.rdPool a.tile o 8), s.loadMark a.tile o 8⟩
      s.arrive a (fun g => { g with vals := [val a.off, val (a.off + 8)] })
    | .stpair v w => (s.store a.tile a.off 8 v.toNat).store a.tile (a.off + 8) 8 w.toNat
    | .scld w => s.scRmw a w false true (fun _ _ => none)
    | .scst w v => s.scRmw a w true false (fun _ _ => some (scLow w v, Flags.none))
    | .scswp w v => s.scRmw a w false true (fun _ _ => some (scLow w v, Flags.none))
    | .scadd w v => s.scRmw a w false true (fun t o => some (scSum t o (scLow w v)))
    | .sccas w v x => s.scRmw a w false true (fun _ o => if o = scLow w x then some (scLow w v, Flags.none) else none)
    | .vgtab half =>
      let base := s.vtabHalf a.seq half
      let es := List.range 128
      s.modTt a.seq a.ctx (fun t => { t with
        inVtab := es.foldl (fun m i => tset 0 m (base + i) (BitVec.ofNat 32 (s.rdPool a.tile (a.off + 4 * i) 4))) t.inVtab,
        inBad := es.foldl (fun m i => tset false m (base + i) (s.poolBad a.tile (a.off + 4 * i) 4)) t.inBad })
    | .tlaunch part =>
      let i := (s.seq a.seq).launches.findIdx (fun l => decide (l.bytes.length = 64 * part ∧ l.full = false))
      s.modSeq a.seq (fun q => { q with launches := (q.launches.zipIdx).map (fun l =>
        if l.2 = i then { l.1 with
            bytes := l.1.bytes ++ rdList s.pool (poolKey a.tile a.off) 64, bad := l.1.bad || s.poolBad a.tile a.off 64,
            full := decide (part = 3) }
        else l.1) })

/-- A store that a hold delays; an SC operation keeps its position (R23, R256, R320). -/
def AccKind.holds : AccKind → Bool
  | .store .. | .stv .. | .stvs .. | .sta .. | .staa .. | .stpair .. => true
  | _ => false

/-- A store whose bank is HELD in the cycle it is to perform in: its booking lapses and its sequencer is frozen from this cycle on
(R22, R256, R320). -/
def State.holdStore (s : State) (a : Acc) : State :=
  let s := { s with
    accs := s.accs.map (fun (b : Acc) => if b.id = a.id then { b with at_ := none } else b),
    books := s.books.filter (fun (k : Booking) => decide (¬(k.tile = a.tile ∧ k.bank ∈ a.banks ∧ k.cycle = s.gclk))) }
  s.addWait a.seq (((s.seq a.seq).active).getD a.ctx) (.held a.id)

/-- Stores of this cycle that meet a HELD bank, before anything issues (R256). -/
def State.meetHeld (s : State) : State :=
  (s.accs.filter (fun a => decide (a.at_ = some s.gclk) && !a.cross && a.kind.holds && s.anyHeld a.tile a.banks)).foldl
    State.holdStore s

/-- The accesses whose cycle this is. -/
def State.performDue (s : State) : State :=
  (s.accs.filter (fun a => decide (a.at_ = some s.gclk) && !a.cross)).foldl State.performAcc s

/-! ### Events -/

/-- Remove a wait of a context. -/
def State.dropWait (s : State) (x c : Nat) (p : Wait → Bool) : State :=
  s.modCtx x c (fun k => { k with waits := k.waits.filter (fun w => !p w) })

/-- The running context of a sequencer. -/
def State.cur (s : State) (x : Nat) : Nat := ((s.seq x).active).getD 0

/-- The banks of an access are booked in this cycle for its sequencer. -/
def State.bookNow (s : State) (a : Acc) : State :=
  { s with books := s.books ++ a.banks.map (fun b => (⟨a.tile, b, s.gclk, a.seq, a.cross⟩ : Booking)) }

/-- A store that a hold has delayed performs if no bank of it is HELD or booked in this cycle (R256). -/
def State.heldPerform (s : State) (a : Acc) : State :=
  if s.anyHeld a.tile a.banks || a.banks.any (fun b => (s.booked a.tile b s.gclk).isSome) then s
  else (s.bookNow a).performAcc a

/-- HELD_STORE_PERFORM (R256): each store of the sequencer that a hold has delayed, in the first cycle after the hold in which no bank
of it is booked. -/
def execHeldStorePerform (y : SeqId) (s : State) : Out :=
  let x := seqKey y
  .next ((s.accs.filter (fun a => decide (a.seq = x ∧ a.at_ = none) && !a.cross)).foldl State.heldPerform s)

/-- CROSS_DIE_ACCESS (R256): the access books its bank on arrival, in a cycle in which it is neither booked nor reserved and,
for a write, not HELD; none arrives while a die boundary is repaired (R394). -/
def execCrossDieAccess (id : Nat) (s : State) : Out :=
  match s.accs.find? (fun a => decide (a.id = id) && a.cross) with
  | none => .next s
  | some a =>
    if s.crossWait || (match a.at_ with
        | some t => decide (s.gclk < t)
        | none => false) || a.banks.any (fun b => !s.bankFree a.tile b)
        || (a.kind.writes && s.anyHeld a.tile a.banks) then .next s
    else
      .next ((s.bookNow a).performAcc a)

/-- CROSS_DIE_DATA_ARRIVAL (R17): the freeze for late data ends. -/
def execCrossDieDataArrival (y : SeqId) (s : State) : Out :=
  let x := seqKey y
  let c := s.cur x
  let k := s.ctx x c
  let gone : Wait → Bool := fun w => match w with
    | .late id => !k.flights.any (fun f => decide (f.id = id) && !f.ready)
    | _ => false
  .next (s.dropWait x c gone)

/-! ### The second micro-step (R100, R259) -/

/-- The slot of the operation that a temporary belongs to. -/
def Bundle.tempSlot (b : Bundle) (t : Temp) : Slot :=
  match b.flights.find? (fun f => decide (f.id = t.flight)) with
  | some f => f.slot
  | none => .m

/-- The cause that micro-step 1 finds: an uncorrectable error in a temporary, or a bank of a pair access that is not to be had in cycle
c + 2. -/
def State.microCause (s : State) (x : Nat) (b : Bundle) (pairs : List Acc) : Option (Slot × Cause × Word) :=
  match b.temps.find? (fun t => decide (t.val.mark = .ue)) with
  | some t => some (b.tempSlot t, .eccUe, 0)
  | none =>
    (pairs.findSome? (fun a => a.banks.findSome? (fun k => s.conflictOf x a.tile k (s.gclk + 1)))).map
      (fun v => (.m, .bankConflict, v))

/-- MADD's add reads the temporary: the sum is in its flight (R99). -/
def State.addTemp (s : State) (x c : Nat) (t : Temp) : State :=
  s.modFlight x c t.flight (fun f =>
    if f.ready then f else { f with ready := true, vals := [⟨t.val.val + t.addend, t.val.mark⟩] })

/-- MADD's temporaries in a bundle; a pair access has an address there. -/
def Bundle.sums (b : Bundle) : List Temp :=
  b.temps.filter (fun t => b.flights.any (fun f => decide (f.id = t.flight)) && !b.accs.any (fun a => decide (a.id = t.flight)))

/-- Micro-step 1 of a microcoded bundle: MADD's sum is formed; pair accesses book their bank for cycle c + 2; a cause cancels the
bundle; else what it does as it commits stands before what else is due at the end of the cycle. -/
def State.microStep (s : State) (x : Nat) : State :=
  let q := s.seq x
  match q.micro, q.microOld with
  | some b, some old =>
    let pairs := b.accs.filter (fun a => match a.kind with
      | .ldpair => true
      | .stpair _ _ => true
      | _ => false)
    match s.microCause x b pairs with
    | some (k, e, v) => s.cancelMicro x b old k e v
    | none =>
      let s := b.sums.foldl (fun s t => s.addTemp x b.ctx t) (s.modSeq x (fun q => { q with micro := none, microOld := none }))
      { s with
        books := s.books ++ pairs.flatMap (fun a => a.banks.map (fun k => (⟨a.tile, k, s.gclk + 1, x, false⟩ : Booking))),
        tails := b.closing old ++ s.tails }
  | _, _ => s

/-- The bundle whose second micro-step comes now ends its context's run, or posts a cause: nothing issues after it before the boundary
that follows (R100). -/
def Seq.closes (q : Seq) : Bool :=
  match q.micro, q.microOld with
  | some b, some k => decide (b.closing k ≠ [])
  | _, _ => false

end Sys2Proof.Machine
end

