-- ==== Sys2Proof/Machine/Sync.lean ====
section
/-! DEFINITION. The sync unit's counters and records, everything a frozen sequencer waits for, the invalidations, and the
start of a sequencer's cycle (R22, R28, R107, R116, R124, R125, R128, R261, R301 to R307, R342, R353, R354, R358). -/

namespace Sys2Proof.Machine

/-! ### Counters and records (R301 to R305) -/

/-- A record word that holds an error or a stop. -/
def recBad (w : Word) : Bool := w.getLsbD 63 || w.getLsbD 55

/-- A completion writes the record (R303). -/
def Counter.record (c : Counter) (r : Word × Word × Word) : Counter :=
  if recBad c.w1 then (if recBad r.1 then { c with w1 := c.w1 ||| (1 <<< 54) } else c)
  else { c with w1 := r.1, w2 := r.2.1, w3 := r.2.2 }

/-- One update of a counter (R305). -/
def Counter.update (c : Counter) (u : CtrUpd) : Counter :=
  let c := match u.set with
    | some e => if e then { c with value := u.x, w1 := 0, w2 := 0, w3 := 0 } else { c with value := u.x }
    | none => { c with value := c.value + u.x }
  match u.rec_ with
  | some r => c.record r
  | none => c

/-- Apply an update. -/
def State.ctrUpdate (s : State) (u : CtrUpd) : State :=
  s.modTile u.tile (fun t => t.modCounter u.ctr (fun c => c.update u))

/-- An update that reaches a counter in this cycle applies at its end, after what sets the counter (R305). -/
def State.ctrReach (s : State) (u : CtrUpd) : State := { s with pending := s.pending ++ [(s.gclk, .ctr u)] }

/-- Add to a counter. -/
def State.ctrAdd (s : State) (t c : Nat) (x : Nat) : State := s.ctrReach ⟨t, c, none, BitVec.ofNat 32 x, none⟩

/-- A completion: the addition of 1 and its record (R303, R304). -/
def State.ctrDone (s : State) (t c : Nat) (r : Word × Word × Word) : State := s.ctrReach ⟨t, c, none, 1, some r⟩

/-- A counter's value. -/
def State.ctrVal (s : State) (t c : Nat) : BitVec 32 := ((s.tile t).counter c).value

/-- A counter reference is well formed (R128). -/
def refOk (w : Nat) : Bool :=
  if w.testBit 31 then decide (field w 30 25 = 0 ∧ field w 15 6 = 0 ∧ field w 22 16 ≤ 64) else decide (w = 0)

/-- The counter a reference names; none where it is unused. -/
def refOf (w : Nat) : Option (Nat × Nat) :=
  if w.testBit 31 then some (65 * field w 24 23 + field w 22 16, field w 5 0) else none

/-- Signal a reference: add to the counter it names (R135, R154). -/
def State.signal (s : State) (w x : Nat) : State :=
  match refOf w with
  | some r => s.ctrAdd r.1 r.2 x
  | none => s

/-- Word 1 of a record (R302): cause, stop, kind, flags and bytes moved. -/
def recWord1 (cause : Option Cause) (stopped : Bool) (kind : Nat) (f : Flags) (moved : Nat) : Word :=
  BitVec.ofNat 64 ((match cause with
      | some c => 2 ^ 63 + c.code * 2 ^ 56
      | none => 0) + stopped.toNat * 2 ^ 55 + kind * 2 ^ 52 + f.five * 2 ^ 35 + moved % 2 ^ 32)

/-! ### Conditions of waits (R307, R310, R330) -/

/-- d(x, y) of R310. -/
def ringDiff (x y : BitVec 32) : Int := (x - y).toInt

/-- The condition of a counter, ring or checkpoint wait of a context; none for another wait. -/
def State.condition (s : State) (t : Nat) (w : Wait) : Option Bool :=
  match w with
  | .ctr c x => some (decide (x.toNat ≤ (s.ctrVal t c.toNat).toNat))
  | .ringF h k =>
    let r := (s.tile t).ring h.toNat
    some (decide (((k.toNat + 1 : Nat) : Int) ≤ ringDiff (s.ctrVal t r.f.toNat) r.c))
  | .ringE h k =>
    let r := (s.tile t).ring h.toNat
    some (decide (((k.toNat + 1 : Nat) : Int) ≤ ringDiff (s.ctrVal t r.e.toNat + BitVec.ofNat 32 r.n) r.p))
  | .ckpt n => some (decide (n.toNat ≤ s.snap.k.toNat ∨ n.toNat ≤ s.snap.a.toNat))
  | _ => none

/-- The counter a wait observes. -/
def State.watched (s : State) (t : Nat) (w : Wait) : Option Nat :=
  match w with
  | .ctr c _ => some c.toNat
  | .ringF h _ => some ((s.tile t).ring h.toNat).f.toNat
  | .ringE h _ => some ((s.tile t).ring h.toNat).e.toNat
  | _ => none

/-- The grouped operation of a tile whose completion a counter's value now includes (R262). -/
def State.told (s : State) (t ctr : Nat) : Option Nat :=
  match (s.tile t).vg with
  | some v => if v.completed ∧ v.ctr.toNat = ctr then some v.id else none
  | none => none

/-- A sequencer has observed the completion of a grouped operation (R262). -/
def State.saw (s : State) (x : Nat) (v : Option Nat) : State :=
  match v with
  | some id => s.modSeq x (fun q => { q with seenVg := id :: q.seenVg })
  | none => s

/-- A sequencer observes a counter of its tile (R262). -/
def State.observe (s : State) (x ctr : Nat) : State := s.saw x (s.told (tileOf x) ctr)

/-- WAIT_CONDITION_MET (R307): the waits of the running context whose condition holds end. -/
def execWaitConditionMet (y : SeqId) (s : State) : Out :=
  let x := seqKey y
  let c := s.cur x
  let met := (s.ctx x c).waits.filter (fun w => (s.condition (tileOf x) w).getD false)
  let s := met.foldl (fun s w => match s.watched (tileOf x) w with
    | some r => s.observe x r
    | none => s) s
  .next (s.dropWait x c (fun w => decide (w ∈ met)))

/-- The span of a grouped operation has not ended (R244). -/
def State.spanLeft (s : State) (id : Nat) : Bool :=
  s.tiles.any (fun e => match e.2.vg with
    | some v => decide (v.id = id)
    | none => false)

/-- FENCE_COMPLETE (R261): none of the fence's stores is left to perform, and none of its grouped operations' spans is left. -/
def execFenceComplete (y : SeqId) (s : State) : Out :=
  let x := seqKey y
  .next (s.dropWait x (s.cur x) (fun w => match w with
    | .fence _ _ _ ids gth => !(ids.any (fun i => s.accs.any (fun a => decide (a.id = i)))) && !(gth.any s.spanLeft)
    | _ => false))

/-- A hold's delay of a store is over: the store has performed (R256). -/
def State.heldOver (s : State) (x : Nat) : State :=
  s.dropWait x (s.cur x) (fun w => match w with
    | .held id => !(s.accs.any (fun a => decide (a.id = id)))
    | _ => false)

/-- REALN_END (R116): the freeze ends at its tick. -/
def execRealnEnd (y : SeqId) (s : State) : Out :=
  let x := seqKey y
  .next (s.dropWait x (s.cur x) (fun w => match w with
    | .realn _ t => decide (t ≤ s.gclk)
    | _ => false))

/-- SC_WHEEL_SLOT (R265, R320): the sequencer owns the wheel's position and the bank is not HELD; the bundle looks again at
its issue. -/
def execScWheelSlot (y : SeqId) (s : State) : Out :=
  let x := seqKey y
  .next (if s.ownsWheel x then s.dropWait x (s.cur x) (fun w => decide (w = .wheel)) else s)

/-- A wait inside the device, such as the start of a delivery, is over (R149, R152, R346). -/
def State.delayOver (s : State) (x : Nat) : State :=
  s.dropWait x (s.cur x) (fun w => match w with
    | .delay t => decide (t ≤ s.gclk)
    | _ => false)

/-! ### Code (R107, R124, R125) -/

/-- The bundle a context stands at cannot be had: its cause is delivered and it re-issues after ERET (R344). -/
def State.fetchFault (s : State) (x c : Nat) (p : Wait → Bool) (e : Cause) (v : Word) (slot : Nat) : State :=
  (s.dropWait x c p).cancel x e v slot 0 false

/-- The slot of a cause of a resolution (R339): B where the bundle's B slot names the handle, else none. -/
def State.resSlot (s : State) (x c : Nat) : Nat :=
  match (s.seq x).bundleAt (s.ctx x c).pos with
  | none => 0
  | some (ws, _) =>
    let ops := (decBundle ws).flatMap (fun a => match a.2 with
      | .ok is => is.map (fun i => (a.1, i))
      | _ => [])
    match slotB ops with
    | some (.brx _) => 2
    | some (.callx _) => 2
    | some (.ret _) => 2
    | _ => 0

/-- PAGE_RESOLUTION (R107): the handle is resolved before its bundle issues, or the cause is delivered. -/
def execPageResolution (y : SeqId) (s : State) : Out :=
  let x := seqKey y
  let c := s.cur x
  let isRes : Wait → Bool := fun w => match w with
    | .resolve _ _ => true
    | _ => false
  match (s.ctx x c).waits.find? isRes with
  | some (.resolve h need) =>
    let r := s.resolve x c h need
    match r.1 with
    | .error f => .next (r.2.fetchFault x c isRes f.cause f.tval (if (s.ctx x c).entry = some (h, need) then 0 else s.resSlot x c))
    | .ok t =>
      let s := r.2.dropWait x c isRes
      .next (if (s.ctx x c).entry = some (h, need) then
          s.modCtx x c (fun k => { k with pos := t, entry := none, countdown := none })
        else s)
  | _ => .next s

/-- The segments of a page that a chamber still holds serve no transfer any more (R354). -/
def Seq.age (q : Seq) (c : Nat) (page : BitVec 45) : Seq :=
  let f : Chamber → Chamber := fun k => if k.ctx = c ∧ k.page = page then { k with old := true } else k
  { q with chamA := q.chamA.map f, chamB := q.chamB.map f }

/-- The page a context stands in is read again where it is not held or was dropped; then the segment of its bundle. A header that is
read again has its tag checked again; TVAL is then the bundle's handle, as for a header that is not valid (R60, R364, log 86). -/
def State.fetchSeg (s : State) (x c : Nat) : Except (Cause × Word) State × State :=
  let pos := (s.ctx x c).pos
  let page := pageOf pos
  let held := match (s.seq x).page page with
    | some p => if p.stale then none else some p
    | none => none
  let va := (mkHandle page 0).toNat % 2 ^ 57
  let r : Except (Cause × Word) PageInfo × State := match held with
    | some p => (.ok p, s)
    | none =>
      match s.translate (s.walker x c) va .fetch with
      | (.error e, s) => (.error (e, mkHandle page 0), s)
      | (.ok b, s) =>
        let m := s.codeView (s.walker x c) b.1 b.2
        match readPage m page b.1, tagFault (pageTag m b.1) with
        | none, _ => (.error (.landBad, pos), s)
        | some _, some e => (.error (e, pos), s)
        | some p, none => (.ok p, s.modSeq x (fun q => (q.age c page).keepPage p))
  match r with
  | (.error e, s) => (.error e, s)
  | (.ok p, s) =>
    if Chamber.lingers (s.seq x).chamA c page || Chamber.lingers (s.seq x).chamB c page then (.ok s, s)
    else match p.segOf (wordOf pos) with
    | none => (.error (.segBad, BitVec.ofNat 64 (p.badSeg (wordOf pos))), s)
    | some g =>
      if g.bad then (.error (.segBad, BitVec.ofNat 64 g.off), s)
      else if (s.seq x).resident page g.off then (.ok s, s)
      else
        match s.expand x c page g.off with
        | (.error e, s) => (.error (e, mkHandle page 0), s)
        | (.ok ws, s) =>
          let s := s.modSeq x (fun q => q.intoOther pos ⟨c, page, g.off, ws, false⟩)
          (.ok s, s)

/-- SEGMENT_FETCH (R125): the segment is expanded and the freeze ends. -/
def execSegmentFetch (y : SeqId) (s : State) : Out :=
  let x := seqKey y
  let c := s.cur x
  let isF : Wait → Bool := fun w => match w with
    | .fetch _ _ => true
    | _ => false
  if (s.ctx x c).waits.any isF then
    match s.fetchSeg x c with
    | (.error e, s) => .next (s.fetchFault x c isF e.1 e.2 0)
    | (.ok _, s) => .next (s.dropWait x c isF)
  else .next s

/-- SEGMENT_PREFETCH (R124): the chain successor of the issuing segment goes into the other chamber, unless it is resident,
malformed or not to be had, or that chamber is pinned. -/
def execSegmentPrefetch (y : SeqId) (s : State) : Out :=
  let x := seqKey y
  let c := s.cur x
  let q := s.seq x
  let k := s.ctx x c
  let other := if q.inB then q.chamA else q.chamB
  match q.page (pageOf k.pos) with
  | none => .next s
  | some p =>
    match (if q.inB then q.chamB else q.chamA) with
    | none => .next s
    | some cur =>
      if cur.page ≠ p.page ∨ cur.ctx ≠ c ∨ !q.standsIn k.pos (some cur) then .next s
      else
        match p.segs.find? (fun g => decide (g.off = cur.seg)) with
        | none => .next s
        | some g =>
          match p.segs.find? (fun h => decide (g.next ≠ 0 ∧ h.off = g.next)) with
          | none => .next s
          | some h =>
            if h.bad || p.stale || q.resident p.page h.off || chamberPinned k p other then .next s
            else
              match s.expand x c p.page h.off with
              | (.error _, s) => .next s
              | (.ok ws, s) => .next (s.modSeq x (fun q => q.intoOther k.pos ⟨c, p.page, h.off, ws, false⟩))

/-- Drop the code of a page, or of every page, from a sequencer: the chamber that is issuing finishes its segment (R354). -/
def Seq.dropCode (q : Seq) (pos : Option Word) (hit : BitVec 45 → Bool) : Seq :=
  let cur := if q.inB then q.chamB else q.chamA
  let keep : Option Chamber → Option Chamber := fun c => match c with
    | some k =>
      if !hit k.page then some k
      else if c = cur ∧ pos.map pageOf = some k.page ∧ q.active = some k.ctx then some k else none
    | none => none
  { q with
    chamA := keep q.chamA, chamB := keep q.chamB,
    pages := q.pages.filterMap (fun p =>
      if !hit p.page then some p
      else if pos.map pageOf = some p.page ∧ q.active = some p.ctx then some { p with stale := true } else none) }

/-- Drop a page's code, or all code, in every sequencer a predicate names, and its translations (R354). -/
def State.dropCode (s : State) (sel : Nat → Bool) (hit : BitVec 45 → Bool) : State :=
  { s with
    seqs := s.seqs.map (fun e =>
      if sel e.1 then (e.1, e.2.dropCode (e.2.active.map (fun c => (s.ctx e.1 c).pos)) hit) else e),
    tlb := s.tlb.filter (fun t => !(List.range (t.size / 4096)).any (fun i => hit (BitVec.ofNat 45 (t.va / 4096 + i)))) }

/-- The sequencers of a scope (R353, R354): 0 the die, 1 the package, 2 with the service tiles. -/
def inInvScope (own : Nat) (scope : BitVec 2) (x : Nat) : Bool :=
  match scope.toNat with
  | 0 => decide (dieOf (tileOf x) = dieOf (tileOf own)) && !isService (tileOf x)
  | 1 => !isService (tileOf x)
  | _ => true

/-- What a TLBINV removes (R353). -/
def tlbHit (own : Nat) (a : Word) (scope kind : BitVec 2) (t : Tlb) : Bool :=
  (decide (scope ≠ 0) || decide (t.die = dieOf (tileOf own))) &&
    (match kind.toNat with
      | 0 => decide (t.va ≤ a.toNat % 2 ^ 57 ∧ a.toNat % 2 ^ 57 < t.va + t.size)
      | 1 => decide (t.job.toNat = a.toNat % 2 ^ 16)
      | 2 => !pteG t.pte.toNat
      | _ => true)

/-- TLBINV_COMPLETE (R353): every entry in scope is gone; a chunk or fetch that used one has performed, being one step. -/
def execTlbinvComplete (y : SeqId) (s : State) : Out :=
  let x := seqKey y
  let c := s.cur x
  .next ((s.ctx x c).waits.foldl (fun s w => match w with
    | .tlbinv a sc kd => (s.dropTlb (tlbHit x a sc kd)).dropWait x c (fun v => decide (v = w))
    | _ => s) s)

/-- CODEINV_COMPLETE (R354). -/
def execCodeinvComplete (y : SeqId) (s : State) : Out :=
  let x := seqKey y
  let c := s.cur x
  .next ((s.ctx x c).waits.foldl (fun s w => match w with
    | .codeinv a sc all =>
      (s.dropCode (inInvScope x sc) (fun p => all || decide (p = pageOf a))).dropWait x c (fun v => decide (v = w))
    | _ => s) s)

/-! ### Zeroing (R221, R357, R358) -/

/-- Every byte and mark of a bank becomes zero. -/
def State.zeroBank (s : State) (t b : Nat) : State := s.zeroPool t (b * bankSize) bankSize

/-- Tags VOID and band tables empty (R221, R358). -/
def Tile.voidBank (t : Tile) (b : Nat) : Tile :=
  { t with
    slotTags := tclear t.slotTags (4 * b) (4 * b + 4), bands := tclear t.bands (16 * b) (16 * b + 16),
    regTags := tclear t.regTags (128 * b) (128 * b + 128), regMarks := tclear t.regMarks (128 * b) (128 * b + 128) }

/-- Zero a bank whole: its bytes, marks, tags and bands. -/
def State.wipeBank (s : State) (t b : Nat) : State := (s.zeroBank t b).modTile t (fun r => r.voidBank b)

/-- The banks of a mask. -/
def maskBanks (m : Word) : List Nat := (List.range 64).filter (fun b => m.getLsbD b)

/-- The tile of a pool address in canal form. -/
def canalTile (a : Word) : Nat := 65 * field a.toNat 29 28 + field a.toNat 27 22

/-- ZEROB_COMPLETE (R358): a ZEROB of banks begins once they are neither reserved nor HELD, and ends 64 cycles later; a ZEROB of
frames ends at a time the spec does not fix, and frees their frames. -/
def execZerobComplete (y : SeqId) (s : State) : Out :=
  let x := seqKey y
  let c := s.cur x
  .next ((s.ctx x c).waits.foldl (fun s w => match w with
    | .zerob true a m _ =>
      let n := m.toNat
      let s := { s with zeroing := s.zeroing.filter (fun r => decide (r ≠ (a.toNat, 4096 * n))) }
      let s := (List.range n).foldl (fun s i => if a.toNat + 4096 * i < hbmBytes then s.setOwner (a.toNat + 4096 * i) 0 else s) s
      s.dropWait x c (fun v => decide (v = w))
    | .zerob false a m none =>
      let t := canalTile a
      if (maskBanks m).any (fun b => ((s.tile t).bank b).held || (s.reservedBy t b s.gclk).isSome) then s
      else
        let s := (maskBanks m).foldl (fun s b => (s.zeroBank t b).modTile t (fun r =>
          r.modBank b (fun k => { k with zeroTo := some (s.gclk + 63) }))) s
        s.modCtx x c (fun k => { k with waits := k.waits.map (fun v => if v = w then .zerob false a m (some (s.gclk + 64)) else v) })
    | .zerob false a m (some e) =>
      if s.gclk < e then s
      else
        let t := canalTile a
        let s := (maskBanks m).foldl (fun s b => (s.wipeBank t b).modTile t (fun r =>
          r.modBank b (fun k => { k with zeroTo := none, alloc := false, sealed := none }))) s
        s.dropWait x c (fun v => decide (v = w))
    | _ => s) s)

/-- ACFREE_ZEROED (R221): released banks whose zeroing has ended are free. -/
def execAcfreeZeroed (y : TileId) (s : State) : Out :=
  .next (s.modTile (tileKey y) (fun t => { t with banks := t.banks.map (fun e =>
    (e.1, if e.2.alloc = false ∧ (match e.2.zeroTo with
        | some z => decide (z < s.gclk)
        | none => false) = true then { e.2 with zeroTo := none } else e.2)) }))

/-! ### REMDATA (R342) -/

/-- REMDATA_READ: the issuer freezes until the value returns, at most 64 cycles. -/
def execRemdataRead (y : SeqId) (s : State) : Out :=
  let x := seqKey y
  let d := s.freeWord.toNat % 64
  let s := s.drawn
  .next { s with tails := s.tails ++ [.wait x (s.cur x) [.remdata (s.seq x).remsel (s.gclk + 1 + d)]] }

/-- REMDATA_RETURN: the selected register's value lands after 2 cycles. -/
def execRemdataReturn (y : SeqId) (s : State) : Out :=
  let x := seqKey y
  let c := s.cur x
  .next ((s.ctx x c).waits.foldl (fun s w => match w with
    | .remdata sel t =>
      if s.gclk < t then s
      else
        let v := s.sysRead (remSeq (dieOf (tileOf x)) sel) 0 (remIndex sel)
        let f : Flight := { id := s.fresh, remaining := 2, slot := .e, issued := (s.seq x).bundles, vals := [⟨v, .clean⟩],
                            keep := none, vecs := [], wreg := none, xb := false, pred := none, vtag := none,
                            flags := Flags.none, ret := false, ready := true, obs := none }
        (s.bump.modCtx x c (fun k => { k with flights := k.flights ++ [f] })).dropWait x c (fun u => decide (u = w))
    | _ => s) s)

/-! ### The start of a sequencer's cycle (R22, R28) -/

/-- A running context can issue in this cycle: its countdown goes on, or a freeze begins. -/
def State.ready (s : State) (x : Nat) : State × Bool :=
  let q := s.seq x
  match q.active with
  | none => (s, false)
  | some c =>
    let k := s.ctx x c
    if k.done || decide (q.halt = .bringup ∨ q.halt = .supfault ∨ (q.halt = .texit ∧ c = 0)) || decide (k.waits ≠ []) then
      (s, false)
    else
      match k.flights.find? (fun f => decide (f.remaining = 1) && !f.ready) with
      | some f => (s.addWait x c (.late f.id), false)
      | none =>
        match k.entry with
        | some (h, need) =>
          if need = 3 then (s.cancel x .segBad h 0 0 false, false) else (s.addWait x c (.resolve h need), false)
        | none =>
          match k.countdown with
          | some 0 =>
            -- the segment may have gone while a delivery was served
            if (q.bundleAt k.pos).isNone || (q.page (pageOf k.pos)).isNone then (s.addWait x c (.fetch (pageOf k.pos) 0), false)
            else (s, true)
          | some (n + 1) => (s.setCtx x c { k with countdown := some n }, false)
          | none =>
            match q.bundleAt k.pos with
            | none => (s.addWait x c (.fetch (pageOf k.pos) 0), false)
            | some (ws, _) =>
              match (decHead (ws.headD 0).toNat).delta with
              | 0 => (s, true)
              | d + 1 => (s.setCtx x c { k with countdown := some d }, false)

/-- The waits of a sequencer's running context are looked at again, each against the state at the end of the cycle before
(R307); the fetch unit and the invalidations take a time the spec does not fix, drawn free (R24, log 4). -/
def State.lookWaits (s : State) (x : Nat) : Out :=
  let y := seqIdOf x
  let go : Out → (State → Out) → Out := fun o f => match o with
    | .next s => f s
    | .fault r => .fault r
    | .refused r => .refused r
  -- the bundle at TVEC issues within 128 cycles of its delivery (R346)
  let coin := !s.freeWord.getLsbD 0 || ((s.seq x).serving && decide (s.cur x = 0) && (s.ctx x 0).entry.isSome)
  let o := go (execWaitConditionMet y (((s.drawn).delayOver x).heldOver x)) (execFenceComplete y)
  let o := go (go o (execRealnEnd y)) (execScWheelSlot y)
  let o := go (go o (execCrossDieDataArrival y)) (execRemdataReturn y)
  let o := go o (fun s =>
    if (s.ctx x (s.cur x)).waits.any (fun w => match w with
      | .zerob true _ _ _ => !coin
      | _ => false) then .next s else execZerobComplete y s)
  if coin then
    let o := go (go o (execTlbinvComplete y)) (execCodeinvComplete y)
    go (go o (execPageResolution y)) (execSegmentFetch y)
  else o

end Sys2Proof.Machine
end

