-- ==== Sys2Proof/Machine/EngineEvents.lean ====
section
/-! DEFINITION. The engines' cycle: nests, known-answer runs and grouped operations advance, land, stop and complete
(R213, R216, R219, R227, R238 to R244). -/

namespace Sys2Proof.Machine

/-! ### Nests (R216, R219) -/

/-- The nest of a sequencer. -/
def State.nest (s : State) (x : Nat) : Option Nest :=
  if x % 2 = 1 then (s.tile (tileOf x)).nestB else (s.tile (tileOf x)).nestA

/-- Replace it. -/
def State.setNest (s : State) (x : Nat) (z : Option Nest) : State :=
  s.modTile (tileOf x) (fun t => if x % 2 = 1 then { t with nestB := z } else { t with nestA := z })

/-- This cycle is an engine cycle of an operation (R149, R213). -/
def State.engineCycle (s : State) (task x issued : Nat) : Bool :=
  decide (issued < s.gclk) && s.runs task && s.ownsCycle task x s.gclk

/-- One engine cycle of a nest passes. -/
def State.nestTick (s : State) (x : Nat) : State :=
  match s.nest x with
  | some z =>
    if s.engineCycle z.task x z.issued then
      (s.setNest x (some { z with n := z.n + 1 })).modTile (tileOf x) (fun t => { t with mxeCycles := t.mxeCycles + 1 })
    else s
  | none => s

/-- NEST_STEP_LANDING (R216): step s lands where n(t) = 8 + (s + 1) × cpk. -/
def execNestStepLanding (y : SeqId) (s : State) : Out :=
  let x := seqKey y
  match s.nest x with
  | some z =>
    if z.landed < z.steps ∧ z.n = 8 + (z.landed + 1) * z.cfg.fmt.cpk then
      let r := s.nestStep z z.landed
      .next (r.1.setNest x (some { z with landed := z.landed + 1, flags := z.flags.or r.2 }))
    else .next s
  | none => .next s

/-- NEST_COMPLETION (R216): the engine is free from the next cycle, and the flags are ORed in. -/
def execNestCompletion (y : SeqId) (s : State) : Out :=
  let x := seqKey y
  match s.nest x with
  | some z =>
    if z.steps ≤ z.landed then
      .next { s.setNest x none with flagsDue := s.flagsDue ++ [(z.seq, z.ctx, z.flags)] }
    else .next s
  | none => .next s

/-- A nest is stopped (R219): a step whose first engine cycle has not come does not take place. A nest that is paused with its suspended
task counts as active, whoever issues the MXSTOP on its sequencer: the model's choice (log 114). -/
def State.stopNest (s : State) (x : Nat) : State :=
  match s.nest x with
  | some z =>
    let k := min z.steps ((z.n + z.cfg.fmt.cpk - 1) / z.cfg.fmt.cpk)
    if k ≤ z.landed then { s.setNest x none with flagsDue := s.flagsDue ++ [(z.seq, z.ctx, z.flags)] }
    else s.setNest x (some { z with steps := k })
  | none => s

/-! ### Known-answer runs (R227) -/

/-- The run of a sequencer. -/
def State.kat (s : State) (x : Nat) : Option Kat :=
  if x % 2 = 1 then (s.tile (tileOf x)).katB else (s.tile (tileOf x)).katA

/-- Replace it. -/
def State.setKat (s : State) (x : Nat) (z : Option Kat) : State :=
  s.modTile (tileOf x) (fun t => if x % 2 = 1 then { t with katB := z } else { t with katA := z })

/-- One engine cycle of a run passes. -/
def State.katTick (s : State) (x : Nat) : State :=
  match s.kat x with
  | some z =>
    if s.engineCycle ((s.ctx x z.ctx).task.getD 0) x z.issued then
      (s.setKat x (some { z with n := z.n + 1 })).modTile (tileOf x) (fun t => { t with mxeCycles := t.mxeCycles + 1 })
    else s
  | none => s

/-- KAT_COMPLETION: the hash register takes the hash. -/
def execKatCompletion (y : SeqId) (s : State) : Out :=
  let x := seqKey y
  match s.kat x with
  | some z =>
    if z.last ≤ z.n then .next ((s.setKat x none).modCtx x z.ctx (fun k => { k with katHash := katHash z.fmt z.seed }))
    else .next s
  | none => .next s

/-! ### Grouped operations (R239 to R244) -/

/-- Replace a tile's grouped operation. -/
def State.setVg (s : State) (t : Nat) (v : Option Vg) : State := s.modTile t (fun r => { r with vg := v })

/-- One engine cycle of a tile's grouped operation passes. -/
def State.vgTick (s : State) (t : Nat) : State :=
  match (s.tile t).vg with
  | some v =>
    if s.runs v.task = false then s
    else if v.issued < s.gclk ∧ v.completed = true then
      -- the span to the last close's write, after completion, in engine cycles (R244, R245)
      if (v.ended.getD 0) + v.span ≤ v.cycle + 1 then s.setVg t none else s.setVg t (some { v with cycle := v.cycle + 1 })
    else if v.issued < s.gclk then
      let r := s.vgNext t v
      (r.1.setVg t (some r.2)).modTile t (fun k => { k with vgCycles := k.vgCycles + 1 })
    else s
  | none => s

/-- VG_FAULT (R241): the churn's fault stops the operation at the end of the engine cycle. -/
def execVgFault (y : TileId) (s : State) : Out :=
  let t := tileKey y
  match (s.tile t).vg with
  | some v => .next (if v.fault.isSome ∧ v.ended = none then s.setVg t (some (vgFaultStop v)) else s)
  | none => .next s

/-- The whole tile becomes +0 tagged VOID, its poison marks cleared (R241). -/
def State.voidTile (s : State) (t slot : Nat) : State :=
  (s.zeroPool t (slot * 0x4000) 0x4000).modTile t (fun r => { r with slotTags := terase r.slotTags slot })

/-- VG_COMPLETION (R240 to R242): the counter gains 1 with its record; a stop or a fault leaves the tile VOID. -/
def execVgCompletion (y : TileId) (s : State) : Out :=
  let t := tileKey y
  match (s.tile t).vg with
  | some v =>
    if v.due then
      let s := if v.fault.isSome || v.stopped then s.voidTile t (v.c / 0x4000) else s
      let w1 := recWord1 (v.fault.map (fun f => f.1)) v.stopped 1 v.flags 0
      let w2 := match v.fault with
        | some f => BitVec.ofNat 64 (f.2.1 * 2 ^ 61 + f.2.2 % 2 ^ 22)
        | none => 0
      let s := s.ctrDone t v.ctr.toNat (w1, w2, 0)
      let s := { s with flagsDue := s.flagsDue ++ [(v.seq, v.ctx, v.flags)] }
      .next (s.setVg t (if v.span = 0 then none else some { v with completed := true, ended := some v.cycle }))
    else .next s
  | none => .next s

/-! ### The engines phase of a cycle -/

/-- The events of one tile's engines in this cycle. -/
def State.engineTile (s : State) (t : Nat) : Out :=
  let go : Out → (State → Out) → Out := fun o f => match o with
    | .next s => f s
    | .fault r => .fault r
    | .refused r => .refused r
  let y := tileIdOf t
  let a := seqIdOf (2 * t)
  let b := seqIdOf (2 * t + 1)
  let s := ((((s.nestTick (2 * t)).nestTick (2 * t + 1)).katTick (2 * t)).katTick (2 * t + 1)).vgTick t
  let o := go (go (execNestStepLanding a s) (execNestStepLanding b)) (execNestCompletion a)
  let o := go (go (go o (execNestCompletion b)) (execKatCompletion a)) (execKatCompletion b)
  go (go o (execVgFault y)) (execVgCompletion y)

end Sys2Proof.Machine
end

