-- ==== Sys2Proof/Machine/CopyRef.lean ====
section
/-! DEFINITION. What a copy chain reads and writes: references, handles, page translation, the bytes of pools, HBM, host and
peers with their marks, and the end of a chain (R275, R278, R283 to R289, R295, R355, R356, R388, R389). -/

namespace Sys2Proof.Machine

/-! ### Sending over the fabric (R388, R389) -/

/-- The port to a package from a die (R389). -/
def portTo (die pkg : Nat) : Nat := 6 * die + pkg % 6

/-- A port. -/
def State.link (s : State) (p : Nat) : Link := tget Link.init s.links p

/-- Change a port. -/
def State.modLink (s : State) (p : Nat) (f : Link → Link) : State := { s with links := tput s.links p (f (s.link p)) }

/-- A flit leaves on a port: it takes the next sequence number and stays in the retry buffer (R390). -/
def State.sendFlit (s : State) (p : Nat) (f : Flit) : State :=
  let k := s.link p
  let f := { f with lseq := k.txSeq, ack := k.rxNext - 1, plane := BitVec.ofNat 5 p }
  let s := s.modLink p (fun k => { k with
    txSeq := k.txSeq + 1, retry := k.retry ++ [f], tries := k.tries ++ [0], sent := k.sent + 1 })
  { s with outbox := s.outbox ++ [f] }

/-- A flit of a kind with nothing in it. -/
def State.flitOf (s : State) (kind : Nat) (vc : BitVec 2) (dst job : BitVec 16) : Flit :=
  { lseq := 0, ack := 0, nak := false, kind := BitVec.ofNat 8 kind, vc := vc, src := s.pkg, dst := dst, job := job,
    inc := s.snap.inc, addr := 0, ctr := 0, add := 0, payload := [], plane := 0, bad := false, dirty := [], atom := none }

/-- A flit of no channel: idle, time, stop/go (R388). -/
def flitApart (f : Flit) : Bool := decide (f.kind = 0 ∨ f.kind = 8 ∨ f.kind = 9)

/-- The flits of a message of some bytes. -/
def flitsFor (bytes : Nat) : Nat := max 1 ((bytes + 215) / 216)

/-- New flits may be sent on a channel of a port: the link is up, the channel is not stopped, and the retry buffer keeps them and one
more of no channel (R390, R391, log 82). -/
def State.canSendN (s : State) (p : Nat) (vc : BitVec 2) (n : Nat) : Bool :=
  let k := s.link p
  k.up && !k.stops.getLsbD vc.toNat && decide (k.retry.length + n < 512)

/-- A new flit may be sent on a channel of a port. -/
def State.canSend (s : State) (p : Nat) (vc : BitVec 2) : Bool := s.canSendN p vc 1

/-- A message of new flits may be sent on a channel on which nothing waits. -/
def State.clear (s : State) (p : Nat) (vc : BitVec 2) (n : Nat) : Bool :=
  s.canSendN p vc n && !((s.link p).queue.any (fun g => !flitApart g && decide (g.vc = vc)))

/-- A flit may leave now: of a channel as its channel lets it, but no job flit between the cut and the markers; of no channel as the
retry buffer lets it (R316, R390, R391). -/
def State.mayLeave (s : State) (p : Nat) (f : Flit) : Bool :=
  if flitApart f then (s.link p).up && decide ((s.link p).retry.length < 512)
  else s.canSend p f.vc && !(decide (s.snap.phase = 2) && s.snapJob f.job)

/-- Two flits go one way: both of no channel, or both of one. -/
def sameWay (f g : Flit) : Bool := if flitApart f then flitApart g else !flitApart g && decide (g.vc = f.vc)

/-- A flit leaves, or waits behind those that go its way and wait (R390, R391). -/
def State.sendOrHold (s : State) (p : Nat) (f : Flit) : State :=
  if s.mayLeave p f && !((s.link p).queue.any (sameWay f)) then s.sendFlit p f
  else s.modLink p (fun k => { k with queue := k.queue ++ [f] })

/-- A message of bytes from an address on, each with its poison mark: flits of up to 216 bytes, the last of kind 2 with what it adds to a
counter there, each through `send`. -/
def State.sendMsg (s : State) (send : State → Nat → Flit → State) (die : Nat) (vc : BitVec 2) (dst job : BitVec 16) (addr : Nat)
    (data : List (Nat × Bool)) (atom : Option AtomF) (sig : Option (BitVec 32 × BitVec 32)) : State :=
  let n := flitsFor data.length
  (List.range n).foldl (fun s i =>
    let part := (data.drop (216 * i)).take 216
    let f := { s.flitOf (if i + 1 = n then 2 else 1) vc dst job with
      addr := BitVec.ofNat 64 (addr + 216 * i), payload := part.map (fun b => BitVec.ofNat 8 b.1), dirty := part.map Prod.snd,
      atom := atom }
    let f := match sig with
      | some r => if i + 1 = n then { f with ctr := r.1, add := r.2 } else f
      | none => f
    send s (portTo die dst.toNat) f) s

/-- The flits that wait on a port leave as far as they may. -/
def State.drain (s : State) (p : Nat) : State :=
  (s.link p).queue.foldl (fun s f => s.sendOrHold p f) (s.modLink p (fun k => { k with queue := [] }))

/-! ### Chains -/

/-- An active chain. -/
def State.chain (s : State) (id : Nat) : Option Chain := s.chains.find? (fun c => decide (c.id = id))

/-- Change a chain. -/
def State.modChain (s : State) (id : Nat) (f : Chain → Chain) : State :=
  { s with chains := s.chains.map (fun c => if c.id = id then f c else c) }

/-- The job of a chain's context. -/
def State.chainJob (s : State) (c : Chain) : BitVec 16 := (s.ctx c.seq c.ctx).jobid

/-- The destination and length of a CDEC in progress. -/
def Chain.cdec (c : Chain) : Option CopyF :=
  match c.st with
  | .move (.cdec _ f) => some f
  | .susp (.cdec _ f) _ _ => some f
  | _ => none

/-- A CDEC or CENC in progress. -/
def Chain.crypt (c : Chain) : Option CopyF :=
  match c.st with
  | .move (.cdec _ f) => some f
  | .susp (.cdec _ f) _ _ => some f
  | .move (.cenc _ f) => some f
  | .susp (.cenc _ f) _ _ => some f
  | _ => none

/-- Σ index × stride over the active levels (R281). -/
def Chain.loopAdd (c : Chain) (f : CLevel → Word) : Word :=
  c.loops.foldl (fun a l => a + BitVec.ofNat 64 l.index * f l) 0

/-- The source and destination fields of a data command at the chain's loop depth. -/
def Chain.srcField (c : Chain) (f : CopyF) : Word := f.src + c.loopAdd (fun l => l.ss)
def Chain.dstField (c : Chain) (f : CopyF) : Word := f.dst + c.loopAdd (fun l => l.ds)

/-- The banks that a range of bytes from a pool offset spans. -/
def spanned (off n : Nat) : List Nat := banksOf off n

/-- The banks that a chain has sealed (R299). -/
def State.sealedBy (s : State) (c : Chain) : List Nat :=
  ((s.tile c.tile).banks.filter (fun e => decide (e.2.sealed = some c.id))).map (fun e => e.1)

/-- The seals of a chain are lifted; where its CDEC has ended without a good tag, every sealed bank is zero whole (R299). -/
def State.unseal (s : State) (c : Chain) (wipe : Bool) : State :=
  (s.sealedBy c).foldl (fun s b =>
    let s := if wipe then s.zeroBank c.tile b else s
    s.modTile c.tile (fun t => t.modBank b (fun k => { k with sealed := none }))) s

/-- The zeroing of a chain's sealed banks waits for a hold on one of them (R320). -/
def State.wipeHeld (s : State) (c : Chain) : Bool := (s.sealedBy c).any (fun b => ((s.tile c.tile).bank b).held)

/-- Every write of the chain has performed: what its links have acknowledged is in its list no longer (R275, R409). -/
def Chain.performedAll (c : Chain) : Bool := decide (c.acks = [])

/-- A flit that the chain waits for was lost as its link went down, or the link is down (R390). -/
def State.linkLost (s : State) (c : Chain) : Bool := c.acks.any (fun a => !(s.link a.1).up)

/-- A chain is gone and its counter gains 1 with the copy status (R275, R302). -/
def State.chainFinish (s : State) (c : Chain) (cause : Option Cause) (v : Word) (stopped : Bool) : State :=
  let w1 := recWord1 cause stopped 0 c.flags c.moved
  let w2 := BitVec.ofNat 64 (min c.poisoned 65535 * 2 ^ 32 + c.pc % 2 ^ 22)
  let s := { s with chains := s.chains.filter (fun d => decide (d.id ≠ c.id)) }
  s.ctrDone c.tile c.ctr.toNat (w1, w2, v)

/-- A chain that is to end may end now: every write of it has performed, but that a stopped chain does not wait for a link that is down,
and the banks it has sealed are not HELD (R275, R320, R390). -/
def State.mayEnd (s : State) (c : Chain) (stopped : Bool) : Bool :=
  (c.performedAll || (stopped && s.linkLost c)) && !s.wipeHeld c

/-- CHAIN_END (R275): at once where the chain may end. A CDEC whose banks are sealed ends under R299; one that has lost its key has moved
nothing (R415). -/
def State.chainEnd (s : State) (id : Nat) (cause : Option Cause) (v : Word) (stopped : Bool) : State :=
  match s.chain id with
  | none => s
  | some c =>
    let sealed := c.cdec.isSome && c.begun
    let dst := match c.cdec with
      | some f => c.dstField f
      | none => v
    let r : Option Cause × Word × Bool :=
      if sealed then
        if c.ueSeen then (some .eccUe, dst, false)
        else if c.badSeen then (some .poisonUse, dst, false)
        else (cause, dst, stopped)
      else if cause.isSome then (cause, v, stopped)
      else (c.err.map Prod.fst, (c.err.map Prod.snd).getD v, stopped)
    let c := if sealed && decide (r.1 = some .keyUnbound) then { c with moved := 0 } else c
    if s.mayEnd c r.2.2 then (s.unseal c true).chainFinish c r.1 r.2.1 r.2.2
    else s.modChain id (fun _ => { c with st := .ending r.1 r.2.1 r.2.2 })

/-! ### Handles (R283 to R285) -/

/-- The descriptor of a slot of a context. -/
def Ctx.desc (k : Ctx) (slot : Nat) : Desc :=
  let w : Nat → Word := fun i => tget 0 k.handles (4 * slot + i)
  ⟨w 0, (w 1).toNat, field (w 2).toNat 23 0, field (w 2).toNat 39 32, field (w 2).toNat 47 40, (w 2).extractLsb' 48 16⟩

/-- The slot a handle names. -/
def handleSlot (h : BitVec 32) : Nat := h.toNat / 2 ^ 24

/-- The checks of a handle at the start of a command (R285). -/
def State.handleBad (s : State) (c : Chain) (h : BitVec 32) (off : Word) (n : Nat) (write : Bool) : Option (Cause × Word) :=
  let d := (s.ctx c.seq c.ctx).desc (handleSlot h)
  let need := match d.loc with
    | 1 => 2
    | 3 => 4
    | _ => 3
  if d.gen ≠ h.toNat % 2 ^ 24 ∨ d.gen = 0 ∨ d.loc = 0 ∨ 4 < d.loc then some (.handleStale, h.setWidth 64)
  else if !d.attr.testBit (if write then 1 else 0) then some (.pfPriv, d.base + off)
  else if n ≠ 0 ∧ d.size < off.toNat + n then some (.spRange, off)
  else if s.scope c.ctx c.task < need then some (.canalScope, off)
  else none

/-- The checks of a pool reference (R278, R299). -/
def State.poolRefBad (s : State) (c : Chain) (a : Word) (n : Nat) : Option (Cause × Word) :=
  match poolAddr c.tile a 0 true with
  | none => some (.spRange, a)
  | some p =>
    if p.canal && !s.canalReach c.seq c.ctx p.tile then some (.canalScope, a)
    else if n = 0 then none
    else if p.off + n ≤ 2 ^ 22 ∧ banksAll p.off n (fun b => s.scratchOk c.seq c.ctx p.tile b) = true then none
    else some (.spRange, a)

/-- The checks of a reference: its field and handle. -/
def State.refBad (s : State) (c : Chain) (a : Word) (h : BitVec 32) (n : Nat) (write : Bool) : Option (Cause × Word) :=
  if h = 0 then s.poolRefBad c a n else s.handleBad c h a n write

/-! ### Places of bytes -/

/-- A run of bytes in one memory. -/
inductive Span where
  | pool (tile off n : Nat)
  | hbm (a n : Nat) (key : Option (BitVec 256))
  | host (a n : Nat)
  | peer (pkg : BitVec 16) (a n : Nat)
  deriving DecidableEq, Repr

/-- Why a chunk is not done now. -/
inductive Stop where
  /-- A page faults: the chain suspends (R287). -/
  | page (c : Cause) (va : Word)
  /-- A write meets a HELD page: it waits for its copy (R322). -/
  | held (va : Word)
  /-- A bank is booked, reserved or HELD, or a channel is stopped: the chunk waits (R256, R391). -/
  | busy
  /-- The chain ends. -/
  | fatal (c : Cause) (v : Word)
  deriving DecidableEq, Repr

/-- A step of a copy command: it changes the state and may stop. -/
abbrev CopyM (α : Type) := ExceptT Stop (StateM State) α

/-- Stop a copy step. -/
def stopWith {α : Type} (e : Stop) : CopyM α := throw e

/-- The pieces of a range that lie in one 4 KiB page each: address and length. -/
def pagePieces (va n : Nat) : List (Nat × Nat) :=
  if n = 0 then []
  else (List.range ((va + n - 1) / 4096 - va / 4096 + 1)).map (fun i =>
    let lo := max va ((va / 4096 + i) * 4096)
    let hi := min (va + n) ((va / 4096 + i + 1) * 4096)
    (lo, hi - lo))

/-- The walker of a chain's buffer at a location. -/
def State.copyWalker (s : State) (c : Chain) (loc : Nat) : Walker :=
  { s.walker c.seq c.ctx with here := decide (loc = 1) }

/-- Translate one piece (R287). -/
def translatePiece (c : Chain) (d : Desc) (write : Bool) (p : Nat × Nat) : CopyM Span := do
  let s ← get
  let w := s.copyWalker c d.loc
  let r := s.translate w (p.1 % 2 ^ 57) (if write then .write else .read)
  set r.2
  match r.1 with
  | .error e => stopWith (.page e (BitVec.ofNat 64 p.1))
  | .ok (a, pte) =>
    if write && decide (d.loc = 1) && decide (pteSN pte = 2) then stopWith (.held (BitVec.ofNat 64 p.1))
    else
      match d.loc with
      | 1 => pure (.hbm a p.2 (s.pageKey w pte))
      | 3 => pure (.host a p.2)
      | _ => pure (.peer d.peer a p.2)

/-- The command in progress is a CATOM. -/
def Chain.atomic (c : Chain) : Bool :=
  match c.st with
  | .move (.catom _ _) => true
  | _ => false

/-- A bank of the issuing task's that the chain may use: a scratch bank it claims, not sealed by another chain (R278, R299). -/
def State.bankMine (s : State) (c : Chain) (t b : Nat) : Bool :=
  s.scratchOk c.seq c.ctx t b || decide (((s.tile t).bank b).sealed = some c.id)

/-- The spans of n bytes at an offset of a command's source or destination, through the descriptor it began with. A pool place is
checked against the bank rule at every chunk, but for CATOM's target (R278, R299). -/
def refSpans (c : Chain) (f : CopyF) (off n : Nat) (write : Bool) : CopyM (List Span) := do
  let s ← get
  let a := if write then c.dstField f else c.srcField f
  let h := if write then f.hdst else f.hsrc
  let d := if write then c.dd else c.ds
  if h = 0 then
    let e := a + BitVec.ofNat 64 off
    match poolAddr c.tile e 0 true with
    | some p =>
      if !(c.atomic && write) && !(decide (p.off + n ≤ 2 ^ 22) && (banksOf p.off n).all (s.bankMine c p.tile)) then
        stopWith (.fatal .spRange e)
      else pure [.pool p.tile p.off n]
    | none => stopWith (.fatal .spRange e)
  else if n ≠ 0 ∧ d.size < a.toNat + off + n then stopWith (.fatal .spRange (a + BitVec.ofNat 64 off))
  else if d.loc = 4 then pure [.peer d.peer (d.base.toNat + a.toNat + off) n]
  else (pagePieces (d.base.toNat + a.toNat + off) n).mapM (translatePiece c d write)

/-- A run lies on another die than a chain's tile (R15, R394). -/
def Span.far (p : Span) (die : Nat) : Bool :=
  match p with
  | .pool t _ _ => decide (dieOf t ≠ die)
  | .hbm a n _ => (granules a n).any (fun g => decide (Config.hbmStack (g / 4096) % 8 / 2 ≠ die))
  | _ => false

/-- A run may be used now (R256, R320, R391); what crosses a die boundary waits for its repair (R394). -/
def State.spanFree (s : State) (c : Chain) (write : Bool) (p : Span) : Bool :=
  if s.crossWait && p.far (dieOf c.tile) then false
  else
    match p with
    | .pool t off n => (banksOf off n).all (fun b => s.bankFree t b && !(write && ((s.tile t).bank b).held))
    | .peer k _ n => !write || s.clear (portTo (dieOf c.tile) k.toNat) 0 (n / 216 + 3)
    | _ => true

/-! ### Reading (R289, R355, R356) -/

/-- What a run reports to the sequencer that started the chain (R356). -/
def State.spanReports (s : State) (p : Span) : List (Cause × Word) :=
  match p with
  | .hbm a n key =>
    (granules a n).filterMap (fun g =>
      if s.zeroes g then none
      else if (s.hgran g).mark = .ue then some (.eccUe, BitVec.ofNat 64 (g + 2 ^ 62))
      else if s.tagBad key (g / 64) then some (.integrityTag, BitVec.ofNat 64 g)
      else none)
  | _ => []

/-- A read of a run leaves a sector with a wrong tag poisoned (R356). -/
def State.spanPoison (s : State) (p : Span) : State :=
  match p with
  | .hbm a n key => s.poisonBad a n key
  | _ => s

/-- The bytes of a run, each with whether it is bad: of a tile under reset zeros, all poisoned (R402). Host and peer memory are outside the
package (log 7). -/
def State.spanBytes (s : State) (p : Span) : List (Nat × Bool) :=
  match p with
  | .pool t off n =>
    if s.underReset t then List.replicate n (0, true)
    else (List.range n).map (fun i => ((tget 0 s.pool (poolKey t (off + i))).toNat, decide ((s.gran t (off + i)).mark ≠ .clean)))
  | .hbm a n key => (List.range n).map (fun i => s.hbmByte (a + i) key)
  | .host a n => (List.range n).map (fun i => ((Config.hostByte s.free (a + i)).toNat, s.freeWord.getLsbD 0))
  | .peer k a n => (List.range n).map (fun i => ((Config.hostByte s.free (k.toNat * 2 ^ 64 + a + i)).toNat,
      s.freeWord.getLsbD 0))

/-- Some granule of a run carries an uncorrectable error. -/
def State.spanUe (s : State) (p : Span) : Bool :=
  match p with
  | .pool t off n => !s.underReset t && (granules off n).any (fun g => decide ((s.gran t g).mark = .ue))
  | .hbm a n _ => (granules a n).any (fun g => decide ((s.hgran g).mark = .ue))
  | _ => false

/-- Some pool granule of a run carries the compressed mark (R295). -/
def State.spanComp (s : State) (p : Span) : Bool :=
  match p with
  | .pool t off n => !s.underReset t && s.poolComp t off n
  | _ => false

/-- A run outside the package. -/
def Span.outside (p : Span) : Bool :=
  match p with
  | .host _ _ => true
  | .peer _ _ _ => true
  | _ => false

/-- The bytes of a run that cross the host port. -/
def Span.hostLen (p : Span) : Nat :=
  match p with
  | .host _ n => n
  | _ => 0

/-- Read n bytes at an offset of a command's source; `marked` says that compressed data is for it (R295). -/
def readSrc (c : Chain) (f : CopyF) (marked : Bool) (off n : Nat) : CopyM (List (Nat × Bool)) := do
  let ps ← refSpans c f off n false
  let s ← get
  if ps.any s.spanComp && !marked then stopWith (.fatal .compressedLoad (c.srcField f + BitVec.ofNat 64 off))
  else if ps.any (fun p => !s.spanFree c false p) then stopWith .busy
  else
    let out := ps.flatMap s.spanBytes
    let rep := ps.flatMap s.spanReports
    let s := rep.foldl (fun s r => (s.postA c.seq r.1 r.2).modChain c.id (fun d =>
      if d.err.isSome then d else { d with err := some r })) s
    let s := s.modChain c.id (fun d => { d with
      ueSeen := d.ueSeen || ps.any s.spanUe, badSeen := d.badSeen || out.any Prod.snd })
    let s := ps.foldl State.spanPoison s
    set (if ps.any Span.outside then { s with pcieIn := s.pcieIn + (ps.map Span.hostLen).sum, free := s.free + 1 } else s)
    pure out

/-! ### Writing (R289, R295) -/

/-- Write bytes of a run into a memory from an address upwards; none leaves a byte as it is. -/
def putBytes (m : Table Byte) (base : Nat) (bs : List (Option Nat × Bool)) : Table Byte :=
  (bs.zipIdx).foldl (fun m b => match b.1.1 with
    | some v => tset 0 m (base + b.2) (BitVec.ofNat 8 v)
    | none => m) m

/-- What a write of bytes from an offset does to the mark of the granule at g, which it does not touch where it writes none of
its bytes: poison where a bad byte is derived into it, clean where it is written whole (R289, R348). -/
def granMark (off g : Nat) (bs : List (Option Nat × Bool)) (old : Mark) : Option Mark :=
  let own := (bs.zipIdx).filter (fun b => b.1.1.isSome && decide ((off + b.2) / 64 = g / 64))
  if own = [] then none
  else if own.any (fun b => b.1.2) then some .poison
  else some (if own.length = 64 then .clean else old)

/-- The byte that a write from an offset brings for an address. -/
def byteFor (off : Nat) (bs : List (Option Nat × Bool)) (a : Nat) : Option Nat :=
  if off ≤ a then (bs.getD (a - off) (none, false)).1 else none

/-- The granules of a write into which a bad byte is derived (R275, R289). -/
def badGrans (off : Nat) (bs : List (Option Nat × Bool)) : List Nat :=
  (granules off bs.length).filter (fun g => decide (granMark off g bs .clean = some .poison))

/-- Bytes into a pool, with the compressed mark `comp` on what they write (R295). Banks that are being zeroed take none (R358). -/
def State.poolPut (s : State) (t off : Nat) (bs : List (Option Nat × Bool)) (comp : Bool) : State :=
  let bs := bs.zipIdx.map (fun b => if s.zeroingBank t (bankOf (off + b.2)) then (none, false) else b.1)
  let s := { s with pool := putBytes s.pool (poolKey t off) bs }
  (granules off bs.length).foldl (fun s g =>
    match granMark off g bs (s.gran t g).mark with
    | some m => s.setGran t g ⟨m, comp⟩
    | none => s) s

/-- What a write under a key finds of a sector: one whose tag is wrong is poison where it stays (R356). -/
def State.markUnder (s : State) (key : Option (BitVec 256)) (g : Nat) : Mark :=
  if (s.hgran g).mark = .clean ∧ s.tagBad key (g / 64) = true then .poison else (s.hgran g).mark

/-- Bytes into HBM, stored under a key or as they are; what lies beyond 384 GB or is being zeroed is discarded (R355, R358, R384). -/
def State.hbmPut (s : State) (a : Nat) (bs : List (Option Nat × Bool)) (key : Option (BitVec 256)) : State :=
  let bs := bs.take (hbmBytes - a)
  let marks := (granules a bs.length).filterMap (fun g => (granMark a g bs (s.markUnder key g)).map (fun m => (g, m)))
  let u := match key with
    | none => { s with hbm := putBytes s.hbm a bs }
    | some k => marks.foldl (fun s e => s.putSector k (e.1 / 64) (fun i => byteFor a bs (e.1 + i))) s
  (marks.foldl (fun (s : State) e => { s with
    hbmGran := tset Gran.clean s.hbmGran (e.1 / 64) ⟨e.2, false⟩,
    hbmTag := if key = none then tset 0 s.hbmTag (e.1 / 64) 0 else s.hbmTag }) u).keepZero

/-- A write to the host as TLPs, one for each granule; a poisoned granule's is poisoned (R289). -/
def hostTlps (a : Nat) (bs : List (Option Nat × Bool)) : List Tlp :=
  (granules a bs.length).filterMap (fun g =>
    let l := (bs.zipIdx).filterMap (fun b => if (a + b.2) / 64 = g / 64 then b.1.1.map (fun v => (a + b.2, BitVec.ofNat 8 v)) else none)
    if l = [] then none else some ⟨l, decide (g ∈ badGrans a bs)⟩)

/-- The runs of neighbouring bytes that a write brings: first place and bytes. -/
def byteRuns : Nat → List (Option Nat × Bool) → List (Nat × List (Nat × Bool))
  | _, [] => []
  | a, b :: l =>
    match b.1, byteRuns (a + 1) l with
    | none, r => r
    | some v, (x, d) :: r => if x = a + 1 then (a, (v, b.2) :: d) :: r else (a, [(v, b.2)]) :: (x, d) :: r
    | some v, [] => [(a, [(v, b.2)])]

/-- Write bytes into a run, with the compressed mark `comp` on what it writes in a pool (R295) and, to a peer, what the message adds to a
counter there (R409). A tile under reset takes none (R402). Answers the poisoned granules. -/
def State.spanWrite (s : State) (c : Chain) (p : Span) (bs : List (Option Nat × Bool)) (comp : Bool)
    (sig : Option (BitVec 32 × BitVec 32)) : State × Nat :=
  match p with
  | .pool t off _ => if s.underReset t then (s, 0) else (s.poolPut t off bs comp, (badGrans off bs).length)
  | .hbm a n key => if hbmBytes < a + n then (s, 0) else (s.hbmPut a bs key, (badGrans a bs).length)
  | .host a _ =>
    ({ s with pcieOut := s.pcieOut + (bs.filter (fun b => b.1.isSome)).length, tlps := s.tlps ++ hostTlps a bs },
      (badGrans a bs).length)
  | .peer k a _ =>
    let port := portTo (dieOf c.tile) k.toNat
    ((byteRuns a bs).foldl (fun (s : State) r =>
        let s := s.sendMsg State.sendFlit (dieOf c.tile) 0 k (s.chainJob c) r.1 r.2 none sig
        s.modChain c.id (fun d => { d with acks := d.acks ++ [(port, (s.link port).txSeq - 1)] })) s,
      (badGrans a bs).length)

/-- The length of a run. -/
def Span.len : Span → Nat
  | .pool _ _ n => n
  | .hbm _ n _ => n
  | .host _ n => n
  | .peer _ _ n => n

/-- Write bytes over the runs of a destination, in order. -/
def State.spansWrite (s : State) (c : Chain) (comp : Bool) (sig : Option (BitVec 32 × BitVec 32)) :
    List Span → List (Option Nat × Bool) → State × Nat
  | [], _ => (s, 0)
  | p :: l, bs =>
    let r := s.spanWrite c p (bs.take p.len) comp sig
    let q := r.1.spansWrite c comp sig l (bs.drop p.len)
    (q.1, r.2 + q.2)

/-- Write bytes over the runs of a destination: a chunk's write, with its poisoned granules counted (R276, R289). -/
def writeSpans (c : Chain) (ps : List Span) (bs : List (Option Nat × Bool)) (comp : Bool)
    (sig : Option (BitVec 32 × BitVec 32) := none) : CopyM Unit := do
  let s ← get
  if ps.any (fun p => !s.spanFree c true p) then stopWith .busy
  else
    let r := s.spansWrite c comp sig ps bs
    let n := (bs.filter (fun b => b.1.isSome)).length
    let s := r.1.modChain c.id (fun d => { d with poisoned := d.poisoned + r.2, moved := d.moved + n })
    set (s.modTile c.tile (fun t => { t with cpeBytes := t.cpeBytes + n }))

/-- Write bytes at an offset of a command's destination. -/
def writeDst (c : Chain) (f : CopyF) (off : Nat) (bs : List (Option Nat × Bool)) (comp : Bool)
    (sig : Option (BitVec 32 × BitVec 32) := none) : CopyM Unit := do
  let ps ← refSpans c f off bs.length true
  writeSpans c ps bs comp sig

end Sys2Proof.Machine
end

