-- ==== Sys2Proof/Machine/Vector.lean ====
section
/-! DEFINITION. The V slot: the vector cascade, one unit operation at a time (R155 to R175, R200, R201). The three units of
a slot run in the order A, B, C; unit A starts the pipe of the bundle and unit C lands its result. -/

namespace Sys2Proof.Machine

/-! ### Lanes and flags (R159) -/

/-- The number of a unit (R158). -/
def unitNo : CUnit → Nat
  | .a => 0
  | .b => 1
  | .c => 2

/-- The lanes the slot's output takes from unit C: all of them without a predicate field, and in a slot that holds VSEL
(R159, R165). In such a slot every lane of the units' results counts for flags, of results that VSEL discards too: the model's choice
(log 111). -/
def State.activeLanes (s : State) (u : VPos) : BitVec 128 :=
  if u.pred = 0 ∨ s.bundle.todo.any (fun p => decide (p.1 = .v) && p.2.unitSel) = true ∨ s.bundle.vpipe.mask = true then
    BitVec.allOnes 128
  else tget 0 s.icx.preds (u.pred.toNat - 1)

/-- An active lane holds bits of element i. -/
def elemActive (m : BitVec 128) (w i : Nat) : Bool :=
  if w = 64 then m.getLsbD (2 * i) || m.getLsbD (2 * i + 1) else m.getLsbD (i * w / 32)

/-- Lanes of one vector where a mask is 1, of another where it is 0 (R159, R165). -/
def laneSelect (m : BitVec 128) (x y : VBits) : VBits :=
  vecOf 32 ((List.range 128).map (fun i => if m.getLsbD i then elemAt 32 x i else elemAt 32 y i))

/-- Flags of elements whose lanes are active. -/
def activeFlags (m : BitVec 128) (w : Nat) (l : List (Nat × Flags)) : Flags :=
  (l.zipIdx).foldl (fun f p => if elemActive m w p.2 then f.or p.1.2 else f) Flags.none

/-! ### The pipe (R157, R38) -/

/-- The unit's own predicate of tags failed: the cause with its TVAL. -/
abbrev UnitRes := Except (Cause × Word) (List Vec × Flags)

/-- The other operand y of a unit whose first input is x (R38): an adopting port takes x's tag. -/
def State.secondV (s : State) (unit : Nat) (x : Vec) (y : VSrc) : Except (Cause × Word) Vec :=
  if y.adopting then
    if x.tag = tVOID then .error (.fmtVoid, fmtTval unit 0 0)
    else
      match adoptCode y x.tag with
      | some c => .ok ⟨x.tag, splat x.tag c, .clean⟩
      | none => .error (.fmtMismatch, fmtTval unit x.tag x.tag)
  else .ok (s.rdV y)

/-- The first input of unit A where a1 is an adopting port: it takes the tag of a2 (R38). -/
def State.firstV (s : State) (a1 : VSrc) (y : Option VSrc) : Except (Cause × Word) Vec :=
  if a1.adopting then
    match y with
    | some v =>
      if v.adopting then .error (.fmtVoid, fmtTval 0 0 0)
      else
        let t := (s.rdV v).tag
        if t = tVOID then .error (.fmtVoid, fmtTval 0 0 0)
        else
          match adoptCode a1 t with
          | some c => .ok ⟨t, splat t c, .clean⟩
          | none => .error (.fmtMismatch, fmtTval 0 t t)
    | none => .error (.fmtVoid, fmtTval 0 0 0)
  else .ok (s.rdV a1)

/-- Unit C has formed the slot's output: predicate, then landing (R159, R160, R164, R171). A lane that is not active takes the first
operand's bytes (R159), also where the destination is a predicate: its bit is then 1 where those bytes are all ones (log 18). A widened
slot that ends in a compare has several parts, and the spec does not say which gives a predicate its bits: the first part does, the
model's choice (log 87). -/
def State.landSlot (s : State) (u : VPos) (lat : Nat) : State :=
  let p := s.bundle.vpipe
  let m := s.activeLanes u
  let parts := p.parts.map (fun v => { v with bits := if m = BitVec.allOnes 128 then v.bits else laneSelect m v.bits p.a1.bits })
  match u.dest with
  | .pred n =>
    let v := parts.headD Vec.void
    let bits := (List.range 128).map (fun i => decide (elemAt 32 v.bits i = 0xFFFFFFFF))
    let w : BitVec 128 := BitVec.ofNat 128 (packElems 1 (bits.map Bool.toNat))
    s.fly { s.flight lat with pred := some (n, w), flags := p.flags }
  | d =>
    let s := s.landV d parts lat p.flags false
    match d with
    | .w n => if (s.regCount s.ix s.ic) < n.toNat + parts.length then
        (if n.toNat < s.regCount s.ix s.ic then s.find 0 .spRange (BitVec.ofNat 64 (2 ^ 3)) else s) else s
    | _ => s

/-- Cross-lane work in the slot (R160). -/
def VPipe.extra (p : VPipe) : Nat := if p.lanes then 2 else 0

/-- The parts that enter a unit (R157): unit A's is the slot's first operand, another's are what the unit before put out. -/
def State.unitIn (s : State) (u : VPos) (y : Option VSrc) : Except (Cause × Word) (List Vec) :=
  if u.unit = .a then (s.firstV u.a1 y).map (fun v => [v]) else .ok s.bundle.vpipe.parts

/-- The second input of a unit whose first is x. -/
def State.unitSecondIn (s : State) (u : VPos) (x : Vec) (y : Option VSrc) : Except (Cause × Word) Vec :=
  match y with
  | some v => s.secondV (unitNo u.unit) x v
  | none => .ok Vec.void

/-- The bundle reads the sources of a unit. -/
def State.unitRead (s : State) (u : VPos) (y : Option VSrc) : State :=
  let t := match y with
    | some v => s.useV v
    | none => s
  if u.unit = .a then t.useV u.a1 else t

/-- The unit's sources are read, and unit A opens the pipe. -/
def State.unitOpen (s : State) (u : VPos) (y : Option VSrc) (lanes sel : Bool) : State :=
  let t := s.unitRead u y
  { t with bundle := { t.bundle with vpipe :=
      if u.unit = .a then ⟨Vec.void, [], Flags.none, lanes, sel⟩
      else { t.bundle.vpipe with mask := t.bundle.vpipe.mask || sel } } }

/-- What a unit puts into the pipe. -/
def State.unitPut (s : State) (u : VPos) (xs out : List Vec) (fl : Flags) : State :=
  { s with bundle := { s.bundle with vpipe := { s.bundle.vpipe with
      parts := out, flags := fl, a1 := if u.unit = .a then xs.headD Vec.void else s.bundle.vpipe.a1 } } }

/-- The first cause among the results of a unit's parts. -/
def unitFail (rs : List UnitRes) : Option (Cause × Word) :=
  rs.findSome? (fun r => match r with
    | .error e => some e
    | .ok _ => none)

/-- The parts a unit puts out. -/
def unitOut (rs : List UnitRes) : List Vec :=
  rs.flatMap (fun r => match r with
    | .ok p => p.1
    | .error _ => [])

/-- The flags of the pipe after a unit. -/
def unitFlagsOut (fl : Flags) (rs : List UnitRes) : Flags :=
  rs.foldl (fun a r => match r with
    | .ok p => a.or p.2
    | .error _ => a) fl

/-- Run one unit operation on every part of its input and pass the output on; unit C lands the slot. `y` is the second
source, `f` works on one part, `lanes` says cross-lane and `trans` transcendental. -/
def unitStep (s : State) (u : VPos) (y : Option VSrc) (lanes trans sel : Bool)
    (f : Nat → BitVec 128 → Vec → Except (Cause × Word) Vec → UnitRes) : Out :=
  let t := s.unitOpen u y lanes sel
  match s.unitIn u y with
  | .error e => .next (t.find 3 e.1 e.2)
  | .ok xs =>
    let rs := xs.map (fun x => f (unitNo u.unit) (t.activeLanes u) x (s.unitSecondIn u x y))
    match unitFail rs with
    | some e => .next ((t.unitPut u xs xs t.bundle.vpipe.flags).find 3 e.1 e.2)
    | none =>
      let r := t.unitPut u xs (unitOut rs) (unitFlagsOut t.bundle.vpipe.flags rs)
      if u.unit = .c then .next (r.landSlot u ((if trans then 10 else 6) + r.bundle.vpipe.extra)) else .next r

/-! ### Checks of tags (R158) -/

/-- check_tags(x, y) of R8 with the class the operation accepts. -/
def tags2 (n : Nat) (x y : Vec) (accept : Tag → Bool) : Option (Cause × Word) :=
  if x.tag = tVOID ∨ y.tag = tVOID then some (.fmtVoid, fmtTval n x.tag y.tag)
  else if x.tag ≠ y.tag ∨ accept x.tag = false then some (.fmtMismatch, fmtTval n x.tag y.tag)
  else none

/-- The tag check of a unary operation. -/
def tags1 (n : Nat) (x : Vec) (accept : Tag → Bool) : Option (Cause × Word) :=
  if x.tag = tVOID then some (.fmtVoid, fmtTval n x.tag 0)
  else if accept x.tag then none
  else some (.fmtMismatch, fmtTval n x.tag 0)

/-- Class F or I (R156, R161). -/
def accFI (t : Tag) : Bool := decide (tagClass t = .float ∨ tagClass t = .int)
/-- Class I. -/
def accI (t : Tag) : Bool := decide (tagClass t = .int)
/-- An S tag of class I. -/
def accIS (t : Tag) : Bool := decide (tagClass t = .int) && tagSigned t
/-- An N tag of class I. -/
def accIN (t : Tag) : Bool := decide (tagClass t = .int) && !tagSigned t
/-- Any tag but VOID. -/
def accAny (t : Tag) : Bool := decide (tagClass t ≠ .void)
/-- The tags of the transcendentals, VSCALE and VSCIDX (R173, R200, R201). -/
def accT (t : Tag) : Bool := decide (t = tF32 ∨ t = tBF16 ∨ t = tF16)

/-- An element-wise operation of two inputs: its value and flags by tag. -/
def elem2 (accept : Tag → Bool) (out : Tag → Tag) (f : Tag → Nat → Nat → Nat → Nat × Flags)
    (n : Nat) (m : BitVec 128) (x : Vec) (y : Except (Cause × Word) Vec) : UnitRes :=
  match y with
  | .error e => .error e
  | .ok y =>
    match tags2 n x y accept with
    | some e => .error e
    | none =>
      let w := esz x.tag
      let r := (List.range (elems x.tag)).map (fun i => f x.tag i (elemAt w x.bits i) (elemAt w y.bits i))
      .ok ([⟨out x.tag, vecOf w (r.map Prod.fst), .clean⟩], activeFlags m w r)

/-- An element-wise unary operation. -/
def elem1 (accept : Tag → Bool) (f : Tag → Nat → Nat × Flags) (n : Nat) (m : BitVec 128) (x : Vec)
    (_y : Except (Cause × Word) Vec) : UnitRes :=
  match tags1 n x accept with
  | some e => .error e
  | none =>
    let w := esz x.tag
    let r := (List.range (elems x.tag)).map (fun i => f x.tag (elemAt w x.bits i))
    .ok ([⟨x.tag, vecOf w (r.map Prod.fst), .clean⟩], activeFlags m w r)

/-- A float operation where the tag is floating, an integer one otherwise. -/
def byClass (ff : Fmt → Nat → Nat → Nat × Flags) (fi : Bool → Nat → Int → Int → Int) (t : Tag) (_i a b : Nat) :
    Nat × Flags :=
  match fmtOf t with
  | some f => ff f a b
  | none => (intCode (esz t) (fi (tagSigned t) (esz t) (intVal (tagSigned t) (esz t) a) (intVal (tagSigned t) (esz t) b)),
      Flags.none)

/-- An integer operation on the codes. -/
def intOnly (f : Bool → Nat → Nat → Nat → Nat) (t : Tag) (_i a b : Nat) : Nat × Flags :=
  (f (tagSigned t) (esz t) a b % 2 ^ esz t, Flags.none)

/-! ### Element-wise operations (R161 to R163) -/

/-- The sum of two elements (R162, R163, R168). -/
def addElem (t : Tag) (a b : Nat) : Nat × Flags := byClass Fmt.add (fun _ _ x y => x + y) t 0 a b

/-- The lesser or greater of two elements. -/
def minmaxElem (max : Bool) (t : Tag) (a b : Nat) : Nat × Flags :=
  byClass (fun f => f.minmax max) (fun _ _ x y => if decide (x < y) != max then x else y) t 0 a b

/-- The unit PASS (R33, R157). -/
def execPass (u : VPos) (s : State) : Out :=
  unitStep s u none false false false (fun _ _ x _ => .ok ([x], Flags.none))

def execVadd (u : VPos) (y : VSrc) (s : State) : Out :=
  unitStep s u (some y) false false false (elem2 accFI id (fun t _ a b => addElem t a b))

def execVsub (u : VPos) (y : VSrc) (s : State) : Out :=
  unitStep s u (some y) false false false (elem2 accFI id (byClass Fmt.sub (fun _ _ x z => x - z)))

def execVrsub (u : VPos) (y : VSrc) (s : State) : Out :=
  unitStep s u (some y) false false false
    (elem2 accFI id (byClass (fun f a b => f.sub b a) (fun _ _ x z => z - x)))

def execVmul (u : VPos) (y : VSrc) (s : State) : Out :=
  unitStep s u (some y) false false false (elem2 accFI id (byClass Fmt.mul (fun _ _ x z => x * z)))

def execVmin (u : VPos) (y : VSrc) (s : State) : Out :=
  unitStep s u (some y) false false false (elem2 accFI id (fun t _ a b => minmaxElem false t a b))

def execVmax (u : VPos) (y : VSrc) (s : State) : Out :=
  unitStep s u (some y) false false false (elem2 accFI id (fun t _ a b => minmaxElem true t a b))

/-- VABS clears the sign bit of a float; of an S value it is the magnitude, wrapping (R162, R163). -/
def execVabs (u : VPos) (s : State) : Out :=
  unitStep s u none false false false (elem1 accFI (fun t a =>
    match fmtOf t with
    | some f => (a % f.sign, Flags.none)
    | none =>
      let i := intVal (tagSigned t) (esz t) a
      (intCode (esz t) (if i < 0 then -i else i), Flags.none)))

/-- VNEG inverts the sign bit of a float; an integer wraps (R162, R163). -/
def execVneg (u : VPos) (s : State) : Out :=
  unitStep s u none false false false (elem1 accFI (fun t a =>
    match fmtOf t with
    | some f => ((a + f.sign) % (2 * f.sign), Flags.none)
    | none => (intCode (esz t) (-(intVal (tagSigned t) (esz t) a)), Flags.none)))

/-- VAND, VOR, VXOR: either input may be MASK, and the output takes the other's tag (R158). -/
def logic (f : VBits → VBits → VBits) (n : Nat) (_m : BitVec 128) (x : Vec) (y : Except (Cause × Word) Vec) : UnitRes :=
  match y with
  | .error e => .error e
  | .ok y =>
    if x.tag = tVOID ∨ y.tag = tVOID then .error (.fmtVoid, fmtTval n x.tag y.tag)
    else if x.tag ≠ y.tag ∧ x.tag ≠ tMASK ∧ y.tag ≠ tMASK then .error (.fmtMismatch, fmtTval n x.tag y.tag)
    else .ok ([⟨if x.tag = tMASK then y.tag else x.tag, f x.bits y.bits, .clean⟩], Flags.none)

def execVand (u : VPos) (y : VSrc) (s : State) : Out := unitStep s u (some y) false false false (logic (· &&& ·))

def execVor (u : VPos) (y : VSrc) (s : State) : Out := unitStep s u (some y) false false false (logic (· ||| ·))

def execVxor (u : VPos) (y : VSrc) (s : State) : Out := unitStep s u (some y) false false false (logic (· ^^^ ·))

def execVshl (u : VPos) (y : VSrc) (s : State) : Out :=
  unitStep s u (some y) false false false (elem2 accI id (intOnly (fun _ w a b => a <<< (b % w))))

def execVshr (u : VPos) (y : VSrc) (s : State) : Out :=
  unitStep s u (some y) false false false (elem2 accI id (intOnly (fun _ w a b => a >>> (b % w))))

def execVsar (u : VPos) (y : VSrc) (s : State) : Out :=
  unitStep s u (some y) false false false (elem2 accI id (intOnly (fun sg w a b =>
    intCode w (intVal sg w a / 2 ^ (b % w)))))

def execVadds (u : VPos) (y : VSrc) (s : State) : Out :=
  unitStep s u (some y) false false false
    (elem2 accI id (byClass Fmt.add (fun sg w x z => clampInt sg w (x + z))))

def execVsubs (u : VPos) (y : VSrc) (s : State) : Out :=
  unitStep s u (some y) false false false
    (elem2 accI id (byClass Fmt.sub (fun sg w x z => clampInt sg w (x - z))))

def execVmulh (u : VPos) (y : VSrc) (s : State) : Out :=
  unitStep s u (some y) false false false
    (elem2 accIS id (byClass Fmt.mul (fun _ w x z => x * z / 2 ^ w)))

def execVmulhn (u : VPos) (y : VSrc) (s : State) : Out :=
  unitStep s u (some y) false false false
    (elem2 accIN id (byClass Fmt.mul (fun _ w x z => x * z / 2 ^ w)))

/-! ### Compares and selection (R164, R165) -/

/-- A compare: every bit of a true element is 1. -/
def compareV (c : FCond) (f : Int → Int → Bool) : Nat → BitVec 128 → Vec → Except (Cause × Word) Vec → UnitRes :=
  elem2 accFI (fun _ => tMASK) (fun t _ a b =>
    match fmtOf t with
    | some g =>
      let r := g.cmp c a b
      (if r.1 then 2 ^ esz t - 1 else 0, r.2)
    | none => (if f (intVal (tagSigned t) (esz t) a) (intVal (tagSigned t) (esz t) b) then 2 ^ esz t - 1 else 0, Flags.none))

def execVceq (u : VPos) (y : VSrc) (s : State) : Out :=
  unitStep s u (some y) false false false (compareV .eq (fun a b => decide (a = b)))

def execVclt (u : VPos) (y : VSrc) (s : State) : Out :=
  unitStep s u (some y) false false false (compareV .lt (fun a b => decide (a < b)))

def execVcle (u : VPos) (y : VSrc) (s : State) : Out :=
  unitStep s u (some y) false false false (compareV .le (fun a b => decide (a ≤ b)))

/-- VSEL (R165): the predicate field is its selector. -/
def execVsel (u : VPos) (y : VSrc) (s : State) : Out :=
  let p := tget 0 s.icx.preds (u.pred.toNat - 1)
  unitStep s u (some y) false false true (fun n _ x y =>
    match y with
    | .error e => .error e
    | .ok y =>
      match tags2 n x y accAny with
      | some e => .error e
      | none => .ok ([⟨x.tag, laneSelect p x.bits y.bits, .clean⟩], Flags.none))

/-! ### Conversions (R170 to R172) -/

/-- Convert every element of a vector. -/
def convAll (x : Vec) (t : Tag) : List (Nat × Flags) :=
  (List.range (elems x.tag)).map (fun i => convElem x.tag t (elemAt (esz x.tag) x.bits i))

def execVcvt (u : VPos) (t : Tag) (s : State) : Out :=
  unitStep s u none false false false (fun n m x _ =>
    if x.tag = tVOID then .error (.fmtVoid, fmtTval n x.tag 0)
    else if accNum x.tag && accNum t && decide (elems x.tag = elems t) then
      let r := convAll x t
      .ok ([⟨t, vecOf (esz t) (r.map Prod.fst), .clean⟩], activeFlags m (esz t) r)
    else .error (.fmtMismatch, fmtTval n x.tag 0))

/-- VWID (R171): f parts of the target tag. -/
def execVwid (u : VPos) (t : Tag) (s : State) : Out :=
  unitStep s u none false false false (fun n _ x _ =>
    if x.tag = tVOID then .error (.fmtVoid, fmtTval n x.tag 0)
    else
      let f := elems x.tag / elems t
      if accNum x.tag && accNum t && decide (elems x.tag = f * elems t) && decide (f = 2 ∨ f = 4) then
        let r := convAll x t
        let codes := r.map Prod.fst
        .ok ((List.range f).map (fun j =>
            ⟨t, vecOf (esz t) ((List.range (elems t)).map (fun k => codes.getD (k * f + j) 0)), .clean⟩),
          r.foldl (fun a p => a.or p.2) Flags.none)
      else .error (.fmtMismatch, fmtTval n x.tag 0))

/-- VNAR (R172): the elements stand at places p, p + f, … of the output. -/
def execVnar (u : VPos) (t : Tag) (p : BitVec 2) (s : State) : Out :=
  unitStep s u none false false false (fun n _ x _ =>
    if x.tag = tVOID then .error (.fmtVoid, fmtTval n x.tag 0)
    else
      let f := elems t / elems x.tag
      if accNum x.tag && accNum t && decide (elems t = f * elems x.tag) && decide (f = 2 ∨ f = 4) && decide (p.toNat < f) then
        let r := convAll x t
        let codes := r.map Prod.fst
        .ok ([⟨t, vecOf (esz t) ((List.range (elems t)).map (fun i =>
            if i % f = p.toNat then codes.getD (i / f) 0 else 0)), .clean⟩],
          r.foldl (fun a q => a.or q.2) Flags.none)
      else .error (.fmtMismatch, fmtTval n x.tag 0))

/-! ### Cross-lane operations (R167, R168) -/

/-- The tags x of a move may carry: any but VOID and MASK (R167). -/
def accMove (t : Tag) : Bool := decide (tagClass t ≠ .void ∧ tagClass t ≠ .mask)

/-- A move of elements, y checked by a rule of its own (R158, R167). -/
def moveV (yOk : Vec → Vec → Bool) (pick : Vec → Nat → Nat → Nat) (n : Nat) (_m : BitVec 128) (x : Vec)
    (y : Except (Cause × Word) Vec) : UnitRes :=
  match y with
  | .error e => .error e
  | .ok y =>
    if x.tag = tVOID ∨ y.tag = tVOID then .error (.fmtVoid, fmtTval n x.tag y.tag)
    else if accMove x.tag && yOk x y then
      let w := esz x.tag
      let k := elems x.tag
      .ok ([⟨x.tag, vecOf w ((List.range k).map (fun i => elemAt w x.bits (pick y i k % k))), .clean⟩], Flags.none)
    else .error (.fmtMismatch, fmtTval n x.tag y.tag)

def execVperm (u : VPos) (y : VSrc) (s : State) : Out :=
  unitStep s u (some y) true false false
    (moveV (fun x y => decide (elems y.tag = elems x.tag) && (accI y.tag || decide (y.tag = tS4 ∨ y.tag = tN4)))
      (fun y i _ => elemAt (esz y.tag) y.bits i))

def execVrot (u : VPos) (y : VSrc) (s : State) : Out :=
  unitStep s u (some y) true false false
    (moveV (fun _ y => accI y.tag) (fun y i _ => i + elemAt (esz y.tag) y.bits 0))

def execVbcast (u : VPos) (y : VSrc) (s : State) : Out :=
  unitStep s u (some y) true false false
    (moveV (fun _ y => accI y.tag) (fun y _ _ => elemAt (esz y.tag) y.bits 0))

/-- The tree of R168: halves are combined until one element is left. `fuel` bounds the halvings. -/
def treeFold (f : Nat → Nat → Nat × Flags) : Nat → List Nat → Flags → Nat × Flags
  | 0, l, fl => (l.headD 0, fl)
  | fuel + 1, l, fl =>
    let h := l.length / 2
    if h = 0 then (l.headD 0, fl)
    else
      let r := ((l.take h).zip (l.drop h)).map (fun p => f p.1 p.2)
      treeFold f fuel (r.map Prod.fst) (r.foldl (fun a p => a.or p.2) fl)

/-- The tree over a vector's elements (R168). -/
def tree (f : Tag → Nat → Nat → Nat × Flags) (x : Vec) : Nat × Flags :=
  treeFold (f x.tag) 11 (unpack (esz x.tag) x.bits (elems x.tag)) Flags.none

/-- A reduction, broadcast to every element; its flags count when a lane is active (R159, R168). -/
def reduceV (f : Tag → Nat → Nat → Nat × Flags) (n : Nat) (m : BitVec 128) (x : Vec) (_y : Except (Cause × Word) Vec) :
    UnitRes :=
  match tags1 n x accFI with
  | some e => .error e
  | none =>
    let r := tree f x
    .ok ([⟨x.tag, splat x.tag r.1, .clean⟩], if m = 0 then Flags.none else r.2)

def execVradd (u : VPos) (s : State) : Out := unitStep s u none true false false (reduceV addElem)

def execVrmax (u : VPos) (s : State) : Out := unitStep s u none true false false (reduceV (minmaxElem true))

def execVrmin (u : VPos) (s : State) : Out := unitStep s u none true false false (reduceV (minmaxElem false))

/-- The inclusive prefix of a list, with the flags of each addition. -/
def scanList (f : Nat → Nat → Nat × Flags) : Nat → List Nat → List (Nat × Flags)
  | _, [] => []
  | acc, b :: l =>
    let r := f acc b
    r :: scanList f r.1 l

/-- VSCAN (R168): the addition that forms element i counts when an active lane holds an element at or after it (R159). -/
def execVscan (u : VPos) (s : State) : Out :=
  unitStep s u none true false false (fun n m x _ =>
    match tags1 n x accFI with
    | some e => .error e
    | none =>
      let w := esz x.tag
      let k := elems x.tag
      match unpack w x.bits k with
      | [] => .ok ([x], Flags.none)
      | c :: l =>
        let r := (c, Flags.none) :: scanList (addElem x.tag) c l
        let top := (List.range k).foldl (fun a i => if elemActive m w i then i + 1 else a) 0
        .ok ([⟨x.tag, vecOf w (r.map Prod.fst), .clean⟩], (r.take top).foldl (fun a p => a.or p.2) Flags.none))

/-- VIDX (R169). -/
def execVidx (u : VPos) (y : VSrc) (s : State) : Out :=
  unitStep s u (some y) false false false (elem2 accI id (fun t i a b => ((a + i * b) % 2 ^ esz t, Flags.none)))

/-! ### Transcendentals (R173) -/

/-- A transcendental on F32, BF16 or F16. -/
def transV (f : Fmt → Nat → Nat × Flags) : Nat → BitVec 128 → Vec → Except (Cause × Word) Vec → UnitRes :=
  elem1 accT (fun t a =>
    match fmtOf t with
    | some g => f g a
    | none => (0, Flags.none))

def execVrcp (u : VPos) (s : State) : Out := unitStep s u none false true false (transV Fmt.rcp)
def execVrsq (u : VPos) (s : State) : Out := unitStep s u none false true false (transV Fmt.rsq)
def execVexp2 (u : VPos) (s : State) : Out := unitStep s u none false true false (transV Fmt.exp2)
def execVlog2 (u : VPos) (s : State) : Out := unitStep s u none false true false (transV Fmt.log2)
def execVtanh (u : VPos) (s : State) : Out := unitStep s u none false true false (transV Fmt.tanh)
def execVsigm (u : VPos) (s : State) : Out := unitStep s u none false true false (transV Fmt.sigm)
def execVsqrt (u : VPos) (s : State) : Out := unitStep s u none false true false (transV Fmt.sqrt)

/-! ### Block scales (R200, R201) -/

/-- An entry of the issuing task's scale table as it stands at issue (R198). -/
def State.sclAt (s : State) (k : Nat) : Nat := (tget 0x7F (s.tt s.ix s.ic).scl k).toNat

/-- VSCALE (R200): y is IDX to multiply, N4 to divide. -/
def execVscale (u : VPos) (y : VSrc) (s : State) : Out :=
  unitStep s u (some y) false false false (fun n m x y =>
    match y with
    | .error e => .error e
    | .ok y =>
      if x.tag = tVOID ∨ y.tag = tVOID then .error (.fmtVoid, fmtTval n x.tag y.tag)
      else if accT x.tag && decide (y.tag = tIDX ∨ y.tag = tN4) then
        let w := esz x.tag
        let f := (fmtOf x.tag).getD fmtF32
        let r := (List.range (elems x.tag)).map (fun i =>
          let c := s.sclAt (elemAt 4 y.bits (i / 8))
          if c = 0xFF then (f.nan, Flags.inv)
          else
            let k : Int := if y.tag = tIDX then (c : Int) - 127 else 127 - (c : Int)
            let v := f.decode (elemAt w x.bits i)
            f.finish (v.scale k, Flags.invIf v.snan))
        .ok ([⟨x.tag, vecOf w (r.map Prod.fst), .clean⟩], activeFlags m w r)
      else .error (.fmtMismatch, fmtTval n x.tag y.tag))

/-- The target's emax (R201). -/
def emaxOf (t : Tag) : Option Nat :=
  match t.toNat with
  | 5 => some 15
  | 6 => some 8
  | 7 => some 4
  | 8 => some 2
  | 9 => some 2
  | _ => none

/-- The best entry of a list of entries under an order; the lowest number among equals. -/
def bestEntry (better : Nat → Nat → Bool) : List (Nat × Nat) → Option (Nat × Nat)
  | [] => none
  | e :: l =>
    match bestEntry better l with
    | none => some e
    | some b => if better b.2 e.2 then some b else some e

/-- floor(log2 m) of the largest finite magnitude of a block; none where it is 0 (R201). -/
def blockLog (f : Fmt) (codes : List Nat) : Option Int :=
  codes.foldl (fun acc c =>
    match f.decode c with
    | .fin _ m e =>
      let l : Int := (Nat.log2 m : Int) + e
      match acc with
      | none => some l
      | some k => some (if k < l then l else k)
    | _ => acc) none

/-- The index of a block and its flags (R201). -/
def scaleIndex (tab : List (Nat × Nat)) (emax : Nat) (lg : Option Int) : Nat × Flags :=
  let live := tab.filter (fun e => decide (e.2 ≠ 0xFF))
  if live = [] then (0, Flags.inv)
  else
    match lg with
    | none => ((bestEntry (fun a b => decide (a < b)) live).map Prod.fst |>.getD 0, Flags.none)
    | some l =>
      let want : Int := l - emax + 127
      let nd : Nat := if want < 0 then 0 else if 254 < want then 254 else want.toNat
      match live.find? (fun e => decide (e.2 = nd)) with
      | some e => (e.1, Flags.none)
      | none =>
        match bestEntry (fun a b => decide (a < b)) (live.filter (fun e => decide (nd < e.2))) with
        | some e => (e.1, Flags.none)
        | none => ((bestEntry (fun a b => decide (b < a)) live).map Prod.fst |>.getD 0,
            { Flags.none with overflow := true })

/-- VSCIDX (R201): the output is IDX; a block's flags count when a lane of the block's elements' index is active. -/
def execVscidx (u : VPos) (y : VSrc) (s : State) : Out :=
  unitStep s u (some y) false false false (fun n m x y =>
    match y with
    | .error e => .error e
    | .ok y =>
      if x.tag = tVOID ∨ y.tag = tVOID then .error (.fmtVoid, fmtTval n x.tag y.tag)
      else
        match (if accT x.tag then fmtOf x.tag else none), emaxOf y.tag with
        | some f, some em =>
          let w := esz x.tag
          let tab := (List.range 16).map (fun k => (k, s.sclAt k))
          let r := (List.range (elems x.tag / 8)).map (fun j =>
            scaleIndex tab em (blockLog f ((List.range 8).map (fun i => elemAt w x.bits (8 * j + i)))))
          .ok ([⟨tIDX, vecOf 4 (r.map Prod.fst), .clean⟩], activeFlags m 4 r)
        | _, _ => .error (.fmtMismatch, fmtTval n x.tag y.tag))

end Sys2Proof.Machine
end

