-- ==== Sys2Proof/Machine/Copy.lean ====
section
/-! DEFINITION. The copy commands: what each entry of a chain does, and the chunks by which the engine moves the data of a
data command (R274, R276 to R282, R287 to R300, R409). -/

namespace Sys2Proof.Machine

/-! ### Entries (R277, R279, R281) -/

/-- The offset within the entry of the first byte of a field that has a bit outside a mask. -/
def strayByte (off v mask : Nat) : Option Nat :=
  ((List.range 8).find? (fun i => decide ((v - (v &&& mask)) / 256 ^ i % 256 ≠ 0))).map (fun i => off + i)

/-- All ones of a field. -/
def allOnes (n : Nat) : Nat := 2 ^ n - 1

/-- The first byte of an entry in which a field breaks its mask (R277). -/
def strayField (f : CopyF) (flags aux len src dst hsrc hdst : Nat) : Option Nat :=
  (strayByte 1 f.flags.toNat flags).or <| (strayByte 2 f.aux.toNat aux).or <| (strayByte 4 f.len.toNat len).or <|
    (strayByte 8 f.src.toNat src).or <| (strayByte 0x10 f.dst.toNat dst).or <|
      (strayByte 0x18 f.hsrc.toNat hsrc).or (strayByte 0x1C f.hdst.toNat hdst)

/-- The first byte in which a counter reference breaks R128 or is unused, as CIF, CCW and CSIG need a counter (R277). -/
def strayRef (r : Nat) : Option Nat :=
  let low := r % 2 ^ 32
  (strayByte 8 low 0xFFFF003F).or <|
    if 64 < field low 22 16 then some 0x0A
    else (strayByte 8 low 0x81FF003F).or <| if low.testBit 31 then strayByte 8 r 0xFFFFFFFF else some 0x0B

/-- CHAIN_BAD with the offset of a byte of the entry. -/
def badAt (o : Nat) : Option (Cause × Word) := some (.chainBad, BitVec.ofNat 64 o)

/-- The loop levels and the next entry, once the next entry is known (R281). -/
def loopNext : List CLevel → Nat → List CLevel × Nat
  | [], n => ([], n)
  | l :: ls, n =>
    if n = l.fin then
      if l.index + 1 < l.count then ({ l with index := l.index + 1 } :: ls, l.start) else loopNext ls n
    else (l :: ls, n)

/-- The chain goes on at the entry that follows. -/
def Chain.goTo (c : Chain) (n : Nat) : Chain :=
  let r := loopNext c.loops n
  { c with st := .next, loops := r.1, pc := r.2, carried := none }

/-- An entry begins: nothing of it has been moved. -/
def Chain.fresh (c : Chain) : Chain :=
  { c with moved := 0, at_ := 0, begun := false, comp := false, olds := [], work := [], revoked := [], wiping := false, ueSeen := false,
           badSeen := false, slot := none, ds := Desc.none, dd := Desc.none }

/-- An entry of a chain is executed where the chain has come to it. -/
def State.entry (s : State) (ch : Nat) (k : State → Chain → State) : Out :=
  match s.chain ch with
  | none => .next s
  | some c =>
    if c.st = .next then
      let c := c.fresh
      .next (k (s.modChain ch (fun _ => c)) c)
    else .next s

/-- A fault of the entry is fatal (R275). -/
def State.fatal (s : State) (ch : Nat) (r : Cause × Word) : State := s.chainEnd ch (some r.1) r.2 false

/-- A chain with the descriptors of a command's handles as they are now. -/
def State.latched (s : State) (c : Chain) (f : CopyF) : Chain :=
  let k := s.ctx c.seq c.ctx
  { c with ds := k.desc (handleSlot f.hsrc), dd := k.desc (handleSlot f.hdst) }

/-- A data command begins after its checks: the descriptors of its handles stay what they are now (R285, R286). -/
def State.begins (s : State) (ch : Nat) (i : Instr) (f : CopyF) (check : State → Chain → Option (Cause × Word)) : Out :=
  s.entry ch (fun s c =>
    match check s c with
    | some r => s.fatal ch r
    | none => s.modChain ch (fun c => { s.latched c f with st := .move i, carried := none }))

/-- The first of some faults. -/
def firstOf2 (a b : Option (Cause × Word)) : Option (Cause × Word) := a.or b

/-! ### Control commands (R281, R282) -/

/-- A target entry: a multiple of 32 in a scratch bank the task claims, inside the innermost body. -/
def State.targetBad (s : State) (c : Chain) (t : Word) : Bool :=
  let n := t.toNat
  !(decide (n < 2 ^ 22 ∧ n % 32 = 0) && s.scratchOk c.seq c.ctx c.tile (bankOf n))
    || (match c.loops with
        | l :: _ => !decide (l.start ≤ n ∧ n < l.fin)
        | [] => false)

/-- The value of the counter an entry names. -/
def State.refVal (s : State) (f : CopyF) : Nat :=
  match refOf (f.src.toNat % 2 ^ 32) with
  | some r => (s.ctrVal r.1 r.2).toNat
  | none => 0

/-- CEND (R282). -/
def execCend (ch : Nat) (f : CopyF) (s : State) : Out :=
  s.entry ch (fun s _ =>
    match strayField f 0 0 0 0 0 0 0 with
    | some o => s.fatal ch (.chainBad, BitVec.ofNat 64 o)
    | none => s.chainEnd ch none 0 false)

/-- CLINK (R282). -/
def execClink (ch : Nat) (f : CopyF) (s : State) : Out :=
  s.entry ch (fun s c =>
    match strayField f 0 0 0 0 (allOnes 64) 0 0 with
    | some o => s.fatal ch (.chainBad, BitVec.ofNat 64 o)
    | none => if s.targetBad c f.dst then s.fatal ch (.chainBad, f.dst) else s.modChain ch (fun c => c.goTo f.dst.toNat))

/-- CIF reads the counter once; a target that breaks the rule of targets is a fault whether the chain goes there or not (R281, R282). -/
def execCif (ch : Nat) (f : CopyF) (s : State) : Out :=
  s.entry ch (fun s c =>
    match (strayByte 1 f.flags.toNat 1).or ((strayByte 2 f.aux.toNat 0).or ((strayRef f.src.toNat).or
        (strayField { f with flags := 0, aux := 0, src := 0 } 0 0 (allOnes 32) 0 (allOnes 64) 0 0))) with
    | some o => s.fatal ch (.chainBad, BitVec.ofNat 64 o)
    | none =>
      if s.targetBad c f.dst then s.fatal ch (.chainBad, f.dst)
      else if decide (f.len.toNat ≤ s.refVal f) != f.flags.getLsbD 0 then s.modChain ch (fun c => c.goTo f.dst.toNat)
      else s.modChain ch (fun c => c.goTo (c.pc + 32)))

/-- CLOOP repeats the entries that follow (R281). -/
def execCloop (ch : Nat) (f : CopyF) (s : State) : Out :=
  s.entry ch (fun s c =>
    let fin := c.pc + 32 * (f.flags.toNat + 1)
    let outside : Bool := match c.loops with
      | l :: _ => decide (l.fin < fin)
      | [] => false
    match strayField f 0xFF 0 (allOnes 32) (allOnes 64) (allOnes 64) 0 0 with
    | some o => s.fatal ch (.chainBad, BitVec.ofNat 64 o)
    | none =>
      if f.flags = 0 ∨ c.loops.length = 6 ∨ outside = true then s.fatal ch (.chainBad, 1)
      else if f.len = 0 then s.modChain ch (fun c => c.goTo fin)
      else s.modChain ch (fun c => { c with
        st := .next, carried := none, pc := c.pc + 32,
        loops := ⟨c.pc + 32, fin, f.len.toNat, 0, f.src, f.dst⟩ :: c.loops }))

/-- The faults of a CCW or CSIG entry. -/
def signalBad (f : CopyF) : Option Nat :=
  (strayField { f with src := 0, dst := 0, hsrc := 0, hdst := 0 } 0 0 (allOnes 32) 0 0 0 0).or ((strayRef f.src.toNat).or
    (strayField { f with src := 0 } 0 0 (allOnes 32) 0 0 0 0))

/-- CCW waits until the counter is at least its length (R282). -/
def execCcw (ch : Nat) (f : CopyF) (s : State) : Out :=
  s.entry ch (fun s _ =>
    match signalBad f, refOf (f.src.toNat % 2 ^ 32) with
    | some o, _ => s.fatal ch (.chainBad, BitVec.ofNat 64 o)
    | none, none => s.fatal ch (.chainBad, 0x0B)
    | none, some r =>
      if f.len.toNat ≤ s.refVal f then s.modChain ch (fun c => c.goTo (c.pc + 32))
      else s.modChain ch (fun c => { c with st := .ccw r.1 r.2 f.len }))

/-- The counter of a waiting CCW is at least its threshold: the chain goes on (R282). -/
def execCcwSatisfied (ch : Nat) (s : State) : Out :=
  match s.chain ch with
  | none => .next s
  | some c =>
    match c.st with
    | .ccw t k x => .next (if x.toNat ≤ (s.ctrVal t k).toNat then s.modChain ch (fun c => c.goTo (c.pc + 32)) else s)
    | _ => .next s

/-- CSIG adds its length to the counter (R282); one that has travelled with a message to a peer is not applied here (R409). -/
def execCsig (ch : Nat) (f : CopyF) (s : State) : Out :=
  s.entry ch (fun s c =>
    match signalBad f with
    | some o => s.fatal ch (.chainBad, BitVec.ofNat 64 o)
    | none =>
      let s := if c.carried = some c.pc then s else s.signal (f.src.toNat % 2 ^ 32) f.len.toNat
      s.modChain ch (fun c => c.goTo (c.pc + 32)))

/-! ### The start of the data commands (R285, R288, R290, R293 to R300) -/

/-- Some pool granule of a source carries the compressed mark (R295). -/
def State.srcMarked (s : State) (c : Chain) (f : CopyF) (n : Nat) : Bool :=
  if f.hsrc = 0 then
    match poolAddr c.tile (c.srcField f) 0 true with
    | some p => s.poolComp p.tile p.off n
    | none => false
  else false

/-- A handle's buffer has C = 1 (R284). -/
def State.handleC (s : State) (c : Chain) (h : BitVec 32) : Bool :=
  decide (h ≠ 0) && ((s.ctx c.seq c.ctx).desc (handleSlot h)).attr.testBit 2

/-- Source then destination. -/
def State.refsBad (s : State) (c : Chain) (f : CopyF) (n m : Nat) : Option (Cause × Word) :=
  (s.refBad c (c.srcField f) f.hsrc n false).or (s.refBad c (c.dstField f) f.hdst m true)

/-- Compressed data read by another command than CMOV and CEXP (R295). -/
def State.compBad (s : State) (c : Chain) (f : CopyF) (n : Nat) : Option (Cause × Word) :=
  if s.srcMarked c f n then some (.compressedLoad, c.srcField f) else none

/-- CMOV carries compressed data (R295). -/
def State.cmovComp (s : State) (c : Chain) (f : CopyF) : Bool := s.handleC c f.hsrc || s.srcMarked c f f.len.toNat

/-- CMOV (R288). -/
def execCmov (ch : Nat) (f : CopyF) (s : State) : Out :=
  s.begins ch (.cmov ch f) f (fun s c =>
    match strayField f 0 0 (allOnes 32) (allOnes 64) (allOnes 64) (allOnes 32) (allOnes 32) with
    | some o => badAt o
    | none => (s.refsBad c f f.len.toNat f.len.toNat).or
        (if s.cmovComp c f && decide (f.hdst ≠ 0) && !s.handleC c f.hdst then badAt 0x1C else none))

/-- CZERO (R288). -/
def execCzero (ch : Nat) (f : CopyF) (s : State) : Out :=
  s.begins ch (.czero ch f) f (fun s c =>
    match strayField f 0 0 (allOnes 32) 0 (allOnes 64) 0 (allOnes 32) with
    | some o => badAt o
    | none => s.refBad c (c.dstField f) f.hdst f.len.toNat true)

/-- Up to the next 32-byte boundary. -/
def up32 (n : Nat) : Nat := (n + 31) / 32 * 32

/-- The fields of CCONV's aux (R290). -/
structure ConvF where
  mode : Nat
  st : Tag
  dt : Tag
  /-- Bits of an element in the source and in the destination. -/
  sw : Nat
  dw : Nat
  deriving DecidableEq, Repr

/-- An E3M2 or E2M3 tag. -/
def isFp6 (t : Tag) : Bool := decide (t = tE3M2 ∨ t = tE2M3)

/-- CCONV's aux, read. -/
def convOf (aux : BitVec 16) : ConvF :=
  let st : Tag := aux.extractLsb' 0 5
  let dt : Tag := aux.extractLsb' 5 5
  ⟨field aux.toNat 13 12, st, dt, if aux.getLsbD 10 then 6 else esz st, if aux.getLsbD 11 then 6 else esz dt⟩

/-- The first byte of the entry in which a CCONV breaks R290. -/
def convBad (f : CopyF) : Option Nat :=
  let k := convOf f.aux
  let mx : Tag → Bool := fun t => decide (5 ≤ t.toNat ∧ t.toNat ≤ 9)
  let plain : Tag → Bool := fun t => decide (1 ≤ t.toNat ∧ t.toNat ≤ 0x12)
  if (if k.mode = 0 then !plain k.st || !plain k.dt else !mx k.st || decide (k.st ≠ k.dt)) then some 2
  else if k.mode = 3 ∨ (f.aux.getLsbD 10 && !isFp6 k.st) = true ∨ (f.aux.getLsbD 11 && !isFp6 k.dt) = true then some 3
  else if (f.aux.getLsbD 10 || f.aux.getLsbD 11) && decide (f.len.toNat % 4 ≠ 0) then some 4
  else if k.mode ≠ 0 ∧ f.len.toNat % 32 ≠ 0 then some 4
  else none

/-- Bytes of n elements of w bits. -/
def bytesFor (n w : Nat) : Nat := (n * w + 7) / 8

/-- The layout of CCONV's source (`src`) or destination: bytes of elements, where the second part begins and its bytes, where
the scale list begins, and the extent (R290). -/
structure ConvLay where
  elems : Nat
  at2 : Nat
  len2 : Nat
  at3 : Nat
  total : Nat
  deriving DecidableEq, Repr

/-- The layout of one side: codes (an MX tensor), nibbles with a list, or elements alone. -/
def convLay (k : ConvF) (n : Nat) (src : Bool) : ConvLay :=
  let e := bytesFor n (if src then k.sw else k.dw)
  let b := n / 32
  if k.mode = 0 then ⟨e, e, 0, e, e⟩
  else if decide (k.mode = 1) = src then ⟨e, up32 e, b, up32 e + b, up32 e + b⟩
  else
    let q := up32 (up32 e + (b + 1) / 2)
    ⟨e, up32 e, (b + 1) / 2, q, q + 16⟩

/-- CCONV (R290). -/
def execCconv (ch : Nat) (f : CopyF) (s : State) : Out :=
  s.begins ch (.cconv ch f) f (fun s c =>
    match (strayField f 0 0x3FFF (allOnes 32) (allOnes 64) (allOnes 64) (allOnes 32) (allOnes 32)).or (convBad f) with
    | some o => badAt o
    | none =>
      let n := (convLay (convOf f.aux) f.len.toNat true).total
      (s.refsBad c f n (convLay (convOf f.aux) f.len.toNat false).total).or (s.compBad c f n))

/-! ### Packed tensors: their extents (R285, R291 to R294) -/

/-- The w bits from bit i of a byte list, lowest first, and whether a byte they lie in is bad. -/
def bitsAt (l : List (Nat × Bool)) (i w : Nat) : Nat × Bool :=
  let n := (i % 8 + w + 7) / 8
  let bs := (l.drop (i / 8)).take n
  ((rdNat (bs.map Prod.fst) >>> (i % 8)) % 2 ^ w, bs.any Prod.snd)
where
  /-- A little-endian number. -/
  rdNat : List Nat → Nat
    | [] => 0
    | b :: r => b + 256 * rdNat r

/-- The n bytes from `o` of a list, as a little-endian number. -/
def leAt (l : List (Nat × Bool)) (o n : Nat) : Nat := bitsAt.rdNat (((l.drop o).take n).map Prod.fst)

/-- A header of 32 bytes breaks R291; the symbol list is apart. `own` says that its block count is to be used. -/
def headBad (h : List (Nat × Bool)) (own : Bool) : Bool :=
  let S := leAt h 2 2
  let cnt := (List.range 12).map (fun i => leAt h (4 + 2 * i) 2)
  (own && decide (leAt h 0 2 = 0)) || decide (S = 0 ∨ 256 < S) || decide (leAt h 0x1C 4 ≠ 0) || decide (cnt.sum ≠ S)
    || decide (4096 < ((cnt.zipIdx).map (fun p => p.1 * 2 ^ (11 - p.2))).sum)

/-- A symbol list with its padding breaks R291. -/
def listBad (l : List (Nat × Bool)) (S : Nat) : Bool :=
  decide (¬(((l.take S).map Prod.fst).Nodup)) || (l.drop S).any (fun b => decide (b.1 ≠ 0))

/-- The codes of R291: symbol, code and length, in canonical order. -/
def codesFrom : List Nat → Nat → Nat → List Nat → List (Nat × Nat × Nat)
  | [], _, _, _ => []
  | cnt :: cs, len, code, list =>
    ((list.take cnt).zipIdx).map (fun p => (p.1, code + p.2, len))
      ++ codesFrom cs (len + 1) (2 * (code + cnt)) (list.drop cnt)

/-- What the command keeps of a header: next block, its source offset, N, S, the bad mark, the counts and the list. -/
def packWork (h l : List (Nat × Bool)) (off : Nat) : List Nat :=
  let S := leAt h 2 2
  [0, off, leAt h 0 2, S, ((h ++ l).any Prod.snd).toNat]
    ++ (List.range 12).map (fun i => leAt h (4 + 2 * i) 2) ++ (l.take S).map Prod.fst

/-- The codes of a kept header. -/
def workCodes (w : List Nat) : List (Nat × Nat × Nat) := codesFrom ((w.drop 5).take 12) 1 0 (w.drop 17)

/-- What a block's header gives breaks R292 for a block of `want` bytes. -/
def blockBad (h : List (Nat × Bool)) (want : Nat) : Bool :=
  decide (leAt h 0 4 = 0 ∨ 49152 < leAt h 0 4 ∨ leAt h 6 2 ≠ 0 ∨ leAt h 12 4 ≠ 0 ∨ leAt h 4 2 ≠ want)

/-- Bytes of a block's code, from its bits. -/
def codeBytes (bits : Nat) : Nat := ((bits + 7) / 8 + 15) / 16 * 16

/-- A length that a packed tensor of N blocks contradicts (R293). -/
def lenBad (len N : Nat) : Bool := decide (len ≤ 4096 * (N - 1) ∨ 4096 * N < len)

/-- n bytes at an offset of a command's source lie inside its buffer. -/
def State.holds (s : State) (c : Chain) (f : CopyF) (off n : Nat) : Bool :=
  if f.hsrc = 0 then (s.poolRefBad c (c.srcField f + BitVec.ofNat 64 off) n).isNone
  else decide ((c.srcField f).toNat + off + n ≤ c.ds.size)

/-- Bytes of a source as a look at them finds them, with nothing reported; none where they lie outside its buffer. A page fault stops
the look. -/
def peek (c : Chain) (f : CopyF) (off n : Nat) : CopyM (Option (List (Nat × Bool))) := do
  let s ← get
  if s.holds c f off n then
    let ps ← refSpans c f off n false
    let s ← get
    pure (some (ps.flatMap s.spanBytes))
  else pure none

/-- The end of the blocks of a packed tensor from an offset: as far as their headers lie inside the buffer and are well formed. -/
def blocksEnd (c : Chain) (f : CopyF) : Nat → Nat → Nat → CopyM Nat
  | 0, _, off => pure off
  | fuel + 1, b, off => do
    match ← peek c f off 16 with
    | none => pure (off + 16)
    | some h =>
      if blockBad h (min 4096 (f.len.toNat - 4096 * b)) then pure (off + 16)
      else blocksEnd c f fuel (b + 1) (off + 16 + codeBytes (leAt h 0 4))

/-- The bytes of its source that a CEXP needs: those that its headers span (R285, R291). -/
def expSpan (c : Chain) (f : CopyF) : CopyM Nat := do
  match ← peek c f 0 32 with
  | none => pure 32
  | some h =>
    if headBad h true then pure 32
    else
      let S := leAt h 2 2
      match ← peek c f 32 (up32 S) with
      | none => pure (32 + up32 S)
      | some l =>
        if listBad l S || lenBad f.len.toNat (leAt h 0 2) then pure (32 + up32 S)
        else blocksEnd c f (leAt h 0 2) 0 (32 + up32 S)

/-- The bytes that a CCOMP's blocks take in its destination from an offset: as far as its source lies inside its buffer and its symbols
have codes. -/
def packedEnd (c : Chain) (f : CopyF) (codes : List (Nat × Nat × Nat)) (base : Nat) : Nat → Nat → Nat → CopyM Nat
  | 0, _, out => pure out
  | fuel + 1, b, out => do
    match ← peek c f (base + 4096 * b) (min 4096 (f.len.toNat - 4096 * b)) with
    | none => pure out
    | some l =>
      let ls := l.map (fun x => (codes.find? (fun e => decide (e.1 = x.1))).map (fun e => e.2.2))
      if ls.any Option.isNone then pure out
      else packedEnd c f codes base fuel (b + 1) (out + 16 + codeBytes ((ls.filterMap id).sum))

/-- The bytes of its source and of its destination that a CCOMP needs (R285, R294). -/
def compSpan (c : Chain) (f : CopyF) : CopyM (Nat × Nat) := do
  match ← peek c f 0 32 with
  | none => pure (32, 0)
  | some h =>
    if headBad h false then pure (32, 0)
    else
      let S := leAt h 2 2
      match ← peek c f 32 (up32 S) with
      | none => pure (32 + up32 S, 0)
      | some l =>
        if listBad l S then pure (32 + up32 S, 0)
        else
          let base := 32 + up32 S
          let out ← packedEnd c f (workCodes (packWork h l base)) base ((f.len.toNat + 4095) / 4096) 0 base
          pure (base + f.len.toNat, out)

/-- What a look at a command's buffers finds; `d` where a page stops it, and the command looks again before it moves anything (R287). -/
def State.look {α : Type} (s : State) (m : CopyM α) (d : α) : α :=
  match m.run s with
  | (.ok a, _) => a
  | _ => d

/-- The bytes of its source that a CEXP is found to need as it is read: its header's, where a page stops the look. -/
def State.expNeed (s : State) (c : Chain) (f : CopyF) : Nat := s.look (expSpan c f) 32

/-- The same of a CCOMP, of its source and its destination. -/
def State.compNeed (s : State) (c : Chain) (f : CopyF) : Nat × Nat := s.look (compSpan c f) (32, 0)

/-- A fault of a command that a check finds before it moves anything. -/
def checked (b : Option (Cause × Word)) : CopyM Unit :=
  match b with
  | some r => stopWith (.fatal r.1 r.2)
  | none => pure ()

/-- CEXP (R293): both buffers hold what its headers span, before anything moves (R285). -/
def execCexp (ch : Nat) (f : CopyF) (s : State) : Out :=
  s.begins ch (.cexp ch f) f (fun s c =>
    match strayField f 0 0 (allOnes 32) (allOnes 64) (allOnes 64) (allOnes 32) (allOnes 32) with
    | some o => badAt o
    | none => (s.refsBad c f 32 f.len.toNat).or (s.refBad c (c.srcField f) f.hsrc (s.expNeed (s.latched c f) f) false))

/-- CCOMP (R294): a handle buffer for its output has C = 1 (R295); both buffers hold what it moves, before anything does (R285). -/
def execCcomp (ch : Nat) (f : CopyF) (s : State) : Out :=
  s.begins ch (.ccomp ch f) f (fun s c =>
    match strayField f 0 0 (allOnes 32) (allOnes 64) (allOnes 64) (allOnes 32) (allOnes 32) with
    | some o => badAt o
    | none =>
      if f.len = 0 ∨ 65535 * 4096 < f.len.toNat then badAt 4
      else (s.refsBad c f 32 0).or <| (if decide (f.hdst ≠ 0) && !s.handleC c f.hdst then badAt 0x1C else none).or <|
        let n := s.compNeed (s.latched c f) f
        s.refsBad c f n.1 n.2)

/-- Bytes CDEC and CENC handle: at most 4 MiB (R298). -/
def cryptLenBad (f : CopyF) : Bool := decide (f.len.toNat < 1 ∨ 4194304 < f.len.toNat)

/-- CDEC (R299): destination faults come before the slot and the count. -/
def execCdec (ch : Nat) (f : CopyF) (s : State) : Out :=
  s.begins ch (.cdec ch f) f (fun s c =>
    match strayField f 0 0x1F (allOnes 32) (allOnes 64) (allOnes 64) (allOnes 32) 0 with
    | some o => badAt o
    | none =>
      let d := c.dstField f
      if cryptLenBad f then badAt 4
      else if d.toNat % 65536 ≠ 0 then badAt 0x10
      else if 2 ^ 22 ≤ d.toNat then some (.spRange, d)
      else (s.poolRefBad c d f.len.toNat).or
        ((s.refBad c (c.srcField f) f.hsrc (f.len.toNat + 32) false).or (s.compBad c f (f.len.toNat + 32))))

/-- CENC (R300). -/
def execCenc (ch : Nat) (f : CopyF) (s : State) : Out :=
  s.begins ch (.cenc ch f) f (fun s c =>
    match strayField f 0 0x1F (allOnes 32) (allOnes 64) (allOnes 64) (allOnes 32) (allOnes 32) with
    | some o => badAt o
    | none =>
      if cryptLenBad f then badAt 4
      else (s.refsBad c f (f.len.toNat + 16) (f.len.toNat + 32)).or (s.compBad c f (f.len.toNat + 16)))

/-- The checks of CATOM's target before any element (R296). -/
def State.atomBad (s : State) (c : Chain) (f : CopyF) (w : Bool) : Option (Cause × Word) :=
  let a := c.dstField f
  let n := f.len.toNat * (if w then 8 else 4)
  match poolAddr c.tile a 0 true with
  | none => some (.spRange, a)
  | some p =>
    if p.canal && !s.canalReach c.seq c.ctx p.tile then some (.canalScope, a)
    else if 2 ^ 22 < p.off + n then some (.spRange, a)
    else
      let slots := (List.range ((p.off + n - 1) / 0x4000 - p.off / 0x4000 + 1)).map (fun i => p.off / 0x4000 + i)
      if slots.any (fun k => !s.accOk c.seq c.ctx p.tile (k / 4) || !s.slotAlloc p.tile k
          || s.vgOwns p.tile (s.tileNumber p.tile k)) then some (.accUnowned, a)
      else if slots.any (fun k => let t := s.slotTag p.tile k
          if w then decide (t ≠ tF64) else decide (t ≠ tS32 ∧ t ≠ tF32)) then some (.fmtMismatch, a)
      else none

/-- CATOM (R296). -/
def execCatom (ch : Nat) (f : CopyF) (s : State) : Out :=
  s.begins ch (.catom ch f) f (fun s c =>
    let w := f.aux.getLsbD 0
    let z := if w then 8 else 4
    match strayField f 3 1 (allOnes 32) (allOnes 64) (allOnes 64) 0 (allOnes 32) with
    | some o => badAt o
    | none =>
      let src := c.srcField f
      if f.len = 0 ∨ 1024 < f.len.toNat then badAt 4
      else if 2 ^ 22 ≤ src.toNat then some (.spRange, src)
      else if src.toNat % z ≠ 0 then badAt 8
      else if (c.dstField f).toNat % z ≠ 0 then badAt 0x10
      else (s.poolRefBad c src (f.len.toNat * z)).or <| (s.compBad c f (f.len.toNat * z)).or <|
        if f.hdst = 0 then s.atomBad c f w
        else (s.handleBad c f.hdst (c.dstField f) (f.len.toNat * z) true).or
          (if ((s.ctx c.seq c.ctx).desc (handleSlot f.hdst)).loc ≠ 4 then badAt 0x1C else none))

/-! ### The output of a chunk -/

/-- Change the chain. -/
def modC (c : Chain) (g : Chain → Chain) : CopyM Unit := modify (fun s => s.modChain c.id g)

/-- The chain as it stands. -/
def nowC (c : Chain) : CopyM Chain := do
  let s ← get
  pure ((s.chain c.id).getD c)

/-- A fatal fault with a value the spec does not state (R275, log 4). -/
def fatalFree (e : Cause) : CopyM Unit := do
  let s ← get
  set s.drawn
  stopWith (.fatal e s.freeWord)

/-- Bytes as written, none of them left out. -/
def whole (l : List (Nat × Bool)) : List (Option Nat × Bool) := l.map (fun b => (some b.1, b.2))

/-- One element of CCONV (R290). -/
def convOne (k : ConvF) (c : Nat) : Nat × Flags :=
  let c := if isFp6 k.st then c % 64 else c
  if k.mode = 0 then convElem k.st k.dt c else (c, Flags.none)

/-- The bytes [lo, hi) of CCONV's elements. A last byte that no element fills has free bits (log 4). -/
def convElems (c : Chain) (f : CopyF) (lo hi : Nat) : CopyM (List (Option Nat × Bool)) := do
  if hi ≤ lo then pure []
  else
    let k := convOf f.aux
    let i0 := lo * 8 / k.dw
    let i1 := min f.len.toNat ((hi * 8 + k.dw - 1) / k.dw)
    let b0 := i0 * k.sw / 8
    let src ← readSrc c f false b0 (bytesFor i1 k.sw - b0)
    let s ← get
    let es := (List.range (i1 - i0)).map (fun j =>
      let e := bitsAt src ((i0 + j) * k.sw - 8 * b0) k.sw
      (convOne k e.1, e.2))
    modC c (fun d => { d with flags := es.foldl (fun g e => g.or e.1.2) d.flags })
    if (f.len.toNat * k.dw) % 8 ≠ 0 then modify State.drawn
    let stream := packElems k.dw (es.map (fun e => e.1.1)) + s.freeWord.toNat % 256 * 2 ^ (k.dw * (i1 - i0))
    pure ((List.range (hi - lo)).map (fun j =>
      let at_ := (lo + j) * 8 - i0 * k.dw
      (some ((stream >>> at_) % 256),
        ((es.drop (at_ / k.dw)).take ((at_ % k.dw + 7) / k.dw + 1)).any (fun e => e.2))))

/-- The distinct scale codes of an MX tensor, ascending (R203). -/
def scaleCodes (l : List (Nat × Bool)) : List Nat := ((l.map Prod.fst).dedup).mergeSort (fun a b => decide (a ≤ b))

/-- The bytes from `lo` of CCONV's parts after the elements; `keep` is what the command has read of the scales. With an odd number of
blocks the upper nibble of the last index byte holds no index; it is free (log 4). -/
def convParts (k : ConvF) (n : Nat) (keep : List (Nat × Bool)) (lo cnt free : Nat) : List (Option Nat × Bool) :=
  let d := convLay k n false
  let b := n / 32
  if k.mode = 1 then
    let cs := scaleCodes keep
    let any := keep.any Prod.snd
    let idx : Nat → Nat := fun j => if j < b then cs.findIdx (fun c => decide (c = (keep.getD j (0, false)).1)) else free % 16
    (List.range cnt).map (fun i =>
      let p := lo + i
      if d.at2 ≤ p ∧ p < d.at2 + d.len2 then (some (idx (2 * (p - d.at2)) + 16 * idx (2 * (p - d.at2) + 1)), any)
      else if d.at3 ≤ p ∧ p < d.total then (some (cs.getD (p - d.at3) 0x7F), any)
      else (none, false))
  else
    let half := (b + 1) / 2
    (List.range cnt).map (fun i =>
      let p := lo + i
      if d.at2 ≤ p ∧ p < d.at2 + d.len2 then
        let j := p - d.at2
        let q := keep.getD (j / 2) (0, false)
        let r := keep.getD (half + (if j % 2 = 1 then q.1 / 16 else q.1 % 16)) (0, false)
        (some r.1, q.2 || r.2)
      else (none, false))

/-- A chunk of CCONV's output. The scales of a block-scaled tensor are read first, over the whole command (R203). -/
def convChunk (c : Chain) (f : CopyF) (n : Nat) : CopyM (List (Option Nat × Bool)) := do
  let k := convOf f.aux
  let sl := convLay k f.len.toNat true
  let dl := convLay k f.len.toNat false
  if k.mode ≠ 0 && !c.begun then
    let p ← readSrc c f false sl.at2 sl.len2
    let q ← (if k.mode = 2 then readSrc c f false sl.at3 16 else pure [])
    if k.mode = 1 ∧ 16 < (scaleCodes p).length then fatalFree .scaleOvf
    modC c (fun d => { d with begun := true, olds := p ++ q })
  let keep := (← nowC c).olds
  let free := (← get).freeWord.toNat
  if k.mode = 1 ∧ f.len.toNat / 32 % 2 = 1 then modify State.drawn
  let e ← convElems c f c.at_ (min dl.elems (c.at_ + n))
  pure (e ++ (if k.mode = 0 then [] else convParts k f.len.toNat keep (c.at_ + e.length) (n - e.length) free))

/-! ### Packed tensors (R291 to R294) -/

/-- The bits of bytes, from bit 7 of each downwards (R292). -/
def bitsDown (l : List Nat) : List Bool := l.flatMap (fun b => (List.range 8).map (fun i => b.testBit (7 - i)))

/-- Read one symbol: the code so far and its length. -/
def readSym (codes : List (Nat × Nat × Nat)) : Nat → Nat → Nat → List Bool → Option (Nat × List Bool)
  | 0, _, _, _ => none
  | _, _, _, [] => none
  | fuel + 1, code, len, b :: l =>
    let code := 2 * code + b.toNat
    match codes.find? (fun e => decide (e.2 = (code, len + 1))) with
    | some e => some (e.1, l)
    | none => readSym codes fuel code (len + 1) l

/-- Read n symbols; none where a prefix matches no code or the bits run out. -/
def readSyms (codes : List (Nat × Nat × Nat)) : Nat → List Bool → Option (List Nat × List Bool)
  | 0, l => some ([], l)
  | n + 1, l =>
    match readSym codes 12 0 0 l with
    | none => none
    | some (s, l) => (readSyms codes n l).map (fun r => (s :: r.1, r.2))

/-- A block expands, or fails: count bytes of zeros, all poisoned (R293). -/
def expandBlock (codes : List (Nat × Nat × Nat)) (headMark : Bool) (h code : List (Nat × Bool)) : List (Nat × Bool) :=
  let bits := leAt h 0 4
  let count := leAt h 4 2
  let dead := List.replicate count (0, true)
  if (h ++ code).any Prod.snd then dead
  else
    match readSyms codes count ((bitsDown (code.map Prod.fst)).take bits) with
    | some (l, []) => if crc32c l = leAt h 8 4 then l.map (fun b => (b, headMark)) else dead
    | _ => dead

/-- CEXP looks at what its headers span, and reads its tensor header (R285, R291, R293). -/
def expHead (c : Chain) (f : CopyF) : CopyM Unit := do
  let need ← expSpan c f
  checked ((← get).refBad c (c.srcField f) f.hsrc need false)
  let h ← readSrc c f true 0 32
  let N := leAt h 0 2
  let S := leAt h 2 2
  if headBad h true then fatalFree .chainBad
  let l ← readSrc c f true 32 (up32 S)
  if listBad l S then fatalFree .chainBad
  if lenBad f.len.toNat N then fatalFree .chainBad
  modC c (fun d => { d with begun := true, work := packWork h l (32 + up32 S) })

/-- CEXP expands its next block (R292, R293). -/
def expBlock (c : Chain) (f : CopyF) : CopyM Unit := do
  let w := (← nowC c).work
  let b := w.getD 0 0
  let off := w.getD 1 0
  let h ← readSrc c f true off 16
  if blockBad h (min 4096 (f.len.toNat - 4096 * b)) then fatalFree .chainBad
  let len := codeBytes (leAt h 0 4)
  let code ← readSrc c f true (off + 16) len
  let out := expandBlock (workCodes w) (decide (w.getD 4 0 ≠ 0)) h code
  modC c (fun d => { d with olds := d.olds ++ out, work := (b + 1) :: (off + 16 + len) :: d.work.drop 2 })

/-- Run a step until the output kept is long enough, at most `fuel` times. -/
def fillTo (c : Chain) (more : CopyM Unit) (n : Nat) (last : Chain → Bool) : Nat → CopyM Unit
  | 0 => pure ()
  | fuel + 1 => do
    let d ← nowC c
    if n ≤ d.olds.length || last d then pure ()
    else
      more
      fillTo c more n last fuel

/-- Take the first n bytes of the output kept. -/
def takeOut (c : Chain) (n : Nat) : CopyM (List (Nat × Bool)) := do
  pure ((← nowC c).olds.take n)

/-- A chunk of CEXP's output. -/
def expChunk (c : Chain) (f : CopyF) (n : Nat) : CopyM (List (Option Nat × Bool)) := do
  fillTo c (expBlock c f) n (fun _ => false) 2
  pure (whole (← takeOut c n))

/-- Bits packed into bytes from bit 7 downwards, padded with zeros to a multiple of 16 bytes (R292). -/
def packDown (l : List Bool) : List Nat :=
  let n := codeBytes l.length
  let v := l.foldl (fun a b => 2 * a + b.toNat) 0 * 2 ^ (8 * n - l.length)
  (List.range n).map (fun i => v / 256 ^ (n - 1 - i) % 256)

/-- CCOMP looks at what it moves, reads its header and puts out its own with N (R285, R294). -/
def compHead (c : Chain) (f : CopyF) : CopyM Unit := do
  let need ← compSpan c f
  checked ((← get).refsBad c f need.1 need.2)
  let h ← readSrc c f false 0 32
  let S := leAt h 2 2
  if headBad h false then fatalFree .chainBad
  let l ← readSrc c f false 32 (up32 S)
  if listBad l S then fatalFree .chainBad
  let N := (f.len.toNat + 4095) / 4096
  let out := (leBytes 2 N).map (fun b => (b, false)) ++ h.drop 2 ++ l
  modC c (fun d => { d with begun := true, work := packWork h l (32 + up32 S), olds := out })

/-- CCOMP packs its next block (R292, R294). -/
def compBlock (c : Chain) (f : CopyF) : CopyM Unit := do
  let w := (← nowC c).work
  let b := w.getD 0 0
  let off := w.getD 1 0
  let n := min 4096 (f.len.toNat - 4096 * b)
  let src ← readSrc c f false off n
  let codes := workCodes w
  let find : Nat → Option (Nat × Nat × Nat) := fun x => codes.find? (fun e => decide (e.1 = x))
  match (src.zipIdx).find? (fun p => (find p.1.1).isNone) with
  | some p => stopWith (.fatal .chainBad (BitVec.ofNat 64 (4096 * b + p.2)))
  | none => pure ()
  let bits := src.flatMap (fun p => match find p.1 with
    | some e => (List.range e.2.2).map (fun i => e.2.1.testBit (e.2.2 - 1 - i))
    | none => [])
  let dirty := src.any Prod.snd || decide (w.getD 4 0 ≠ 0)
  let out := leBytes 4 bits.length ++ leBytes 2 n ++ leBytes 2 0 ++ leBytes 4 (crc32c (src.map Prod.fst)) ++ leBytes 4 0
    ++ packDown bits
  modC c (fun d => { d with
    olds := d.olds ++ out.map (fun x => (x, dirty)), work := (b + 1) :: (off + n) :: d.work.drop 2 })

/-- Every block of a CCOMP is packed. -/
def compAll (f : CopyF) (d : Chain) : Bool := decide (f.len.toNat ≤ 4096 * d.work.getD 0 0)

/-- A chunk of CCOMP's output, up to n bytes. -/
def compChunk (c : Chain) (f : CopyF) (n : Nat) : CopyM (List (Option Nat × Bool)) := do
  if !c.begun then compHead c f
  fillTo c (compBlock c f) n (compAll f) 9
  pure (whole (← takeOut c n))

/-! ### Encryption (R297 to R300) -/

/-- The key slot as its check finds it: bound by a TDI that is in RUN for the job of the chain's context, which is confidential (R297, R386,
R414). -/
def State.gcmFor (s : State) (c : Chain) (f : CopyF) : Option GcmSlot :=
  let k := s.ctx c.seq c.ctx
  let g := tget ⟨0, 0, 0, none, 0⟩ s.gcm (f.aux.toNat % 32)
  let run : Bool := match g.tdi with
    | some n => let d := tget ⟨0, 0, 0⟩ s.tdis n; decide (d.state = 2 ∧ d.job = k.jobid)
    | none => false
  if run && decide (g.job = k.jobid) && k.conf.getLsbD 63 then some g else none

/-- The 96-bit IV: the nonce prefix followed by the count, both big-endian (R298). -/
def ivOf (g : GcmSlot) (n : Nat) : List Nat := beBytes 8 g.nonce.toNat ++ beBytes 4 n

/-- The key's bytes. -/
def keyOf (g : GcmSlot) : List Nat := beBytes 32 g.key.toNat

/-- The count a command has spent. -/
def spent (w : List Nat) : Nat := w.getD 0 0

/-- CDEC begins: the slot, the count, and the seals; a bank that another chain has sealed since its start refuses it (R298, R299). -/
def decBegin (c : Chain) (f : CopyF) : CopyM Unit := do
  let s ← get
  if !(banksOf (c.dstField f).toNat f.len.toNat).all (fun b => s.scratchOk c.seq c.ctx c.tile b) then
    stopWith (.fatal .spRange (c.dstField f))
  match s.gcmFor c f with
  | none => fatalFree .keyUnbound
  | some g =>
    let p ← readSrc c f false 0 16
    let n := leAt p 0 4
    if n ≤ g.last.toNat then stopWith (.fatal .ivReplay (BitVec.ofNat 64 n))
    else
      let k := f.aux.toNat % 32
      modify (fun s => { s with gcm := tput s.gcm k { g with last := BitVec.ofNat 32 n } })
      modC c (fun d => { d with begun := true, work := [n], olds := p, slot := some g })
      modify (fun s => (banksOf (c.dstField f).toNat f.len.toNat).foldl (fun s b =>
        s.modTile c.tile (fun t => t.modBank b (fun k => { k with sealed := some c.id }))) s)

/-- An access of a sequencer that was issued before a chain's banks were sealed has not performed (R299). -/
def State.sealMet (s : State) (c : Chain) : Bool :=
  let l := s.sealedBy c
  s.accs.any (fun a => decide (a.tile = c.tile) && a.banks.any (fun b => decide (b ∈ l)))

/-- A chunk of CDEC's plaintext; it carries no poison. Accesses from before the seal perform first: none sees the plaintext or writes over
it (R299). -/
def decChunk (c : Chain) (f : CopyF) (n : Nat) : CopyM (List (Option Nat × Bool)) := do
  let s ← get
  match (← nowC c).slot with
  | none => do
    fatalFree .keyUnbound
    pure []
  | some g =>
    if s.sealMet c then stopWith .busy
    let ct ← readSrc c f false (16 + c.at_) n
    modC c (fun d => { d with olds := d.olds ++ ct })
    pure ((xorList (ct.map Prod.fst) (gcmStream (keyOf g) (ivOf g (spent c.work)) c.at_ n)).map (fun b => (some b, false)))

/-- CDEC ends: the tag over what it has read (R298, R299). -/
def decEnd (c : Chain) (f : CopyF) : CopyM Unit := do
  match (← nowC c).slot with
  | none => fatalFree .keyUnbound
  | some g =>
    let tag ← readSrc c f false (16 + f.len.toNat) 16
    let d ← nowC c
    let aad := (d.olds.take 16).map Prod.fst
    let ct := (d.olds.drop 16).map Prod.fst
    if d.ueSeen || d.badSeen || decide (tag.map Prod.fst ≠ gcmTag (keyOf g) (ivOf g (spent d.work)) aad ct) then
      stopWith (.fatal .gcmTagFail (c.dstField f))
    else
      modify (fun s => s.unseal d false)

/-- CENC begins: its slot and the next count; the first four bytes of the source's prefix are ignored (R298, R300). -/
def encBegin (c : Chain) (f : CopyF) : CopyM Unit := do
  let s ← get
  match s.gcmFor c f with
  | none => fatalFree .keyUnbound
  | some g =>
    if g.last = 0xFFFFFFFF then fatalFree .ivReplay
    else
      let n := g.last + 1
      let p ← readSrc c f false 0 16
      modify (fun s => { s with gcm := tput s.gcm (f.aux.toNat % 32) { g with last := n } })
      modC c (fun d => { d with
        begun := true, work := [n.toNat], slot := some g,
        olds := (leBytes 4 n.toNat).map (fun b => (b, false)) ++ p.drop 4 })

/-- A chunk of CENC's output: prefix, ciphertext, tag (R298, R300). -/
def encChunk (c : Chain) (f : CopyF) (n : Nat) : CopyM (List (Option Nat × Bool)) := do
  match (← nowC c).slot with
  | none => do
    fatalFree .keyUnbound
    pure []
  | some g =>
    let iv := ivOf g (spent c.work)
    let want := min (16 + f.len.toNat) (c.at_ + n)
    let have_ := c.olds.length
    if have_ < want then
      let p ← readSrc c f false have_ (want - have_)
      let x := xorList (p.map Prod.fst) (gcmStream (keyOf g) iv (have_ - 16) (want - have_))
      modC c (fun d => { d with olds := d.olds ++ x.zip (p.map Prod.snd) })
    let d ← nowC c
    let body := (d.olds.drop c.at_).take (want - c.at_)
    if want < c.at_ + n then
      let tag := gcmTag (keyOf g) iv ((d.olds.take 16).map Prod.fst) ((d.olds.drop 16).map Prod.fst)
      let from_ := c.at_ + body.length - (16 + f.len.toNat)
      let dirty := d.olds.any Prod.snd
      pure (whole (body ++ ((tag.drop from_).take (n - body.length)).map (fun b => (b, dirty))))
    else pure (whole body)

/-! ### Batch atomics (R296) -/

/-- An element of the accumulator tile after the operator: 0 ADD, 1 SWP, 2 MIN, 3 MAX. -/
def atomElem (op : Nat) (t : Tag) (old x : Nat) : Nat × Flags :=
  match op with
  | 0 => accAdd t old (elemVal t x)
  | 1 => (x, Flags.none)
  | 2 => minmaxElem false t old x
  | _ => minmaxElem true t old x

/-- A batch of elements of w bytes of a tile tagged `t` after the operator: each with its flags and whether it is bad. -/
def atomBatch (op : Nat) (t : Tag) (w : Nat) (old x : List (Nat × Bool)) : List ((Nat × Flags) × Bool) :=
  (List.range (x.length / w)).map (fun i =>
    (atomElem op t (leAt old (w * i) w) (leAt x (w * i) w),
      ((old.drop (w * i)).take w).any Prod.snd || ((x.drop (w * i)).take w).any Prod.snd))

/-- The bytes of a batch. -/
def batchBytes (w : Nat) (l : List ((Nat × Flags) × Bool)) : List (Option Nat × Bool) :=
  l.flatMap (fun e => (leBytes w e.1.1).map (fun b => (some b, e.2)))

/-- A chunk of CATOM over this package's tile: n bytes of elements from the command's place on. -/
def atomChunk (c : Chain) (f : CopyF) (n : Nat) : CopyM (List (Option Nat × Bool)) := do
  let w := if f.aux.getLsbD 0 then 8 else 4
  let x ← readSrc c f false c.at_ n
  let ps ← refSpans c f c.at_ n true
  let s ← get
  if ps.any (fun p => !s.spanFree c true p) then stopWith .busy
  else
    let old := ps.flatMap s.spanBytes
    let t := match ps.head? with
      | some (.pool k off _) => s.slotTag k (off / 0x4000)
      | _ => tF32
    let r := atomBatch f.flags.toNat t w old x
    modC c (fun d => { d with olds := d.olds ++ old, flags := r.foldl (fun g e => g.or e.1.2) d.flags })
    pure (batchBytes w r)

/-- What a remote CATOM waits for: its operands have left and the old values have not come. -/
def Chain.awaits (c : Chain) : Bool := decide (c.work = [1])

/-- CATOM over a peer's tile: the whole batch leaves as one message on virtual channel 1, with its operator, and the chain waits for
the old values (R296, R323, R388). -/
def atomSend (c : Chain) (f : CopyF) (n : Nat) : CopyM Unit := do
  let x ← readSrc c f false 0 n
  let s ← get
  let port := portTo (dieOf c.tile) c.dd.peer.toNat
  if c.awaits || !s.clear port 1 (flitsFor n) then stopWith .busy
  else
    let a := c.dd.base.toNat + (c.dstField f).toNat
    let m : AtomF := { back := false, op := f.flags.setWidth 2, wide := f.aux.getLsbD 0, chain := c.id, fault := none, flags := 0 }
    let s := s.sendMsg State.sendFlit (dieOf c.tile) 1 c.dd.peer (s.chainJob c) a x (some m) none
    set (s.modChain c.id (fun d => { d with acks := d.acks ++ [(port, (s.link port).txSeq - 1)], work := [1] }))

/-- CATOM ends: the operands take the old values (R296). -/
def atomEnd (c : Chain) (f : CopyF) : CopyM Unit := do
  let d ← nowC c
  let moved := d.moved
  writeSpans d [.pool c.tile (c.srcField f).toNat d.olds.length] (whole d.olds) false
  modC c (fun d => { d with moved := moved })

/-! ### COPY_CHUNK (R276, R286 to R289) -/

/-- Bytes a command writes; none where it is not known before its end. -/
def destLen (i : Instr) (f : CopyF) : Option Nat :=
  match i with
  | .cconv _ _ => some (convLay (convOf f.aux) f.len.toNat false).total
  | .ccomp _ _ => none
  | .cenc _ _ => some (f.len.toNat + 32)
  | .catom _ _ => some (f.len.toNat * (if f.aux.getLsbD 0 then 8 else 4))
  | _ => some f.len.toNat

/-- The fields of a data command. -/
def dataF (i : Instr) : Option CopyF :=
  match i with
  | .cmov _ f => some f
  | .czero _ f => some f
  | .cconv _ f => some f
  | .cexp _ f => some f
  | .ccomp _ f => some f
  | .cdec _ f => some f
  | .cenc _ f => some f
  | .catom _ f => some f
  | _ => none

/-- The bytes of the chunk that begins at the command's place, n of them or, of a CCOMP, up to n. -/
def chunkOut (c : Chain) (i : Instr) (f : CopyF) (n : Nat) : CopyM (List (Option Nat × Bool)) :=
  match i with
  | .cmov _ _ => do
    let b ← readSrc c f true c.at_ n
    pure (whole b)
  | .cconv _ _ => convChunk c f n
  | .cexp _ _ => expChunk c f n
  | .ccomp _ _ => compChunk c f n
  | .cdec _ _ => decChunk c f n
  | .cenc _ _ => encChunk c f n
  | .catom _ _ => atomChunk c f n
  | _ => pure (List.replicate n (some 0, false))

/-- What the command does once, before its first chunk; the answer says that it is done. -/
def beginData (c : Chain) (i : Instr) (f : CopyF) : CopyM Unit :=
  match i with
  | .cdec _ _ => decBegin c f
  | .cenc _ _ => encBegin c f
  | .cexp _ _ => expHead c f
  | .cmov _ _ => do
    let s ← get
    let comp := c.ds.attr.testBit 2 && decide (f.hsrc ≠ 0) || s.srcMarked c f f.len.toNat
    modC c (fun d => { d with begun := true, comp := comp })
  | _ => pure ()

/-- A command that begins with a step of its own. -/
def ownBegin (i : Instr) : Bool :=
  match i with
  | .cdec _ _ => true
  | .cenc _ _ => true
  | .cexp _ _ => true
  | .cmov _ _ => true
  | _ => false

/-- What the command does once, after its last chunk. -/
def endData (c : Chain) (i : Instr) (f : CopyF) : CopyM Unit :=
  match i with
  | .cdec _ _ => decEnd c f
  | .catom _ _ => atomEnd c f
  | _ => pure ()

/-- The output of a command carries the compressed mark (R295). -/
def outComp (c : Chain) (i : Instr) : Bool :=
  match i with
  | .cmov _ _ => c.comp
  | .ccomp _ _ => true
  | _ => false

/-- Output that has been written is kept no longer, but what a tag or CATOM's end needs. -/
def dropOut (c : Chain) (i : Instr) (n : Nat) : CopyM Unit :=
  match i with
  | .cexp _ _ => modC c (fun d => { d with olds := d.olds.drop n })
  | .ccomp _ _ => modC c (fun d => { d with olds := d.olds.drop n })
  | _ => pure ()

/-- Everything of a command has been moved. -/
def Chain.atEnd (c : Chain) (i : Instr) (f : CopyF) : Bool :=
  match destLen i f with
  | some t => decide (t ≤ c.at_)
  | none => c.begun && compAll f c && decide (c.olds = [])

/-- The next step of a command is a chunk: neither its beginning nor its end. -/
def Chain.atChunk (c : Chain) (i : Instr) (f : CopyF) : Bool := !(ownBegin i && !c.begun) && !c.atEnd i f

/-- A CMOV or CZERO to a peer. -/
def toPeer (c : Chain) (i : Instr) (f : CopyF) : Bool :=
  decide (f.hdst ≠ 0 ∧ (c.dd.loc = 2 ∨ c.dd.loc = 4)) && (match i with
    | .cmov _ _ => true
    | .czero _ _ => true
    | _ => false)

/-- A CSIG that stands directly after the command in progress: its place, its counter reference and its length (R409). -/
def State.nextSig (s : State) (c : Chain) : Option (Nat × BitVec 32 × BitVec 32) :=
  let n := (loopNext c.loops (c.pc + 32)).2
  match decCopy c.id (s.rdPool c.tile n 32) with
  | some (.csig _ g) => if (signalBad g).isNone then some (n, g.src.setWidth 32, g.len) else none
  | _ => none

/-- A command of no bytes to a peer sends one flit without payload, and with it the CSIG that follows (R409); it addresses no byte, and its
address is 0 (log 115). -/
def sendEmpty (c : Chain) : CopyM Unit := do
  let s ← get
  let port := portTo (dieOf c.tile) c.dd.peer.toNat
  if !s.clear port 0 1 then stopWith .busy
  else
    let g := s.nextSig c
    let s := s.sendMsg State.sendFlit (dieOf c.tile) 0 c.dd.peer (s.chainJob c) 0 [] none (g.map Prod.snd)
    set (s.modChain c.id (fun d => { d with acks := d.acks ++ [(port, (s.link port).txSeq - 1)], carried := g.map Prod.fst }))

/-- One step of a data command: its beginning, a chunk, or its end; the last message to a peer takes a CSIG that follows with it (R409).
Answers whether the command is done. -/
def copyStep (c : Chain) (i : Instr) (f : CopyF) : CopyM Bool :=
  if ownBegin i && !c.begun then do
    beginData c i f
    pure false
  else
    let total := destLen i f
    if c.atEnd i f then do
      endData c i f
      if toPeer c i f && decide (f.len = 0) then sendEmpty c
      pure true
    else do
      let base := if f.hdst = 0 then 0 else c.dd.base.toNat
      let room := 4096 - (base + (c.dstField f).toNat + c.at_) % 4096
      let n := match total with
        | some t => min room (t - c.at_)
        | none => room
      if decide (f.hdst ≠ 0) && c.atomic then
        atomSend c f (total.getD 0)
        pure false
      else
        let bs ← chunkOut c i f n
        let d ← nowC c
        let s ← get
        let g := if toPeer c i f && decide (total = some (c.at_ + bs.length)) then s.nextSig c else none
        writeDst c f c.at_ bs (outComp d i) (g.map Prod.snd)
        dropOut c i bs.length
        modC c (fun d => { d with at_ := d.at_ + bs.length, carried := g.map Prod.fst })
        pure false

/-- The command is done: the chain goes on, and knows of a CSIG that has left (R279, R409). -/
def State.commandDone (s : State) (c : Chain) : State :=
  s.modChain c.id (fun d => { d.goTo (d.pc + 32) with carried := d.carried })

/-- A command writes the byte at a place of its destination; a CCONV leaves the gaps between its parts as they are (R290). -/
def writesAt (i : Instr) (f : CopyF) (p : Nat) : Bool :=
  match i with
  | .cconv _ _ =>
    let k := convOf f.aux
    let d := convLay k f.len.toNat false
    decide (p < d.elems ∨ (d.at2 ≤ p ∧ p < d.at2 + d.len2) ∨ (k.mode = 1 ∧ d.at3 ≤ p))
  | _ => true

/-- The bytes written to a revoked destination are zeroed, chunk by chunk downwards (R286). -/
def wipeDst (c : Chain) (i : Instr) (f : CopyF) : Nat → CopyM Unit
  | 0 => pure ()
  | fuel + 1 => do
    let d ← nowC c
    if d.at_ = 0 then pure ()
    else
      let base := if f.hdst = 0 then 0 else c.dd.base.toNat
      let last := base + (c.dstField f).toNat + d.at_
      let n := min d.at_ ((last - 1) % 4096 + 1)
      let moved := d.moved
      writeDst d f (d.at_ - n) ((List.range n).map (fun j => (if writesAt i f (d.at_ - n + j) then some 0 else none, false))) false
      modC c (fun d => { d with at_ := d.at_ - n, moved := moved })
      wipeDst c i f fuel

/-- A page fault suspends a chain where it stands, and is reported (R287). -/
def State.suspend (s : State) (c : Chain) (i : Instr) (e : Cause) (va : Word) : State :=
  (s.modChain c.id (fun d => { d with st := .susp i e va })).postA c.seq e va

/-- The chunk boundary at which a command that is to end stands: a CATOM whose operands have left for a peer waits for their old values,
and one whose elements have all performed writes the old values first. None where that waits (R274, R286, R296). -/
def State.boundary (s : State) (c : Chain) (i : Instr) (f : CopyF) : Option State :=
  if c.awaits then (if s.linkLost c then some s else none)
  else if c.atomic && c.atEnd i f then
    match (endData c i f).run s with
    | (.ok _, t) => some t
    | _ => none
  else some s

/-- A command that uses a revoked handle ends at its chunk boundary; what it wrote to a revoked destination is zeroed first. None
where that waits (R286). -/
def State.endRevoked (s : State) (c : Chain) (i : Instr) (f : CopyF) : Option State :=
  let v := BitVec.ofNat 64 c.moved
  let ended : State → State := fun t => t.chainEnd c.id (some .handleRevoked) v false
  if f.hdst ≠ 0 ∧ handleSlot f.hdst ∈ c.revoked then
    match (wipeDst c i f (c.at_ / 4096 + 2)).run s with
    | (.error .busy, _) => none
    | (.error (.held va), _) => some { s with agenda := s.agenda ++ [.held va] }
    | (.error (.page e va), _) => some ((s.modChain c.id (fun d => { d with wiping := true })).suspend c i e va)
    | (_, t) => some (ended t)
  else some (ended s)

/-- A step of a chain's data command; none where it waits. A page fault suspends the chain, and nothing of the chunk has begun
(R287); a write to a HELD page waits for its copy (R322); a bank or link that is not free makes the chunk wait (R256, R391); a revoked
handle ends the chain at the chunk boundary (R286). -/
def State.chunkTry (s : State) (ch : Nat) : Option State :=
  match s.chain ch with
  | none => none
  | some c =>
    match c.st with
    | .move i =>
      match dataF i with
      | none => none
      | some f =>
        if c.revoked ≠ [] then
          (if c.wiping then some s else s.boundary c i f).bind (fun t => t.endRevoked c i f)
        else
          match (copyStep c i f).run s with
          | (.ok true, t) => some (t.commandDone c)
          | (.ok false, t) => some t
          | (.error .busy, _) => none
          | (.error (.held va), _) => some { s with agenda := s.agenda ++ [.held va] }
          | (.error (.page e va), _) => some (s.suspend c i e va)
          | (.error (.fatal e v), t) => some (t.chainEnd ch (some e) v false)
    | _ => none

/-- COPY_CHUNK: the engine completes a step of a chain's data command. -/
def execCopyChunk (ch : Nat) (s : State) : Out := .next ((s.chunkTry ch).getD s)

/-! ### The chain's own steps -/

/-- A CDEC or CENC in progress whose key slot has been unbound (R386). -/
def Chain.keyLost (c : Chain) : Bool :=
  c.begun && decide (c.slot = none) && c.crypt.isSome

/-- A chain of a task that is cut for a snapshot or a rollback pauses (R316, R332). -/
def State.chainPaused (s : State) (c : Chain) : Bool :=
  match c.task.bind s.task with
  | some t => decide (t.st = .cut ∨ t.st = .rolled)
  | none => false

/-- The chain reads its next entry and executes it (R279). -/
def State.chainFetch (s : State) (c : Chain) : Out :=
  let b := bankOf c.pc
  let v := BitVec.ofNat 64 c.pc
  if 2 ^ 22 < c.pc + 32 ∨ s.scratchOk c.seq c.ctx c.tile b = false then
    .next ((s.modChain c.id Chain.fresh).fatal c.id (.spRange, v))
  else if !s.bankFree c.tile b then .next s
  else
    match (s.gran c.tile c.pc).mark with
    | .ue => .next ((s.modChain c.id Chain.fresh).fatal c.id (.eccUe, v))
    | .poison => .next ((s.modChain c.id Chain.fresh).fatal c.id (.poisonUse, v))
    | .clean =>
      match decCopy c.id (s.rdPool c.tile c.pc 32) with
      | some (.cmov h f) => execCmov h f s
      | some (.cconv h f) => execCconv h f s
      | some (.cexp h f) => execCexp h f s
      | some (.ccomp h f) => execCcomp h f s
      | some (.cdec h f) => execCdec h f s
      | some (.cenc h f) => execCenc h f s
      | some (.catom h f) => execCatom h f s
      | some (.czero h f) => execCzero h f s
      | some (.cloop h f) => execCloop h f s
      | some (.cif h f) => execCif h f s
      | some (.csig h f) => execCsig h f s
      | some (.ccw h f) => execCcw h f s
      | some (.clink h f) => execClink h f s
      | some (.cend h f) => execCend h f s
      | _ => .next ((s.modChain c.id Chain.fresh).fatal c.id (.chainBad, 0))

/-- The state that a step answers, or the one before it. -/
def Out.after (o : Out) (s : State) : State :=
  match o with
  | .next t => t
  | _ => s

/-- A chain asks for a stop, and stops at the start of an entry as well: nothing of the entry has moved (R275). -/
def State.endNow (s : State) (id : Nat) (cause : Option Cause) (v : Word) (stopped : Bool) : State :=
  (s.modChain id (fun c => if c.st = .next then c.fresh else c)).chainEnd id cause v stopped

/-- The next step of a chain; none where it waits (R276). -/
def State.chainTry (s : State) (id : Nat) : Option State :=
  match s.chain id with
  | none => none
  | some c =>
    match c.st with
    | .ending e v b => if s.mayEnd c (c.stop || b) then some ((s.unseal c true).chainFinish c e v b) else none
    | .susp i _ _ =>
      if (c.revoked ≠ [] ∧ c.wiping = false) ∨ c.keyLost = true then (s.modChain id (fun c => { c with st := .move i })).chunkTry id else none
    | .ccw t k x => if x.toNat ≤ (s.ctrVal t k).toNat then some ((execCcwSatisfied id s).after s) else none
    | .move i =>
      if c.stop && decide (c.revoked = []) then
        (match dataF i with
          | some f => s.boundary c i f
          | none => some s).map (fun (t : State) => t.chainEnd id none 0 true)
      else if s.chainPaused c then none
      else s.chunkTry id
    | .next =>
      if c.stop then some (s.endNow id none 0 true)
      else if s.chainPaused c || !c.performedAll || !s.bankFree c.tile (bankOf c.pc) then none
      else some ((s.chainFetch c).after s)

/-- One step of a chain (R276). -/
def State.chainStep (s : State) (id : Nat) : Out := .next ((s.chainTry id).getD s)

/-- The chain's next step is a chunk. -/
def Chain.chunks (c : Chain) : Bool :=
  match c.st with
  | .move i => (match dataF i with
    | some f => c.atChunk i f
    | none => false)
  | _ => false

/-- A turn of a tile's engine: what its chains do beside chunks, then one chunk, of the first chain in the rotation that can make
one; that chain then stands last (R276). -/
def State.copyTurn (s : State) (t : Nat) : State :=
  let mine : State → Bool → List Nat := fun s b =>
    (s.chains.filter (fun c => decide (c.tile = t) && decide (c.chunks = b))).map (fun c => c.id)
  let s := (mine s false).foldl (fun s id => (s.chainTry id).getD s) s
  match (mine s true).findSome? (fun id => (s.chainTry id).map (fun u => (id, u))) with
  | none => s
  | some (id, u) =>
    { u with chains := u.chains.filter (fun c => decide (c.id ≠ id)) ++ u.chains.filter (fun c => decide (c.id = id)) }

/-! ### CPSTOP and CPRESUME (R274, R287) -/

/-- A chain is asked to stop: one that moves data stops at its next chunk boundary, any other ends at once. One that a page fault has
suspended as it zeroes a revoked destination goes on with that: its counter is not signalled before (R286, log 115). -/
def State.stopChain (s : State) (c : Chain) : State :=
  match c.st with
  | .move _ => s.modChain c.id (fun c => { c with stop := true })
  | .ending _ _ _ => s.modChain c.id (fun c => { c with stop := true })
  | .susp i _ _ => if c.wiping then s.modChain c.id (fun c => { c with st := .move i, stop := true }) else s.endNow c.id none 0 true
  | _ => s.endNow c.id none 0 true

/-- CPSTOP: every active chain of the issuing task on the tile with that completion counter (R274). -/
def State.cpStop (s : State) (x c : Nat) (ctr : BitVec 6) : State :=
  let task := (s.ctx x c).task
  (s.chains.filter (fun h => decide (h.tile = tileOf x ∧ h.ctr = ctr)
    && (if task.isSome then decide (h.task = task) else decide (h.seq = x ∧ h.ctx = c)))).foldl (fun s h => s.stopChain h) s

/-- CPRESUME with K = 0: the suspended chains of a counter try their chunk again (R287). -/
def execCpresumeRetry (y : TileId) (ctr : BitVec 6) (s : State) : Out :=
  .next { s with chains := s.chains.map (fun c =>
    if c.tile = tileKey y ∧ c.ctr = ctr then
      match c.st with
      | .susp i _ _ => { c with st := .move i }
      | _ => c
    else c) }

/-- CPRESUME with K = 1: they end with the page-fault cause, value the address (R287). One that zeroes a revoked destination goes on with
that, as by K = 0 (R286, log 115). -/
def execCpresumeEnd (y : TileId) (ctr : BitVec 6) (s : State) : Out :=
  .next ((s.chains.filter (fun c => decide (c.tile = tileKey y ∧ c.ctr = ctr))).foldl (fun s c =>
    match c.st with
    | .susp i e va =>
      if c.wiping then s.modChain c.id (fun c => { c with st := .move i }) else s.chainEnd c.id (some e) va false
    | _ => s) s)

end Sys2Proof.Machine
end

