-- ==== Sys2Proof/Machine/Effects.lean ====
section
/-! DEFINITION. The end of a cycle: effects that are due, in their order, then the landings of every unfrozen sequencer
(R42 to R47, R118, R146, R198, R208, R211, R212, R219, R221, R228, R235, R242, R305, R309, R310, R337, R342, R358). -/

namespace Sys2Proof.Machine

/-! ### Reads of the end of a cycle -/

/-- The context whose landing clock counts in this cycle: the running one, unless it is frozen (R22). -/
def State.clocked (s : State) (x : Nat) : Option Nat :=
  let q := s.seq x
  match q.active with
  | none => none
  | some c =>
    let k := s.ctx x c
    if k.waits = [] ∧ k.done = false ∧ q.halt ≠ .bringup ∧ q.halt ≠ .supfault then some c else none

/-- The flags that are ORed into a context at the end of this cycle. -/
def State.flagsNow (s : State) (x c : Nat) : Flags :=
  let land := if s.clocked x = some c then
      (s.ctx x c).flights.foldl (fun f g => if g.remaining = 1 then f.or g.flags else f) Flags.none
    else Flags.none
  s.flagsDue.foldl (fun f e => if e.1 = x ∧ e.2.1 = c then f.or e.2.2 else f) land

/-- FLAGS as at the end of this cycle. -/
def State.flagsRead (s : State) (x c : Nat) : Word := ((s.ctx x c).flags.or (s.flagsNow x c)).toWord

/-- HDSEL as it stands at the end of this cycle (R341). -/
def State.hdselNow (s : State) (x c : Nat) : Word :=
  s.pending.foldl (fun w e =>
    match e.2 with
    | .ev (.reg y d 0x017 v) => if e.1 = s.gclk ∧ y = x ∧ d = c then v &&& 0x3FF else w
    | _ => w) (s.ctx x c).hdsel

/-- A system register as SYSRD reads it at the end of this cycle (R337, R341). -/
def State.sysReadNow (s : State) (x c i : Nat) : Word :=
  if i = 0x010 then s.flagsRead x c
  else if i = 0x018 then
    let k := s.ctx x c
    tget 0 k.handles ({ k with hdsel := s.hdselNow x c }).hword
  else s.sysRead x c i

/-- The value of a flight of one scalar. -/
def State.fill (s : State) (x c id : Nat) (v : Word) : State :=
  s.modFlight x c id (fun f => { f with vals := [⟨v, .clean⟩] })

/-! ### Accumulator banks (R221) -/

/-- The banks an ACALLOC of n grants. -/
def State.freeAcc (s : State) (x c n : Nat) : List Nat :=
  let t := s.tile (tileOf x)
  let l := (List.range 64).filter (fun b =>
    let k := t.bank b
    decide (k.role = .acc ∧ k.owner.isSome ∧ k.owner = (s.ctx x c).task ∧ k.alloc = false ∧ k.zeroTo = none))
  if 1 ≤ n ∧ n ≤ l.length then l.take n else []

/-- The mask of some banks. -/
def maskOf (l : List Nat) : Word := BitVec.ofNat 64 ((l.map (fun b => 2 ^ b)).sum)

/-- Slot tags of a run of slots. -/
def Tile.setTags (r : Tile) (slot n : Nat) (tag : Tag) : Tile :=
  { r with slotTags := (List.range n).foldl (fun m i => tset tVOID m (slot + i) tag) r.slotTags }

/-- A granted bank: +0 in every slot, tagged F32, its band table empty. -/
def State.grantBank (s : State) (t b : Nat) : State :=
  (s.wipeBank t b).modTile t (fun r => (r.modBank b (fun k => { k with alloc := true })).setTags (4 * b) 4 tF32)

/-- ACALLOC's grant, and the mask that lands. -/
def State.grant (s : State) (x c n flight : Nat) : State :=
  let l := s.freeAcc x c n
  (l.foldl (fun s b => s.grantBank (tileOf x) b) s).fill x c flight (maskOf l)

/-- ACFREE's release: the bank is zeroed until 64 cycles from now. -/
def State.release (s : State) (t b : Nat) : State :=
  (s.wipeBank t b).modTile t (fun r => r.modBank b (fun k => { k with alloc := false, zeroTo := some (s.gclk + 64) }))

/-! ### Shadows -/

/-- One field of one level of a nest shadow (R210). -/
def NestLevel.put (l : NestLevel) (fld : BitVec 2) (v : BitVec 20) : NestLevel :=
  match fld.toNat with
  | 0 => { l with bound := v.setWidth 16, role := v.extractLsb' 18 2 }
  | 1 => { l with sa := v }
  | 2 => { l with sb := v }
  | _ => { l with sc := v }

/-- The table of the VGTAB that issued two cycles before cycle c becomes the shadow (R235). -/
def TaskTile.takeTab (t : TaskTile) (x c : Nat) : TaskTile :=
  let base := 512 * (x % 2) + 256 * (c % 2)
  let es := List.range 256
  { t with
    vtab := es.foldl (fun m i => tset 0 m i (tget 0 t.inVtab (base + i))) t.vtab,
    vtabBad := es.foldl (fun m i => tset false m i (tget false t.inBad (base + i))) t.vtabBad }

/-! ### One effect -/

/-- VGSTOP on a tile by a task (R242). -/
def State.vgStop (s : State) (t task : Nat) : State :=
  match (s.tile t).vg with
  | some v => if v.task = task ∧ v.completed = false then s.setVg t (some { v with stopAsked := true }) else s
  | none => s

/-- A ring handle's binding, to the owner its RBIND had: a task that has ended in the meantime binds nothing (R308, R309). -/
def State.bindRing (s : State) (t : Nat) (o : Nat × Nat) (h : BitVec 4) (f e : BitVec 6) (base : BitVec 32) (n : Nat) : State :=
  if o.1 = 0 ∧ s.task o.2 = none then s
  else s.modTile t (fun r => { r with rings := tput r.rings h.toNat ⟨some o, f, e, n, base, base⟩ })

/-- An advance of a ring pointer (R310). -/
def State.modRing (s : State) (t : Nat) (h : BitVec 4) (g : Ring → Ring) : State :=
  s.modTile t (fun r => { r with rings := tput r.rings h.toNat (g (r.ring h.toNat)) })

/-- CRD's value (R302, R306). -/
def Counter.word (r : Counter) (sel : BitVec 2) : Word :=
  match sel.toNat with
  | 0 => r.value.setWidth 64
  | 1 => r.w1
  | 2 => r.w2
  | _ => r.w3

/-- An effect takes place. -/
def State.applyEff (s : State) (e : Eff) : State :=
  match e with
  | .flagsClear x c v => s.modCtx x c (fun k => { k with flags := Flags.ofWord (k.flags.toWord &&& ~~~v) })
  | .scl x c e code => s.modTt x c (fun t => { t with scl := tset 0x7F t.scl e.toNat code })
  | .nest x c l fld v => s.modCtx x c (fun k => { k with nest := k.nest.modify l.toNat (fun n => n.put fld v) })
  | .mxFmt x c fa fb g => s.modCtx x c (fun k => { k with cfg := { k.cfg with fa := fa, fb := fb, g := g } })
  | .mxPa x c p => s.modCtx x c (fun k => { k with cfg := { k.cfg with pa := p } })
  | .mxPb x c p => s.modCtx x c (fun k => { k with cfg := { k.cfg with pb := p } })
  | .tmode x c m => s.modTt x c (fun t => { t with tmode := m })
  | .katExp x c v => s.modCtx x c (fun k => { k with katExp := v })
  | .vgtab x c => s.modTt x c (fun t => t.takeTab x s.gclk)
  | .ev e => { s with agenda := s.agenda ++ [e] }
  | .remWrite x v =>
    let w := s.remselNow x
    let d := s.freeWord.toNat % 64
    let s := s.drawn.modSeq x (fun q => { q with remq := q.remq ++ [(w, v)] })
    -- at the end of one of the 64 cycles after the issue cycle (R342)
    { s with env := s.env ++ [(s.gclk + 2 + d, .remWrite x v)] }
  | .ctr u => s.ctrUpdate u
  | .ringBind t o h f e base n => s.bindRing t o h f e base n
  | .ringP t h k => s.modRing t h (fun r => { r with p := r.p + (k.setWidth 32 + 1) })
  | .ringC t h k => s.modRing t h (fun r => { r with c := r.c + (k.setWidth 32 + 1) })
  | .grant x c n f => s.grant x c n f
  | .free x _ m => (maskBanks m).foldl (fun s b => s.release (tileOf x) b) s
  | .zeroSlots t slot n tag => (s.zeroPool t (slot * 0x4000) (n * 0x4000)).modTile t (fun r => r.setTags slot n tag)
  | .band t slot e b =>
    let key := 4 * s.tileNumber t slot + e.toNat
    s.modTile t (fun r => match b with
      | some v => { r with bands := tput r.bands key ⟨v.1, v.2.1, v.2.2⟩ }
      | none => { r with bands := terase r.bands key })
  | .crd x c r sel f =>
    let t := tileOf x
    (s.fill x c f (((s.tile t).counter r.toNat).word sel)).modFlight x c f (fun g => { g with
      obs := if sel = 0 then s.told t r.toNat else none })
  | .sysr x r i c clr f =>
    let v := s.sysReadNow x r i
    let s := s.fill x c f v
    if clr then { s with pending := s.pending ++ [(s.gclk + 1, .flagsClear x r v)] } else s
  | .mxstop x => s.stopNest x
  | .vgstop t task => s.vgStop t task
  | .cpstop x c ctr => s.cpStop x c ctr
  | .zerobStart _ a m =>
    { s.zeroHbm a.toNat (4096 * m.toNat) with zeroing := s.zeroing ++ [(a.toNat, 4096 * m.toNat)] }

/-- The place of an effect among those of one cycle: reads of system registers, then what is neither a counter's nor
a read, then counters set, then counters added to, then reads of counters (R305, R306, R337). -/
def Eff.rank (e : Eff) : Nat :=
  match e with
  | .sysr .. => 0
  | .ctr u => if u.set.isSome then 2 else 3
  | .crd .. => 4
  | _ => 1

/-- The effects that are due at the end of this cycle. They stand among those pending while they take place, so that a read or write of
HDDATA or REMDATA finds HDSEL or REMSEL as at the cycle's end (R341, R342). -/
def State.dueEffects (s : State) : State :=
  let due := (s.pending.filter (fun e => decide (e.1 ≤ s.gclk))).map Prod.snd
  let rest : State → State := fun s => { s with pending := s.pending.filter (fun e => decide (s.gclk < e.1)) }
  let pass : State → Nat → State := fun s r => (due.filter (fun e => decide (Eff.rank e = r))).foldl State.applyEff s
  rest (pass (pass (pass (pass (pass s 0) 1) 2) 3) 4)

/-! ### Landings (R42 to R47) -/

/-- Push a scalar value. -/
def Ctx.pushS (k : Ctx) (v : SVal) : Ctx := { k with q := (v :: k.q).take 16 }

/-- Push a vector value. -/
def Ctx.pushV (k : Ctx) (v : Vec) : Ctx := { k with vq := (v :: k.vq).take 16 }

/-- The place of a slot in the push orders of R43: S0, S1, B, M, X, E, C for the scalar queue and V, M, X for the vector queue. -/
def Slot.pushRank : Slot → Nat
  | .v => 3
  | .m => 4
  | k => if Slot.idx k < 3 then Slot.idx k else Slot.idx k + 1

/-- A flight lands before another: slot position, then issue (R43). -/
def Flight.before (a b : Flight) : Bool :=
  decide (Slot.pushRank a.slot < Slot.pushRank b.slot) || (decide (Slot.pushRank a.slot = Slot.pushRank b.slot) && decide (a.issued ≤ b.issued))

/-- What a flight brings into its context: queues, keeps, the broadcast latch and predicates, with its flags. -/
def Ctx.landIn (k : Ctx) (f : Flight) : Ctx :=
  let k := f.vals.foldl Ctx.pushS k
  let k := match f.keep, f.vals.getLast? with
    | some n, some v => { k with keeps := tset SVal.zero k.keeps n.toNat v }
    | _, _ => k
  let k := f.vecs.foldl Ctx.pushV k
  let k := match f.xb, f.vecs.getLast? with
    | true, some v => { k with xb := v }
    | _, _ => k
  let k := match f.pred with
    | some (n, v) => { k with preds := tset 0 k.preds n.toNat v }
    | none => k
  { k with flags := k.flags.or f.flags }

/-- What a flight brings into named registers: its parts, and a relabelling. -/
def State.landRegs (s : State) (x c : Nat) (f : Flight) : State :=
  let s := match f.wreg with
    | some n => (f.vecs.zipIdx).foldl (fun s v => s.setWreg x c (n.toNat + v.2) v.1) s
    | none => s
  match f.vtag with
  | some (n, t) => s.modTile (tileOf x) (fun r => { r with regTags := tput r.regTags (s.regPlace x c n.toNat / 512) t })
  | none => s

/-- A flight lands; a counter value that tells of a grouped operation's completion is observed (R262). -/
def State.land (s : State) (x c : Nat) (f : Flight) : State := ((s.modCtx x c (fun k => k.landIn f)).landRegs x c f).saw x f.obs

/-- The bundle that a context has issued in this cycle is a yield bundle or holds TEXIT: the stated run ends before this cycle (R118,
R147). -/
def State.runEnds (s : State) (x c : Nat) : Bool :=
  s.tails.any (fun t => match t with
    | .wait y d w => decide (y = x ∧ d = c) && w.any (fun v => match v with
      | .yield _ => true
      | _ => false)
    | .texit y d => decide (y = x ∧ d = c)
    | _ => false)

/-- RESULT_LANDING: the end of an unfrozen cycle of a sequencer. Every result's count falls by one and those that reach their
landing are pushed in the order of R43 (R42); the cycle counts toward the stated run (R118). -/
def execResultLanding (y : SeqId) (s : State) : Out :=
  let x := seqKey y
  match s.clocked x with
  | none => .next s
  | some c =>
    let k := s.ctx x c
    let due := (k.flights.filter (fun f => decide (f.remaining ≤ 1))).mergeSort Flight.before
    let s := s.setCtx x c { k with
      flights := (k.flights.filter (fun f => decide (1 < f.remaining))).map (fun f => { f with remaining := f.remaining - 1 }),
      ran := if k.task.isSome && !s.runEnds x c then k.ran + 1 else k.ran }
    .next (due.foldl (fun s f => s.land x c f) s)

/-- Flags of engines and performed accesses, ORed in after the landings of their cycle (R216, R223, R337). -/
def State.dueFlags (s : State) : State :=
  { s.flagsDue.foldl (fun s e => s.modCtx e.1 e.2.1 (fun k => { k with flags := k.flags.or e.2.2 })) s with flagsDue := [] }

/-- RUN_OVERRUN (R118, R146): a member has run more unfrozen cycles since the last rendezvous than its stated run. -/
def execRunOverrun (task : Nat) (s : State) : Out :=
  match s.task task with
  | none => .next s
  | some t =>
    if t.members.any (fun m =>
        let k := s.ctx m.1 m.2
        match k.stated with
        | some r => decide (k.task = some task ∧ r < k.ran)
        | none => false)
    then .next (s.modTask task (fun t => { t with ovr := true }))
    else .next s

end Sys2Proof.Machine
end

