-- ==== Sys2Proof/Machine/Scheduling.lean ====
section
/-! DEFINITION. Launch records, launch queues, placement, the arbiter, starts and resumptions, forced pre-emption and task end
(R127 to R154). -/

namespace Sys2Proof.Machine

/-! ### Launch records (R127 to R133) -/

/-- A level word keeps R129 on its own. -/
def levelWordOk (w : Nat) : Bool :=
  let outer := decide (5 ≤ field w 31 29)
  decide (field w 28 26 ≤ 4 ∧ 1 ≤ field w 25 16 ∧ field w 7 0 = 0)
    && (if outer then decide (field w 15 8 < field w 25 16) else decide (field w 15 8 = 0))

/-- Domains do not grow toward the inside, and the last outer level is PKG (R129). -/
def domainsOk : List Nat → Bool
  | [] => true
  | [_] => true
  | a :: b :: l =>
    decide (field b 31 29 ≤ field a 31 29) && (decide (field a 31 29 < 5 ∨ 5 ≤ field b 31 29 ∨ field a 31 29 = 5))
      && domainsOk (b :: l)

/-- The sizes of the inner levels divide as R130 says: `m` is the size of a member of the level before. -/
def splitOk : Nat → List Nat → Bool
  | _, [] => true
  | m, w :: l =>
    let e := field w 25 16
    let n := m / e
    decide (m % e = 0 ∧ 0 < n ∧ n % domainSize (field w 31 29) = 0) && splitOk n l

/-- The inner level words of a record. -/
def innerLevels (l : List Byte) : List Nat := (recLevels l).filter (fun w => decide (field w 31 29 < 5))

/-- A record has an outer level. -/
def hasOuter (l : List Byte) : Bool := (recLevels l).any (fun w => decide (5 ≤ field w 31 29))

/-- Members of the gang in the package (R130). -/
def gangSize (l : List Byte) : Nat :=
  if hasOuter l then 512
  else match innerLevels l with
    | [] => 0
    | w :: _ => field w 25 16 * domainSize (field w 31 29)

/-- Level words keep R129 and R130. -/
def levelsOk (l : List Byte) : Bool :=
  let n := recField l 2 1
  let lv := recLevels l
  let inner := innerLevels l
  decide (1 ≤ n ∧ n ≤ 8) && (List.range (8 - n)).all (fun i => decide (recField l (0x40 + 4 * (n + i)) 4 = 0))
    && lv.all levelWordOk && domainsOk lv
    && (match inner with
        | [] => false
        | w :: rest =>
          (if hasOuter l then splitOk 512 inner else splitOk (domainSize (field w 31 29)) rest)
            && decide (field (inner.getLast?.getD 0) 31 29 = 0)
            && decide (((levelSizes l).getLast?.map Prod.snd).getD 0 = 1) && decide (gangSize l ≤ 512))

/-- Both sequencers of some member tile are members: every level but single sequencers of SEQ domain takes whole tiles. -/
def wholeTiles (l : List Byte) : Bool := hasOuter l || (innerLevels l).any (fun w => decide (1 ≤ field w 31 29))

/-- The partition word fits the gang (R250): a tile that gives both sequencers gives each of them registers, and more members than the package
has compute tiles take both of some tile. -/
def recPartOk (l : List Byte) : Bool :=
  let w := BitVec.ofNat 64 (recField l 0x10 8)
  partOk w && (!(wholeTiles l || decide (256 < gangSize l)) || decide (1 ≤ partVA w ∧ 1 ≤ partVB w))

/-- A record is valid (R133). An entry handle that breaks the sign rule makes it invalid, LAUNCH_BAD, as R133 says, where R65 names
LAND_BAD for a launch: the model's choice between the two (log 88). -/
def recordValid (l : List Byte) (job : BitVec 16) : Bool :=
  let arglen := recField l 0x60 1
  decide (l.length = 256) && levelsOk l && decide (recField l 3 1 < 16)
    && decide (1 ≤ recField l 4 4 ∧ recField l 4 4 < 2 ^ 24)
    && handleOk (BitVec.ofNat 64 (recField l 8 8)) && recPartOk l
    && [0x18, 0x1C, 0x20, 0x28, 0x30, 0x38, 0x68].all (fun o => refOk (recField l o 4))
    && decide (arglen ≤ 128) && decide (recField l 0x61 1 < 2) && decide (recField l 0x62 6 = 0)
    && decide (recField l 0x6C 20 = 0) && (l.drop (0x80 + arglen)).all (fun b => decide (b = 0))
    && decide (job ≠ 0 ∧ job ≠ 0xFFFF)

/-- Fields of a record. -/
def Record.rank (r : Record) : Nat := recField r.bytes 3 1 % 16
def Record.slice (r : Record) : Nat := recField r.bytes 4 3
def Record.entry (r : Record) : Word := BitVec.ofNat 64 (recField r.bytes 8 8)
def Record.partw (r : Record) : Word := BitVec.ofNat 64 (recField r.bytes 0x10 8)

/-! ### Launch queues (R134, R135, R138) -/

/-- Change a launch queue. -/
def State.modLq (s : State) (q : Nat) (f : LQueue → LQueue) : State := { s with lqs := tput s.lqs q (f (s.lq q)) }

/-- Slots of a queue's ring. -/
def LQueue.size (l : LQueue) : Nat := 2 ^ (l.sz + 4)

/-- The address of a slot. -/
def LQueue.slotAt (l : LQueue) (n : BitVec 16) : Nat := field l.base.toNat 51 12 * 4096 + 256 * (n.toNat % l.size)

/-- A queue stops on a slot, and the cause goes to the service tile of die 0 (R135). -/
def State.lqStop (s : State) (q : Nat) (stop : BitVec 2) (c : Cause) (seqno : Nat) : State :=
  (s.modLq q (fun l => { l with stop := stop })).postD 0 c (BitVec.ofNat 64 (q * 2 ^ 16 + seqno))

/-- LAUNCH_QUEUE_EXAMINE (R135). -/
def State.lqExamine (s : State) (q : Nat) : State :=
  let l := s.lq q
  if l.en = false ∨ l.stop ≠ 0 ∨ 8 ≤ l.window.length then s
  else
    let a := l.slotAt l.next
    let seqno := s.rdHbm a 2
    let g := (seqno + 2 ^ 16 - l.next.toNat) % 2 ^ 16
    if g = 0 then
      let bytes := rdList s.hbm a 256
      if recordValid bytes l.job then
        let s := (s.modLq q (fun l => { l with
          next := l.next + 1, window := l.window ++ [⟨BitVec.ofNat 6 q, l.next, l.job, bytes, false⟩] })).signal
            (recField bytes 0x68 4) 1
        { s with agenda := s.agenda ++ [.poll q] }
      else s.lqStop q 2 .launchBad seqno
    else if 0x8000 ≤ g then s
    else if g % l.size = 0 then s.lqStop q 1 .launchqOverrun seqno
    else s.lqStop q 2 .launchBad seqno

/-- LQDB (R134): the queue looks at its next slot. -/
def execLqdb (q : BitVec 6) (s : State) : Out := .next (s.lqExamine q.toNat)

/-- The examination at least once every 2^16 cycles (R135). -/
def execLaunchQueuePoll (q : BitVec 6) (s : State) : Out := .next (s.lqExamine q.toNat)

/-- LQCTL (R134): a write that enables the queue has it look at its next slot, as at a poll. -/
def execLqctl (q : BitVec 6) (v : Word) (s : State) : Out :=
  let en := v.getLsbD 31 && decide (v.toNat % 16 ≤ 10)
  let was := (s.lq q.toNat).en
  let s := s.modLq q.toNat (fun l => { l with
    en := en, tl := v.getLsbD 30, ur := v.getLsbD 29, sz := v.toNat % 16,
    stop := if !en then 3 else if !l.en then 0 else l.stop })
  .next (if en && !was then { s with agenda := s.agenda ++ [.poll q.toNat] } else s)

/-- A refused TLAUNCH record: the counter's error state records LAUNCH_BAD and the value does not change; word 3 is a value the
spec does not state (R138, R302, log 4). -/
def State.refuseLaunch (s : State) (bytes : List Byte) : State :=
  match refOf (recField bytes 0x68 4) with
  | some r =>
    if refOk (recField bytes 0x68 4) then
      s.drawn.ctrReach ⟨r.1, r.2, none, 0, some (recWord1 (some .launchBad) false 2 Flags.none 0, 0, s.freeWord)⟩
    else s
  | none => s

/-- TLAUNCH_ACCEPT (R138): the oldest pending record of a sequencer is accepted into its queue, or refused. -/
def execTlaunchAccept (y : SeqId) (s : State) : Out :=
  let x := seqKey y
  match (s.seq x).launches with
  | [] => .next s
  | r :: rest =>
    if r.full = false then .next s
    else
      let q := r.queue.toNat
      let l := s.lq q
      let bytes := r.bytes.set 3 (BitVec.ofNat 8 (min (recField r.bytes 3 1) r.rank))
      let gone := s.modSeq x (fun k => { k with launches := rest })
      if r.bad || !recordValid r.bytes l.job then .next (gone.refuseLaunch r.bytes)
      else if l.size ≤ (l.tail - l.next).toNat then .next s
      else
        let a := l.slotAt l.tail
        let s := (gone.wrHbm (a + 2) 254 (recField (bytes.drop 2) 0 254)).wrHbm a 2 l.tail.toNat
        let s := s.modLq q (fun l => { l with tail := l.tail + 1 })
        .next ((s.signal (recField bytes 0x68 4) 1).lqExamine q)

/-- The dependences of a record have reached their thresholds (R137). -/
def State.depsMet (s : State) (l : List Byte) : Bool :=
  (List.range 4).all (fun i => match refOf (recField l (0x20 + 8 * i) 4) with
    | some r => decide (recField l (0x24 + 8 * i) 4 ≤ (s.ctrVal r.1 r.2).toNat)
    | none => true)

/-- RECORD_READY (R137). -/
def execRecordReady (q : BitVec 6) (i : Nat) (s : State) : Out :=
  match (s.lq q.toNat).window[i]? with
  | none => .next s
  | some r =>
    if s.depsMet r.bytes then
      .next (s.modLq q.toNat (fun l => { l with window := l.window.set i { r with ready := true } }))
    else .next s

/-! ### Gangs (R130, R131) -/

/-- The instance of a domain a sequencer lies in: its physical index (R11, R130). -/
def instOf (d x : Nat) : Nat :=
  let die := dieOf (tileOf x)
  let t := tileNo (tileOf x)
  match d with
  | 0 => 128 * die + 2 * t + x % 2
  | 1 => 64 * die + t
  | 2 => 16 * die + 4 * (t / 16) + (t % 8) / 2
  | 3 => 4 * die + 2 * (t / 32) + (t % 8) / 4
  | 4 => die
  | _ => 0

/-- A list cut into pieces of n; `fuel` bounds the pieces. -/
def chunksOf (n : Nat) : Nat → List Nat → List (List Nat)
  | 0, _ => []
  | fuel + 1, l => if l = [] then [] else l.take n :: chunksOf n fuel (l.drop n)

/-- Domain and size of each inner level. -/
def gangLevels (l : List Byte) : List (Nat × Nat) := (levelSizes l).map (fun w => (field w.1 31 29, w.2))

/-- The least of some numbers. -/
def leastOf (l : List Nat) : Nat := l.foldl min (2 ^ 32)

/-- Numbers rise strictly. -/
def rising : List Nat → Bool
  | [] => true
  | [_] => true
  | a :: b :: l => decide (a < b) && rising (b :: l)

/-- Members in coordinate order fit the shapes of R130 and the indices of R131. -/
def gangFits : List (Nat × Nat) → List Nat → Bool
  | [], l => decide (l.length = 1)
  | (d, m) :: rest, l =>
    let cs := chunksOf m 512 l
    cs.all (fun c => decide (c.length = m ∧ (c.map (instOf d)).dedup.length * domainSize d = m))
      && rising (cs.map (fun c => leastOf (c.map (instOf d)))) && cs.all (gangFits rest)

/-- A list of sequencers is a gang for a record. -/
def gangOk (l : List Byte) (g : List Nat) : Bool :=
  decide (g.length = gangSize l) && decide (g.dedup.length = g.length)
    && g.all (fun x => decide (x < 520 ∧ tileNo (tileOf x) < 64)) && gangFits (gangLevels l) g

/-- Sequencers put in the order of coordinates, level by level (R131). Which whole instances make up a member of an inner level is left
open by R130: consecutive ones, in physical order, are the model's choice (log 91). -/
def arrange : List (Nat × Nat) → List Nat → List Nat
  | [], l => l
  | (d, m) :: rest, l =>
    (chunksOf m 512 (l.mergeSort (fun a b => decide (instOf d a ≤ instOf d b)))).flatMap (arrange rest)

/-- The compute sequencers of the package. -/
def computeSeqs : List Nat := (List.range 520).filter (fun x => decide (tileNo (tileOf x) < 64))

/-! ### Placement (R139, R140) -/

/-- The free task context that a member takes: the lowest (R139, R411). -/
def State.freeCtx (s : State) (x : Nat) : Option Nat := [1, 2, 3].find? (fun c => (s.ctx x c).task.isNone)

/-- A sequencer can take a member of a record (R139, R342, R359): its context 0 is up, it has a free context and registers, its
tile is there, every claimed bank is free, and the MXE is, if claimed. -/
def State.openSeq (s : State) (l : List Byte) (x : Nat) : Bool :=
  let w := BitVec.ofNat 64 (recField l 0x10 8)
  let t := s.tile (tileOf x)
  let q := s.seq x
  s.cfg.good && !t.gone && decide (q.halt ≠ .bringup ∧ q.halt ≠ .supfault) && (s.freeCtx x).isSome
    && decide (1 ≤ (if x % 2 = 1 then partVB w else partVA w))
    && (List.range 64).all (fun b => decide (partRole w b = .free) || (decide ((t.bank b).owner = none) && !(t.bank b).held))
    && (decide (partAcount w = 0) || (List.range 64).all (fun b =>
        decide (¬((t.bank b).owner.isSome ∧ (t.bank b).role = .acc))))

/-- A free choice of n of some numbers. -/
def chooseOf (free : Nat) : Nat → List Nat → List Nat
  | 0, _ => []
  | n + 1, l =>
    match l[(Config.freeWord (free + n)).toNat % l.length]? with
    | none => []
    | some a => a :: chooseOf free n (l.erase a)

/-- The gang on which a record would be placed, if one is open: which instances the placement unit takes is not fixed (log 4). -/
def State.pickGang (s : State) (l : List Byte) : Option (List Nat) :=
  if hasOuter l then
    if computeSeqs.all (s.openSeq l) then some (arrange (gangLevels l) computeSeqs) else none
  else
    match innerLevels l with
    | [] => none
    | w :: _ =>
      let d := field w 31 29
      let n := field w 25 16
      let whole := fun i => computeSeqs.filter (fun x => decide (instOf d x = i))
      let insts := ((computeSeqs.map (instOf d)).dedup).filter (fun i => (whole i).all (s.openSeq l))
      if insts.length < n then none
      else some (arrange (gangLevels l) ((chooseOf s.free n insts).flatMap whole))

/-- A record can be placed on a gang. -/
def State.canBind (s : State) (r : Record) (g : List Nat) : Bool := gangOk r.bytes g && g.all (s.openSeq r.bytes)

/-- The U records of queues that honour them (R134, R153). -/
def State.urgentRec (s : State) (r : Record) : Bool := decide (recField r.bytes 0x61 1 % 2 = 1) && (s.lq r.queue.toNat).ur

/-- One ready record is considered before another (R137); `i` and `j` are their places in the order of consumption. -/
def State.recBefore (s : State) (r : Record) (i : Nat) (u : Record) (j : Nat) : Bool :=
  let a := (s.urgentRec r).toNat
  let b := (s.urgentRec u).toNat
  decide (b < a) || (decide (a = b) && (decide (u.rank < r.rank) || (decide (u.rank = r.rank) &&
    (decide (r.queue.toNat < u.queue.toNat) || (decide (r.queue = u.queue ∧ i < j))))))

/-- The coordinate of a member at an inner level of size m among members of its parent of size n (R131). -/
def coordOf (pos n m : Nat) : Nat := pos % n / m

/-- The first eight keeps of a member: its coordinate at each level (R131). -/
def keepsOf (l : List Byte) (pos : Nat) : Table SVal :=
  let inner := (levelSizes l).map Prod.snd
  let parents := (if hasOuter l then 512 else gangSize l) :: inner
  let ins := (inner.zip parents).map (fun p => coordOf pos p.2 p.1)
  let outs := ((recLevels l).filter (fun w => decide (5 ≤ field w 31 29))).map (fun w => field w 15 8)
  ((outs ++ ins).zipIdx).foldl (fun m v => tset SVal.zero m v.2 ⟨BitVec.ofNat 64 v.1, .clean⟩) []

/-- The context of a new task, prepared, its bundle handle the entry (R46, R140, R338, R341): PTBASE, CONF and the selectors stay as the supervisor left
them. -/
def Ctx.prepared (k : Ctx) (task : Nat) (r : Record) (pos : Nat) : Ctx :=
  { Ctx.init with
    keeps := keepsOf r.bytes pos, pos := r.entry, entry := some (r.entry, 2), partw := r.partw, jobid := r.job, task := some task,
    ptbase := k.ptbase, conf := k.conf, hdsel := k.hdsel, dbgsel := k.dbgsel }

/-- The banks of a member tile are claimed and zeroed, and the argument bytes written (R140, R249). -/
def State.claimBanks (s : State) (t task : Nat) (r : Record) : State :=
  let w := r.partw
  let s := (List.range 64).foldl (fun s b =>
    let role := partRole w b
    if role = .free then s
    else (s.wipeBank t b).modTile t (fun k => k.modBank b (fun z => { z with
      owner := some task, role := role, alloc := false, sealed := none, zeroTo := none }))) s
  let n := recField r.bytes 0x60 1
  { s with pool := wrList s.pool (poolKey t (partSbase w * bankSize)) ((r.bytes.drop 0x80).take n) }

/-- A ready record leaves its window and is bound to a gang (R139, R140). When preparation ends is not fixed (log 4). -/
def State.bindGang (s : State) (r : Record) (i : Nat) (g : List Nat) : State :=
  let id := s.fresh
  let delay := s.freeWord.toNat % 2 ^ 16
  let s := s.drawn.bump.modLq r.queue.toNat (fun l => { l with window := l.window.eraseIdx i })
  let members := g.map (fun x => (x, (s.freeCtx x).getD 1))
  let s := ((g.map tileOf).dedup).foldl (fun s t => s.claimBanks t id r) s
  let s := (members.zipIdx).foldl (fun s m =>
    (s.modCtx m.1.1 m.1.2 (fun k => k.prepared id r m.2)).modSeq m.1.1 (fun q => q.forget m.1.2)) s
  { s with tasks := s.tasks ++ [
    { id := id, rec_ := r, members := members, rank := r.rank, slice := r.slice, st := .bound, was := .bound,
      boundTick := s.gclk, boundNo := id, lastStart := none, age := 0, miss := 0, ovr := false, run := 0, rem := 0,
      readyAt := s.gclk + delay, preempt := none, haltedAt := none, resumeAt := none, ending := false, killed := false }] }

/-- PLACEMENT_BIND (R137, R139): a ready record that is not urgent is bound to a gang that fits it. -/
def execPlacementBind (q : BitVec 6) (i : Nat) (g : List SeqId) (s : State) : Out :=
  match (s.lq q.toNat).window[i]? with
  | none => .next s
  | some r =>
    let g := g.map seqKey
    if r.ready && !s.urgentRec r && s.canBind r g then .next (s.bindGang r i g) else .next s

/-! ### The arbiter's order (R142 to R145) -/

/-- AGE of the die of a task's first member (R143). -/
def State.ageOf (s : State) (t : Task) : Nat :=
  max 1 (tget 4 s.schedcfg (dieOf (tileOf ((t.members.map Prod.fst).headD 0)))).toNat

/-- eff (R144). -/
def State.eff (s : State) (t : Task) : Nat :=
  if t.rank = 0 then 0 else min 15 (t.rank + t.age / s.ageOf t) - t.ovr.toNat

/-- The task's context number on its first member. -/
def Task.ctxNo (t : Task) : Nat := (t.members.map Prod.snd).headD 0

/-- The order of R144. -/
def State.taskBefore (s : State) (a b : Task) : Bool :=
  let la := a.lastStart.getD a.boundTick
  let lb := b.lastStart.getD b.boundTick
  decide (s.eff b < s.eff a) || (decide (s.eff a = s.eff b) && (decide (la < lb) || (decide (la = lb) &&
    (decide (a.boundNo < b.boundNo) || (decide (a.boundNo = b.boundNo) && decide (a.ctxNo < b.ctxNo))))))

/-- The first of some tasks in the order. -/
def State.firstTask (s : State) : List Task → Option Task
  | [] => none
  | a :: l =>
    match s.firstTask l with
    | none => some a
    | some b => if s.taskBefore b a then some b else some a

/-- A starving task (R144). -/
def starving (t : Task) : Bool := decide (t.rank ≠ 0 ∧ 15 ≤ t.miss)

/-- The pick among candidates and whether the slice renews; `rem` is what is left of the gang's slice, none on idle
sequencers (R144). -/
def State.pickTask (s : State) (l : List Task) (rem : Option Int) : Option (Task × Bool) :=
  match s.firstTask (l.filter starving) with
  | some w => some (w, true)
  | none =>
    match rem.bind (fun r => s.firstTask (l.filter (fun w => decide (16 * (w.run : Int) ≤ r)))) with
    | some w => some (w, false)
    | none => (s.firstTask l).map (fun w => (w, true))

/-- The sequencers of a task. -/
def Task.seqs (t : Task) : List Nat := t.members.map Prod.fst

/-- Two tasks share a sequencer. -/
def Task.meets (t : Task) (g : List Nat) : Bool := t.members.any (fun m => decide (m.1 ∈ g))

/-- Ages and misses of the tasks that a decision on G among C passes over; the mark of an overrun has counted for each of C (R144,
R146). -/
def State.passOver (s : State) (c : List Nat) (g : List Nat) (pick : Nat) (renew : Bool) : State :=
  { s with tasks := s.tasks.map (fun t =>
    let t := if t.id ∈ c ∧ t.id ≠ pick ∧ t.rank ≠ 0 then { t with age := t.age + 1 } else t
    let t := if renew && decide (t.id ≠ pick) && t.meets g then { t with miss := t.miss + 1 } else t
    if t.id ∈ c ∧ t.id ≠ pick then { t with ovr := false } else t) }

/-- The picked task's age, misses, overrun mark and slice (R144). -/
def State.takePick (s : State) (pick : Nat) (renew : Bool) (rem : Int) : State :=
  s.modTask pick (fun t => { t with
    age := 0, miss := 0, ovr := false, rem := if renew then (s.gclk : Int) + 16 * t.slice else rem })

/-- A decision on G among C and its pick (R144, R146). -/
def State.afterPick (s : State) (c : List Nat) (g : List Nat) (pick : Nat) (renew : Bool) (rem : Int) : State :=
  (s.passOver c g pick renew).takePick pick renew rem

/-! ### Where sequencers stand -/

/-- A sequencer runs no task and may take one: context 0 may run on it, but serves no delivery (R141, R336). -/
def State.idleSeq (s : State) (x : Nat) : Bool :=
  let q := s.seq x
  (decide (q.active = none) || decide (q.active = some 0 ∧ q.serving = false)) && decide (q.inter = none)
    && decide (q.halt ≠ .bringup ∧ q.halt ≠ .supfault) && q.micro.isNone

/-- A member can be had for a task: idle, and held for no other (R141, R144). -/
def State.freeFor (s : State) (t : Task) (x : Nat) : Bool :=
  s.idleSeq x && (decide ((s.seq x).hold = none) || decide ((s.seq x).hold = some t.id))

/-- A task that waits for its sequencers: bound and not started, or suspended, not yet picked (R141, R144). -/
def Task.waits (t : Task) : Bool :=
  decide ((t.st = .bound ∨ t.st = .waiting) ∧ t.resumeAt = none ∧ t.ending = false ∧ t.killed = false)

/-- A member waits at a yield bundle, or has halted at TEXIT, whatever its sequencer does since (R117). A trap taken in the wait is a
boundary: the member waits again once context 0 has returned (R120). A microcoded yield bundle has committed first (R100). -/
def State.atYield (s : State) (m : Nat × Nat) : Bool :=
  let k := s.ctx m.1 m.2
  k.done || (decide ((s.seq m.1).active = some m.2) && (s.seq m.1).micro.isNone && k.waits.any (fun w => match w with
    | .yield _ => true
    | _ => false))

/-- The gang's rendezvous is complete (R117). -/
def State.rendezvous (s : State) (t : Task) : Bool :=
  decide (t.st = .running ∧ t.killed = false) && t.members.all s.atYield

/-- The run field of the yield bundle a member waits at; 0 at TEXIT (R145). -/
def State.yieldRun (s : State) (m : Nat × Nat) : Nat :=
  (s.ctx m.1 m.2).waits.foldl (fun a w => match w with
    | .yield r => max a r
    | _ => a) 0

/-- A rendezvous' end for one member: its wait ends, and its stated run begins to bind (R118). -/
def Ctx.endYield (k : Ctx) : Ctx :=
  let runs := k.waits.filterMap (fun w => match w with
    | .yield r => some r
    | _ => none)
  { k with
    waits := k.waits.filter (fun w => match w with
      | .yield _ => false
      | _ => true),
    ran := 0, stated := match runs with
      | r :: _ => some (16 * r)
      | [] => k.stated }

/-- Members of a gang leave their rendezvous. -/
def State.endYields (s : State) (t : Task) : State := t.members.foldl (fun s m => s.modCtx m.1 m.2 Ctx.endYield) s

/-- A sequencer's running task context stops where it stands; a delivery that context 0 serves goes on (R149, R151). -/
def State.suspendMember (s : State) (m : Nat × Nat) : State :=
  s.modSeq m.1 (fun q => if q.active = some m.2 then { q with active := none } else q)

/-- The segments that a sequencer's chambers hold for a context. -/
def Seq.heldSegs (q : Seq) (c : Nat) : List (Bool × BitVec 45 × Nat) :=
  let one : Bool → Option Chamber → List (Bool × BitVec 45 × Nat) := fun b k => match k with
    | some k => if k.ctx = c ∧ k.old = false then [(b, k.page, k.seg)] else []
    | none => []
  one false q.chamA ++ one true q.chamB

/-- What is to be fetched again before a member's context resumes is noted (R148). -/
def State.noteSegs (s : State) (m : Nat × Nat) : State := s.modCtx m.1 m.2 (fun k => { k with back := (s.seq m.1).heldSegs m.2 })

/-- A member's context is switched out: its chambers are not saved, and are fetched again when it resumes (R148). -/
def State.switchOut (s : State) (m : Nat × Nat) : State :=
  ((s.noteSegs m).suspendMember m).modSeq m.1 (fun q => q.forget m.2)

/-- A page that a context which resumes stood in is read again; one whose header or tag is not valid is left to the fetch that needs it. -/
def State.backPage (s : State) (x c : Nat) (page : BitVec 45) : State :=
  if ((s.seq x).page page).isSome then s
  else
    match s.translate (s.walker x c) ((mkHandle page 0).toNat % 2 ^ 57) .fetch with
    | (.error _, s) => s
    | (.ok b, s) =>
      let m := s.codeView (s.walker x c) b.1 b.2
      match readPage m page b.1, tagFault (pageTag m b.1) with
      | some p, none => s.modSeq x (fun q => q.keepPage p)
      | _, _ => s

/-- One chamber of a context that resumes takes its segment again. -/
def State.backSeg (s : State) (x c : Nat) (e : Bool × BitVec 45 × Nat) : State :=
  let s := s.backPage x c e.2.1
  match ((s.seq x).page e.2.1).bind (fun p => p.segs.find? (fun g => decide (g.off = e.2.2) && !g.bad)) with
  | none => s
  | some _ =>
    if (s.seq x).resident e.2.1 e.2.2 then s
    else
      match s.expand x c e.2.1 e.2.2 with
      | (.error _, s) => s
      | (.ok ws, s) =>
        let k : Chamber := ⟨c, e.2.1, e.2.2, ws, false⟩
        s.modSeq x (fun q => if e.1 then { q with chamB := some k } else { q with chamA := some k })

/-- The chambers of a context that resumes are fetched again within the restoring of its state, so that its issues keep their distances
(R148, R149, R152). -/
def State.refetch (s : State) (x c : Nat) : State :=
  ((s.ctx x c).back.foldl (fun s e => s.backSeg x c e) s).modCtx x c (fun k => { k with back := [] })

/-- Sequencers hold for a task. A held one issues nothing: context 0 stops where it ran for want of a task, and a delivery that it
serves goes on (R141, R336). -/
def State.holdFor (s : State) (task : Nat) (l : List Nat) : State :=
  l.foldl (fun s x => s.modSeq x (fun q => { q with
    hold := some task, active := if q.active = some 0 ∧ q.serving = false then none else q.active })) s

/-- Sequencers hold for nothing. -/
def State.unhold (s : State) (task : Nat) (l : List Nat) : State :=
  l.foldl (fun s x => s.modSeq x (fun q => if q.hold = some task then { q with hold := none } else q)) s

/-- The first cycle in which a picked task may start or resume: a new one at once, a suspended one 128 cycles after the
decision (R141, R149). -/
def State.resumeCycle (s : State) (t : Task) : Nat := if t.st = .bound then s.gclk else s.gclk + 128

/-- A task is picked: its members hold for it. -/
def State.pickUp (s : State) (t : Task) : State :=
  (s.holdFor t.id t.seqs).modTask t.id (fun k => { k with resumeAt := some (s.resumeCycle t) })

/-! ### Decisions (R141, R144) -/

/-- Waiting tasks whose members are all in G or idle (R144). -/
def State.candidates (s : State) (g : List Nat) : List Task :=
  s.tasks.filter (fun t => t.waits && t.members.all (fun m => decide (m.1 ∈ g) || s.freeFor t m.1))

/-- Tasks for which members hold though the others are not to be had: new ones and starving ones (R141, R144). -/
def State.absent (s : State) (g : List Nat) : List Task :=
  s.tasks.filter (fun t => t.waits && (decide (t.st = .bound) || starving t) && t.meets g
    && !t.members.all (fun m => decide (m.1 ∈ g) || s.freeFor t m.1))

/-- The urgent task for which some of a running gang's sequencers hold already (R153). -/
def State.heldFor (s : State) (y : Task) : Option Task :=
  y.seqs.findSome? (fun x => ((s.seq x).hold.bind s.task).filter (fun t => decide (t.id ≠ y.id)))

/-- A gang that halts is saved within 128 cycles: what its sequencers hold for, if it has not started, starts no earlier (R149, R153). -/
def State.savedFor (s : State) (t : Task) : State :=
  t.seqs.foldl (fun s x => match (s.seq x).hold with
    | some w => s.modTask w (fun v => if v.st = .bound then { v with readyAt := max v.readyAt (s.gclk + 128) } else v)
    | none => s) s

/-- The decision at a gang's rendezvous (R144). A gang that an urgent launch is about to halt, and some of whose sequencers hold for the
urgent task, stays suspended at its yield; a held member picks no other task (R141, R153). -/
def State.decideGang (s : State) (y : Task) : State :=
  let g := y.seqs
  let y := { y with run := (y.members.map s.yieldRun).foldl max 0 }
  let c := y :: (s.candidates g).filter (fun t => t.meets g)
  let away := s.absent g
  let left := y.rem - (s.gclk : Int)
  match s.heldFor y with
  | some u =>
    let s := (s.endYields y).modTask y.id (fun t => { t with st := .waiting, run := y.run })
    ((y.members.foldl State.switchOut s).passOver (c.map (fun t => t.id)) g u.id true).savedFor y
  | none =>
  match s.pickTask (c ++ away) (some left) with
  | none => s
  | some (w, renew) =>
    let s := s.modTask y.id (fun t => { t with run := y.run })
    if w.id = y.id then (s.endYields y).afterPick (c.map (fun t => t.id)) g w.id renew y.rem
    else
      let s := (s.endYields y).modTask y.id (fun t => { t with st := .waiting })
      let s := y.members.foldl State.switchOut s
      if w.id ∈ away.map (fun t => t.id) then
        (s.passOver (c.map (fun t => t.id)) g w.id renew).holdFor w.id (g.filter (fun x => decide (x ∈ w.seqs)))
      else (s.afterPick (c.map (fun t => t.id)) g w.id renew y.rem).pickUp w

/-- The decisions on idle sequencers, one pick after another; `fuel` bounds the picks (R141, R144). -/
def State.decideIdle : Nat → State → List Nat → State
  | 0, s, _ => s
  | fuel + 1, s, g =>
    let all := (s.candidates []).filter (fun t => t.meets g)
    let away := (s.absent g).filter (fun t => t.members.any (fun m => decide (m.1 ∈ g) && s.freeFor t m.1
      && decide ((s.seq m.1).hold = none)))
    match s.pickTask (all ++ away) none with
    | none => s
    | some (w, renew) =>
      if w.id ∈ away.map (fun t => t.id) then
        let l := g.filter (fun x => decide (x ∈ w.seqs) && s.freeFor w x)
        let c := (all.filter (fun t => t.meets l)).map (fun t => t.id)
        State.decideIdle fuel ((s.passOver c l w.id renew).holdFor w.id l) (g.filter (fun x => decide (x ∉ l)))
      else
        let c := (all.filter (fun t => t.meets w.seqs)).map (fun t => t.id)
        State.decideIdle fuel ((s.afterPick c w.seqs w.id renew 0).pickUp w) (g.filter (fun x => decide (x ∉ w.seqs)))

/-- A held member that meets a newly bound task which comes before the one it holds for holds for that one (R141). -/
def State.rehold (s : State) (x : Nat) : State :=
  match (s.seq x).hold.bind s.task with
  | none => s
  | some w =>
    if w.st ≠ .bound ∨ s.urgentRec w.rec_ = true then s
    else
      match s.firstTask (s.tasks.filter (fun t => decide (t.st = .bound ∧ t.resumeAt = none) && t.meets [x] && s.taskBefore t w)) with
      | none => s
      | some v => ((s.modSeq x (fun q => { q with hold := some v.id })).modTask w.id (fun t => { t with resumeAt := none }))

/-- ARBITRATION_DECISION (R144): at the completion of a gang's rendezvous, or on a set of idle sequencers, on a tick. A sequencer that is
held picks nothing (R141). -/
def execArbitrationDecision (g : List SeqId) (s : State) : Out :=
  let g := g.map seqKey
  if s.isTick s.gclk = false then .next s
  else
    match s.tasks.find? (fun t => s.rendezvous t && decide (t.seqs = g)) with
    | some y => .next (s.decideGang y)
    | none => .next (State.decideIdle (s.tasks.length + 1) s
        (g.filter (fun x => s.idleSeq x && decide ((s.seq x).hold = none))))

/-! ### Starts and resumptions (R141, R149, R152) -/

/-- Every member holds for the task and can be given to it. -/
def State.allHeld (s : State) (t : Task) : Bool :=
  t.members.all (fun m => s.idleSeq m.1 && decide ((s.seq m.1).hold = some t.id))

/-- A member's context goes on running. -/
def State.runMember (s : State) (m : Nat × Nat) : State :=
  s.modSeq m.1 (fun q => { q with active := some m.2, hold := none })

/-- GANG_START (R141): on a tick, once preparation is complete and every member holds for the task. A task for which its members came
to hold one by one takes the slice of its pick now; what those decisions passed over has aged at each of them (R144). -/
def execGangStart (task : Nat) (s : State) : Out :=
  match s.task task with
  | none => .next s
  | some t =>
    if s.isTick s.gclk && decide (t.st = .bound ∧ t.readyAt ≤ s.gclk) && s.allHeld t then
      let s := if t.resumeAt.isSome then s else s.takePick task true 0
      let s := t.members.foldl State.runMember s
      let s := ((t.seqs.map tileOf).dedup).foldl (fun s k => s.modTile k (fun r =>
        if 1 ≤ partAcount t.rec_.partw then { r with origin := s.gclk } else r)) s
      .next (s.modTask task (fun t => { t with st := .running, lastStart := some s.gclk, resumeAt := none }))
    else .next s

/-- What a pre-emption's halt at H and resumption at T' do to a member and its tile: waits are taken up again, the chambers are fetched
again, and the engine's windows move with the task's cycles (R120, R148, R152). -/
def State.resumeMember (s : State) (m : Nat × Nat) : State :=
  ((s.modCtx m.1 m.2 (fun k => { k with waits := k.waits.map (fun w => w.resumed s.gclk) })).runMember m).refetch m.1 m.2

/-- GANG_RESUME (R149, R152): on the first tick at or after the cycle its pick gave. -/
def execGangResume (task : Nat) (s : State) : Out :=
  match s.task task with
  | none => .next s
  | some t =>
    if s.isTick s.gclk && decide (t.st = .waiting) && (match t.resumeAt with
        | some r => decide (r ≤ s.gclk)
        | none => false) && s.allHeld t then
      let s := t.members.foldl State.resumeMember s
      let shift := match t.haltedAt with
        | some h => s.gclk - h
        | none => 0
      let s := ((t.seqs.map tileOf).dedup).foldl (fun (s : State) (k : Nat) => s.modTile k (fun r =>
        if 1 ≤ partAcount t.rec_.partw then { r with origin := r.origin + shift } else r)) s
      .next (s.modTask task (fun t => { t with
        st := .running, lastStart := some s.gclk, resumeAt := none, haltedAt := none }))
    else .next s

/-- Context 0 runs where its sequencer holds no task (R336). -/
def State.runIdle (s : State) (x : Nat) : State :=
  let q := s.seq x
  if q.active = none ∧ q.halt = .run ∧ q.hold = none then s.setSeq x { q with active := some 0 } else s

/-! ### Forced pre-emption (R150 to R153) -/

/-- A task that runs, or that a cut halts in its run: a pre-emption asked for in the cut counts as asked for at its resumption (R151,
R316). -/
def Task.runs (t : Task) : Bool :=
  (decide (t.st = .running) || decide (t.st = .cut ∧ t.was = .running)) && !t.killed

/-- A pre-emption of a running task is requested in the cycle before this one: the halt comes within 112 cycles, in a cycle the
spec does not fix (R151, log 4). For a gang halted by a cut, it is asked for as the gang resumes (R316). -/
def State.askHalt (s : State) (t : Task) (sup : Bool) (by_ : Nat) : State :=
  let h := s.gclk + s.freeWord.toNat % 112
  let s := s.drawn.modTask t.id (fun t => { t with preempt := some (h, sup, by_) })
  if t.st = .cut then s else { s with env := s.env ++ [(h, .halt t.id)] }

/-- The fields of PREQ (R150). -/
def preqMask (v : Word) : Word := v &&& 0xC0000000003FFFFF

/-- A pre-emption that PREQ asked for has not halted its gang as yet. -/
def State.preqPends (s : State) : Bool :=
  s.tasks.any (fun t => match t.preempt with
    | some (_, _, by_) => decide (by_ = 1 ∨ by_ = 2)
    | none => false)

/-- PREQ's GO reads 1 until every member of the gang has halted (R150). -/
def State.preqGo (s : State) : State :=
  { s with preq := if s.preqPends then s.preq ||| 0x8000000000000000 else s.preq &&& 0x7FFFFFFFFFFFFFFF }

/-- PREQ (R150): a request that names no running gang has no effect; GO reads 1 while one that does is under way. -/
def execPreq (v : Word) (host : Bool) (s : State) : Out :=
  let s := { s with preq := preqMask v }
  if v.getLsbD 63 then
    match s.tasks.find? (fun t => t.runs && decide (t.rec_.queue.toNat = field v.toNat 21 16)
        && decide (t.rec_.seqno.toNat = v.toNat % 2 ^ 16)) with
    | none => .next s.preqGo
    | some t =>
      let by_ := if host then 2 else 1
      .next (match t.preempt with
        | none => s.askHalt t (v.getLsbD 62) by_
        -- an urgent launch has asked already; the gang halts as it said
        | some (h, sup, 3) => (s.modTask t.id (fun t => { t with preempt := some (h, sup || v.getLsbD 62, by_) })).preqGo
        | some _ => s.preqGo)
  else .next s.preqGo

/-- The sequencers of an urgent gang that a pre-emption frees, or that are idle and hold for nothing, hold for it; it starts once the
gangs that were on them are halted and saved (R149, R153; State.savedFor). -/
def State.urgentHold (s : State) (task : Nat) (g : List Nat) (hit : List Task) : State :=
  s.holdFor task (g.filter (fun x => hit.any (fun t => decide (x ∈ t.seqs)) || (s.idleSeq x && decide ((s.seq x).hold = none))))

/-- URGENT_LAUNCH (R153): a ready urgent record is bound, and every running gang on its sequencers whose eff is below its rank
is asked to halt. -/
def execUrgentLaunch (q : BitVec 6) (i : Nat) (g : List SeqId) (s : State) : Out :=
  match (s.lq q.toNat).window[i]? with
  | none => .next s
  | some r =>
    let g := g.map seqKey
    if r.ready && s.urgentRec r && s.canBind r g then
      let hit := s.tasks.filter (fun t => t.runs && t.meets g && decide (s.eff t < r.rank))
      let u := hit.foldl (fun s t => if t.preempt.isSome then s else s.askHalt t false 3) (s.bindGang r i g)
      .next (u.urgentHold s.fresh g hit)
    else .next s

/-- One member halts for a pre-emption: its context keeps what it waits for; with SUP, PREEMPT goes to context 0 as the
interruption of that context, in the order of R345 (R120, R151). A member whose context 0 serves a delivery counts as halted
(R347). -/
def State.haltMember (s : State) (sup : Bool) (by_ : Nat) (m : Nat × Nat) : State :=
  let p : Pend := ⟨.a, .preempt, BitVec.ofNat 64 by_, 0, 0, false, false, 0⟩
  -- a bundle in its second micro-step runs it in this cycle, and nothing else of the member happens (R100, R151)
  let micro := decide ((s.seq m.1).active = some m.2) && (s.seq m.1).micro.isSome
  let s := if micro then s.addWait m.1 m.2 (.delay (s.gclk + 1)) else s
  if sup then (s.noteSegs m).post m.1 p
  else if micro then { s with tails := s.tails ++ [.halt m.1 m.2] }
  else s.switchOut m

/-- The end of the cycle H in which a halting member's second micro-step ran: a cause that it has posted is taken as the interruption of
its context; the member is switched out (R100, R151, R345). -/
def State.haltMicro (s : State) (x c : Nat) : State :=
  let s := s.modCtx x c (fun k => { k with waits := k.waits.filter (fun w => decide (w ≠ .delay (s.gclk + 1))) })
  let s := match takeFirst (((s.seq x).pend).filter (fun p => decide (p.kind = .p ∧ p.ctx = c))) with
    | some (p, _) => if (s.seq x).active = some c then (s.modSeq x (fun q => { q with pend := q.pend.erase p })).deliver x p else s
    | none => s
  s.switchOut (x, c)

/-- A member of a task that TEND has ended: its context has halted, and context 0 has nothing to return to (R347). -/
def State.quitMember (s : State) (m : Nat × Nat) : State :=
  ((s.modCtx m.1 m.2 (fun k => { k with done := true, loops := [] })).suspendMember m).modSeq m.1 (fun q =>
    if q.inter = some m.2 then { q with inter := none } else q)

/-- The halt of a gang at H: for a pre-emption, or for a TEND written on another member (R151, R347). -/
def State.haltGang (s : State) (task : Nat) : State :=
  match s.task task with
  | none => s
  | some t =>
    if t.killed then ((t.members.foldl State.quitMember s).modTask task (fun t => { t with preempt := none })).preqGo
    else
      match t.preempt with
      | none => s
      | some (_, sup, by_) =>
        if t.st = .running then
          let s := t.members.foldl (fun s m => s.haltMember sup by_ m) s
          ((s.modTask task (fun t => { t with preempt := none, st := .waiting, run := 0, haltedAt := some s.gclk })).savedFor t).preqGo
        else if t.st = .cut then s
        else (s.modTask task (fun t => { t with preempt := none })).preqGo

/-! ### Task end (R154) -/

/-- Every member has halted at TEXIT (R123, R154). -/
def State.allDone (s : State) (t : Task) : Bool := t.members.all (fun m => (s.ctx m.1 m.2).done)

/-- Accesses, engines and chains of a task that have not ended (R154, steps 1 and 2). -/
def State.busyTask (s : State) (t : Task) : Bool :=
  s.accs.any (fun a => decide ((a.seq, a.ctx) ∈ t.members)) || s.chains.any (fun c => decide (c.task = some t.id))
    || t.members.any (fun m =>
      let r := s.tile (tileOf m.1)
      (match s.nest m.1 with
        | some z => decide (z.task = t.id)
        | none => false)
      || (match s.kat m.1 with
        | some z => decide (z.ctx = m.2)
        | none => false)
      || (match r.vg with
        | some v => decide (v.task = t.id)
        | none => false))

/-- A bank goes back. -/
def Bank.freed (b : Bank) (task : Nat) : Bank :=
  if b.owner = some task then { b with owner := none, last := some task, role := .free, alloc := false, sealed := none } else b

/-- The banks that a task holds on a tile. -/
def State.banksOfTask (s : State) (k task : Nat) : List Nat :=
  ((s.tile k).banks.filter (fun e => decide (e.2.owner = some task))).map Prod.fst

/-- Contexts, banks, rings and the rest that a task holds are released, banks and handle slots zeroed; a pre-emption of it that PREQ asked
for has nothing left to halt (R150, R154, step 3; R308, R357, R412). -/
def State.releaseTask (s : State) (t : Task) : State :=
  let s := ((t.seqs.map tileOf).dedup).foldl (fun s k => (s.banksOfTask k t.id).foldl (fun s b => s.wipeBank k b) s) s
  let s := t.members.foldl (fun s m =>
    let s := s.modCtx m.1 m.2 (fun k => { k with task := none, waits := [], flights := [], handles := [] })
    s.modSeq m.1 (fun q => { q with
      active := if q.active = some m.2 then none else q.active, inter := if q.inter = some m.2 then none else q.inter,
      pend := q.pend.filter (fun p => decide (p.kind ≠ .p ∨ p.ctx ≠ m.2)) })) s
  let s := s.unhold t.id t.seqs
  let s := ((t.seqs.map tileOf).dedup).foldl (fun s k => s.modTile k (fun r => { r with
    banks := r.banks.map (fun e => (e.1, e.2.freed t.id)),
    rings := r.rings.map (fun e => (e.1, if e.2.owner = some (0, t.id) then Ring.init else e.2)) })) s
  State.preqGo { s with
    ttiles := tclear s.ttiles (512 * (t.id + 1)) (512 * (t.id + 2)),
    tasks := s.tasks.filter (fun v => decide (v.id ≠ t.id)) }

/-- A task is ended by force: its work is stopped, not awaited, and its members halt within 112 cycles (R347). -/
def State.killTask (s : State) (t : Task) : State :=
  let s := s.modTask t.id (fun t => { t with killed := true, ending := true, resumeAt := none })
  let s := (s.chains.filter (fun c => decide (c.task = some t.id))).foldl State.stopChain s
  let s := t.members.foldl (fun s m =>
    let s := match s.nest m.1 with
      | some z => if z.task = t.id then s.stopNest m.1 else s
      | none => s
    let s := match s.kat m.1 with
      | some z => if z.ctx = m.2 then s.setKat m.1 none else s
      | none => s
    s.vgStop (tileOf m.1) t.id) s
  let s := s.unhold t.id t.seqs
  let h := s.gclk + s.freeWord.toNat % 112
  { s.drawn with env := s.env ++ [(h, .halt t.id)] }

/-! ### Window and placement of a cycle -/

/-- The records of every window with queue and place. -/
def State.windows (s : State) : List (Nat × Nat × Record) :=
  s.lqs.flatMap (fun e => (e.2.window.zipIdx).map (fun r => (e.1, r.2, r.1)))

/-- The ready record that is considered first among some with a gang. -/
def State.firstRec (s : State) : List (Nat × Nat × Record × List Nat) → Option (Nat × Nat × Record × List Nat)
  | [] => none
  | a :: l =>
    match s.firstRec l with
    | none => some a
    | some b => if s.recBefore b.2.2.1 b.2.1 a.2.2.1 a.2.1 then some b else some a

end Sys2Proof.Machine
end

