-- ==== Sys2Proof/Machine/Message.lean ====
section
/-! DEFINITION. Writes that come to the package from outside it, by physical or pool address: the job pages they meet, messages of
the fabric's channels, and those that wait (R260, R316, R320 to R323, R325, R332, R388, R389). -/

namespace Sys2Proof.Machine

/-! ### Pages by physical address (R321, R322) -/

/-- A leaf of a page table: virtual address, size, first frame's address, the entry's own address and the entry. -/
structure PageRef where
  va : Nat
  size : Nat
  frame : Nat
  at_ : Nat
  pte : Nat
  deriving DecidableEq, Repr

/-- Entries of a table of a level (R349). -/
def tableSize (level : Nat) : Nat := if level = 3 then 512 else 4096

/-- The bytes of virtual address that one entry of a level covers (R349). -/
def entrySpan (level : Nat) : Nat :=
  match level with
  | 0 => 2 ^ 45
  | 1 => 2 ^ 33
  | 2 => 2 ^ 21
  | _ => 2 ^ 12

/-- Every legal leaf under a table. A leaf larger than its entry's span stands once, at its first entry. -/
def leavesFrom (m : Table Byte) : Nat → Nat → Nat → Nat → List PageRef
  | 0, _, _, _ => []
  | fuel + 1, level, base, va =>
    (List.range (tableSize level)).flatMap (fun i =>
      let at_ := base + 8 * i
      let e := rdBytes m at_ 8
      let v := va + i * entrySpan level
      if !pteV e then []
      else if pteL e then
        (match leafSize level e with
          | some n => if leafOk level e ∧ v % n = 0 then [⟨v, n, pteFrame e, at_, e⟩] else []
          | none => [])
      else if pointerOk level e then leavesFrom m fuel (level + 1) (pteFrame e) v else [])

/-- Each leaf entry once, though several tables may lead to it. -/
def byEntry (l : List PageRef) : List PageRef :=
  l.foldl (fun (a : List PageRef) p => if a.any (fun (q : PageRef) => decide (q.at_ = p.at_)) then a else a ++ [p]) []

/-- The pages of a job. -/
def State.jobPages (s : State) (j : BitVec 16) : List PageRef := byEntry ((s.jobRoots j).flatMap (fun b => leavesFrom s.hbm 4 0 b 0))

/-- The job of the package's snapshots (R313). -/
def State.snapJobNo (s : State) : BitVec 16 := s.snap.cfg.setWidth 16

/-- The pages of the snapshot job that a physical range touches; none where the package takes part in no snapshots. -/
def State.touched (s : State) (a n : Nat) : List PageRef :=
  if s.snap.cfg.getLsbD 63 then
    (s.jobPages s.snapJobNo).filter (fun p => decide (p.frame < a + n ∧ a < p.frame + p.size))
  else []

/-- Set the snapshot state of an entry. -/
def State.setSN (s : State) (p : PageRef) (sn : Nat) : State :=
  { s with hbm := wrBytes s.hbm p.at_ 8 (p.pte - pteSN p.pte * 2 ^ 9 + sn * 2 ^ 9) }

/-- A first write to CLEAN pages makes them DIRTY (R321). -/
def State.touchPhys (s : State) (a n : Nat) : State :=
  (s.touched a n).foldl (fun s p =>
    if pteSN p.pte = 0 then
      let s := s.setSN p 1
      { s with snap := s.snap.logDirty p.at_ }
    else s) s

/-! ### Writes from outside -/

/-- Bytes from outside into a pool: none into a tile under reset, into a bank that is sealed or being zeroed; none of them is
compressed (R295, R299, R348, R402, log 97). -/
def State.putPool (s : State) (t off : Nat) (bs : List (Nat × Bool)) : State :=
  if off + bs.length ≤ 2 ^ 22 ∧ s.underReset t = false then
    s.poolPut t off (bs.zipIdx.map (fun b =>
      if ((s.tile t).bank (bankOf (off + b.2))).sealed.isSome then (none, false) else (some b.1.1, b.1.2))) false
  else s

/-- Bytes from outside into HBM by physical address, stored as they are (R355, R358, R384). -/
def State.putHbm (s : State) (a : Nat) (bs : List (Nat × Bool)) : State :=
  (s.touchPhys a bs.length).hbmPut a (whole bs) none

/-- Bytes without a mark. -/
def unmarked (l : List Byte) : List (Nat × Bool) := l.map (fun b => (b.toNat, false))

/-- The tile and offset of a pool address (R179). -/
def poolPlace (a : Word) : Nat × Nat := (canalTile a, a.toNat % 2 ^ 22)

/-- A write into a pool waits: a bank is booked, reserved or HELD (R256, R320). -/
def State.poolBusy (s : State) (t off n : Nat) : Bool :=
  (banksOf off n).any (fun b => !s.bankFree t b || ((s.tile t).bank b).held)

/-- The HELD page that a write by physical address meets (R322). -/
def State.heldAt (s : State) (a n : Nat) : Option Nat :=
  ((s.touched a n).find? (fun p => decide (pteSN p.pte = 2))).map (fun p => p.va)

/-! ### Messages (R323, R325, R388) -/

/-- The channel of a message. -/
def chanOf (m : Msg) : Chan := ⟨m.src, m.plane, m.vc⟩

/-- The bytes of a run with their marks. -/
def runBytes (r : MsgRun) : List (Nat × Bool) := r.data.zipIdx.map (fun b => (b.1.toNat, r.dirty.getD b.2 false))

/-- A run's bytes go to their place, a pool or HBM. -/
def State.putRun (s : State) (r : MsgRun) : State :=
  if canalForm r.addr then s.putPool (poolPlace r.addr).1 (poolPlace r.addr).2 (runBytes r) else s.putHbm r.addr.toNat (runBytes r)

/-- The checks of the target of operands that a peer sends, for the job they come from (R296). -/
def State.remoteBad (s : State) (job : BitVec 16) (t off n : Nat) (w : Bool) : Option Cause :=
  if n = 0 ∨ 2 ^ 22 < off + n then some .spRange
  else
    let slots := (List.range ((off + n - 1) / 0x4000 - off / 0x4000 + 1)).map (fun i => off / 0x4000 + i)
    let theirs : Nat → Bool := fun b => match (((s.tile t).bank b).owner).bind s.task with
      | some k => decide (((s.tile t).bank b).role = .acc ∧ k.rec_.job = job)
      | none => false
    if slots.any (fun k => !theirs (k / 4) || !s.slotAlloc t k || s.vgOwns t (s.tileNumber t k)) then some .accUnowned
    else if slots.any (fun k => if w then decide (s.slotTag t k ≠ tF64) else decide (s.slotTag t k ≠ tS32 ∧ s.slotTag t k ≠ tF32)) then
      some .fmtMismatch
    else none

/-- The old values of a CATOM's batch, or its fault, go back to the chain's package (R296, R388). -/
def State.atomReply (s : State) (m : Msg) (t : Nat) (a : AtomF) (old : List (Nat × Bool)) : State :=
  s.sendMsg State.sendOrHold (dieOf t) 1 m.src m.job 0 old (some { a with back := true }) none

/-- The operands of a peer's CATOM are applied to a tile of this package, and the old values go back (R296). -/
def State.applyOperands (s : State) (m : Msg) (a : AtomF) (r : MsgRun) : State :=
  let t := (poolPlace r.addr).1
  let off := (poolPlace r.addr).2
  let w := if a.wide then 8 else 4
  let x := (runBytes r)
  match s.remoteBad m.job t off x.length a.wide with
  | some e => s.atomReply m t { a with fault := some (BitVec.ofNat 7 e.code) } []
  | none =>
    let old := s.spanBytes (.pool t off x.length)
    let n := atomBatch a.op.toNat (s.slotTag t (off / 0x4000)) w old x
    let g := n.foldl (fun (g : Flags) e => g.or e.1.2) Flags.none
    (s.poolPut t off (batchBytes w n) false).atomReply m t { a with flags := BitVec.ofNat 5 g.five } old

/-- The cause whose code a fault of a batch brings back. -/
def atomCause (code : Nat) : Cause :=
  if code = Cause.accUnowned.code then .accUnowned else if code = Cause.fmtMismatch.code then .fmtMismatch else .spRange

/-- The old values of a CATOM, or its fault, come back to the chain that waits for them (R296). -/
def State.applyOlds (s : State) (m : Msg) (a : AtomF) : State :=
  match s.chain a.chain with
  | none => s
  | some c =>
    if !(c.atomic && c.awaits && decide (s.chainJob c = m.job)) then s
    else
      match c.st, a.fault with
      | .move (.catom _ f), some e => s.chainEnd c.id (some (atomCause e.toNat)) (c.dstField f) false
      | _, _ =>
        let old := m.runs.flatMap runBytes
        s.modChain c.id (fun d => { d with
          acks := [], olds := old, work := [2], at_ := old.length, moved := old.length, flags := d.flags.or (Flags.ofWord (a.flags.setWidth 64)) })

/-- What a message writes, by its virtual channel: operands or old values of a CATOM on VC 1, else its bytes (R388). -/
def State.msgBody (s : State) (m : Msg) : State :=
  match m.atom with
  | some a =>
    if a.back then s.applyOlds m a
    else
      match m.runs with
      | r :: _ => s.applyOperands m a r
      | [] => s
  | none => m.runs.foldl State.putRun s

/-- A message is applied whole: its bytes, then its counter addition (R388). -/
def State.applyMsg (s : State) (m : Msg) : State :=
  let s := s.msgBody m
  match refOf m.ctr.toNat with
  | some r => if refOk m.ctr.toNat then s.ctrAdd r.1 r.2 m.add.toNat else s
  | none => s

/-- A run cannot be written now: a bank is not free, or a page is HELD (R256, R320, R322). -/
def State.runWaits (s : State) (r : MsgRun) : Bool :=
  if canalForm r.addr then s.poolBusy (poolPlace r.addr).1 (poolPlace r.addr).2 r.data.length
  else (s.heldAt r.addr.toNat r.data.length).isSome

/-- Old values that come back, which touch no memory here. -/
def goesBack (m : Msg) : Bool :=
  match m.atom with
  | some a => a.back
  | none => false

/-- A message cannot be applied now: one of its runs waits, and it waits whole (R388). -/
def State.msgWaits (s : State) (m : Msg) : Bool := !goesBack m && m.runs.any s.runWaits

/-- The number of the snapshot in progress or of the last that was (R315). -/
def Snap.cur (n : Snap) : Nat := n.now

/-- A snapshot has begun here and its cut has not come: it waits for the one before it, or for its cut tick (R315). -/
def Snap.ahead (n : Snap) (k : Nat) : Bool := n.begin_.any (fun b => decide (b.1 = k)) || decide (n.phase = 1 ∧ k = n.now)

/-- A channel whose marker came before the package's own cut is closed: what is under way on it waits at the port (R325, R391). -/
def Snap.closed (n : Snap) (c : Chan) : Bool := n.marked.any (fun m => decide (m.2 = c) && n.ahead m.1)

/-- The highest number of a marker that has come on a channel, of a snapshot that is not over here; 0 where none has. -/
def Snap.heard (n : Snap) (c : Chan) : Nat :=
  let early := (n.early.filter (fun f => decide (f.kind = 3 ∧ f.src = c.src ∧ f.plane = c.plane ∧ f.vc = c.vc))).map (fun f =>
    f.addr.toNat % 2 ^ 32)
  (((n.marked.filter (fun m => decide (m.2 = c))).map Prod.fst) ++ early).foldl max 0

/-- A message of the job that arrives on a channel now is logged: after the cut and before the channel's marker (R325). -/
def Snap.logs (n : Snap) (c : Chan) : Bool := decide (n.phase = 2 ∨ n.phase = 3) && decide ((n.now, c) ∉ n.marked)

/-- Traffic of the job waits: between the cut and the end of settle, or while the package rolls back (R316, R332). -/
def Snap.blocks (n : Snap) : Bool := decide (n.phase = 2) || n.rolling.isSome

/-- What becomes of a message of the snapshot job by its incarnation: an older one is discarded (R332). -/
def State.staleMsg (s : State) (m : Msg) : Bool := s.snapJob m.job && decide (m.inc.toNat < s.snap.inc.toNat)

/-- An entry of a channel's log. -/
def loggedOf (m : Msg) : Logged := ⟨m.src, m.plane, m.vc, m⟩

/-- A message arrives: it enters its channel's log where the snapshot in progress asks for that (R325). -/
def State.logIn (s : State) (m : Msg) : State :=
  if s.snapJob m.job && decide (m.inc = s.snap.inc) && s.snap.logs (chanOf m) then
    { s with snap := { s.snap with log := s.snap.log ++ [loggedOf m] } }
  else s

/-- Deliver a message; none where it waits. -/
def State.tryMsg (s : State) (m : Msg) : Option State :=
  if s.snapJob m.job && (s.snap.blocks || decide (s.snap.inc.toNat < m.inc.toNat)) then none
  else if s.snap.closed (chanOf m) || s.msgWaits m then none
  else some (s.applyMsg m)

/-- A message waits at the package; for HELD pages their copies are asked for. -/
def State.holdMsg (s : State) (m : Msg) (n : Nat) : State :=
  let held := m.runs.filterMap (fun r =>
    if goesBack m || canalForm r.addr then none else (s.heldAt r.addr.toNat r.data.length).map (fun va => Ev.held (BitVec.ofNat 64 va)))
  { s with snap := { s.snap with waiting := s.snap.waiting ++ [(m, n)] }, agenda := s.agenda ++ held }

/-- A message is delivered, or waits: behind the others of its channel, or because it cannot be delivered now. -/
def State.takeMsg (s : State) (m : Msg) (n : Nat) : State :=
  if s.snap.waiting.any (fun w => decide (chanOf w.1 = chanOf m)) then s.holdMsg m n
  else
    match s.tryMsg m with
    | some t => t
    | none => s.holdMsg m n

/-- FABRIC_MESSAGE (R388): a whole message of a channel arrives; a channel keeps its order. -/
def execFabricMessage (m : Msg) (s : State) : Out :=
  .next (if s.staleMsg m then s else (s.logIn m).takeMsg m (s.snap.heard (chanOf m)))

/-- The messages that wait are tried again, each channel in its order. -/
def State.retryMsgs (s : State) : State :=
  s.snap.waiting.foldl (fun s w => if s.staleMsg w.1 then s else s.takeMsg w.1 w.2) { s with snap := { s.snap with waiting := [] } }

end Sys2Proof.Machine
end

