-- ==== Sys2Proof/Machine/Heap.lean ====
section
/-! DEFINITION. The code heap: the frames of images, the translation cache, installed images and the contexts that are in them; what
both the Lockkeeper and a rollback do with them (R366, R376, R377, R380, R383). -/

namespace Sys2Proof.Machine

/-- The leaf that a table gives for a page: 4 KiB, valid and with X, or none (R369). -/
def State.lkLeaf (s : State) (ptbase page : Word) : Option Leaf :=
  if ptbase.getLsbD 0 = false then none
  else
    match walkFrom s.hbm (page.toNat % 2 ^ 57) 4 0 (field ptbase.toNat 51 15 * 2 ^ 15) with
    | .ok l => if l.size = 4096 ∧ pteX l.pte = true then some l else none
    | .error _ => none

/-! ### Frames (R366, R376, R379) -/

/-- Two runs of frames meet. -/
def framesMeet (a n b m : Nat) : Bool := decide (a < b + 4096 * m ∧ b < a + 4096 * n)

/-- An image run lies in the heap past the request rings, frame-aligned. -/
def State.inHeap (s : State) (a n : Nat) : Bool :=
  decide (a % 4096 = 0 ∧ s.cfg.heapBase + 0x8000 ≤ a ∧ a + 4096 * n ≤ s.cfg.heapBase + s.cfg.heapSize)

/-- A cache entry that an installed page refers to. -/
def State.cacheUsed (s : State) (e : CacheEntry) : Bool := s.installs.any (fun i => decide (i.frame = e.frame))

/-- The least recently used of the entries to which no installed page refers. -/
def State.lruEntry (s : State) : Option CacheEntry :=
  (s.cache.filter (fun e => !s.cacheUsed e)).foldl (fun (b : Option CacheEntry) e => match b with
    | none => some e
    | some b => if e.used < b.used then some e else some b) none

/-- A captured state that a rollback could restore: the last committed one, or one that may still be committed (R330, R380). -/
def State.restorable (s : State) (k : Ckpt) : Bool := decide (s.snap.k.toNat ≤ k.num)

/-- The captured states that a rollback could restore. -/
def State.captures (s : State) : List Ckpt := s.snap.ckpts.filter s.restorable ++ s.snap.part.toList

/-- A run is free: in the heap, and met by no installed image, by none that a rollback would put back, and by no cache entry
(R376, R383). -/
def State.runFree (s : State) (a n : Nat) : Bool :=
  s.inHeap a n && !s.installs.any (fun i => framesMeet a n i.frame i.frames) && !s.cache.any (fun e => framesMeet a n e.frame e.frames)
    && !s.captures.any (fun k => k.images.any (fun c => framesMeet a n c.rec_.frame c.rec_.frames))

/-- The first places where a run could be free: the start of the heap's images, and after each image and cache entry and each image that
a rollback would put back. -/
def State.runStarts (s : State) : List Nat :=
  (s.cfg.heapBase + 0x8000) :: (s.installs.map (fun i => i.frame + 4096 * i.frames) ++ s.cache.map (fun e => e.frame + 4096 * e.frames)
    ++ s.captures.flatMap (fun k => k.images.map (fun c => c.rec_.frame + 4096 * c.rec_.frames)))

/-- A free run of n frames: the one that the firmware names where it is free, else the first in the heap. -/
def State.findRun (s : State) (want n : Nat) : Option Nat :=
  if s.runFree want n then some want else s.runStarts.find? (fun a => s.runFree a n)

/-- Find room for n frames: while there is none, cache entries are evicted, least recently used first; none where no room can be
made (R376, R379). `fuel` bounds the evictions. -/
def State.makeRoom : Nat → State → Nat → Nat → Option (State × Nat)
  | 0, s, want, n => (s.findRun want n).map (fun a => (s, a))
  | fuel + 1, s, want, n =>
    match s.findRun want n with
    | some a => some (s, a)
    | none =>
      match s.lruEntry with
      | none => none
      | some e => State.makeRoom fuel { s with cache := s.cache.filter (fun k => decide (k ≠ e)) } want n

/-- Every byte of an image is written, its frames owned by the heap, encrypted where the page is confidential (R366, R377). -/
def State.writeImage (s : State) (a : Nat) (bytes : List Byte) (key : Option (BitVec 256)) : State :=
  (List.range (bytes.length / 4096)).foldl (fun s i => s.setOwner (a + 4096 * i) 0xFFFF) (s.hbmPut a (whole (unmarked bytes)) key)

/-- A leaf with another frame and W as given: one 64-bit write. -/
def State.writeLeaf (s : State) (l : Leaf) (frame : Nat) (clearW : Bool) : State :=
  let e := l.pte - pteFrame l.pte + frame
  s.wrHbm l.at_ 8 (if clearW && pteW l.pte then e - 4 else e)

/-- A page is dropped at package scope with its service tiles (R354). -/
def State.dropPage (s : State) (page : Word) : State := s.dropCode (fun _ => true) (fun p => decide (p = pageOf page))

/-! ### Contexts in a page (R380, R383) -/

/-- A context holds a bundle handle or an active loop level in a page (R380). -/
def Ctx.inPage (k : Ctx) (page : BitVec 45) : Bool :=
  decide (pageOf k.pos = page) || k.loops.any (fun l => decide (l.page = page))

/-- A context is in an installed page: its own table leads to the page's leaf (R380). -/
def State.isIn (s : State) (k : Ctx) (i : Install) : Bool :=
  k.inPage (pageOf i.va) && (match s.lkLeaf k.ptbase i.va with
    | some l => decide (l.at_ = i.leaf)
    | none => false)

/-- A page is quiescent: no context running, saved, pre-empted or captured in a state that a rollback could restore is in it
(R380). -/
def State.quiescent (s : State) (i : Install) : Bool :=
  let live := s.ctxs.filter (fun (e : Nat × Ctx) => decide (e.1 % 4 = 0) || e.2.task.isSome)
  !live.any (fun (e : Nat × Ctx) => s.isIn e.2 i)
    && !s.seqs.any (fun (e : Nat × Seq) => match e.2.saved0 with
      | some k => s.isIn k i
      | none => false)
    && !s.captures.any (fun k => k.ctxs.any (fun (e : Nat × Ctx) => s.isIn e.2 i))

/-! ### Images that a rollback puts back (R383) -/

/-- The tags of a range's sectors. -/
def State.tagsOf (s : State) (a n : Nat) : Table (BitVec 24) := tslice s.hbmTag (a / 64) ((a + n) / 64)

/-- An installed image as it stands. -/
def State.imageCopy (s : State) (i : Install) : ImageCopy :=
  ⟨i, BitVec.ofNat 64 (s.rdHbm i.leaf 8), tslice s.hbm i.frame (i.frame + 4096 * i.frames), s.tagsOf i.frame (4096 * i.frames)⟩

/-- The images that some contexts are in. -/
def State.imagesOf (s : State) (l : Table Ctx) : List ImageCopy :=
  (s.installs.filter (fun i => l.any (fun (e : Nat × Ctx) => s.isIn e.2 i))).map s.imageCopy

/-- The image that was installed at the cut is installed: nothing is to be done where its page's leaf still maps it; else its bytes go
back to its frames, which no other image has taken, its leaf maps it again, and the page is dropped (R383). -/
def State.reinstall (s : State) (c : ImageCopy) : State :=
  let i := c.rec_
  if s.installs.any (fun k => decide (k.leaf = i.leaf ∧ k.frame = i.frame)) && decide (pteFrame (s.rdHbm i.leaf 8) = i.frame) then s
  else
    let n := 4096 * i.frames
    let s := { s with
      hbm := tputAll 0 (tclear s.hbm i.frame (i.frame + n)) c.bytes,
      hbmGran := tclear s.hbmGran (i.frame / 64) ((i.frame + n) / 64),
      hbmTag := tputAll 0 (tclear s.hbmTag (i.frame / 64) ((i.frame + n) / 64)) c.tags,
      installs := s.installs.filter (fun (k : Install) => decide (k.leaf ≠ i.leaf)) ++ [{ i with revert := false, asked := [], next := none }] }
    (s.wrHbm i.leaf 8 c.leaf.toNat).dropPage i.va

end Sys2Proof.Machine
end

