-- ==== Sys2Proof/Machine/Snapshot.lean ====
section
/-! DEFINITION. Snapshots and rollback: SNAPCFG, the cut, settle, capture, markers and logs, completion and commit, abort, and the
rollback of a job (R313 to R334). -/

namespace Sys2Proof.Machine

/-! ### The job and its packages (R313) -/

/-- A task of the snapshot job: JOBID of its contexts (R313). -/
def State.ofJob (s : State) (t : Task) : Bool := t.members.any (fun m => s.snapJob (s.ctx m.1 m.2).jobid)

/-- The resident tasks of the snapshot job. -/
def State.jobTasks (s : State) : List Task := s.tasks.filter s.ofJob

/-- The package list that SNAPLIST names, as it stands in HBM: read as a snapshot begins and as a rollback is acted on (R313). -/
def State.readList (s : State) : List (BitVec 16) :=
  let base := field s.snap.list_.toNat 51 4 * 16
  (List.range (field s.snap.cfg.toNat 39 24)).map (fun i => BitVec.ofNat 16 (s.rdHbm (base + 2 * i) 2))

/-- A list is valid (R313). -/
def State.listOk (s : State) (l : List (BitVec 16)) : Bool :=
  decide (s.pkg ∈ l ∧ l.dedup.length = l.length) && l.all (fun p => decide (p.toNat ≤ 18431))

/-- The packages of the job: the list of the snapshot in progress, or of the rollback. -/
def State.packages (s : State) : List (BitVec 16) := s.snap.members

/-- The other packages of the job. -/
def State.peers (s : State) : List (BitVec 16) := s.packages.filter (fun p => decide (p ≠ s.pkg))

/-- The coordinator's package number. -/
def State.coordinator (s : State) : BitVec 16 := s.snap.cfg.extractLsb' 40 16

/-- A control flit on VC 3 to a package, with a snapshot number and what else it carries (R388, log 27). -/
def State.sendControl (s : State) (kind : Nat) (p : BitVec 16) (n : Nat) (inc : BitVec 16) (payload : List Byte) : State :=
  s.sendOrHold (portTo 0 p.toNat) { s.flitOf kind 3 p s.snapJobNo with addr := BitVec.ofNat 64 n, inc := inc, payload := payload }

/-- The same to every other package of the job. -/
def State.broadcast (s : State) (kind n : Nat) (inc : BitVec 16) (payload : List Byte := []) : State :=
  s.peers.foldl (fun s p => s.sendControl kind p n inc payload) s

/-- The channels that come from the other packages of the job: 24 planes and four virtual channels from each (R18, R323). -/
def State.channelsIn (s : State) : List Chan :=
  s.peers.flatMap (fun p => (List.range 24).flatMap (fun n => (List.range 4).map (fun v =>
    ⟨p, BitVec.ofNat 5 n, BitVec.ofNat 2 v⟩)))

/-- The snapshot in progress has begun and may still abort: not committed, not aborted (R329). -/
def Snap.open_ (n : Snap) : Bool := decide (1 ≤ n.phase.toNat ∧ n.phase.toNat ≤ 4)

/-- Every snapshot that is neither committed nor aborted here: those that wait, the one in progress, and complete ones (R329). -/
def Snap.pending (n : Snap) : List Nat :=
  ((n.ckpts.map (fun k => k.num)).filter (fun k => decide (n.k.toNat < k ∧ k ≠ n.now)) ++ (if n.open_ then [n.now] else [])
    ++ n.begin_.map Prod.fst).dedup

/-- A snapshot or rollback is in progress on the package (R313, R398). -/
def Snap.busy (n : Snap) : Bool := n.open_ || decide (n.begin_ ≠ []) || n.asked.isSome || n.rolling.isSome

/-- SNAPCFG (R313, R314). What was kept for another job than the one it names is no more (log 75). -/
def execSnapcfg (v : Word) (s : State) : Out :=
  if s.snap.busy then .next s
  else
    let w := v &&& 0x8FFFFFFFFF00FFFF
    let fresh : Snap := if w.setWidth 16 ≠ s.snapJobNo then
        { s.snap with
          b := 0, k := 0, a := 0, phase := 0, now := 0, ckpts := [], marked := [], done := [], limits := [], dirty := [], full := false, tables := [] }
      else s.snap
    .next { s with snap := { fresh with cfg := w } }

/-! ### Abort (R329) -/

/-- A bank by its number 64 × tile key + bank. -/
def State.setHeld (s : State) (k : Nat) (h : Bool) : State :=
  s.modTile (k / 64) (fun t => t.modBank (k % 64) (fun b => { b with held := h }))

/-- The page of the snapshot job that holds a virtual address, one that is HELD before others. -/
def State.jobPage (s : State) (va : Nat) : Option PageRef :=
  let l := (s.jobPages s.snapJobNo).filter (fun (p : PageRef) => decide (p.va ≤ va ∧ va < p.va + p.size))
  (l.find? (fun (p : PageRef) => decide (pteSN p.pte = 2 ∧ p.at_ ∈ s.snap.heldPages))).or l.head?

/-- The virtual channels of a plane that a marker still closes. -/
def Snap.closedVcs (n : Snap) (plane : Nat) : BitVec 4 :=
  (List.range 4).foldl (fun (b : BitVec 4) v =>
    if n.marked.any (fun m => decide (m.2.plane.toNat = plane ∧ m.2.vc.toNat = v) && n.ahead m.1) then b ||| BitVec.ofNat 4 (2 ^ v) else b) 0

/-- The virtual channels that no marker closes any more are opened (R325, R391). -/
def State.openChannels (s : State) : State :=
  (s.links.filter (fun e => decide (e.2.stopped ≠ 0))).foldl (fun s e =>
    let bits := s.snap.closedVcs e.1 ||| e.2.full
    if bits = e.2.stopped then s
    else
      let s := s.modLink e.1 (fun k => { k with stopped := bits })
      if e.2.up then s.sendOrHold e.1 { s.flitOf 9 0 0 0 with addr := bits.setWidth 64 } else s) s

/-- What the snapshot in progress holds is given up: held banks, HELD pages, its log and its part (R321, R329). -/
def State.dropCapture (s : State) : State :=
  let s := s.snap.heldBanks.foldl (fun s k => s.setHeld k false) s
  let s := ((s.jobPages s.snapJobNo).filter (fun (p : PageRef) => decide (p.at_ ∈ s.snap.heldPages))).foldl (fun s (p : PageRef) =>
    let s := s.setSN p 1
    { s with snap := s.snap.logDirty p.at_ }) s
  { s with snap := { s.snap with heldBanks := [], heldPages := [], log := [], part := none, phase := 6 } }

/-- A snapshot is given up at this package, which has heard of it or not (R329). -/
def State.abortHere (s : State) (n reason : Nat) : State :=
  let s := if n = s.snap.now ∧ s.snap.open_ = true then s.dropCapture else s
  let s := { s with snap := { s.snap with
    begin_ := s.snap.begin_.filter (fun b => decide (b.1 ≠ n)), ckpts := s.snap.ckpts.filter (fun k => decide (k.num ≠ n)),
    done := s.snap.done.filter (fun d => decide (d.1 ≠ n)), limits := s.snap.limits.filter (fun l => decide (l.1 ≠ n)),
    marked := s.snap.marked.filter (fun m => decide (m.1 ≠ n)), a := BitVec.ofNat 32 n, reason := BitVec.ofNat 4 reason } }
  s.openChannels.postD 0 .snapAbort (BitVec.ofNat 64 (n * 2 ^ 8 + reason))

/-- The package finds a reason to give up a snapshot: it sends an abort flit to every package of the job, none for an invalid list; after a
function-level reset the flit says so (R313, R329, R402, log 122). -/
def State.abortOf (s : State) (n reason : Nat) (told : List Byte := []) : State :=
  if n ∈ s.snap.pending then
    let t := s.abortHere n reason
    if reason = 7 then t else t.broadcast 6 n s.snap.inc told
  else s

/-- SNAPSHOT_ABORT (R329): the snapshot in progress is given up for a reason. -/
def execSnapshotAbort (reason : BitVec 8) (s : State) : Out :=
  .next (if s.snap.open_ then s.abortOf s.snap.now (reason.toNat % 16) else s)

/-- The same, as other units of the package find a reason. -/
def State.abort (s : State) (reason : Nat) : State := if s.snap.open_ then s.abortOf s.snap.now reason else s

/-- Every snapshot that is neither committed nor aborted is given up (R332, R402). -/
def State.abortAll (s : State) (reason : Nat) (told : List Byte := []) : State :=
  s.snap.pending.foldl (fun s n => s.abortOf n reason told) s

/-- SNAPSHOT_TIME_LIMIT (R313, R329): the coordinator's limit from the cut of a snapshot has passed without commit. -/
def execSnapshotTimeLimit (s : State) : Out :=
  let past := s.snap.limits.filter (fun l => decide (l.2 ≤ s.gclk))
  let s := past.foldl (fun s l => s.abortOf l.1 5) s
  .next { s with snap := { s.snap with limits := s.snap.limits.filter (fun l => decide (s.gclk < l.2)) } }

/-- A job flit that this package discards: of another job, or of an older incarnation (R332). -/
def State.staleFlit (s : State) (f : Flit) : Bool := !s.snapJob f.job || decide (f.inc.toNat < s.snap.inc.toNat)

/-- A job flit of a newer incarnation waits until this package has rolled back (R332). -/
def State.tooEarly (s : State) (f : Flit) : Bool := decide (s.snap.inc.toNat < f.inc.toNat)

/-- It waits. -/
def State.keepEarly (s : State) (f : Flit) : State := { s with snap := { s.snap with early := s.snap.early ++ [f] } }

/-- A control flit of the snapshot job: discarded, kept, or acted on (R332). -/
def State.control (s : State) (f : Flit) (act : State → State) : Out :=
  .next (if s.staleFlit f then s else if s.tooEarly f then s.keepEarly f else act s)

/-- An abort flit (R329): reason 6, or 1 where it says that its sender has been reset (R402, log 122); one for a number already committed is discarded, and one for a number aborted here already does
nothing more (log 100). -/
def execAbortFlit (f : Flit) (s : State) : Out :=
  let n := f.addr.toNat % 2 ^ 32
  s.control f (fun s => if s.snap.k.toNat < n ∧ n ≠ s.snap.a.toNat then
    s.abortHere n (if f.payload = [1] then 1 else 6) else s)

/-! ### Begin and cut (R315, R316) -/

/-- The next of the snapshots that have begun goes on once the one before it is locally complete: its cut is to be the first tick at
least 64 cycles on (R315). -/
def State.snapNext (s : State) : State :=
  match s.snap.begin_ with
  | [] => s
  | (n, l) :: rest =>
    if 1 ≤ s.snap.phase.toNat ∧ s.snap.phase.toNat ≤ 3 then s
    else
      let s := { s with snap := { s.snap with
        begin_ := rest, now := n, phase := 1, cut := some (s.gclk + 64), members := l, log := [], part := none } }
      if s.snap.store.toNat % 2 ^ 16 = 0 then s.abort 2 else s

/-- The package begins snapshot n (R313, R315): it reads the package list. -/
def State.snapBegin (s : State) (n : Nat) : State :=
  if s.snap.cfg.getLsbD 63 ∧ n = s.snap.b.toNat + 1 then
    let l := s.readList
    let t := { s with snap := { s.snap with b := BitVec.ofNat 32 n, begin_ := s.snap.begin_ ++ [(n, l)] } }
    if s.listOk l then t.snapNext else t.abortOf n 7
  else s

/-- The cut of the snapshot in progress is due: the first tick at or after the cycle chosen as it began (R315). -/
def State.cutDue (s : State) : Bool :=
  decide (s.snap.phase = 1) && s.isTick s.gclk && (match s.snap.cut with
    | some c => decide (c ≤ s.gclk)
    | none => false)

/-- A part of which nothing is captured as yet. -/
def Ckpt.empty (n : Nat) : Ckpt :=
  { num := n, manifest := [], ctxs := [], tasks := [], tiles := [], ttiles := [], chains := [], pool := [], grans := [], banks := [],
    pages := [], images := [], log := [], dirty := [], addr := 0, hash := 0 }

/-- SNAPSHOT_CUT (R316): at the end of the cycle before the cut tick every task of the job halts; its running members are held
for it. What has arrived and waits, and was not sent after its sender's cut, is part of the snapshot: it is replayed from the log
(R325). The coordinator's limit counts from here, and the channels that markers had closed open. -/
def execSnapshotCut (s : State) : Out :=
  if s.cutDue then
    let s := s.jobTasks.foldl (fun s t =>
      let s := if t.st = .running then t.members.foldl State.suspendMember (s.holdFor t.id t.seqs) else s
      s.modTask t.id (fun t => if t.st = .cut then t else { t with
        was := t.st, st := .cut, haltedAt := if t.st = .running then some s.gclk else t.haltedAt })) s
    let lim := field s.snap.cfg.toNat 59 56
    let inside := (s.snap.waiting.filter (fun w => s.snapJob w.1.job && decide (w.1.inc = s.snap.inc ∧ w.2 < s.snap.now))).map Prod.fst
    .next { s with snap := { s.snap with
      phase := 2, cut := some s.gclk, halted := some s.gclk, log := inside.map loggedOf,
      part := some (Ckpt.empty s.snap.cur), states := false,
      limits := if s.coordinator = s.pkg then s.snap.limits ++ [(s.snap.now, s.gclk + 2 ^ (lim + 20))] else s.snap.limits } }.openChannels
  else .next s

/-! ### Capture (R317 to R319, R321, R327) -/

/-- The banks a paused nest or grouped operation of a task writes, by number. -/
def State.engineBanks (s : State) (t : Task) : List Nat :=
  (t.members.flatMap (fun m =>
    let k := tileOf m.1
    (match s.nest m.1 with
      | some z => if z.task = t.id then (nestSlots z).map (fun i => 64 * k + i.toNat / 4) else []
      | none => [])
    ++ (match (s.tile k).vg with
      | some v => if v.task = t.id then [64 * k + bankOf v.c] else []
      | none => []))).dedup

/-- The claimed banks of a task of some roles, by number. -/
def State.taskBanks (s : State) (t : Task) (p : Role → Bool) : List Nat :=
  ((t.seqs.map tileOf).dedup).flatMap (fun k =>
    (((s.tile k).banks.filter (fun e => decide (e.2.owner = some t.id) && p e.2.role)).map (fun e => 64 * k + e.1)))

/-- The bytes of a bank. -/
def State.bankBytes (s : State) (k : Nat) : Table Byte :=
  tslice s.pool (poolKey (k / 64) (k % 64 * bankSize)) (poolKey (k / 64) (k % 64 * bankSize) + bankSize)

/-- The marks of a bank's granules. -/
def State.bankGrans (s : State) (k : Nat) : Table Gran :=
  tslice s.poolGran (granKey (k / 64) (k % 64 * bankSize)) (granKey (k / 64) (k % 64 * bankSize) + bankSize / 64)

/-- A granule of a range that a capture could not read. -/
def anyUe (l : Table Gran) : Bool := l.any (fun (e : Nat × Gran) => decide (e.2.mark = .ue))

/-- A bank's tag store as bytes: the tags of its slots, then of its register places (R190, R319, log 98). -/
def Tile.tagBytes (t : Tile) (b : Nat) : List Byte :=
  (((List.range 4).map (fun i => (tget tVOID t.slotTags (4 * b + i)).toNat)
    ++ (List.range 128).map (fun i => (tget tVOID t.regTags (128 * b + i)).toNat)).flatMap (leBytes 2)).map (BitVec.ofNat 8)

/-- SHA3-256 of bytes, as a number in byte order. -/
def hashOf (l : List Byte) : BitVec 256 :=
  BitVec.ofNat 256 (((sha3 (l.map (fun b => b.toNat))).zipIdx).foldl (fun a b => a + b.1 * 256 ^ b.2) 0)

/-- The address in the store that the next bytes get (R313). -/
def Snap.storeAt (n : Snap) : Nat := field n.store.toNat 47 16 * 2 ^ 20 + n.used

/-- The store has room for n more bytes. -/
def Snap.room (n : Snap) (k : Nat) : Bool := decide (n.used + k ≤ n.store.toNat % 2 ^ 16 * 2 ^ 30)

/-- Bytes go to the store where that is this package's own HBM (R313). Where in the store they go is the model's (log 28). -/
def State.storeBytes (s : State) (bytes : List Byte) : State :=
  let t := if s.snap.store.extractLsb' 48 16 = s.pkg then s.hbmPut s.snap.storeAt (whole (unmarked bytes)) none else s
  { t with snap := { t.snap with used := t.snap.used + bytes.length } }

/-- Change the part. -/
def State.modPart (s : State) (f : Ckpt → Ckpt) : State := { s with snap := { s.snap with part := s.snap.part.map f } }

/-- Add an entry to the part, its bytes to the store; a store without room ends the snapshot (R327, R329). -/
def State.storeItem (s : State) (kind : Nat) (place : Nat) (bytes : List Byte) (leaf : Nat := 0) : State :=
  if s.snap.part = none then s
  else if !s.snap.room bytes.length then s.abort 2
  else
    let e : ManEntry := ⟨BitVec.ofNat 64 place, bytes.length, s.snap.store.extractLsb' 48 16, BitVec.ofNat 8 kind, s.snap.cur,
      BitVec.ofNat 64 s.snap.storeAt, hashOf bytes, leaf⟩
    (s.storeBytes bytes).modPart (fun p => { p with manifest := p.manifest ++ [e] })

/-- An entry of a manifest as it stands in the store (R327). -/
def ManEntry.bytes (e : ManEntry) : List Byte :=
  (leBytes 8 e.place.toNat ++ leBytes 8 e.size ++ leBytes 2 e.store.toNat ++ leBytes 2 e.kind.toNat ++ leBytes 4 e.snap
    ++ leBytes 8 e.addr.toNat ++ leBytes 32 e.hash.toNat).map (BitVec.ofNat 8)

/-- A member's context as a capture saves it: its chambers are not saved, and are fetched again when it resumes (R148, R318). -/
def State.ctxCopy (s : State) (m : Nat × Nat) : Ctx :=
  let k := s.ctx m.1 m.2
  { k with back := k.back ++ (s.seq m.1).heldSegs m.2 }

/-- What the package captures of its job in one cycle at the end of settle: sequencer states with the register runs, counters,
rings, chains, paused engines, and the images that the contexts are in (R317, R318, R383). -/
def State.capture (s : State) : Ckpt :=
  let ts := s.jobTasks
  let tiles := (ts.flatMap (fun t => t.seqs.map tileOf)).dedup
  let ctxs := ts.flatMap (fun t => t.members.map (fun m => (ctxKey m.1 m.2, s.ctxCopy m)))
  let regs := ts.flatMap (fun t => s.taskBanks t (fun r => decide (r = .regs)))
  { num := s.snap.cur, manifest := [], ctxs := ctxs, tasks := ts, tiles := tiles.map (fun k => (k, s.tile k)),
    ttiles := s.ttiles.filter (fun e => ts.any (fun t => decide (e.1 / 512 = t.id + 1))),
    chains := s.chains.filter (fun c => ts.any (fun t => decide (c.task = some t.id))),
    pool := regs.flatMap s.bankBytes, grans := regs.flatMap s.bankGrans, banks := [], pages := [], images := s.imagesOf ctxs, log := [],
    dirty := s.snap.dirty, addr := 0, hash := 0 }

/-- An uncorrectable entry of a context (R348). -/
def Ctx.hasUe (k : Ctx) : Bool :=
  k.q.any (fun v => decide (v.mark = .ue)) || k.vq.any (fun v => decide (v.mark = .ue))
    || k.keeps.any (fun (e : Nat × SVal) => decide (e.2.mark = .ue)) || decide (k.xb.mark = .ue)
    || k.flights.any (fun f => f.vals.any (fun v => decide (v.mark = .ue)) || f.vecs.any (fun v => decide (v.mark = .ue)))

/-- What was captured in one cycle has an uncorrectable error (R329): in a context, or in a register run's bank. -/
def Ckpt.hasUe (k : Ckpt) : Bool := k.ctxs.any (fun (e : Nat × Ctx) => e.2.hasUe) || anyUe k.grans

/-- Manifest entries of a kind, one for each member of the job; the layout of their bytes is not stated, so the bytes are free (R327,
log 4). -/
def State.storeMembers (s : State) (kind : Nat) : State :=
  let ms := (s.jobTasks.flatMap (fun t => t.members)).dedup
  ms.foldl (fun s m =>
    let x := m.1
    let place := dieOf (tileOf x) * 2 ^ 12 + tileNo (tileOf x) * 2 ^ 6 + (x % 2) * 4 + m.2
    s.drawn.storeItem kind place (Config.stateBytes s.free)) s

/-- The states of the halted sequencers go to the store, within 600 cycles of the cut (R318). -/
def State.storeStates (s : State) : State :=
  let s := s.storeMembers 2
  { s with snap := { s.snap with states := true } }

/-- Sequencer states of the snapshot in progress are still to be written. -/
def Snap.owes (n : Snap) : Bool := decide (n.phase = 2 ∨ n.phase = 3) && !n.states

/-- The pages that the cut visits: those of the dirty log, or every page of the job where the log was full (R321). -/
def State.cutPages (s : State) : List PageRef :=
  (s.jobPages s.snapJobNo).filter (fun p => s.snap.full || decide (p.at_ ∈ s.snap.dirty))

/-- A page of the log is not found by the walk, which is a walk fault (R352). -/
def State.logLost (s : State) : Bool := s.snap.dirty.any (fun a => s.cutPages.all (fun (p : PageRef) => decide (p.at_ ≠ a)))

/-- A marker on every channel to every other package of the job (R324). -/
def State.sendMarkers (s : State) : State :=
  s.peers.foldl (fun s p => (List.range 24).foldl (fun s n => (List.range 4).foldl (fun s v =>
    s.sendOrHold n { s.flitOf 3 (BitVec.ofNat 2 v) p s.snapJobNo with addr := BitVec.ofNat 64 s.snap.cur }) s) s) s

/-- Cross-die accesses issued before the cut, and every other access of the job's members, have performed, and so have the effects
that their last bundles had under way, of which none takes longer than eight cycles (R316, R317). -/
def State.settled (s : State) : Bool :=
  let ms := s.jobTasks.flatMap (fun t => t.members)
  !s.accs.any (fun a => decide ((a.seq, a.ctx) ∈ ms)) && (match s.snap.cut with
    | some c => decide (c + 8 ≤ s.gclk)
    | none => false)

/-- SETTLE_END (R317). -/
def execSettleEnd (s : State) : Out :=
  if s.snap.phase = 2 ∧ s.settled = true then
    let ts := s.jobTasks
    let all := (ts.flatMap (fun t => s.taskBanks t (fun r => decide (r = .scratch ∨ r = .acc)))).mergeSort (fun a b => decide (a ≤ b))
    let first := ((ts.flatMap s.engineBanks).filter (fun b => decide (b ∈ all))).mergeSort (fun a b => decide (a ≤ b))
    let banks := first ++ all.filter (fun b => decide (b ∉ first))
    let pages : List PageRef := s.cutPages
    let lost := s.logLost
    let part := s.capture
    let s := banks.foldl (fun s k => s.setHeld k true) s
    let s := pages.foldl (fun s p => s.setSN p 2) s
    let s := { s.cutTlb s.snapJobNo with snap := { s.snap with
      phase := 3, heldBanks := banks, heldPages := pages.map (fun (p : PageRef) => p.at_), dirty := [], full := false,
      part := some { part with manifest := (s.snap.part.map Ckpt.manifest).getD [] } } }
    let s := (s.storeMembers 4).sendMarkers
    .next (if lost || part.hasUe then s.abort 3 else s)
  else .next s

/-- A halted gang resumes; its waits are taken up again, and a pre-emption asked for meanwhile is asked for now (R152, R316,
R318). -/
def State.rejoin (s : State) (t : Task) (m : Nat × Nat) : State :=
  if (s.seq m.1).serving then s.modSeq m.1 (fun q => if q.hold = some t.id then { q with hold := none } else q)
  else s.resumeMember m

/-- Sequencers of a gang that goes on hold again for an urgent task that has asked for its halt (R153). -/
def State.holdUrgent (s : State) (t : Task) : State :=
  (s.tasks.filter (fun u => decide (u.st = .bound) && s.urgentRec u.rec_ && u.meets t.seqs && decide (s.eff t < u.rank))).foldl (fun s u =>
    s.holdFor u.id (t.seqs.filter (fun x => decide (x ∈ u.seqs)))) s

/-- The resumption of a cut task in the state it was in. -/
def State.uncut (s : State) (t : Task) : State :=
  let s := if t.was = .running then t.members.foldl (fun s m => s.rejoin t m) s else s
  let shift := match t.haltedAt with
    | some h => s.gclk - h
    | none => 0
  let s := if t.was = .running then ((t.seqs.map tileOf).dedup).foldl (fun (s : State) (k : Nat) => s.modTile k (fun r =>
      if 1 ≤ partAcount t.rec_.partw then { r with origin := r.origin + shift } else r)) s
    else s
  let s := s.modTask t.id (fun t => { t with st := t.was, haltedAt := if t.was = .running then none else t.haltedAt })
  match t.preempt with
  | some (_, sup, by_) =>
    let h := s.gclk + 1 + s.freeWord.toNat % 112
    let s := (s.drawn.modTask t.id (fun t => { t with preempt := some (h, sup, by_) })).holdUrgent t
    { s with env := s.env ++ [(h, .halt t.id)] }
  | none => s

/-- SNAPSHOT_RESUME (R318): on a tick at or after C + 600 and the end of settle, every gang whose engines' banks have been
streamed out resumes. C is the cut that halted them; the next snapshot may have begun since. -/
def execSnapshotResume (s : State) : Out :=
  match s.snap.halted with
  | none => .next s
  | some c =>
    if s.isTick s.gclk = false ∨ s.gclk < c + 600 ∨ s.snap.phase = 2 then .next s
    else
      .next ((s.tasks.filter (fun t => decide (t.st = .cut)
        && (s.engineBanks t).all (fun b => decide (b ∉ s.snap.heldBanks)))).foldl State.uncut s)

/-- BANK_STREAM_OUT (R319): the first HELD bank has been written and hashed, with its tag store. -/
def execBankStreamOut (bank : Nat) (s : State) : Out :=
  match s.snap.heldBanks with
  | [] => .next s
  | b :: rest =>
    if b ≠ bank then .next s
    else
      let t := b / 64
      let bytes := rdList s.pool (poolKey t (b % 64 * bankSize)) bankSize ++ (s.tile t).tagBytes (b % 64)
      if !s.snap.room bytes.length then .next (s.abort 2)
      else if anyUe (s.bankGrans b) then .next (s.abort 3)
      else
        let s := s.modPart (fun p => { p with banks := p.banks ++ [b], pool := p.pool ++ s.bankBytes b, grans := p.grans ++ s.bankGrans b })
        let place := dieOf t * 2 ^ 12 + tileNo t * 2 ^ 6 + b % 64
        let s := (s.storeItem 1 place bytes).setHeld b false
        .next { s with snap := { s.snap with heldBanks := rest } }

/-- A page as a capture copies it. -/
def State.pageCopy (s : State) (p : PageRef) : PageCopy :=
  ⟨p.va, p.size, p.frame, p.at_, tslice s.hbm p.frame (p.frame + p.size), tslice s.hbmGran (p.frame / 64) ((p.frame + p.size) / 64),
    s.tagsOf p.frame p.size, s.snap.cur⟩

/-- A HELD page's bytes go to the store; its entry takes a new state (R321, R322). -/
def State.storePage (s : State) (p : PageRef) (sn : Nat) : State :=
  let c := s.pageCopy p
  if !s.snap.room p.size then s.abort 2
  else if anyUe c.grans then s.abort 3
  else
    let s := s.modPart (fun k => { k with pages := k.pages ++ [c] })
    let s := (s.storeItem 0 p.va (rdList s.hbm p.frame p.size) p.at_).setSN p sn
    { s with snap := { s.snap with heldPages := s.snap.heldPages.filter (fun a => decide (a ≠ p.at_)) } }

/-- HELD_PAGE_COPY (R322): the page for which a write waits is copied whole and becomes DIRTY, in the new log. -/
def execHeldPageCopy (va : Word) (s : State) : Out :=
  match s.jobPage (va.toNat % 2 ^ 57) with
  | none => .next s
  | some p =>
    if pteSN p.pte = 2 ∧ p.at_ ∈ s.snap.heldPages then
      let t := s.storePage p 1
      .next (if t.snap.phase ≠ s.snap.phase then t else { t with snap := t.snap.logDirty p.at_ })
    else .next s

/-- BACKGROUND_CAPTURE (R321): a HELD page is captured and becomes CLEAN. -/
def execBackgroundCapture (va : Word) (s : State) : Out :=
  match s.jobPage (va.toNat % 2 ^ 57) with
  | none => .next s
  | some p => if pteSN p.pte = 2 ∧ p.at_ ∈ s.snap.heldPages then .next (s.storePage p 0) else .next s

/-! ### Markers (R315, R325) -/

/-- A channel is closed at its port until the package's own cut (R325, R391). -/
def State.closeChannel (s : State) (c : Chan) : State :=
  let p := c.plane.toNat
  let bits := (s.link p).stopped ||| BitVec.ofNat 4 (2 ^ c.vc.toNat)
  (s.modLink p (fun k => { k with stopped := bits })).sendOrHold p { s.flitOf 9 0 0 0 with addr := bits.setWidth 64 }

/-- A marker takes effect: it begins a snapshot that has not begun here, and ends its channel's log (R315, R325). -/
def State.mark (s : State) (f : Flit) : State :=
  let n := f.addr.toNat % 2 ^ 32
  let ch : Chan := ⟨f.src, f.plane, f.vc⟩
  let s := if n = s.snap.b.toNat + 1 ∧ n ≠ s.snap.a.toNat then s.snapBegin n else s
  if s.snap.ahead n || decide (n = s.snap.now ∧ (s.snap.phase = 2 ∨ s.snap.phase = 3)) then
    let s := { s with snap := { s.snap with marked := s.snap.marked ++ [(n, ch)] } }
    if s.snap.ahead n then s.closeChannel ch else s
  else s

/-- MARKER (R315, R325): one for a number above B + 1, or of a snapshot that has aborted, is discarded. -/
def execMarker (f : Flit) (s : State) : Out := s.control f (fun s => s.mark f)

/-! ### Completion and commit (R326 to R328) -/

/-- COMMIT at a package: K becomes N (R328). -/
def State.committed (s : State) (n : Nat) : State :=
  { s with snap := { s.snap with
    k := BitVec.ofNat 32 n, phase := if n = s.snap.now then 5 else s.snap.phase,
    limits := s.snap.limits.filter (fun l => decide (l.1 ≠ n)), done := s.snap.done.filter (fun d => decide (d.1 ≠ n)) } }

/-- The bytes of a root record over which its hash is taken (R328, log 98). -/
def rootBytes (n job count prev : Nat) (parts : List (BitVec 16 × Word × BitVec 256)) : List Byte :=
  (leBytes 4 n ++ leBytes 2 job ++ leBytes 2 count ++ leBytes 4 prev ++ parts.flatMap (fun p =>
    leBytes 2 p.1.toNat ++ leBytes 8 p.2.1.toNat ++ leBytes 32 p.2.2.toNat)).map (BitVec.ofNat 8)

/-- What the coordinator holds of the parts of a snapshot, in the order of the package list; none while a DONE is missing. -/
def State.allParts (s : State) (n : Nat) : Option (List (BitVec 16 × Word × BitVec 256)) :=
  s.packages.mapM (fun q => (s.snap.done.find? (fun (d : Nat × BitVec 16 × Word × BitVec 256) => decide (d.1 = n ∧ d.2.1 = q))).map Prod.snd)

/-- The coordinator holds a DONE from every package: it writes the root record and commits (R328). -/
def State.commitAll (s : State) (n : Nat) (parts : List (BitVec 16 × Word × BitVec 256)) : State :=
  let bytes := rootBytes n s.snapJobNo.toNat s.packages.length s.snap.k.toNat parts
  let r : Root := ⟨n, s.snapJobNo, s.packages.length, s.snap.k.toNat, parts, hashOf bytes⟩
  let whole := bytes ++ (leBytes 32 r.hash.toNat).map (BitVec.ofNat 8)
  if !s.snap.room whole.length then s.abortOf n 2
  else
    let s := s.storeBytes whole
    let s := { s with snap := { s.snap with roots := s.snap.roots ++ [r] } }
    (s.broadcast 5 n s.snap.inc).committed n

/-- The coordinator takes a DONE: the address and the hash of a package's part. -/
def State.doneFrom (s : State) (p : BitVec 16) (n : Nat) (at_ : Word) (hash : BitVec 256) : State :=
  if s.coordinator = s.pkg ∧ n ∈ s.snap.pending then
    let s := { s with snap := { s.snap with
      done := s.snap.done.filter (fun (d : Nat × BitVec 16 × Word × BitVec 256) => decide (¬(d.1 = n ∧ d.2.1 = p)))
        ++ [(n, p, at_, hash)] } }
    match s.allParts n with
    | some parts => s.commitAll n parts
    | none => s
  else s

/-- Everything that R326 asks for has come. -/
def State.complete (s : State) : Bool :=
  decide (s.snap.phase = 3 ∧ s.snap.heldBanks = [] ∧ s.snap.heldPages = []) && s.snap.states && s.snap.part.isSome
    && s.channelsIn.all (fun c => decide ((s.snap.cur, c) ∈ s.snap.marked))

/-- Entries of pages that stayed CLEAN, taken from the snapshot that last captured them (R327). -/
def State.cleanEntries (s : State) (p : Ckpt) : List ManEntry :=
  let old := (s.snap.ckpts.reverse).flatMap (fun k => k.manifest)
  (s.jobPages s.snapJobNo).filterMap (fun g =>
    if p.manifest.any (fun e => decide (e.kind = 0 ∧ e.leaf = g.at_)) then none
    else old.find? (fun e => decide (e.kind = 0 ∧ e.leaf = g.at_)))

/-- The entries of the channel logs and of the dirty log; the layout of their bytes is not stated (R327, log 4). -/
def State.storeLogs (s : State) : State :=
  let chans := (s.snap.log.map (fun l => (l.src, l.plane, l.vc))).dedup
  let s := chans.foldl (fun s c =>
    let place := c.1.toNat + c.2.1.toNat * 2 ^ 16 + c.2.2.toNat * 2 ^ 21
    s.drawn.storeItem 3 place (Config.stateBytes s.free)) s
  s.drawn.storeItem 5 0 (Config.stateBytes s.free)

/-- What a DONE flit carries beside the number: the address and the hash of the package's part (R328, log 98). -/
def doneBytes (k : Ckpt) : List Byte := (leBytes 8 k.addr.toNat ++ leBytes 32 k.hash.toNat).map (BitVec.ofNat 8)

/-- A part with its whole manifest, its log, and the place of its entries in the store. -/
def Ckpt.closed (p : Ckpt) (m : List ManEntry) (log : List Logged) (at_ : Nat) : Ckpt :=
  { p with manifest := m, log := log, addr := BitVec.ofNat 64 at_, hash := hashOf (m.flatMap ManEntry.bytes) }

/-- The part is complete and its array of entries written: it is the package's checkpoint of that number, and the coordinator learns
of it (R326 to R328). -/
def State.finishPart (s : State) (p : Ckpt) : State :=
  let m := p.manifest ++ s.cleanEntries p
  let bytes := m.flatMap ManEntry.bytes
  if !s.snap.room bytes.length then s.abort 2
  else
    let k := p.closed m s.snap.log s.snap.storeAt
    let n := s.snap.now
    let s := s.storeBytes bytes
    let s : State := { s with snap := { s.snap with
      ckpts := s.snap.ckpts ++ [k], part := none, log := [], phase := 4,
      marked := s.snap.marked.filter (fun (e : Nat × Chan) => decide (e.1 ≠ n)) } }
    if s.coordinator = s.pkg then s.doneFrom s.pkg n k.addr k.hash else s.sendControl 4 s.coordinator n s.snap.inc (doneBytes k)

/-- LOCALLY_COMPLETE (R326): the part is written, and a DONE flit goes to the coordinator. -/
def execLocallyComplete (s : State) : Out :=
  if s.complete then
    let s := s.storeLogs
    .next (match s.snap.part with
      | none => s
      | some p => (s.finishPart p).snapNext)
  else .next s

/-- A number from bytes of a flit's payload. -/
def payloadNat (f : Flit) (off n : Nat) : Nat := ofLe (((f.payload.drop off).take n).map (fun b => b.toNat))

/-- DONE at the coordinator (R328). -/
def execDone (f : Flit) (s : State) : Out :=
  s.control f (fun s => s.doneFrom f.src (f.addr.toNat % 2 ^ 32) (BitVec.ofNat 64 (payloadNat f 0 8)) (BitVec.ofNat 256 (payloadNat f 8 32)))

/-- COMMIT (R328). -/
def execCommit (f : Flit) (s : State) : Out := s.control f (fun s => s.committed (f.addr.toNat % 2 ^ 32))

/-! ### Rollback (R331 to R333) -/

/-- An effect that is still to take place belongs to the job: to a member, to a counter that a CTRMASK of the job names, or to a ring,
bank, engine or chain of one of its tasks. -/
def State.ofRolled (s : State) (ms : List (Nat × Nat)) (ids : List Nat) (e : Eff) : Bool :=
  let mine : Nat → Nat → Bool := fun x c => decide ((x, c) ∈ ms)
  let task : Option Nat → Bool := fun t => match t with
    | some t => decide (t ∈ ids)
    | none => false
  let bank : Nat → Nat → Bool := fun t slot => task ((s.tile t).bank (slot / 4)).owner
  let ring : Nat → BitVec 4 → Bool := fun t h => match ((s.tile t).ring h.toNat).owner with
    | some (0, k) => decide (k ∈ ids)
    | _ => false
  match e with
  | .flagsClear x c _ | .scl x c _ _ | .nest x c _ _ _ | .mxFmt x c _ _ _ | .mxPa x c _ | .mxPb x c _ | .tmode x c _ | .katExp x c _
  | .vgtab x c | .grant x c _ _ | .free x c _ | .crd x c _ _ _ | .cpstop x c _ => mine x c
  | .ev (.reg x c _ _) => mine x c
  | .ev _ => false
  | .remWrite _ _ => false
  | .ctr u => ms.any (fun m => decide (tileOf m.1 = u.tile) && (s.ctx m.1 m.2).ctrmask.getLsbD u.ctr)
  | .ringBind _ o _ _ _ _ _ => match o with
    | (0, k) => decide (k ∈ ids)
    | _ => false
  | .ringP t h _ => ring t h
  | .ringC t h _ => ring t h
  | .zeroSlots t slot _ _ => bank t slot
  | .band t slot _ _ => bank t slot
  | .sysr x _ _ c _ _ => mine x c
  | .mxstop x => ms.any (fun m => decide (m.1 = x))
  | .vgstop _ k => decide (k ∈ ids)
  | .zerobStart _ _ _ => false

/-- The engines of some tasks and members of a tile stop, writing nothing more. -/
def Tile.noEngines (t : Tile) (ms : List (Nat × Nat)) (ids : List Nat) : Tile :=
  let nest : Option Nest → Option Nest := fun z => z.filter (fun z => decide (z.task ∉ ids))
  let kat : Option Kat → Option Kat := fun z => z.filter (fun z => decide ((z.seq, z.ctx) ∉ ms))
  { t with
    nestA := nest t.nestA, nestB := nest t.nestB, katA := kat t.katA, katB := kat t.katB,
    vg := t.vg.filter (fun v => decide (v.task ∉ ids)) }

/-- A sequencer runs a task context that is no member of the job, or serves a delivery that interrupted one (R313). -/
def State.runsOther (s : State) (x : Nat) (ms : List (Nat × Nat)) : Bool :=
  let q := s.seq x
  let other : Option Nat → Bool := fun c => match c with
    | some c => decide (c ≠ 0 ∧ (x, c) ∉ ms)
    | none => false
  other q.active || other q.inter

/-- A cause that is pending for a halted member of the job: one that its own bundle has shown, or an A cause of its sequencer where no
task of another job runs there, to which it would be delivered (R332). -/
def Pend.ofHalted (p : Pend) (x : Nat) (ms : List (Nat × Nat)) (foreign : Bool) : Bool :=
  match p.kind with
  | .s => false
  | .p => decide ((x, p.ctx) ∈ ms)
  | .a => !foreign

/-- Step 1 (R332): the job's tasks halt, their chains end with no trace, what is pending for their members is discarded, and what
they had under way is undone. -/
def State.rollHalt (s : State) : State :=
  let ts := s.jobTasks
  let ids := ts.map (fun t => t.id)
  let ms := ts.flatMap (fun t => t.members)
  let seqs := (ts.flatMap (fun t => t.seqs)).dedup
  let foreign := seqs.filter (fun x => s.runsOther x ms)
  let under : List (Nat × Eff) := s.pending.filter (fun e => !s.ofRolled ms ids e.2)
  let s := ts.foldl (fun s t => t.members.foldl (fun s m =>
    (s.suspendMember m).modSeq m.1 (fun q => if q.inter = some m.2 then { q with inter := none } else q)) s) s
  let s := seqs.foldl (fun s x => s.modSeq x (fun q => { q with pend := q.pend.filter (fun p => !p.ofHalted x ms (foreign.contains x)) })) s
  let s := ((seqs.map tileOf).dedup).foldl (fun s k => s.modTile k (fun t => t.noEngines ms ids)) s
  let gone := s.chains.filter (fun c => match c.task with
    | some t => decide (t ∈ ids)
    | none => false)
  let s := gone.foldl (fun s c => s.unseal c true) s
  { s with
    pending := under,
    chains := s.chains.filter (fun c => match c.task with
      | some t => decide (t ∉ ids)
      | none => true),
    accs := s.accs.filter (fun a => !ts.any (fun t => decide ((a.seq, a.ctx) ∈ t.members))) }

/-- The committed checkpoint of a number. -/
def State.ckpt (s : State) (n : Nat) : Option Ckpt := s.snap.ckpts.find? (fun k => decide (k.num = n))

/-- The bytes of a page as of snapshot n: its last capture (R321, R327). -/
def State.pageAsOf (s : State) (n at_ : Nat) : Option PageCopy :=
  ((s.snap.ckpts.filter (fun k => decide (k.num ≤ n))).flatMap (fun k => k.pages)).reverse.find? (fun p => decide (p.at_ = at_))

/-- The bytes that the manifest names in this package's own store have their hashes (R332). -/
def State.storeIntact (s : State) (k : Ckpt) : Bool :=
  (k.manifest.filter (fun e => decide (e.store = s.pkg))).all (fun e => decide (hashOf (rdList s.hbm e.addr.toNat e.size) = e.hash))

/-- A context or bank that the manifest names is held by a task of another job (R332). -/
def State.rollBlocked (s : State) (k : Ckpt) : Bool :=
  k.ctxs.any (fun e => (tget Ctx.init s.ctxs e.1).task.isSome)
    || k.tiles.any (fun e => e.2.banks.any (fun b =>
      k.tasks.any (fun t => decide (b.2.owner = some t.id)) && ((s.tile e.1).bank b.1).owner.isSome))

/-- A captured tile's state goes back: the counters that CTRMASKs name, the rings, banks and engines of the job's tasks and
members. -/
def Tile.restored (now old : Tile) (ids : List Nat) (ms : List (Nat × Nat)) (mask : Nat) : Tile :=
  let mine : Option Nat → Bool := fun t => match t with
    | some t => decide (t ∈ ids)
    | none => false
  let kat : Option Kat → Option Kat → Option Kat := fun o n => (o.filter (fun z => decide ((z.seq, z.ctx) ∈ ms))).or n
  let banks := (old.banks.filter (fun e => mine e.2.owner)).foldl (fun m e => tput m e.1 { e.2 with held := false }) now.banks
  let keep : Nat → Bool := fun b => mine (old.bank b).owner
  { now with
    counters := (List.range 64).foldl (fun m i => if mask.testBit i then tput m i (old.counter i) else m) now.counters,
    rings := (List.range 16).foldl (fun m h => match (old.ring h).owner with
      | some (0, t) => if t ∈ ids then tput m h (old.ring h) else m
      | _ => m) now.rings,
    banks := banks,
    slotTags := tputAll tVOID (now.slotTags.filter (fun e => !keep (e.1 / 4))) (old.slotTags.filter (fun e => keep (e.1 / 4))),
    bands := (old.bands.filter (fun e => keep (e.1 / 16))).foldl (fun m e => tput m e.1 e.2)
      (now.bands.filter (fun e => !keep (e.1 / 16))),
    regTags := tputAll tVOID (now.regTags.filter (fun e => !keep (e.1 / 128))) (old.regTags.filter (fun e => keep (e.1 / 128))),
    regMarks := tputAll .clean (now.regMarks.filter (fun e => !keep (e.1 / 128))) (old.regMarks.filter (fun e => keep (e.1 / 128))),
    nestA := if mine (old.nestA.map (fun z => z.task)) then old.nestA else now.nestA,
    nestB := if mine (old.nestB.map (fun z => z.task)) then old.nestB else now.nestB,
    katA := kat old.katA now.katA, katB := kat old.katB now.katB,
    vg := if mine (old.vg.map (fun v => v.task)) then old.vg else now.vg,
    origin := if ids.any (fun t => old.banks.any (fun e => decide (e.2.owner = some t ∧ e.2.role = .acc))) then old.origin
      else now.origin }

/-- The CTRMASKs of the captured contexts of a tile, together (R317). -/
def Ckpt.ctrMask (k : Ckpt) (t : Nat) : Nat :=
  k.ctxs.foldl (fun a e => if tileOf (e.1 / 4) = t then a ||| e.2.ctrmask.toNat else a) 0

/-- Keys moved from one place to another. -/
def rekey {α : Type} (l : Table α) (old new : Nat) : Table α := l.map (fun (e : Nat × α) => (e.1 - old + new, e.2))

/-- A task that was running at the cut, or waited for the ERETs of an earlier rollback (R332). -/
def Task.wasRun (t : Task) : Bool := decide (t.was = .running ∨ t.was = .rolled)

/-- Restore one page's bytes, marks and tags, and its state. -/
def State.restorePage (s : State) (n : Nat) (p : PageRef) : State :=
  let s := match s.pageAsOf n p.at_ with
    | some c =>
      let g := p.frame / 64
      let h := (p.frame + p.size) / 64
      { s with
        hbm := tputAll 0 (tclear s.hbm p.frame (p.frame + p.size)) (rekey c.bytes c.frame p.frame),
        hbmGran := tputAll Gran.clean (tclear s.hbmGran g h) (rekey c.grans (c.frame / 64) g),
        hbmTag := tputAll 0 (tclear s.hbmTag g h) (rekey c.tags (c.frame / 64) g) }
    | none => s
  s.setSN p 0

/-- A captured CDEC or CENC keeps its key only where its slot is still bound as it was (R386). -/
def State.keepSlot (s : State) (c : Chain) : Chain :=
  let same : GcmSlot → CopyF → Bool := fun g f =>
    let h := tget ⟨0, 0, 0, none, 0⟩ s.gcm (f.aux.toNat % 32)
    decide (h.tdi = g.tdi ∧ h.key = g.key ∧ h.nonce = g.nonce)
  match c.slot, c.crypt with
  | some g, some f => if same g f then c else { c with slot := none }
  | _, _ => c

/-- Step 2 (R332): pages that are DIRTY or HELD or on the log, banks, sequencer states, counters, rings, chains, engines and images.
The next write of a page walks, and sees it CLEAN (R321). -/
def State.restore (s : State) (k : Ckpt) : State :=
  let ids := k.tasks.map (fun t => t.id)
  let ms := k.tasks.flatMap (fun t => t.members)
  let s := s.jobTasks.foldl State.releaseTask s
  let s := { s with ctxs := k.ctxs.foldl (fun m (e : Nat × Ctx) => tput m e.1 e.2) s.ctxs }
  let s := k.ctxs.foldl (fun (s : State) (e : Nat × Ctx) => s.modSeq (e.1 / 4) (fun q => q.forget (e.1 % 4))) s
  let pages := (s.jobPages s.snapJobNo).filter (fun (p : PageRef) => decide (pteSN p.pte ≠ 0 ∨ p.at_ ∈ s.snap.dirty))
  let s := (pages.foldl (fun (s : State) (p : PageRef) => s.restorePage k.num p) s).cutTlb s.snapJobNo
  let s := k.images.foldl State.reinstall s
  let regs := k.tiles.flatMap (fun e => (e.2.banks.filter (fun b => match b.2.owner with
    | some t => decide (t ∈ ids ∧ b.2.role = .regs)
    | none => false)).map (fun b => 64 * e.1 + b.1))
  let s := (k.banks ++ regs).foldl (fun s b => s.zeroBank (b / 64) (b % 64)) s
  let s := { s with pool := tputAll 0 s.pool k.pool, poolGran := tputAll Gran.clean s.poolGran k.grans }
  let s := k.tiles.foldl (fun (s : State) (e : Nat × Tile) => s.modTile e.1 (fun t => t.restored e.2 ids ms (k.ctrMask e.1))) s
  { s with
    ttiles := k.ttiles.foldl (fun m (e : Nat × TaskTile) => tput m e.1 e.2) s.ttiles,
    chains := s.chains ++ k.chains.map s.keepSlot,
    tasks := s.tasks ++ k.tasks.map (fun (t : Task) => { t with
      st := if t.wasRun then .rolled else t.was, preempt := none,
      resumeAt := none }),
    snap := { s.snap with dirty := [], full := false, heldPages := [], heldBanks := [] } }

/-- ROLLBACK_ENTRY for a member that was running: as the interruption of its restored context; where a task of another job runs on its
sequencer, or a delivery that interrupted one is served there, it comes as any A cause does, and that task goes on (R313, R332). -/
def State.enterMember (s : State) (p : Pend) (ms : List (Nat × Nat)) (m : Nat × Nat) : State :=
  if s.runsOther m.1 ms then s.post m.1 p
  else if (s.seq m.1).serving then (s.post m.1 p).modSeq m.1 (fun q => { q with inter := some m.2 })
  else (s.modSeq m.1 (fun q => { q with active := some m.2 })).deliver m.1 p

/-- Step 4 (R332): ROLLBACK_ENTRY for every member sequencer. -/
def State.rollEntry (s : State) (k : Ckpt) : State :=
  let p : Pend := ⟨.a, .rollbackEntry, BitVec.ofNat 64 k.num, 0, 0, false, false, 0⟩
  let ms := k.tasks.flatMap (fun t => t.members)
  let run : List (Nat × Nat) := (k.tasks.filter Task.wasRun).flatMap (fun t => t.members)
  let rest := (ms.map Prod.fst).dedup.filter (fun x => decide (x ∉ run.map Prod.fst))
  rest.foldl (fun s x => s.post x p) (run.foldl (fun s m => s.enterMember p ms m) s)

/-- A restoration that fails: the job's tasks stay halted, and die 0's service tile learns of it (R332). -/
def State.rollFailed (s : State) (n : Nat) : State :=
  let t := s.postD 0 .rollbackEntry (BitVec.ofNat 64 (2 ^ 63 + n % 2 ^ 32))
  { t with
    tasks := t.tasks.map (fun k => if s.ofJob k then { k with st := .rolled } else k),
    snap := { t.snap with rolling := none } }

/-- The restoration of checkpoint k, its logs and its entries (R332). -/
def State.rollTo (s : State) (k : Ckpt) : State :=
  let s := s.restore k
  let s := ((k.log.map (fun l => l.msg)).foldl State.applyMsg s).rollEntry k
  { s with snap := { s.snap with rolling := if k.tasks.any Task.wasRun then some k.num else none } }

/-- A rollback at this package, at its halt (R332). `inc` is the incarnation it brings; `intact` says whether what other packages
hold of the manifest has its hashes. -/
def State.rollBack (s : State) (n : Nat) (inc : BitVec 16) (intact : Bool) : State :=
  let s := (s.abortAll 4).rollHalt
  let s := { s with snap := { s.snap with inc := inc, asked := none, rolling := some n, entered := [], halted := none } }
  match s.ckpt n with
  | none => s.rollFailed n
  | some k =>
    let clear := s.jobTasks.foldl State.releaseTask s
    if !s.listOk s.packages || (!intact && decide (s.peers ≠ [])) || !s.storeIntact k || clear.rollBlocked k then s.rollFailed n
    else s.rollTo k

/-- A package acts on a rollback (R331, R332): it reads the package list, and the gangs of its job halt within 112 cycles. -/
def State.rollAsk (s : State) (n : Nat) (inc : BitVec 16) (intact : Bool) : State :=
  let h := s.gclk + 1 + s.freeWord.toNat % 112
  { s.drawn with snap := { s.snap with asked := some (n, inc, intact), members := s.readList }, env := s.env ++ [(h, .rollHalt n)] }

/-- A rollback to an incarnation is under way or over here (R331). -/
def State.rolledTo (s : State) (inc : BitVec 16) : Bool :=
  decide (inc.toNat ≤ s.snap.inc.toNat) || (match s.snap.asked with
    | some (_, i, _) => decide (inc.toNat ≤ i.toNat)
    | none => false)

/-- ROLLBACK_FLIT (R331): the first one of a new incarnation; later ones that carry the same are ignored. -/
def execRollbackFlit (f : Flit) (intact : Bool) (s : State) : Out :=
  .next (if s.snapJob f.job && !s.rolledTo f.inc then s.rollAsk (f.addr.toNat % 2 ^ 32) f.inc intact else s)

/-- ROLLBK begins (R331, R332): a rollback flit to every other package of the list, and the package's own. -/
def State.rollBegin (s : State) (n : Nat) : State :=
  let inc := s.snap.inc + 1
  let s := { s with snap := { s.snap with members := s.readList } }.broadcast 7 n inc
  if s.rolledTo inc then s else s.drawn.rollAsk n inc (!s.freeWord.getLsbD 0)

/-- The halt of the rollback that was asked for. -/
def State.rollNow (s : State) (n : Nat) : State :=
  match s.snap.asked with
  | some (m, inc, intact) => if m = n then s.rollBack n inc intact else s
  | none => s

/-- Control flits that came before their rollback take effect after it, in order (R332). -/
def State.takeEarly (s : State) : State :=
  if s.snap.rolling.isSome ∨ s.snap.asked.isSome then s
  else
    s.snap.early.foldl (fun s f =>
      match (match f.kind.toNat with
        | 3 => execMarker f s
        | 4 => execDone f s
        | 5 => execCommit f s
        | _ => execAbortFlit f s) with
      | .next t => t
      | _ => s) { s with snap := { s.snap with early := [] } }

/-- A member sequencer is in context 0 no longer, and no task runs on it. -/
def State.cleared (s : State) (x : Nat) : Bool :=
  decide ((s.seq x).active = none) || decide ((s.seq x).active = some 0 ∧ (s.seq x).inter = none)

/-- ROLLBACK_RESUME (R332): on a tick, once every member of the gang has issued ERET and none serves another delivery. Where a task of
another job runs on one of its sequencers, the gang stands as one that was pre-empted, and the arbiter resumes it (R152, R313). -/
def execRollbackResume (task : Nat) (s : State) : Out :=
  match s.task task with
  | none => .next s
  | some t =>
    if s.isTick s.gclk ∧ t.st = .rolled ∧ s.snap.rolling.isSome = true ∧ (t.seqs.all (fun x => decide (x ∈ s.snap.entered))) = true
        ∧ t.seqs.all (fun x => !(s.seq x).serving) = true then
      let done : State → State := fun s => { s with snap := { s.snap with
        entered := s.snap.entered.filter (fun x => decide (x ∉ t.seqs)),
        rolling := if s.tasks.any Task.rolled then s.snap.rolling else none } }
      if t.seqs.all s.cleared then
        let s := t.members.foldl State.resumeMember s
        let shift := match t.haltedAt with
          | some h => s.gclk - h
          | none => 0
        let s := ((t.seqs.map tileOf).dedup).foldl (fun (s : State) (k : Nat) => s.modTile k (fun r =>
          if 1 ≤ partAcount t.rec_.partw then { r with origin := r.origin + shift } else r)) s
        .next (done (s.modTask task (fun t => { t with st := .running, haltedAt := none })))
      else .next (done ((s.unhold task t.seqs).modTask task (fun t => { t with st := .waiting, run := 0 })))
    else .next s

end Sys2Proof.Machine
end

