-- ==== Sys2Proof/Machine/Registers.lean ====
section
/-! DEFINITION. What writing a register does, bring-up, the delivery of pending causes, breakpoints, the tick grid and the stop of
the clocks, telemetry and trace samples, and a walk of the page tables on its own (R134, R143, R286, R287, R313, R335 to R345,
R347, R352, R357, R359, R361 to R363, R395, R396, R401). -/

namespace Sys2Proof.Machine

/-! ### Deliveries (R344, R345) -/

/-- Pending causes that a sequencer can take at this boundary: none while a delivery is in progress, in which a cause of context 0's own
bundle is a SUPFAULT and never pends; what a task's bundle has shown stays pending until its context goes on (R345, R347). A sequencer that holds for a task halted
by a cut takes none (R316). -/
def State.deliverable (s : State) (x : Nat) : List Pend :=
  let q := s.seq x
  match q.halt with
  | .bringup => []
  | .supfault => []
  | _ =>
    if q.micro.isSome || q.serving || s.cutHeld x then []
    else q.pend.filter (fun p => decide (p.kind ≠ .p) || decide (q.active = some p.ctx))

/-- TRAP_DELIVERY (R344 to R346): the first of the pending causes is taken at the bundle boundary. -/
def execTrapDelivery (y : SeqId) (s : State) : Out :=
  let x := seqKey y
  match takeFirst (s.deliverable x) with
  | none => .next s
  | some (p, _) => .next ((s.modSeq x (fun q => { q with pend := q.pend.erase p })).deliver x p)

/-- BREAKPOINT (R361): a task bundle that an enabled breakpoint names is cancelled before issue, as kind S. -/
def execBreakpoint (y : SeqId) (s : State) : Out :=
  let x := seqKey y
  match (s.seq x).active with
  | none => .next s
  | some c =>
    let k := s.ctx x c
    if c = 0 ∨ k.bpx = true then .next s
    else
      match (s.seq x).breakAt k.pos with
      | none => .next s
      | some i => .next (s.cancel x .brk (BitVec.ofNat 64 (2 ^ 63 + i)) 0 0 true)

/-- TEND (R347): the task of the interrupted context ends by force; its member here has halted already. -/
def execTend (y : SeqId) (v : Word) (s : State) : Out :=
  let x := seqKey y
  let q := s.seq x
  if v.getLsbD 0 && q.serving then
    match q.inter with
    | none => .next s
    | some c =>
      match ((s.ctx x c).task).bind s.task with
      | none => .next s
      | some t => .next ((s.killTask t).quitMember (x, c))
  else .next s

/-- START (R342): context 0 of a compute sequencer halted for bring-up begins at TVEC, as a delivery of kind A. -/
def execStart (y : SeqId) (v : Word) (s : State) : Out :=
  let x := seqKey y
  if v.getLsbD 0 && decide ((s.seq x).halt = .bringup) then
    .next ((s.modSeq x (fun q => { q with halt := .run })).deliver x ⟨.a, .start, 0, 0, 0, false, false, 0⟩)
  else .next s

/-! ### Handles (R286, R341) -/

/-- A chain's command uses a slot. -/
def Chain.usesSlot (c : Chain) (slot : Nat) : Bool :=
  let uses : Instr → Bool := fun i => match dataF i with
    | some f => decide (f.hsrc ≠ 0 ∧ handleSlot f.hsrc = slot) || decide (f.hdst ≠ 0 ∧ handleSlot f.hdst = slot)
    | none => false
  match c.st with
  | .move i => uses i
  | .susp i _ _ => uses i
  | _ => false

/-- A slot is revoked (R286): every command that uses it completes the chunk in progress, if one is in progress, which is not
fixed (log 4), and then ends. -/
def State.revoke (s : State) (x c slot : Nat) : State :=
  (s.chains.filter (fun h => decide (h.seq = x ∧ h.ctx = c) && h.usesSlot slot)).foldl (fun s h =>
    let coin := s.freeWord.getLsbD 0
    let s := s.drawn
    let moving := match h.st with
      | .move _ => true
      | _ => false
    let s := if coin && moving && !s.chainPaused h then
        (match execCopyChunk h.id s with
          | .next t => t
          | _ => s)
      else s
    s.modChain h.id (fun h => if h.usesSlot slot then { h with revoked := h.revoked ++ [slot] } else h)) s

/-- A descriptor word as it is stored: reserved bits take no write (R5, R284). -/
def descMask (i : Nat) (v : Word) : Word :=
  match i with
  | 2 => v &&& 0xFFFF07FF00FFFFFF
  | 3 => 0
  | _ => v

/-- HDDATA (R341): the word that HDSEL names; a write of word 2 makes the descriptor effective and revokes the one before it where
gen or loc shows that (R286). -/
def execHddata (y : SeqId) (ctx : BitVec 2) (v : Word) (s : State) : Out :=
  let x := seqKey y
  let c := ctx.toNat
  let k := s.ctx x c
  let slot := k.hdsel.toNat % 256
  let old := k.desc slot
  let s := s.setCtx x c { k with handles := tset 0 k.handles k.hword (descMask (field k.hdsel.toNat 9 8) v) }
  let now := (s.ctx x c).desc slot
  if field k.hdsel.toNat 9 8 = 2 ∧ (now.gen ≠ old.gen ∨ now.loc = 0) then .next (s.revoke x c slot) else .next s

/-! ### The tick grid and the clocks (R340, R363) -/

/-- TICKCFG (R340): the register takes K, which is in effect from the next multiple of 2^16. -/
def execTickcfg (v : Word) (s : State) : Out :=
  let k := v.toNat % 32
  if 4 ≤ k ∧ k ≤ 16 then .next { s with tickNext := BitVec.ofNat 5 k } else .next s

/-- A REALN that waits at the switch finishes under the new period (R116, R340). -/
def Wait.underK (w : Wait) (now old new : Nat) : Wait :=
  match w with
  | .realn p u =>
    let p' := p / 2 ^ old * 2 ^ new
    .realn p' (if now < u then nextMultiple p' now else u)
  | w => w

/-- TICK_PERIOD_SWITCH (R340), at a multiple of 2^16. -/
def execTickPeriodSwitch (s : State) : Out :=
  if s.gclk % 2 ^ 16 = 0 ∧ s.tickNext ≠ s.tickK then
    let re : Ctx → Ctx := fun k =>
      { k with waits := k.waits.map (fun w => w.underK s.gclk s.tickK.toNat s.tickNext.toNat) }
    .next { s with tickK := s.tickNext, ctxs := s.ctxs.map (fun (e : Nat × Ctx) => (e.1, re e.2)) }
  else .next s

/-- The tick at which an armed TICKSTOP stops the clocks: the first at or after T. -/
def State.stopTick (s : State) : Nat := nextMultiple (2 ^ s.tickK.toNat) (s.tickstop.toNat % 2 ^ 63)

/-- TICKSTOP (R363): at the end of the cycle before the tick, every clock is gated and ARM is cleared. -/
def execTickstop (s : State) : Out :=
  let next := s.gclk + 1
  if s.tickstop.getLsbD 63 && s.isTick next && decide (s.tickstop.toNat % 2 ^ 63 ≤ next) then
    .next { s with stopped := true, tickstop := s.tickstop &&& 0x7FFFFFFFFFFFFFFF }
  else .next s

/-- TICKSTOP_RELEASE (R363): every domain restarts in the tick, and TICKSTOP goes to die 0's service tile with the tick. -/
def execTickstopRelease (s : State) : Out :=
  if s.stopped then .next ({ s with stopped := false }.postD 0 .tickstop s.clock) else .next s

/-! ### Telemetry and trace (R362, R395, R396) -/

/-- Bytes of a word, low byte first. -/
def wordBytes (n v : Nat) : List Byte := (List.range n).map (fun i => BitVec.ofNat 8 (v / 256 ^ i))

/-- A tile's 64-byte record (R396, log 34). -/
def State.tileRecord (s : State) (t : Nat) : List Byte :=
  let a := s.seq (2 * t)
  let b := s.seq (2 * t + 1)
  let r := s.tile t
  [a.issueCycles, a.frozenCycles, b.issueCycles, b.frozenCycles, a.ctx0Cycles + b.ctx0Cycles, r.mxeCycles, r.vgCycles,
    r.cpeBytes].flatMap (wordBytes 8)

/-- A die's 1,024-byte record: six ports, two HBM stacks, UCIe retries and PCIe bytes (R396, log 34). -/
def State.dieRecord (s : State) (d : Nat) : List Byte :=
  let ports := (List.range 6).flatMap (fun i =>
    let l := s.link (6 * d + i)
    [l.sent, l.received, l.replays, l.stoppedCycles])
  let stack : Nat → List Nat := fun i => [tget 0 s.hbmRead (2 * d + i), tget 0 s.hbmWritten (2 * d + i)]
  let outside := stack 0 ++ stack 1 ++ [tget 0 s.ucieRetries d, tget 0 s.ucieRetries ((d + 3) % 4)]
  let pcie := if d = 0 then [s.pcieIn, s.pcieOut] else []
  let bytes := (ports ++ outside ++ pcie).flatMap (wordBytes 8)
  bytes ++ List.replicate (1024 - bytes.length) 0

/-- The effective K of the telemetry window (R395, R396). -/
def State.telK (s : State) : Nat := max (field s.telcfg.toNat 62 58) s.tickK.toNat

/-- Cumulative counters after what they have counted since, of which the spec gives no account: free values (log 34). -/
def countMore (m : Table Nat) (n free : Nat) : Table Nat :=
  (List.range n).foldl (fun m i => tset 0 m i (tget 0 m i + (Config.freeWord (free + i)).toNat)) m

/-- The counters of HBM bytes by stack and of retries by die boundary catch up (R396). -/
def State.countOutside (s : State) : State :=
  { s with
    hbmRead := countMore s.hbmRead 8 s.free, hbmWritten := countMore s.hbmWritten 8 (s.free + 8),
    ucieRetries := countMore s.ucieRetries 4 (s.free + 16), free := s.free + 20 }

/-- TELEMETRY_LATCH (R396): at a multiple of 2^max(K, TICKCFG.K) every counter latches, and the block is written. -/
def execTelemetryLatch (s : State) : Out :=
  let k := s.telK
  if s.gclk % 2 ^ k = 0 then
    let s := s.countOutside
    let w := s.gclk / 2 ^ k
    let tiles := (List.range 4).flatMap (fun d => (List.range 64).map (fun t => 65 * d + t))
    let sums := (List.range 4).flatMap (fun d => (List.range 8).map (fun i => (8 * d + i,
      BitVec.ofNat 64 (((List.range 64).map (fun t => recField (s.tileRecord (65 * d + t)) (8 * i) 8)).sum))))
    let head := wordBytes 8 s.gclk ++ wordBytes 4 w ++ wordBytes 2 s.pkg.toNat ++ wordBytes 1 k
      ++ wordBytes 1 (if s.telDropped then 1 else 0)
    let block := head ++ List.replicate 48 0 ++ tiles.flatMap s.tileRecord ++ (List.range 4).flatMap s.dieRecord
    -- a block that cannot be written before the next latch is dropped; whether it can is not fixed (log 4)
    let coin := s.freeWord.getLsbD 0
    let at_ := field s.telcfg.toNat 51 15 * 2 ^ 15 + 2 ^ 15 * (w % 2 ^ field s.telcfg.toNat 57 54)
    let s := { s with free := s.free + 1, telLast := sums.foldl (fun (m : Table Word) (e : Nat × Word) => tset 0 m e.1 e.2) s.telLast }
    if s.telcfg.getLsbD 63 then
      .next (if coin then { s.putHbm at_ (unmarked block) with telDropped := false } else { s with telDropped := true })
    else .next s
  else .next s

/-- TRACE_SAMPLE (R362): a sample of a traced sequencer's context, every 2^S ticks. -/
def execTraceSample (y : SeqId) (s : State) : Out :=
  let x := seqKey y
  let sh := s.trcctl.toNat % 32
  if sh ≠ 0 ∧ s.gclk % 2 ^ (s.tickK.toNat + sh) = 0 then
    let c := s.cur x
    .next (s.trace 3 0 x c (s.ctx x c).pos 0)
  else .next s

/-! ### Translation -/

/-- PAGE_WALK (R352): a walk for an access of a context, which leaves its translation in the die's store; a fault of a walk that a
chunk or a fetch makes is reported by that chunk or fetch. -/
def execPageWalk (y : SeqId) (ctx : BitVec 2) (va : Word) (kd : WalkKind) (s : State) : Out :=
  .next (s.walk (s.walker (seqKey y) ctx.toNat) (va.toNat % 2 ^ 57) kd).2

/-! ### Register writes (R337 to R342) -/

/-- Change HEALTH as software writes it: ones clear the fields it may clear (R359). -/
def healthClear (h v : Word) : Word := h &&& ~~~(v &&& 0x400000FF0000FFFF)

/-- A write of a register of a launch queue (R134). -/
def State.writeLq (s : State) (q r : Nat) (v : Word) : State :=
  match r with
  | 0 => s.modLq q (fun l => { l with base := v &&& 0x000FFFFFFFFFF000 })
  | 2 =>
    if (s.lq q).en then s
    else s.modLq q (fun l => { l with tail := v.extractLsb' 32 16, next := v.extractLsb' 16 16 })
  | _ => s

/-- A write of a per-context register (R338, R357). -/
def Ctx.writeReg (k : Ctx) (c i : Nat) (v : Word) : Ctx :=
  match i with
  | 0x010 => { k with flags := Flags.ofWord v }
  | 0x013 => if c = 0 ∨ v.setWidth 16 = (0 : BitVec 16) ∨ v.setWidth 16 = (0xFFFF : BitVec 16) then k else { k with jobid := v.setWidth 16 }
  | 0x014 => { k with ctrmask := v }
  | 0x015 => { k with ptbase := v &&& 0x000FFFFFFFFF8001 }
  | 0x016 => { k with conf := v &&& 0x800000000000001F }
  | 0x017 => { k with hdsel := v &&& 0x3FF }
  | 0x019 => { k with dbgsel := v &&& 0x80000000000FFFFF }
  | _ => k

/-- A write of a register of a sequencer (R338). -/
def Seq.writeReg (q : Seq) (i : Nat) (v : Word) : Seq :=
  match i with
  | 0x004 => { q with tvec := v }
  | 0x006 => { q with dbgctl := v &&& 0x10F }
  | 0x050 => { q with remsel := v &&& 0x3FE0FFF }
  | _ => if 0x008 ≤ i ∧ i ≤ 0x00B then { q with bph := tset 0 q.bph (i - 8) v } else q

/-- A write of a register of the die or the package (R338). -/
def State.writePkg (s : State) (x i : Nat) (v : Word) : State :=
  match i with
  | 0x030 =>
    let a := if v.setWidth 8 = (0 : BitVec 8) then 1 else v.setWidth 8
    { s with schedcfg := tset 4 s.schedcfg (dieOf (tileOf x)) a }
  | 0x042 => { s with health := healthClear s.health v }
  | 0x045 => { s with snap := { s.snap with store := v, used := 0 } }
  | 0x046 => { s with tickstop := v }
  | 0x047 => { s with trcctl := v &&& 0xFFFFFFFFFFFF001F, trcPos := 0 }
  | 0x048 => { s with ftbase := v &&& 0x000FFFFFFFF00000 }
  | 0x049 => if s.snap.busy then s else { s with snap := { s.snap with list_ := v &&& 0x000FFFFFFFFFFFF0 } }
  | _ =>
    if 0x200 ≤ i ∧ i < 0x240 then
      if v.setWidth 16 = (0xFFFF : BitVec 16) then s else s.modLq (i - 0x200) (fun l => { l with job := v.setWidth 16 })
    else if 0x100 ≤ i ∧ i < 0x200 then s.writeLq ((i - 0x100) / 4) (i % 4) v
    else s

/-- RESETCTL as it is stored (R401). -/
def resetctlMask (v : Word) : Word := v &&& 0xFC000000000FF800

/-- TELCFG as a write leaves it: a K out of range is ignored (R395). -/
def telcfgOf (old v : Word) : Word :=
  let k := field v.toNat 62 58
  let w := v &&& 0xFFCFFFFFFFFF8000
  if 12 ≤ k ∧ k ≤ 26 then w else (w &&& 0x83FFFFFFFFFFFFFF) ||| (old &&& 0x7C00000000000000)

/-- A write of RESETCTL: with GO set it asks for the reset that it names, but for a reserved level; GO reads 1 while a reset that was asked
for is not done, whatever is written meanwhile (R401). -/
def State.writeResetctl (s : State) (v : Word) : State :=
  let w := resetctlMask v
  let go := v.getLsbD 63 && decide (field v.toNat 62 60 ≤ 2)
  { s with
    resetctl := if go || decide (s.resetWaits ≠ []) then w ||| 0x8000000000000000 else w &&& 0x7FFFFFFFFFFFFFFF,
    agenda := if go then s.agenda ++ [.resetAsked w] else s.agenda }

/-- REGISTER_WRITE: a register whose write does nothing but change it, under its Access column (R337, R338, R384); TELCFG also by PLDM
(R395). -/
def execRegisterWrite (r : RegRef) (v : Word) (s : State) : Out :=
  match r with
  | .sys y ctx index =>
    let x := seqKey y
    let i := index.toNat
    if sysPerCtx i then .next (s.modCtx x ctx.toNat (fun k => k.writeReg ctx.toNat i v))
    else if sysPerSeq i || decide (i = 0x050) then .next (s.modSeq x (fun q => q.writeReg i v))
    else .next (s.writePkg x i v)
  | .bar off =>
    let o := off.toNat
    if 0x10000 ≤ o ∧ o < 0x11000 then .next (s.writeLq ((o - 0x10000) / 0x40) (o % 0x40 / 8) v)
    else if o = 0x12000 then .next { s with telcfg := telcfgOf s.telcfg v }
    else if o = 0x13000 then .next (s.writeResetctl v)
    else .next s
  | .pldm => .next { s with telcfg := telcfgOf s.telcfg v }

/-- What a write of a system register is (R337): the event of the register that has one of its own, or a plain write. -/
def State.regEvent (s : State) (x c i : Nat) (v : Word) : Out :=
  let y := seqIdOf x
  match i with
  | 0x005 => execTend y v s
  | 0x007 => execStart y v s
  | 0x018 => execHddata y (BitVec.ofNat 2 c) v s
  | 0x020 =>
    let ctr : BitVec 6 := v.setWidth 6
    if v.getLsbD 63 then execCpresumeEnd (tileIdOf (tileOf x)) ctr s else execCpresumeRetry (tileIdOf (tileOf x)) ctr s
  | 0x040 => execTickcfg v s
  | 0x043 => execPreq v false s
  | 0x044 => execSnapcfg v s
  | _ =>
    if 0x100 ≤ i ∧ i < 0x200 ∧ i % 4 = 1 then execLqctl (BitVec.ofNat 6 ((i - 0x100) / 4)) v s
    else if 0x100 ≤ i ∧ i < 0x200 ∧ i % 4 = 3 then execLqdb (BitVec.ofNat 6 ((i - 0x100) / 4)) s
    else execRegisterWrite (.sys y (BitVec.ofNat 2 c) (BitVec.ofNat 12 i)) v s

/-- REMDATA_WRITE (R342): the register that REMSEL selected is written as if context 0 of the selected sequencer wrote it. -/
def execRemdataWrite (y : SeqId) (v : Word) (s : State) : Out :=
  let x := seqKey y
  match (s.seq x).remq.find? (fun e => decide (e.2 = v)) with
  | none => .next s
  | some e =>
    let s := s.modSeq x (fun q => { q with remq := q.remq.erase e })
    s.regEvent (remSeq (dieOf (tileOf x)) e.1) 0 (remIndex e.1) v

/-- A bundle of no cause writes a HELD bank by its E slot: a nest or grouped operation that it starts would land there, or a bank
instruction would change it (R320). -/
def State.meetsHold (s : State) (b : Bundle) : Bool :=
  let t := tileOf b.seq
  let held : Nat → Bool := fun k => ((s.tile t).bank k).held
  decide (b.found = []) && (b.starts.any (fun e => match e with
    | .nest z => (nestSlots z).any (fun i => held (i.toNat / 4))
    | .vg v => held (bankOf v.c)
    | _ => false) || b.effs.any (fun e => match e.2 with
    | .grant x c n _ => (s.freeAcc x c n).any held
    | .free _ _ m => (maskBanks m).any held
    | .zeroSlots _ slot _ _ => held (slot / 4)
    | _ => false))

/-- IDLE_BUNDLE (R5, R25): a bundle whose operations have all run commits; one without any slot does only that. One that would write a
HELD bank by its E slot freezes before it issues, and looks again in the next cycle (R22, R320, log 118). -/
def execIdleBundle (s : State) : Out :=
  if s.bundle.active && decide (s.bundle.todo = []) then
    .next (if s.meetsHold s.bundle then
        ({ s with bundle := Bundle.idle, fresh := s.fresh + 1 } : State).addWait s.bundle.seq s.bundle.ctx (.held s.fresh)
      else s.commitBundle)
  else .next s

end Sys2Proof.Machine
end

