-- ==== Sys2Proof/Machine/Resets.lean ====
section
/-! DEFINITION. The reset hierarchy (R401, R402), tile retirement (R359) and power off (R400). -/

namespace Sys2Proof.Machine

/-! ### Engines -/

/-- A chain ends stopped by a reset, also one that waits to end otherwise; banks that it has sealed are zeroed at once (R275, R299,
R402). -/
def State.resetChain (s : State) (c : Chain) : State := (s.unseal c true).endNow c.id none 0 true

/-- COPY_ENGINE_RESET: every chain of the tile ends stopped (R275, R402). -/
def State.resetCopy (s : State) (t : Nat) : State :=
  (s.chains.filter (fun c => decide (c.tile = t))).foldl State.resetChain s

/-- MXE_RESET: nests and known-answer runs end, and the tiles that the nests write become +0 tagged VOID (R402). -/
def State.resetMxe (s : State) (t : Nat) : State :=
  let one : State → Nat → State := fun s x =>
    let slots := match s.nest x with
      | some z => (nestSlots z).filter (fun i => decide (0 ≤ i ∧ i < 256))
      | none => []
    let s := slots.foldl (fun (s : State) (i : Int) => s.voidTile t i.toNat) s
    (s.setNest x none).setKat x none
  one (one s (2 * t)) (2 * t + 1)

/-- GROUPED_UNIT_RESET: as VGSTOP (R242, R402). -/
def State.resetGrouped (s : State) (t : Nat) : State :=
  match (s.tile t).vg with
  | some v => s.vgStop t v.task
  | none => s

/-! ### Sequencers -/

/-- A cause of kind D: one that only the device raises, on sequencer A of a service tile (R344). -/
def Cause.device : Cause → Bool
  | .codeHeap | .health | .launchBad | .snapAbort | .rollbackEntry | .linkDown | .tickstop | .launchqOverrun | .supfault => true
  | _ => false

/-- The state of a sequencer after its reset: a compute sequencer is halted for bring-up, one of a service tile starts again at
the active bank's entry; pending D causes and the counters of R396 stay (R342, R344, R402). -/
def Seq.afterReset (q : Seq) (service : Bool) (f : FwBank) : Seq :=
  let base := if service then Seq.service f else Seq.init
  { base with
    pend := if service then q.pend.filter (fun p => p.cause.device) else [],
    issueCycles := q.issueCycles, frozenCycles := q.frozenCycles, ctx0Cycles := q.ctx0Cycles, bundles := q.bundles }

/-- SEQUENCER_RESET: every task with a member there ends as by TEND, this member at once; rings that context 0 bound come free
(R308, R347, R402, R419). -/
def State.resetSeq (s : State) (x : Nat) : State :=
  let t := tileOf x
  let mine := s.tasks.filter (fun k => decide (x ∈ k.seqs))
  let s := mine.foldl (fun s k =>
    let s := if k.killed then s else s.killTask k
    (k.members.filter (fun m => decide (m.1 = x))).foldl State.quitMember s) s
  let s := s.modSeq x (fun q => q.afterReset (isService t) s.fwActive)
  let s := s.setCtx x 0 (if isService t then Ctx.service s.fwActive else Ctx.init)
  s.modTile t (fun r => { r with rings := r.rings.map (fun e =>
    (e.1, if e.2.owner = some (1, ctxKey x 0) then Ring.init else e.2)) })

/-! ### Tiles and dies -/

/-- A reset takes a time that the spec does not give; until its end the tile's loads and stores are those of R402 (log 33). -/
def State.holdReset (s : State) (t : Nat) : State :=
  { s.drawn with resets := s.resets.filter (fun r => decide (r.1 ≠ t)) ++ [(t, s.gclk + s.freeWord.toNat % 2 ^ 16)] }

/-- A reset that ends a task of the snapshot job gives up the snapshot in progress (R329, R402). -/
def State.resetAborts (s : State) (p : Nat → Bool) : State :=
  if s.jobTasks.any (fun t => t.seqs.any (fun x => p (tileOf x))) then s.abortAll 3 else s

/-- The four resets of a tile, its claimed banks zeroed, its counters and rings cleared. -/
def State.resetTile (s : State) (t : Nat) : State :=
  let s := (((s.resetCopy t).resetMxe t).resetGrouped t).resetSeq (2 * t)
  let s := s.resetSeq (2 * t + 1)
  let claimed := ((s.tile t).banks.filter (fun e => e.2.owner.isSome)).map (fun e => e.1)
  let s := claimed.foldl (fun s b => s.wipeBank t b) s
  (s.modTile t (fun r => { r with counters := [], rings := [] })).holdReset t

/-- COPY_ENGINE_RESET. -/
def execCopyEngineReset (y : TileId) (s : State) : Out :=
  .next (if s.underReset (tileKey y) then s else s.resetCopy (tileKey y))

/-- MXE_RESET. -/
def execMxeReset (y : TileId) (s : State) : Out :=
  .next (if s.underReset (tileKey y) then s else s.resetMxe (tileKey y))

/-- GROUPED_UNIT_RESET. -/
def execGroupedUnitReset (y : TileId) (s : State) : Out :=
  .next (if s.underReset (tileKey y) then s else s.resetGrouped (tileKey y))

/-- SEQUENCER_RESET. -/
def execSequencerReset (y : SeqId) (s : State) : Out :=
  .next (if s.underReset (tileOf (seqKey y)) then s else s.resetSeq (seqKey y))

/-- TILE_RESET; one for a tile inside a reset in progress is absorbed by it (R402). -/
def execTileReset (y : TileId) (s : State) : Out :=
  let t := tileKey y
  .next (if s.underReset t then s else (s.resetAborts (fun k => decide (k = t))).resetTile t)

/-- The tiles of a die, its service tile last. -/
def dieTiles (d : Nat) : List Nat := (List.range 65).map (fun i => 65 * d + i)

/-- DIE_RESET: every tile and the service tile, the die's walkers and translations; its SCHEDCFG is as after reset (R143, log 90);
its two UCIe boundaries retrain, which takes at most 28,000 cycles (R394, R402). -/
def execDieReset (d : Fin 4) (s : State) : Out :=
  let s := s.resetAborts (fun k => decide (dieOf k = d.val))
  let s := (dieTiles d.val).foldl State.resetTile s
  let till := s.gclk + 1 + s.freeWord.toNat % 28000
  .next { s.drawn with
    tlb := s.tlb.filter (fun t => decide (t.die ≠ d.val)), schedcfg := tset 4 s.schedcfg d.val 4,
    laneUntil := tput (tput s.laneUntil d.val till) ((d.val + 3) % 4) till }

/-! ### The package -/

/-- The tiles that a configuration record leaves unavailable (R399). -/
def cfgLost (c : CfgRec) (t : Nat) : Bool :=
  decide (tileNo t < 64) && (!c.good || decide (64 * dieOf t + tileNo t ∈ c.gone))

/-- What the outside brings, in contrast to what the package itself has under way. -/
def Ev.fromOutside : Ev → Bool
  | .outside _ | .strikePool _ _ _ | .strikeHbm _ _ | .strikeKeep _ _ _ | .strikeQ _ _ _ | .strikeVq _ _ _ | .strikeTemp _
  | .corrected => true
  | _ => false

/-- A record names a heap as R366 has it: a 2 MiB-aligned base and 64 MiB or more (log 101). -/
def heapAsNamed (c : CfgRec) : CfgRec := { c with heapBase := c.heapBase / 2 ^ 21 * 2 ^ 21, heapSize := max c.heapSize (2 ^ 26) }

/-- COLD_RESET (R402): everything but the flash; the configuration record is read again and the active bank is loaded. -/
def execColdReset (c : CfgRec) (s : State) : Out :=
  let r := State.reset
  let health := if c.good then c.health &&& 0x00FFFF00FFFF0000 else 0
  let lost := ((List.range 260).filter (cfgLost c)).map (fun t => (t, { Tile.init with gone := true }))
  .next { r with
    seqs := serviceSeqs.map (fun x => (x, Seq.service s.fwActive)),
    ctxs := serviceSeqs.map (fun x => (4 * x, Ctx.service s.fwActive)),
    tiles := lost, health := health, cfg := heapAsNamed c, fwActive := s.fwActive, fwInactive := s.fwInactive, errata := s.fwActive.errata,
    pkg := s.pkg, env := s.env.filter (fun (e : Nat × Ev) => e.2.fromOutside), free := s.free, replies := s.replies }

/-- POWER_OFF (R400): with its main rails off the device holds no state; the flash keeps the firmware banks. -/
def execPowerOff (s : State) : Out :=
  .next { State.reset with
    power := false, fwActive := s.fwActive, fwInactive := s.fwInactive, pkg := s.pkg, env := s.env.filter (fun (e : Nat × Ev) => e.2.fromOutside), free := s.free,
    replies := s.replies }

/-- HEALTH takes a new value; a change of [63], [55:40] or [31:16] is delivered, with the bits that changed (R343, R359). -/
def State.setHealth (s : State) (h : Word) : State :=
  let d := (h ^^^ s.health) &&& 0x80FFFF00FFFF0000
  let s := { s with health := h }
  if d = 0 then s else s.postD 0 .health d

/-- A byte of HEALTH one higher, saturating. -/
def moreByte (h : Word) (lo : Nat) : Word := healthMore h lo

/-- TILE_RETIREMENT (R359): a spare takes the tile's number and its place, or the tile is marked unavailable and
REPLACE_REQUESTED is set. What the retired tile held does not come back: its tasks end as by its reset. -/
def execTileRetirement (die : Fin 4) (tile : Fin 64) (spare : Bool) (s : State) : Out :=
  let t := 65 * die.val + tile.val
  let s := if s.underReset t then s else (s.resetAborts (fun k => decide (k = t))).resetTile t
  if spare then
    .next (s.setHealth (moreByte s.health 48))
  else .next ((s.modTile t (fun r => { r with gone := true })).setHealth (s.health ||| 0x8000000000000000))

/-- The die and the tile that a value of RESETCTL names. -/
def resetDie (v : Word) : Fin 4 := ⟨field v.toNat 19 18 % 4, Nat.mod_lt _ (by decide)⟩
def resetTileId (v : Word) : TileId := ⟨resetDie v, ⟨field v.toNat 17 12 % 65, Nat.mod_lt _ (by decide)⟩⟩

/-- A tile or die reset that RESETCTL has asked for is not done: a tile of it is still under reset. -/
def resetLeft (l : List (Nat × Nat)) (v : Word) : Bool :=
  l.any (fun r => if field v.toNat 62 60 = 1 then decide (r.1 = tileKey (resetTileId v)) else decide (dieOf r.1 = (resetDie v).val))

/-- GO clears once nothing that RESETCTL has asked for is left (R401). -/
def State.clearGo (s : State) : State :=
  if s.resetWaits = [] then { s with resetctl := s.resetctl &&& 0x7FFFFFFFFFFFFFFF } else s

/-- The reset that a write of RESETCTL has asked for (R401): one of an engine or a sequencer is done at once; one of a tile or a die once its
tiles are out of reset. -/
def State.resetAsked (v : Word) (s : State) : Out :=
  let last : Out → Out := fun o => match o with
    | .next s => .next s.clearGo
    | o => o
  let t := resetTileId v
  match field v.toNat 62 60 with
  | 0 =>
    match field v.toNat 59 58 with
    | 0 => last (execCopyEngineReset t s)
    | 1 => last (execMxeReset t s)
    | 2 => last (execGroupedUnitReset t s)
    | _ => last (execSequencerReset ⟨t, v.getLsbD 11⟩ s)
  | 1 => execTileReset t { s with resetWaits := s.resetWaits ++ [v] }
  | _ => execDieReset (resetDie v) { s with resetWaits := s.resetWaits ++ [v] }

/-- Resets whose time is over end, and GO clears with the last that it asked for (R401, R402). -/
def State.endResets (s : State) : State :=
  let l := s.resets.filter (fun r => decide (s.gclk < r.2))
  if l = s.resets then s
  else ({ s with resets := l, resetWaits := s.resetWaits.filter (resetLeft l) } : State).clearGo

end Sys2Proof.Machine
end

