-- ==== Sys2Proof/Machine/Fabric.lean ====
section
/-! DEFINITION. The Speam ports: reception of flits, link retry, link down and training, stop/go, time flits; and the repair of a
die boundary (R388 to R394). -/

namespace Sys2Proof.Machine

/-! ### Retry (R390) -/

/-- What is left of a retry buffer once everything up to a number has been acknowledged. -/
def unacked (l : List Flit) (ack : BitVec 12) : List Flit := l.filter (fun f => decide (2048 ≤ (ack - f.lseq).toNat))

/-- A port learns the last good number of the reverse direction; chains that waited for what it acknowledges wait no longer (R275, R409). -/
def State.takeAck (s : State) (p : Nat) (ack : BitVec 12) : State :=
  let l := unacked (s.link p).retry ack
  let left : Nat × BitVec 12 → Bool := fun a => decide (a.1 ≠ p) || l.any (fun f => decide (f.lseq = a.2))
  { s.modLink p (fun k => { k with retry := l, tries := k.tries.drop (k.retry.length - l.length) }) with
    chains := s.chains.map (fun (c : Chain) => { c with acks := c.acks.filter left }) }

/-- The NAK that a receiver returns after a discard: a flit of no channel with the last good number; one that waits stands for all
(R388, R390). -/
def State.sendNak (s : State) (p : Nat) : State :=
  if (s.link p).queue.any (fun f => f.nak) then s else s.sendOrHold p { s.flitOf 0 0 0 0 with nak := true }

/-- A snapshot waits on a port: for a marker that comes over its plane, or for control of its own to be acknowledged (R329, R390). -/
def State.snapWaits (s : State) (p n : Nat) : Bool :=
  ((s.snap.ahead n || decide (n = s.snap.now ∧ (s.snap.phase = 2 ∨ s.snap.phase = 3)))
      && s.channelsIn.any (fun c => decide (c.plane.toNat = p ∧ (n, c) ∉ s.snap.marked)))
    || ((s.link p).retry ++ (s.link p).queue).any (fun f => decide (3 ≤ f.kind.toNat ∧ f.kind.toNat ≤ 6 ∧ f.addr.toNat = n))

/-- A chain whose old values were to come over a port waits for its supervisor. -/
def Chain.cutOff (c : Chain) (p : Nat) : Chain :=
  if c.awaits ∧ portTo (dieOf c.tile) c.dd.peer.toNat = p then { c with acks := c.acks ++ [(p + 64, 0)] } else c

/-- LINK_DOWN (R390): the retry buffer is not delivered, and the port's die learns of it. Chains whose messages were in it, or whose
old values were to come, wait for their supervisor. -/
def execLinkDown (port : Fin 24) (s : State) : Out :=
  let p := port.val
  let k := s.link p
  if k.up = false then .next s
  else
    let lost := k.retry.map (fun f => f.lseq)
    let waits := s.snap.pending.filter (s.snapWaits p)
    let s := { s with
      chains := s.chains.map (fun (c : Chain) => { c.cutOff p with acks := (c.cutOff p).acks.map (fun (a : Nat × BitVec 12) =>
        if a.1 = p ∧ a.2 ∈ lost then (p + 64, a.2) else a) }),
      partials := s.partials.filter (fun (e : Chan × List Flit) => decide (e.1.plane.toNat ≠ p)) }
    let s := s.modLink p (fun k => { k with up := false, retry := [], tries := [], queue := k.queue.filter (fun f => !flitApart f) })
    let s := s.postD (p / 6) .linkDown (BitVec.ofNat 64 p)
    .next (waits.foldl (fun s n => s.abortOf n 1) s)

/-- NAK (R390): the sender replays every flit after the number, in order; a flit replayed eight times without acknowledgement takes the link
down. -/
def execNak (port : Fin 24) (ack : BitVec 12) (s : State) : Out :=
  let p := port.val
  if (s.link p).up = false then .next s
  else
    let s := s.takeAck p ack
    let k := s.link p
    if k.retry = [] then .next (s.drain p)
    else if k.tries.any (fun n => decide (8 ≤ n)) then execLinkDown port s
    else
      let s := s.modLink p (fun k => { k with tries := k.tries.map (fun n => n + 1), replays := k.replays + k.retry.length })
      .next ({ s with outbox := s.outbox ++ k.retry }.drain p)

/-- LINK_TRAINING (R390, R392): a port comes up with both directions at their first number (log 30). -/
def execLinkTraining (port : Fin 24) (s : State) : Out :=
  let p := port.val
  if (s.link p).up then .next s
  else
    .next ((s.modLink p (fun k => { k with
      up := true, txSeq := 0, rxNext := 0, retry := [], tries := [], stops := 0, stopped := 0, lastGood := s.gclk })).drain p)

/-- A link without a good flit for 2^20 cycles (R390). -/
def State.quiet (s : State) (p : Nat) : Bool := (s.link p).up && decide ((s.link p).lastGood + 2 ^ 20 ≤ s.gclk)

/-! ### Flow control and time (R391, R392) -/

/-- STOP_GO (R391): the channels that the receiver stops; replays are not held by it. -/
def execStopGo (port : Fin 24) (stops : BitVec 4) (s : State) : Out :=
  .next ((s.modLink port.val (fun k => { k with stops := stops })).drain port.val)

/-- TIME_FLIT (R392): plane 0's switch relays the grand master's time; the arithmetic clock is trimmed within 100 ppm, by as much as the
spec leaves open, against a time that has passed or is to come; GCLK still advances by one each cycle (log 31). -/
def execTimeFlit (port : Fin 24) (grandMaster : Word) (s : State) : Out :=
  if port.val = 0 ∧ (s.link 0).up = true then
    let ppm : Int := (s.freeWord.toNat % 101 : Nat)
    .next { s.drawn with trim := if grandMaster = s.clock then 0 else if (grandMaster - s.clock).msb then -ppm else ppm }
  else .next s

/-- The package's half of the exchange with its plane-0 switch, every 2^20 cycles (R392). -/
def State.sendTime (s : State) : State :=
  if s.gclk % 2 ^ 20 = 0 ∧ (s.link 0).up = true then s.sendOrHold 0 { s.flitOf 8 0 0 0 with addr := s.clock } else s

/-- Flits of a virtual channel of a port that its receive buffer holds: of messages that have not ended or that wait, and control
that waits (R391). -/
def State.buffered (s : State) (p v : Nat) : Nat :=
  let mine : BitVec 5 → BitVec 2 → Bool := fun n c => decide (n.toNat = p ∧ c.toNat = v)
  ((s.partials.filter (fun (e : Chan × List Flit) => mine e.1.plane e.1.vc)).map (fun e => e.2.length)).sum
    + ((s.snap.waiting.filter (fun w => mine w.1.plane w.1.vc)).map (fun w => flitsFor ((w.1.runs.map (fun r => r.data.length)).sum))).sum
    + (s.snap.early.filter (fun f => mine f.plane f.vc)).length

/-- The virtual channels of a port whose buffer has passed its high mark and not fallen below its low mark since (R391, log 116). -/
def State.fullVcs (s : State) (p : Nat) : BitVec 4 :=
  (List.range 4).foldl (fun (b : BitVec 4) v =>
    let n := s.buffered p v
    if decide (Config.highMark < n) || ((s.link p).full.getLsbD v && decide (Config.lowMark ≤ n)) then b ||| BitVec.ofNat 4 (2 ^ v) else b) 0

/-- A port tells its sender which channels are stopped, where that has changed: those with a full buffer and those that a marker
closes (R325, R391). -/
def State.flowPort (s : State) (p : Nat) : State :=
  let k := s.link p
  let full := s.fullVcs p
  let bits := s.snap.closedVcs p ||| full
  let s := if full = k.full then s else s.modLink p (fun k => { k with full := full })
  if k.up = false ∨ bits = k.stopped then s
  else (s.modLink p (fun k => { k with stopped := bits })).sendOrHold p { s.flitOf 9 0 0 0 with addr := bits.setWidth 64 }

/-- What the ports do in every cycle: stop/go, the time flit, and flits that waited and may leave now (R316, R390 to R392). -/
def State.portWork (s : State) : State :=
  let s := (s.links.map Prod.fst).foldl State.flowPort s
  ((s.links.filter (fun (e : Nat × Link) => decide (e.2.queue ≠ []))).map Prod.fst).foldl State.drain s.sendTime

/-! ### Messages (R388) -/

/-- The runs of consecutive addresses in a message's flits. -/
def flitRuns : List Flit → List MsgRun
  | [] => []
  | f :: l =>
    let d := (List.range f.payload.length).map (fun i => f.dirty.getD i false)
    match flitRuns l with
    | r :: rest =>
      if f.payload = [] then r :: rest
      else if r.addr = f.addr + BitVec.ofNat 64 f.payload.length then ⟨f.addr, f.payload ++ r.data, d ++ r.dirty⟩ :: rest
      else ⟨f.addr, f.payload, d⟩ :: r :: rest
    | [] => if f.payload = [] then [] else [⟨f.addr, f.payload, d⟩]

/-- A message whose last flit has come is applied whole: its writes, and with the last of them its counter addition (R388). On
virtual channel 1 nothing but operands and old values is written. -/
def State.message (s : State) (fs : List Flit) (f : Flit) (p : Nat) : Out :=
  let runs := if f.vc = 1 ∧ f.atom = none then [] else flitRuns (fs ++ [f])
  let m : Msg :=
    { src := f.src, plane := BitVec.ofNat 5 p, vc := f.vc, job := f.job, inc := f.inc, runs := runs, ctr := f.ctr, add := f.add,
      atom := (if f.vc = 1 then f.atom else none) }
  execFabricMessage m s

/-- What an accepted flit does, by its kind (R388); `intact` is a free value for a rollback (R332, log 4). -/
def State.takeFlit (s : State) (port : Fin 24) (f : Flit) : Out :=
  let p := port.val
  let ch : Chan := ⟨f.src, BitVec.ofNat 5 p, f.vc⟩
  let old := (s.partials.filter (fun (e : Chan × List Flit) => decide (e.1 = ch))).flatMap (fun (e : Chan × List Flit) => e.2)
  let rest := s.partials.filter (fun (e : Chan × List Flit) => decide (e.1 ≠ ch))
  let f := { f with plane := BitVec.ofNat 5 p }
  let mine := decide (f.dst = s.pkg)
  match f.kind.toNat with
  | 0 => .next s
  | 1 => .next (if mine then { s with partials := rest ++ [(ch, old ++ [f])] } else s)
  | 2 => if mine then { s with partials := rest }.message old f p else .next s
  | 3 => if mine then execMarker f s else .next s
  | 4 => if mine then execDone f s else .next s
  | 5 => if mine then execCommit f s else .next s
  | 6 => if mine then execAbortFlit f s else .next s
  | 7 => if mine then execRollbackFlit f (s.freeWord.getLsbD 0) s.drawn else .next s
  | 8 => execTimeFlit port f.addr s
  | 9 => execStopGo port (f.addr.setWidth 4) s
  | _ => .next s

/-- FLIT_RECEIVE (R388, R390, R391): a flit with a good CRC and the number expected is accepted; any other is discarded and a NAK
goes back. A flit with a reserved field that is not 0, or a reserved kind, is discarded and counted as a replay: the NAK that follows
brings it again, and its message stays whole. -/
def execFlitReceive (port : Fin 24) (f : Flit) (crcGood : Bool) (s : State) : Out :=
  let p := port.val
  let k := s.link p
  if k.up = false then .next s
  else if !crcGood || decide (f.lseq ≠ k.rxNext) then .next (s.sendNak p)
  else if f.bad || decide (9 < f.kind.toNat) then .next ((s.modLink p (fun k => { k with replays := k.replays + 1 })).sendNak p)
  else
      let s := s.modLink p (fun k => { k with rxNext := k.rxNext + 1, received := k.received + 1, lastGood := s.gclk })
      let s := s.takeAck p f.ack
      let o : Out := if f.nak then execNak port f.ack s else .next (s.drain p)
      match o with
      | .next s => s.takeFlit port f
      | o => o

/-! ### Die boundaries (R394) -/

/-- LANE_REPAIR (R394): a lane is mapped to a spare, or the boundary retrains at half width where its 16 spares are in use;
crossings wait for at most 28,000 cycles. -/
def execLaneRepair (boundary : Fin 4) (s : State) : Out :=
  let b := boundary.val
  let used := (tget 0 s.lanes b).toNat
  let till := s.gclk + 1 + s.freeWord.toNat % 28000
  let s := { s.drawn with laneUntil := tput s.laneUntil b till }
  if used < 16 then
    .next ({ s with lanes := tset 0 s.lanes b (BitVec.ofNat 8 (used + 1)) }.setHealth (moreByte s.health 40))
  else .next { s with half := (b :: s.half).dedup }

end Sys2Proof.Machine
end

