-- ==== Sys2Proof/Machine/Rewrite.lean ====
section
/-! DEFINITION. When an image does what its source page does (R370, R371, R375). Both pages are followed along corresponding paths, each
under its own latency table (R48); values are numbered by the operation and the operands they come from, and what the two paths do, in
order, is compared at every edge. The comparison is the model's own: it accepts no image that it cannot follow (log 103). -/

namespace Sys2Proof.Machine

/-! ### Pages and their bundles -/

/-- A code page as it is followed: the memory and the base it is read from, its generation tag and what a sequencer would keep. -/
structure CodePage where
  mem : Table Byte
  base : Nat
  tag : Nat
  info : PageInfo
  deriving DecidableEq, Repr

/-- A page read from memory; none where its header is not valid. -/
def CodePage.read (m : Table Byte) (base : Nat) : Option CodePage :=
  (readPage m 0 base).map (fun i => ⟨m, base, pageTag m base, i⟩)

/-- A 32-bit word of a page. -/
def CodePage.word (p : CodePage) (w : Nat) : Nat := rdBytes p.mem (p.base + 4 * w) 4

/-- The header of the bundle at a word. -/
def CodePage.head (p : CodePage) (w : BitVec 12) : BundleHead := decHead (p.word w.toNat)

/-- Slots with their words; the two halves of an X slot stand apart. -/
def CodePage.slotsAt (p : CodePage) : List (Slot × Nat) → Nat → List (Slot × Nat)
  | [], _ => []
  | (k, n) :: l, o =>
    let w := p.word o + (if n = 2 then 2 ^ 32 * p.word (o + 1) else 0)
    (if k = .x then ([w / 2 ^ 16 * 2 ^ 16, w % 2 ^ 16].filter (fun h => decide (h ≠ 0))).map (fun h => (k, h)) else [(k, w)])
      ++ CodePage.slotsAt p l (o + n)

/-- The operations of the bundle at a word. -/
def CodePage.ops (p : CodePage) (w : BitVec 12) : List (Slot × Nat) := p.slotsAt (maskSlots (p.head w).mask) (w.toNat + 1)

/-- The B slot's word. -/
def bWord (l : List (Slot × Nat)) : Option Nat := (l.find? (fun o => decide (o.1 = .b))).map Prod.snd

/-- The bundle at a word has a valid encoding (R57). -/
def CodePage.bundleOk (p : CodePage) (w : BitVec 12) : Bool :=
  let h := p.head w
  let ws := (List.range (bundleLen (p.word w.toNat))).map (fun i => BitVec.ofNat 32 (p.word (w.toNat + i)))
  !h.bad && (decBundle ws).all (fun s => match s.2 with
    | .ok _ => true
    | _ => false)
    && !(h.y && ((bWord (p.ops w)).map (fun b => decide (field b 31 27 = 0x0A))).getD false)

/-- The bundle starts of a page. -/
def CodePage.starts (p : CodePage) : List (BitVec 12) := p.info.segs.flatMap (fun g => g.starts.map (fun o => BitVec.ofNat 12 (o / 4)))

/-- Every segment is well formed, its next field names a place for a header, and every bundle has a valid encoding (R57, R62,
R63). -/
def CodePage.valid (p : CodePage) : Bool :=
  p.info.segs.all (fun g => !g.bad && decide (g.next % 4 = 0) && decide (g.next = 0 ∨ g.next + 8 ≤ p.info.frames * 4096))
    && p.starts.all p.bundleOk

/-- The segment of a bundle start. -/
def CodePage.segAt (p : CodePage) (w : BitVec 12) : Nat := ((p.info.segOf w).map Seg.off).getD 0

/-- The ordinals of the usable landings at a word. -/
def CodePage.ordinals (p : CodePage) (w : BitVec 12) : List Nat :=
  (List.range p.info.landings.length).filter (fun i =>
    let e := p.info.landings.getD i 0
    p.info.usable e && decide (field e 15 0 = 4 * w.toNat))

/-- The word of a landing, where it is usable. -/
def CodePage.landingAt (p : CodePage) (i : Nat) : Option (BitVec 12) :=
  let e := p.info.landings.getD i 0
  if i < p.info.landings.length ∧ p.info.usable e = true then some (BitVec.ofNat 12 (field e 15 0 / 4)) else none

/-! ### Latencies (R48, R160) -/

/-- Cycles under a generation's table: what G3 and G2 have; those of G1 the spec does not give (log 104). -/
def byTag (tag g3 g2 : Nat) (k : Slot) (op : Nat) : Nat :=
  if tag = 0x300 then g3 else if tag = 0x200 then g2 else Config.g1Latency (Slot.idx k) op

/-- The latency of an operation by its slot and word, of a load where it is local. -/
def latOf (tag : Nat) (k : Slot) (w : Nat) : Nat :=
  let op := field w 31 26
  let l : Nat → Nat → Nat := fun g3 g2 => byTag tag g3 g2 k op
  match k with
  | .s0 | .s1 =>
    if 0x04 ≤ op ∧ op ≤ 0x06 then l 4 2
    else if 0x07 ≤ op ∧ op ≤ 0x0A then l 20 16
    else if op = 0x29 ∨ op = 0x2E then l 16 16
    else if 0x26 ≤ op ∧ op ≤ 0x2D then l 4 4
    else if op = 0x38 then l 5 3
    else l 1 1
  | .m => if op ≤ 0x06 then l 4 4 else if op = 0x3E then l 5 4 else l 5 5
  | .v =>
    let cross := if 0x16 ≤ field w 63 58 ∧ field w 63 58 ≤ 0x1C then 2 else 0
    let trans := decide (0x20 ≤ field w 51 46 ∧ field w 51 46 ≤ 0x26)
    if trans then byTag tag (10 + cross) (10 + cross) k (field w 63 46)
    else byTag tag (6 + cross) (5 + cross) k (field w 63 46)
  | .x => byTag tag 3 3 k (field w 31 28)
  | .e => if 0x1C ≤ field w 63 58 ∧ field w 63 58 ≤ 0x20 then byTag tag 6 6 k (field w 63 58) else byTag tag 2 2 k (field w 63 58)
  | _ => l 1 1

/-- An operation that G3 gives more cycles than the source's generation did. -/
def slower (tag : Nat) (o : Slot × Nat) : Bool := decide (latOf tag o.1 o.2 < latOf 0x300 o.1 o.2)

/-! ### What an operation reads, leaves and does -/

/-- Places of a context by number: q0 up from 0, vq0 from 16, k0 from 32, w0 from 48, p0 from 176, and xb. -/
def scalarPlace (n : Nat) : Option Nat := if n < 16 then some n else if n < 32 then some (n + 16) else none

/-- The place that a vector specifier names. -/
def vectorPlace (n : Nat) : Option Nat :=
  if n < 16 then some (n + 16) else if n < 0x90 then some (n + 32) else if n = 0x90 then some 184 else none

/-- An operation as the comparison sees it. -/
structure OpShape where
  /-- Its operand fields: high and low bit; of 8 bits those of vectors. -/
  fields : List (Nat × Nat)
  /-- Places it reads without a field. -/
  also : List Nat
  /-- What it pushes: nothing (0), a scalar (1), a vector (2). -/
  push : Nat
  /-- The field that names its destination, where it has one. -/
  dest : Option (Nat × Nat)
  /-- Places it writes without a field. -/
  into : List Nat
  /-- It can raise a cause of its own. -/
  own : Bool
  /-- It has an effect beside its result. -/
  eff : Bool
  flags : Bool
  deriving DecidableEq, Repr

/-- Two vector inputs are read by a unit operation (R157). -/
def unitBinary (op : Nat) : Bool :=
  !decide (op = 0 ∨ op = 7 ∨ op = 8 ∨ (0x13 ≤ op ∧ op ≤ 0x15) ∨ (0x19 ≤ op ∧ op ≤ 0x1C) ∨ (0x20 ≤ op ∧ op ≤ 0x26))

/-- A field if a condition holds. -/
def fieldIf (b : Bool) (hi lo : Nat) : List (Nat × Nat) := if b then [(hi, lo)] else []

/-- The operand fields of an E slot operation (R35). -/
def eFields (w : Nat) : List (Nat × Nat) :=
  match field w 63 58 with
  | 0x00 => [(57, 52), (51, 46), (45, 40), (39, 34), (33, 28), (27, 20)]
  | 0x04 => [(56, 51)]
  | 0x09 => [(57, 50), (49, 44), (43, 38)]
  | 0x10 | 0x11 | 0x12 => fieldIf (field w 45 45 = 0) 51 46
  | 0x14 => [(41, 36)]
  | 0x1C | 0x1D | 0x1E | 0x1F | 0x20 => [(57, 52), (51, 46), (45, 40)]
  | 0x24 | 0x27 | 0x34 => [(57, 52), (51, 46)]
  | 0x05 | 0x06 | 0x07 | 0x08 | 0x0C | 0x26 | 0x2C | 0x31 | 0x32 | 0x33 | 0x35 => [(57, 52)]
  | _ => []

/-- The operation of a slot word (R30 to R35, R166, R177, R196). -/
def shapeOf (k : Slot) (w : Nat) : OpShape :=
  let op := field w 31 26
  match k with
  | .s0 | .s1 =>
    let un := decide (op = 0 ∨ op = 0x1E ∨ op = 0x1F ∨ op = 0x20 ∨ op = 0x24 ∨ op = 0x2D ∨ op = 0x2E ∨ op = 0x30)
    let tri := decide (op = 0x1D ∨ op = 0x38)
    ⟨(25, 20) :: (fieldIf (!un) 19 14 ++ fieldIf tri 5 0), if op = 0x23 then (scalarPlace (field w 13 9)).toList else [], 1, some (13, 9),
      [], false, false, decide (0x26 ≤ op ∧ op ≤ 0x2E)⟩
  | .b =>
    let b := field w 31 27
    ⟨fieldIf (decide (b = 1 ∨ b = 2 ∨ b = 3 ∨ b = 5 ∨ b = 6 ∨ b = 7 ∨ b = 9 ∨ b = 0x0B)) 26 21, [], 0, none, [], true, true, false⟩
  | .m =>
    let load := decide (op ≤ 0x06)
    let vload := decide (op = 0x0B ∨ op = 0x0E ∨ op = 0x10)
    let store := decide ((0x07 ≤ op ∧ op ≤ 0x0A) ∨ op = 0x3F)
    let vstore := decide (op = 0x0C ∨ op = 0x0D ∨ op = 0x0F ∨ op = 0x11 ∨ op = 0x12)
    ⟨(25, 20) :: (fieldIf store 17 12 ++ fieldIf vstore 19 12),
      (if op = 0x0D then [176 + field w 11 9] else []) ++ (if op = 0x0E ∨ op = 0x0F then [32 + field w 3 0] else []),
      if load ∨ op = 0x3E then 1 else if vload then 2 else 0, if load ∨ vload then some (19, 12) else none, [], true, true, false⟩
  | .v =>
    ⟨(45, 38) :: (fieldIf (unitBinary (field w 63 58)) 37 30 ++ fieldIf (unitBinary (field w 57 52)) 29 22
        ++ fieldIf (unitBinary (field w 51 46)) 21 14),
      if field w 5 2 = 0 then [] else [175 + field w 5 2], if field w 13 6 < 0xF0 ∨ field w 13 6 = 0xFF then 2 else 0, some (13, 6), [],
      true, false, true⟩
  | .x =>
    if 2 ^ 16 ≤ w then
      ⟨[(27, 22)], if field w 31 28 = 2 then [16] else [], 2, none, if field w 31 28 = 1 then [184] else [], true, false, true⟩
    else ⟨[(11, 4)], [], 1, none, [], true, false, true⟩
  | .e =>
    let e := field w 63 58
    let value := decide (e = 0x04 ∨ e = 0x13 ∨ e = 0x25 ∨ e = 0x30 ∨ e = 0x35 ∨ e = 0x1C ∨ e = 0x1E ∨ e = 0x1F ∨ e = 0x20)
    ⟨eFields w, [], if value then 1 else 0, none, [], true, true, false⟩
  | .c =>
    let pure (also : List Nat) (push : Nat) (into : List Nat) (own : Bool) : OpShape := ⟨[], also, push, none, into, own, false, false⟩
    match op with
    | 0x00 => pure [] 1 [] false
    | 0x01 => pure [0] 1 [] false
    | 0x05 => pure (vectorPlace (field w 25 18)).toList 0 (vectorPlace (field w 25 18)).toList true
    | 0x08 =>
      let m := field w 22 20
      let at_ : Nat → Nat := fun p => 176 + p
      pure ((if 2 ≤ m then [at_ (field w 19 17)] else []) ++ (if 3 ≤ m then [at_ (field w 16 14)] else [])) 0 [at_ (field w 25 23)] false
    | _ =>
      ⟨fieldIf (decide (op = 0x02 ∧ field w 21 21 = 1)) 12 7 ++ fieldIf (decide (op = 0x03 ∧ field w 20 20 = 1)) 19 14, [], 0, none, [], false,
        true, false⟩
  | .hdr => ⟨[], [], 0, none, [], false, false, false⟩

/-- The place that a field of a word names. -/
def fieldPlace (w : Nat) (f : Nat × Nat) : Option Nat :=
  if f.1 = f.2 + 7 then vectorPlace (field w f.1 f.2) else scalarPlace (field w f.1 f.2)

/-- A word with a field cleared. -/
def clearField (w : Nat) (f : Nat × Nat) : Nat := w - field w f.1 f.2 * 2 ^ f.2

/-- A pool access of the M slot, or an SC operation, whose cycle R375 fixes. -/
def timed (o : Slot × Nat) : Bool :=
  decide (o.1 = .m ∨ (o.1 = .e ∧ 0x1C ≤ field o.2 63 58 ∧ field o.2 63 58 ≤ 0x20))

/-- An operation at which the stretch from a start tick ends (R81). -/
def freezer (o : Slot × Nat) : Bool :=
  match o.1 with
  | .e => decide (field o.2 63 58 ∈ [0x10, 0x15, 0x16, 0x26, 0x1A, 0x1C, 0x1D, 0x1E, 0x1F, 0x20, 0x32, 0x33, 0x34])
      || decide (field o.2 63 58 = 0x30 ∧ field o.2 51 40 = 0x051)
  | .b => decide (field o.2 31 27 ∈ [0x03, 0x04, 0x05, 0x06])
  | _ => false

/-! ### A path -/

/-- A result on its way: its landing cycle, its place in the push order of R43, its queue, what it pushes and where it is written. -/
structure PathRes where
  at_ : Nat
  rank : Nat
  vec : Bool
  vals : List Nat
  dests : List (Nat × Nat)
  /-- A relabelling: the key of its VTAG (R196). -/
  label : Option Nat
  /-- It sets flags (1), or did so already in the account of the path before (2). -/
  flags : Nat
  /-- The return handle of a call (R45). -/
  ret : Bool
  deriving DecidableEq, Repr

/-- What a page does not fix and a comparison takes as given: the parts of each widening, and how a load goes that nothing in its path
shows to be local or not (R418). -/
structure Given where
  wide : Nat
  /-- Such a load is local; or every one goes over the canal with so many hops; or the one that comes after so many effects does. -/
  far : Option (Option Nat × Nat)
  deriving DecidableEq, Repr

/-- The stretch of R375 that a path is in: its first cycle, its segment, and whether it began at a start tick. -/
abbrev PathSpan : Type := Nat × Nat × Bool

/-- A path as far as it has been followed. Values are numbers: those below 1000 stand for what a place held where the path begins. -/
structure Path where
  pos : BitVec 12
  /-- The cycle after the last issue, and the first one whose landings are still to come. -/
  time : Nat
  landed : Nat
  /-- The numbered values: value 1000 + n comes from the operation and operands of entry n. -/
  terms : List (List Nat)
  /-- What each place holds. -/
  regs : List Nat
  fly : List PathRes
  flags : List Nat
  /-- Values known to carry no mark. -/
  clean : List Nat
  /-- What the path does, in order. -/
  log : List (List Nat)
  /-- For each access of R375 its offset in its stretch, and whether the stretch has stayed in its segment. -/
  times : List (Option (Nat × Bool))
  span : Option PathSpan
  /-- The landings that it reaches or branches to, each with the stretch it is in then: its age, its segment and its kind. -/
  outs : List (Nat × Option PathSpan)
  /-- The LOOP bundles met, each with its count where that is traced to a literal (R80). -/
  counts : List (BitVec 12 × Option Nat)
  /-- A result of its own was in flight at an edge (R110). -/
  loose : Bool
  /-- The path is the source's. -/
  lead : Bool
  /-- The cycle of the last E or C effect. -/
  last : Nat
  /-- Loop bodies entered: the end's ordinal and the first word. -/
  bodies : List (Nat × BitVec 12)
  /-- Effects and B operations so far. -/
  effs : Nat
  turns : Nat
  /-- Of the bundle being followed: marks read, causes of its own, effects. -/
  chk : List (List Nat)
  own : List (List Nat)
  eff : List (List Nat)
  /-- The path has ended, at these landings. -/
  fin : Option (List Nat)
  deriving DecidableEq, Repr

/-- A path that begins at a word. -/
def Path.at (w : BitVec 12) (lead : Bool) : Path :=
  { pos := w, time := 100, landed := 100, terms := [], regs := List.range 185, fly := [], flags := [], clean := [], log := [], times := [],
    span := none, outs := [], counts := [], loose := false, lead := lead, last := 100, bodies := [], effs := 0, turns := 0, chk := [],
    own := [], eff := [], fin := none }

/-- A value that is traced to a literal: LIT, LITH on one, or the specifier of zero (R37, R98). `fuel` bounds the LITHs. -/
def Path.literal (p : Path) : Nat → Nat → Option Nat
  | 0, _ => none
  | fuel + 1, v =>
    if v < 1000 then none
    else
      match p.terms.getD (v - 1000) [] with
      | [7, key] => if field key 31 26 = 0 then some ((BitVec.ofNat 24 key).signExtend 64).toNat else none
      | [7, key, a] => if field key 31 26 = 1 then (p.literal fuel a).map (fun n => (n * 2 ^ 24 + field key 23 0) % 2 ^ 64) else none
      | [8, 5, 0x21, _] => some 0
      | _ => none

/-- The hops of a load by its address source, where it goes over the canal: bit 30 says so where it is traced (R16, R418). -/
def Path.hops (p : Path) (g : Given) (a : Nat) : Option Nat :=
  match (p.literal 4 a).map (fun n => n.testBit 30), g.far with
  | some b, far => if b then some ((far.map Prod.snd).getD 0) else none
  | none, some (which, h) => if which.getD p.effs = p.effs then some h else none
  | none, none => none

/-- An operation that can load over the canal (R418). -/
def canLoadFar (o : Slot × Nat) : Bool :=
  decide (o.1 = .m) && decide (field o.2 31 26 ≤ 0x06 ∨ field o.2 31 26 = 0x0B ∨ field o.2 31 26 = 0x0E ∨ field o.2 31 26 = 0x10)

/-- The number of a value. -/
def Path.num (p : Path) (t : List Nat) : Path × Nat :=
  let i := p.terms.findIdx (fun u => decide (u = t))
  (if i < p.terms.length then p else { p with terms := p.terms ++ [t] }, 1000 + i)

/-- A result lands (R43, R44, R47). -/
def Path.push (p : Path) (r : PathRes) : Path :=
  let p := r.vals.foldl (fun (p : Path) v =>
    { p with regs := if r.vec then p.regs.take 16 ++ v :: ((p.regs.drop 16).take 15 ++ p.regs.drop 32) else v :: (p.regs.take 15 ++ p.regs.drop 16) }) p
  let p := r.dests.foldl (fun (p : Path) d =>
    match r.label with
    | none => { p with regs := p.regs.set d.1 d.2 }
    | some key =>
      let n := p.num [9, key, p.regs.getD d.1 0]
      { n.1 with regs := n.1.regs.set d.1 n.2 }) p
  if r.flags = 1 then { p with flags := (p.flags ++ r.vals ++ r.dests.map Prod.snd).dedup } else p

/-- Everything lands that lands before a cycle. -/
def Path.land (p : Path) (t : Nat) : Path :=
  if p.fly = [] then { p with landed := max p.landed t }
  else
    let q := (List.range (t - p.landed)).foldl (fun (q : Path) i =>
      (List.range 8).foldl (fun (q : Path) k =>
        (p.fly.filter (fun r => decide (r.at_ = p.landed + i ∧ r.rank = k))).foldl Path.push q) q) p
    { q with fly := p.fly.filter (fun r => decide (t ≤ r.at_)), landed := max p.landed t }

/-- A number put in its place among rising numbers. -/
def insNat (n : Nat) : List Nat → List Nat
  | [] => [n]
  | a :: l => if n ≤ a then n :: a :: l else a :: insNat n l

/-- Numbers in rising order. -/
def sortNat (l : List Nat) : List Nat := l.foldr insNat []

/-- What an edge compares: results in flight as EDGE_UNSETTLED counts them, what every place holds, and the flags (R110, R371). -/
def Path.edge (p : Path) : List Nat :=
  let f := p.fly.filter (fun r => !r.ret)
  let sum : List Nat → Nat := List.sum
  [sum (f.map (fun r => if r.vec then 0 else r.vals.length)), sum (f.map (fun r => if r.vec then r.vals.length else 0)),
    (f.filter (fun r => decide (r.vals = []))).length] ++ p.regs ++ sortNat p.flags

/-- Order in which results of one cycle are pushed: that of R43 for both queues. -/
def pushRank : Slot → Nat
  | .s0 => 0
  | .s1 => 1
  | .v => 2
  | .b => 3
  | .m => 4
  | .x => 5
  | .e => 6
  | _ => 7

/-- A read of a place: its value; where it may carry a mark, the read is recorded with its specifier (R348). -/
def Path.readPlace (p : Path) (k : Slot) (place : Nat) : Path × Nat :=
  let v := p.regs.getD place 0
  (if v ∈ p.clean ∨ (176 ≤ place ∧ place < 184) then p
    else { p with clean := v :: p.clean, chk := p.chk ++ [[2, Slot.idx k, place, v]] }, v)

/-- The operands of an operation, and its word without what names them. -/
def Path.operands (p : Path) (k : Slot) (w : Nat) (h : OpShape) : Path × List Nat × Nat :=
  let r := h.fields.foldl (fun (a : Path × List Nat × Nat) f =>
    match fieldPlace w f with
    | some place =>
      let v := a.1.readPlace k place
      (v.1, a.2.1 ++ [v.2], clearField a.2.2 f)
    | none =>
      let n := field w f.1 f.2
      let turn := if f.1 = f.2 + 5 ∧ 0x25 ≤ n then a.1.turns + 1 else 0
      let v := a.1.num [8, f.1 - f.2, n, turn]
      (v.1, a.2.1 ++ [v.2], a.2.2)) (p, [], w)
  let r := h.also.foldl (fun (a : Path × List Nat × Nat) place =>
    let v := a.1.readPlace k place
    (v.1, a.2.1 ++ [v.2], a.2.2)) r
  (r.1, r.2.1, (h.dest.map (clearField r.2.2)).getD r.2.2)

/-- A result begins its flight. -/
def Path.flyOut (p : Path) (k : Slot) (t lat : Nat) (h : OpShape) (w : Nat) (vals : List Nat) (key : Nat) : Path :=
  let named : List Nat := match h.dest with
    | none => []
    | some f =>
      let d := field w f.1 f.2
      if h.push = 1 then (if 0x10 ≤ d then [d + 16] else [])
      else if 0x10 ≤ d ∧ d < 0x90 then (List.range vals.length).map (fun i => d + 32 + i)
      else if 0xF0 ≤ d ∧ d < 0xF8 then [176 + d - 0xF0] else []
  let dests := (named ++ h.into).zip (vals ++ vals)
  let r : PathRes := {
    at_ := t + lat, rank := pushRank k, vec := decide (h.push = 2), vals := if h.push = 0 then [] else vals, dests := dests,
    label := if k = .c ∧ field w 31 26 = 0x05 then some key else none, flags := if h.flags then 1 else 0, ret := false }
  { p with fly := p.fly ++ [r] }

/-- An effect or a possible cause of an operation, as it is recorded. A load keeps its place among the effects by its causes; a cause found
later undoes nothing of it (R371). -/
def Path.record (p : Path) (h : OpShape) (e : List Nat) : Path :=
  let load := decide (e.head? = some (pushRank .m) ∧ h.push ≠ 0)
  { p with
    own := if h.own then p.own ++ [4 :: e] else p.own, eff := if h.eff && !load then p.eff ++ [3 :: e] else p.eff,
    effs := if h.eff then p.effs + 1 else p.effs }

/-- An operation of a bundle that issues in cycle t. MADD gives what a MUL and an ADD give, LDPAIR and STPAIR what two LDD and two STD
do (R99, R259, R371). -/
def Path.oper (pg : CodePage) (g : Given) (t : Nat) (p : Path) (o : Slot × Nat) : Path :=
  let k := o.1
  let w := o.2
  let op := field w 31 26
  let h := shapeOf k w
  let a := p.operands k w h
  let p := a.1
  let args := a.2.1
  let key := a.2.2
  let lat := match (if canLoadFar o then p.hops g (args.getD 0 0) else none) with
    | some n => 8 + 2 * n
    | none => latOf pg.tag k w
  let cls := if k = .s1 then 0 else pushRank k
  let near := if k = .v ∨ k = .e ∨ k = .c then [min 4 (t - p.last)] else []
  let p := if timed o then { p with
      times := p.times ++ [p.span.map (fun s => (t - s.1, decide (pg.segAt p.pos = s.2.1)))] } else p
  if cls = 0 ∧ op = 0x38 then
    let m := p.num [0, 0x04 * 2 ^ 26, args.getD 0 0, args.getD 1 0]
    let s := m.1.num [0, 0x01 * 2 ^ 26, m.2, args.getD 2 0]
    { s.1 with clean := s.2 :: s.1.clean }.flyOut k t lat h w [s.2] key
  else if k = .m ∧ op = 0x3E then
    let one : Path → Nat → Path × Nat := fun p i =>
      let e := [cls, 0x06 * 2 ^ 26 + field key 25 20 * 2 ^ 20 + 2 * field w 11 0 + i, args.getD 0 0]
      (p.record h e).num (e ++ [p.effs])
    let x := one p 0
    let y := one x.1 1
    y.1.flyOut k t lat h w [x.2, y.2] key
  else if k = .m ∧ op = 0x3F then
    let second := ((scalarPlace (field w 17 12)).map (fun q => p.readPlace k (q + 1))).getD (p, 0)
    let one : Path → Nat → Nat → Path := fun p i v =>
      p.record h [cls, 0x0A * 2 ^ 26 + field key 25 20 * 2 ^ 20 + 2 * field w 11 0 + i, args.getD 0 0, v]
    one (one second.1 0 (args.getD 1 0)) 1 second.2
  else
    let status := if k = .e ∧ (field w 63 58 = 0x30 ∨ field w 63 58 = 0x31) then
        0 :: sortNat p.flags ++ (p.fly.filter (fun r => decide (r.flags ≠ 0))).flatMap (fun r => r.vals ++ r.dests.map Prod.snd) else []
    let e := cls :: key :: args
    let n := p.num (if h.eff then e ++ [p.effs] else if k = .v then e ++ near else e)
    let p := n.1.record h (e ++ near ++ status)
    if h.push = 0 ∧ h.into = [] ∧ h.dest = none then p
    else
      let parts := if k = .v ∧ (field w 63 58 = 0x14 ∨ field w 57 52 = 0x14 ∨ field w 51 46 = 0x14) then
          (if g.wide.testBit (n.2 % 3) then 4 else 2) else 1
      let vs := (List.range parts).foldl (fun (a : Path × List Nat) i =>
        let v := a.1.num [10, n.2, i]
        (v.1, a.2 ++ [v.2])) (p, [])
      let r : Path × List Nat := if parts = 1 then (p, [n.2]) else vs
      let q := if h.eff then r.1 else { r.1 with clean := r.2 ++ r.1.clean }
      q.flyOut k t lat h w r.2 key

/-- A result is in flight, but for a return handle (R110). -/
def Path.unsettled (p : Path) : Bool := p.fly.any (fun r => !r.ret)

/-- What a landing of the page finds where a path goes there after a bundle of cycle t. -/
def Path.arrive (p : Path) (pg : CodePage) (t : Nat) (w : BitVec 12) : List Nat := (p.land (t + 1 + (pg.head w).delta)).edge

/-- The stretch of R375 after a bundle: REALN begins one; it ends at the next REALN, a yield bundle or an exit, and one from a start tick
at the first bundle that can freeze one sequencer alone (R81, R82). -/
def Path.stretch (p : Path) (pg : CodePage) (t : Nat) (ops : List (Slot × Nat)) (y ends : Bool) : Path :=
  let realn := ((bWord ops).map (fun b => decide (field b 31 27 = 0x0A))).getD false
  let stays : PathSpan → Bool := fun s => decide (pg.segAt p.pos = s.2.1)
  let last := y || ends || realn || ops.any freezer
  let p := if last then { p with times := p.times ++ [p.span.map (fun s => (0, stays s))] } else p
  let span := if realn then some (t + 1, pg.segAt p.pos, false)
    else match p.span with
    | none => none
    | some s => if y || ends || (s.2.2 && (ops.any freezer || (p.lead && !stays s))) then none else some s
  { p with span := span }

/-- The path reaches landings after a bundle of cycle t, or branches to them. -/
def Path.out (p : Path) (pg : CodePage) (t : Nat) (w : BitVec 12) (os : List Nat) : Path :=
  let there := (p.land (t + 1 + (pg.head w).delta)).unsettled
  { p with outs := p.outs ++ os.map (fun o => (o, p.span.map (fun s => (t + 1 - s.1, s.2)))), loose := p.loose || there }

/-- One bundle of a path. -/
def Path.bundle (pg : CodePage) (g : Given) (p : Path) : Path :=
  let h := pg.head p.pos
  let t := p.time + h.delta
  let ops := pg.ops p.pos
  let p := { (p.land t) with chk := [], own := [], eff := [] }
  let p := ops.foldl (Path.oper pg g t) p
  let b := bWord ops
  let bop := (b.map (fun w => field w 31 27)).getD 0x1F
  let after := pg.info.after p.pos
  let exit := decide (bop ∈ [0x03, 0x04, 0x05, 0x06, 0x0C, 0x0D]) || decide (after = After.exit)
  let p := if exit then { p with log := p.log ++ [10 :: p.edge], loose := p.loose || p.unsettled } else p
  let p := { p with
    -- source reads, then the other causes, in slot order (R345), then what the bundle does
    log := p.log ++ p.chk ++ p.own ++ p.eff ++ (if h.y then [[6]] else []),
    last := if ops.any (fun (o : Slot × Nat) => decide (o.1 = Slot.e) || (decide (o.1 = Slot.c) && (shapeOf o.1 o.2).eff)) then t else p.last }
  let word := b.getD 0
  let ord := field word 20 9
  let target := if bop ∈ [0x00, 0x01, 0x02, 0x07, 0x08, 0x09] then pg.landingAt ord else none
  let p := if bop ∈ [0x00, 0x01, 0x02, 0x07, 0x08, 0x09] then { p with
      log := p.log ++ [5 :: (match target with
        | some w => p.arrive pg t w
        | none => [])] } else p
  let p := if bop = 0x07 then
      let a := p.operands .b word (shapeOf .b word)
      { p with counts := p.counts ++ [(p.pos, ((a.2.1.head?).bind (a.1.literal 4)).map (fun n => n % 2 ^ 32))] }
    else p
  let p := p.stretch pg t ops h.y exit
  let p := match target with
    | some w => if bop = 0x08 ∧ field word 8 0 ≠ 0 then p else p.out pg t w [ord]
    | none => p
  let p := { p with turns := p.turns + (if b.isSome then 1 else 0), time := t + 1 }
  if bop = 0x00 ∨ bop ∈ [0x03, 0x04, 0x05, 0x06, 0x0C, 0x0D] then { p with fin := some [] }
  else
    match after with
    | .exit => { p with fin := some [] }
    | .bad _ => { p with log := p.log ++ [[11]], fin := some [] }
    | .word v =>
      let p := { p with pos := v, bodies := if bop = 0x07 ∨ bop = 0x08 then p.bodies ++ [(ord, v)] else p.bodies }
      let os := pg.ordinals v
      if os = [] then p else { (p.out pg t v os) with log := p.log ++ [7 :: os ++ p.arrive pg t v], fin := some os }

/-- A path is followed to its end: a transfer, the chain's end, or a landing. -/
def Path.run (pg : CodePage) (g : Given) : Nat → Path → Path
  | 0, p => { p with log := p.log ++ [[12]], fin := some [] }
  | fuel + 1, p => if p.fin.isSome then p else Path.run pg g fuel (p.bundle pg g)

/-! ### Two paths side by side -/

/-- The accesses of the source's stretches keep their offsets, and the image keeps each stretch in one segment (R375). -/
def timesAgree : List (Option (Nat × Bool)) → List (Option (Nat × Bool)) → Bool
  | [], [] => true
  | none :: a, _ :: b => timesAgree a b
  | some x :: a, some y :: b => decide (x.1 = y.1) && y.2 && timesAgree a b
  | _, _ => false

/-- The source's path and the image's from corresponding bundles: none where they differ. Where a load is taken to go over the canal and the
source then leaves a result in flight at an edge, the source is not written for that, and nothing follows (R418, log 103). -/
def sameStretch (a b : CodePage) (g : Given) (p : Path × Path) : Option (Path × Path) :=
  let x := Path.run a g 4096 p.1
  let y := Path.run b g 4096 { p.2 with terms := x.terms }
  if g.far.isSome && x.loose then some ({ x with fin := none, outs := [] }, { y with fin := none, outs := [] })
  else if x.log = y.log ∧ x.bodies.map Prod.fst = y.bodies.map Prod.fst ∧ x.outs.map Prod.fst = y.outs.map Prod.fst
      ∧ timesAgree x.times y.times = true then some (x, y)
  else none

/-- The values that a path holds, in order. -/
def Path.vals (p : Path) : List Nat := p.regs ++ p.fly.flatMap (fun r => r.vals ++ r.dests.map Prod.snd)

/-- Every value goes through a map. -/
def Path.rename (f : Nat → Nat) (p : Path) : Path :=
  { p with
    regs := p.regs.map f, fly := p.fly.map (fun r => { r with vals := r.vals.map f, dests := r.dests.map (fun d => (d.1, f d.2)) }) }

/-- Two paths of one shape as one: a value for each pair of values. -/
def Path.both (p q : Path) : Path :=
  let f : Nat → Nat → Nat := fun a b => a * 2 ^ 16 + b
  { p with
    regs := List.zipWith f p.regs q.regs,
    fly := List.zipWith (fun (r u : PathRes) => { r with
      vals := List.zipWith f r.vals u.vals, dests := List.zipWith (fun (d e : Nat × Nat) => (d.1, f d.2 e.2)) r.dests u.dests }) p.fly q.fly }

/-- Values are numbered anew, by the first place that holds them: what remains of two paths is which of their places hold the same. -/
def anew (p : Path × Path) : Path × Path :=
  let l := p.1.vals ++ p.2.vals
  let f : Nat → Nat := fun v => l.findIdx (fun u => decide (u = v))
  (p.1.rename f, p.2.rename f)

/-- Where stretches of two ages begin for paths that go on in them: what counts is how much older one is (R375). -/
def spanStart (age other : Nat) : Nat :=
  let m := min age other
  100 - (age - (m - min 60 m))

/-- A path that goes on at a loop body's first bundle: its results in flight, counted from the new beginning, and its stretch. -/
def Path.again (p : Path) (w : BitVec 12) (span : Option PathSpan) : Path :=
  { Path.at w p.lead with
    regs := p.regs, span := span,
    fly := p.fly.map (fun (r : PathRes) => { r with at_ := r.at_ + 100 - p.time, flags := if r.flags = 0 then 0 else 2 }) }

/-- The back edges of loops whose end two paths have reached together (R113). -/
def backEdges (bodies : List (Nat × BitVec 12 × BitVec 12)) (p : Path × Path) : List (Path × Path) :=
  match p.1.fin with
  | none => []
  | some os =>
    let age : Path → Nat := fun q => (q.span.map (fun s => q.time - s.1)).getD 0
    let span : Path → Path → Option PathSpan := fun q r => q.span.map (fun s => (spanStart (age q) (age r), s.2))
    (bodies.filter (fun d => decide (d.1 ∈ os))).map (fun d =>
      let land : Path → Path := fun q => q.land q.time
      anew ((land p.1).again d.2.1 (span p.1 p.2), (land p.2).again d.2.2 (span p.2 p.1)))

/-- Two paths that differ. -/
def differing : Path × Path := (Path.at 0 true, { Path.at 0 false with log := [[0]] })

/-- Stretches of the source go on at the landings that two paths have reached, or branch to (R82, R375). -/
def spanEdges (a b : CodePage) (p : Path × Path) : List (Path × Path) :=
  ((p.1.outs.zip p.2.outs).filterMap (fun o => o.1.2.map (fun s =>
    match o.2.2, a.landingAt o.1.1, b.landingAt o.1.1 with
    | some r, some u, some v =>
      ({ Path.at u true with span := some (spanStart s.1 r.1, s.2) }, { Path.at v false with span := some (spanStart r.1 s.1, r.2) })
    | _, _, _ => differing))).dedup

/-- Two pairs of paths are of one shape. -/
def sameShape (p q : Path × Path) : Bool :=
  let z : Path → Path := Path.rename (fun _ => 0)
  decide (z p.1 = z q.1 ∧ z p.2 = z q.2)

/-- Every equality that the first pair relies on holds in the second. -/
def covers (p q : Path × Path) : Bool :=
  let u := q.1.vals ++ q.2.vals
  let v := p.1.vals ++ p.2.vals
  (List.range u.length).all (fun i => decide (u.getD i 0 = u.getD (v.getD i 0) 0))

/-- The flags that results still in flight or landed will have set by the next edge agree. -/
def flagsAgree (p : Path × Path) : Bool :=
  let all : Path → List Nat := fun q =>
    sortNat (q.flags ++ (q.fly.filter (fun r => decide (r.flags = 1))).flatMap (fun r => r.vals ++ r.dests.map Prod.snd)).dedup
  decide (all p.1 = all p.2)

/-- Every way round the loops, and on in a stretch, agrees; what one way relies on is narrowed until all ways have it. -/
def loopsAgree (a b : CodePage) (g : Given) (bodies : List (Nat × BitVec 12 × BitVec 12)) :
    Nat → List (Path × Path) → List (Path × Path) → Bool
  | _, [], _ => true
  | 0, _, _ => false
  | fuel + 1, n :: todo, seen =>
    let explore : Path × Path → List (Path × Path) → Bool := fun n seen =>
      match sameStretch a b g n with
      | none => false
      | some r =>
        let back := backEdges bodies r
        (back = [] || flagsAgree r) && loopsAgree a b g bodies fuel (todo ++ back ++ spanEdges a b r) seen
    match seen.find? (sameShape n) with
    | none => explore n (n :: seen)
    | some m =>
      if covers m n then loopsAgree a b g bodies fuel todo seen
      else
        let k := anew (m.1.both n.1, m.2.both n.2)
        explore k (k :: seen.filter (fun e => !sameShape n e))

/-- The return handle of a call, in flight as its target's first bundle is reached (R45). -/
def callHandle : PathRes := ⟨100, 3, false, [900], [(47, 900)], none, 0, true⟩

/-- The paths that begin at a landing: as a branch or a return leaves it; with a call's return handle in flight; and, at an ENTRY, a
stretch from a start tick (R374, R375). -/
def pathsAt (a b : CodePage) (i : Nat) : List (Path × Path) :=
  match a.landingAt i, b.landingAt i with
  | some u, some v =>
    let kind := field (a.info.landings.getD i 0) 17 16
    let go : List PathRes → Bool → Path × Path := fun fly tick =>
      let one : CodePage → BitVec 12 → Bool → Path := fun pg w lead =>
        { Path.at w lead with fly := fly, span := if tick then some (100, pg.segAt w, true) else none }
      (one a u true, one b v false)
    if kind = 1 then [go [] false] else [go [] (decide (kind = 2)), go [callHandle] false]
  | _, _ => []

/-- Every path of the source and its path in the image do the same, with what is given (R371, R375). -/
def pathsAgree (a b : CodePage) (g : Given) : Bool :=
  let begins := (List.range a.info.landings.length).flatMap (pathsAt a b)
  let ends := begins.map (sameStretch a b g)
  ends.all Option.isSome
    && (let done := ends.filterMap id
        let bodies := (done.flatMap (fun r => List.zipWith (fun (x y : Nat × BitVec 12) => (x.1, x.2, y.2)) r.1.bodies r.2.bodies)).dedup
        let back := done.flatMap (fun r => let l := backEdges bodies r; if l = [] ∨ flagsAgree r = true then l else [differing])
        loopsAgree a b g bodies 4000 (back ++ done.flatMap (spanEdges a b)) [])

/-! ### Where a page goes on -/

/-- The loops of a page: the word of the end landing and of the head (R112). -/
def CodePage.loops (p : CodePage) : List (BitVec 12 × BitVec 12) :=
  p.starts.filterMap (fun w => match bWord (p.ops w), p.info.after w with
    | some b, .word v => if field b 31 27 = 0x07 ∨ field b 31 27 = 0x08 then (p.landingAt (field b 20 9)).map (fun e => (e, v)) else none
    | _, _ => none)

/-- The bundle that follows one in its page, if it can fall through. -/
def CodePage.through (p : CodePage) (w : BitVec 12) : Option (BitVec 12) :=
  let op := ((bWord (p.ops w)).map (fun b => field b 31 27)).getD 0x1F
  if op ∈ [0x00, 0x03, 0x04, 0x05, 0x06, 0x0C, 0x0D] then none
  else match p.info.after w with
    | .word v => some v
    | _ => none

/-- The landing to which a bundle can branch. -/
def CodePage.branch (p : CodePage) (w : BitVec 12) : Option (BitVec 12) :=
  (bWord (p.ops w)).bind (fun b => if field b 31 27 ∈ [0x00, 0x01, 0x02, 0x07, 0x08, 0x09] then p.landingAt (field b 20 9) else none)

/-- The bundles to which a bundle of the page can go on: by a branch, by falling through, and round a loop that ends there (R113). -/
def CodePage.goesOn (p : CodePage) (w : BitVec 12) : List (BitVec 12) :=
  (p.branch w).toList ++ (match p.through w with
    | some v => v :: (p.loops.filter (fun l => decide (l.1 = v))).map Prod.snd
    | none => [])

/-! ### Stated runs (R80, R371) -/

/-- The longest way from a bundle, as far as it is known: to the end of the innermost level it is in, and to a yield bundle or exit; and
whether nothing is left out of it: a way back that no LOOP counts, a count that is not traced, a callee of another page. -/
structure Longest where
  thru : Option Nat
  ends : Nat
  whole : Bool
  deriving DecidableEq, Repr

/-- Of two ways the longer. -/
def Longest.or (a b : Longest) : Longest :=
  ⟨match a.thru, b.thru with
    | some x, some y => some (max x y)
    | some x, none => some x
    | none, y => y, max a.ends b.ends, a.whole && b.whole⟩

/-- A way that begins with so many cycles. -/
def Longest.later (a : Longest) (n : Nat) : Longest := ⟨a.thru.map (fun x => x + n), a.ends + n, a.whole⟩

/-- What is known of the ways from bundles, each with the ends of the levels around it. -/
abbrev WayMemo : Type := List ((BitVec 12 × List (BitVec 12)) × Longest)

/-- A loop of n turns whose one turn is known, and what comes after it. -/
def Longest.turns (body after : Longest) (n : Nat) : Longest :=
  match body.thru with
  | none => ⟨none, body.ends, body.whole⟩
  | some t => let r := after.later (n * t); ⟨r.thru, max r.ends ((n - 1) * t + body.ends), r.whole && body.whole⟩

/-- R80's longest path from a bundle: conditional branches both ways, a loop as often as its count says, a call with its callee's way;
up to the next yield bundle or exit. `fuel` bounds the bundles of one way. -/
def CodePage.ways (p : CodePage) (counts : List (BitVec 12 × Option Nat)) :
    Nat → BitVec 12 → List (BitVec 12) → List (BitVec 12) → WayMemo → Longest × WayMemo
  | 0, _, _, _, m => (⟨none, 0, false⟩, m)
  | fuel + 1, w, levels, seen, m =>
    if levels.head? = some w then (⟨some 0, 0, true⟩, m)
    else if w ∈ seen then (⟨none, 0, false⟩, m)
    else
      match m.find? (fun e => decide (e.1 = (w, levels))) with
      | some e => (e.2, m)
      | none =>
        let cost := 1 + (p.head w).delta
        let word := (bWord (p.ops w)).getD (0x1F * 2 ^ 27)
        let op := field word 31 27
        let go : BitVec 12 → List (BitVec 12) → WayMemo → Longest × WayMemo := fun v l m => p.ways counts fuel v l (w :: seen) m
        let on : Option (BitVec 12) → WayMemo → Longest × WayMemo := fun v m => match v with
          | some v => go v levels m
          | none => (⟨none, 0, true⟩, m)
        let r : Longest × WayMemo :=
          if (p.head w).y || decide (op ∈ [0x03, 0x06, 0x0C, 0x0D]) then (⟨none, 0, true⟩, m)
          else if op = 0x04 ∨ op = 0x05 then
            let callee : Longest × WayMemo := match (if op = 0x04 then p.landingAt (field word 20 9) else none) with
              | some v => go v [] m
              | none => (⟨none, 0, false⟩, m)
            let rest : Longest × WayMemo := match p.info.after w with
              | .word v => go v levels callee.2
              | _ => (⟨none, 0, true⟩, callee.2)
            (⟨(rest.1.later callee.1.ends).thru, callee.1.ends + rest.1.ends, callee.1.whole && rest.1.whole⟩, rest.2)
          else
            match (if op = 0x07 ∨ op = 0x08 then p.branch w else none), p.through w with
            | some e, some v =>
              let n := if op = 0x08 then some (field word 8 0) else ((counts.find? (fun c => decide (c.1 = w))).map Prod.snd).getD none
              let after := go e levels m
              if n = some 0 then after
              else
                let body := go v (e :: levels) after.2
                let r := body.1.turns after.1 (n.getD 1)
                (⟨r.thru, r.ends, r.whole && n.isSome⟩, body.2)
            | _, _ =>
              -- round a level that was entered before the way began
              let round : List (BitVec 12) := match p.through w with
                | some v => if levels.head? = some v then [] else (p.loops.filter (fun l => decide (l.1 = v))).map Prod.snd
                | none => []
              let x := round.foldl (fun (a : Longest × WayMemo) v => let b := go v levels a.2; (a.1.or b.1, b.2)) (on (p.through w) m)
              let y : Longest × WayMemo := match p.branch w with
                | none => (⟨none, 0, true⟩, x.2)
                | some v =>
                  if op = 0x09 then
                    let b := go v (levels.drop (field word 2 0)) x.2
                    (⟨none, max b.1.ends (b.1.thru.getD 0), b.1.whole && b.1.thru.isNone⟩, b.2)
                  else go v levels x.2
              (x.1.or y.1, y.2)
        let l := r.1.later cost
        (l, ((w, levels), l) :: r.2)

/-- The counts of a page's LOOP bundles, where every path to the bundle traces the same literal (R80). -/
def CodePage.counts (p : CodePage) : List (BitVec 12 × Option Nat) :=
  let l := (List.range p.info.landings.length).flatMap (fun i => match p.landingAt i with
    | some w => (Path.run p ⟨0, none⟩ 4096 (Path.at w true)).counts
    | none => [])
  l.map (fun c => (c.1, if l.all (fun d => decide (d.1 = c.1 → d.2 = c.2)) then c.2 else none))

/-- The run that a yield bundle needs, in cycles, as far as it is known (R80, R118). -/
def CodePage.needs (p : CodePage) (w : BitVec 12) : Nat :=
  match p.info.after w with
  | .word v => let l := (p.ways p.counts 4096 v [] [] []).1; max l.ends (l.thru.getD 0) - 1
  | _ => 0

/-- The yield bundles of a page. -/
def CodePage.yields (p : CodePage) : List (BitVec 12) := p.starts.filter (fun w => (p.head w).y)

/-! ### The image of a page (R370, R371, R375) -/

/-- The image's landing table keeps every ordinal and its kind; what is usable in the source is usable in the image, and nothing else
(R370). -/
def landingsKept (a b : CodePage) : Bool :=
  decide (a.info.landings.length = b.info.landings.length)
    && (List.range a.info.landings.length).all (fun i =>
        let x := a.info.landings.getD i 0
        let y := b.info.landings.getD i 0
        decide (field x 31 16 = field y 31 16) && decide (a.info.usable x = b.info.usable y))

/-- A vector slot widens. -/
def CodePage.widens (p : CodePage) : Bool :=
  p.starts.any (fun w => (p.ops w).any (fun o => decide (o.1 = .v ∧ (field o.2 63 58 = 0x14 ∨ field o.2 57 52 = 0x14 ∨ field o.2 51 46 = 0x14))))

/-- The loads of a page that can go over the canal. -/
def CodePage.loads (p : CodePage) : Nat := (p.starts.map (fun w => ((p.ops w).filter canLoadFar).length)).sum

/-- All that a page leaves open and its rewriting has to hold for: a widening with 2 parts and with 4; every load local, every one, or any
one of them, over the canal, with each number of hops that two tiles can be apart (R16, R171, R418). -/
def CodePage.givens (p : CodePage) : List Given :=
  let wides := if p.widens then List.range 8 else [0]
  let whichs : List (Option Nat) := if p.loads = 0 then [] else none :: (List.range p.loads).map some
  let fars := none :: whichs.flatMap (fun k => (List.range 48).map (fun h => some (k, h)))
  wides.flatMap (fun n => fars.map (fun f => ⟨n, f⟩))

/-- An image does what its source does along every path: its landings, its valid bundles and segments (R371, R375). -/
def corresponds (a b : CodePage) : Bool := landingsKept a b && b.valid && a.givens.all (pathsAgree a b)

/-- An image is its source's rewritten page: it does the same, and its stated runs hold (R370, R371, R375). -/
def rewrites (a b : CodePage) : Bool := corresponds a b && b.yields.all (fun w => decide (b.needs w ≤ 16 * (b.head w).run))

/-! ### Pages that are refused (R369) -/

/-- An operation that a G3 page can do without (R99, R259). -/
def deprecated (o : Slot × Nat) : Bool :=
  (decide (o.1 = .s0 ∨ o.1 = .s1) && decide (field o.2 31 26 = 0x38)) || (decide (o.1 = .m) && decide (0x3E ≤ field o.2 31 26))

/-- The bytes of a page if each of its bundles gets one more in front of it, and each deprecated operation the words of two: an image that
may be larger than four frames (R369, log 103). -/
def CodePage.grown (p : CodePage) : Nat :=
  64 + 4 * p.info.landings.length + (p.info.segs.map (fun g => 8 + g.len)).sum
    + (p.starts.map (fun w => 4 + 8 * ((p.ops w).filter deprecated).length)).sum

/-- The stretch of a page that begins at a word, followed along every way: an access of R375 stands behind an operation that G3 makes slower,
or, in an aligned span, a second segment. Each item is a bundle and whether such an operation stands before it. -/
def CodePage.spanRisk (p : CodePage) (seg : Nat) (tick : Bool) : Nat → List (BitVec 12 × Bool) → List (BitVec 12 × Bool) → Bool
  | 0, _, _ => false
  | _, [], _ => false
  | fuel + 1, (w, slow) :: todo, seen =>
    if (w, slow) ∈ seen then p.spanRisk seg tick fuel todo seen
    else
      let ops := p.ops w
      let b := ((bWord ops).map (fun b => field b 31 27)).getD 0x1F
      let left := decide (p.segAt w ≠ seg)
      if tick && left then p.spanRisk seg tick fuel todo ((w, slow) :: seen)
      else if left || (slow && ops.any timed) then true
      else
        let last := (p.head w).y || decide (b ∈ [0x03, 0x04, 0x05, 0x06, 0x0A, 0x0C, 0x0D]) || (tick && ops.any freezer)
        let next := if last then [] else (p.goesOn w).map (fun v => (v, slow || ops.any (slower p.tag)))
        p.spanRisk seg tick fuel (todo ++ next) ((w, slow) :: seen)

/-- SPAN_TIMING can be the answer to a page (R375, log 105). -/
def CodePage.mayLoseTiming (p : CodePage) : Bool :=
  p.starts.any (fun w =>
    let realn := ((bWord (p.ops w)).map (fun b => decide (field b 31 27 = 0x0A))).getD false
    (realn && p.spanRisk (p.segAt w) false 40000 ((p.goesOn w).map (fun v => (v, false))) [])
    || ((p.ordinals w).any (fun i => decide (field (p.info.landings.getD i 0) 17 16 = 2)) && p.spanRisk (p.segAt w) true 40000 [(w, false)] []))

end Sys2Proof.Machine
end

