-- ==== Sys2Proof/Machine/Lockkeeper.lean ====
section
/-! DEFINITION. The Lockkeeper: requests, installation of rewritten images, the translation cache, quiescence, revert and the
profile-guided pass (R364 to R383). The rewriting itself is firmware, whose result an event brings (R369, R370). -/

namespace Sys2Proof.Machine

/-! ### Requests (R366 to R369) -/

/-- A request slot as the Lockkeeper reads it. -/
structure LkRequest where
  at_ : Nat
  op : Nat
  done : Nat
  page : Word
  ptbase : Word
  job : BitVec 16
  conf : Nat
  reply : Nat
  good : Bool
  deriving DecidableEq, Repr

/-- The slot of a die's ring (R366, R367). -/
def State.lkRequest (s : State) (die slot : Nat) : LkRequest :=
  let a := s.cfg.heapBase + die * 0x2000 + 64 * slot
  let f : Nat → Nat → Nat := fun o n => s.rdHbm (a + o) n
  let page := BitVec.ofNat 64 (f 8 8)
  { at_ := a, op := f 0 1, done := f 4 4, page := page, ptbase := BitVec.ofNat 64 (f 0x10 8), job := BitVec.ofNat 16 (f 0x18 2),
    conf := f 0x1A 1, reply := f 0x20 8,
    good := decide (f 1 3 = 0 ∧ field (f 0x1A 1) 6 5 = 0 ∧ f 0x1B 5 = 0 ∧ f 0x28 24 = 0) && decide (wordOf page = 0)
      && handleOk page }

/-- A request is accepted: op returns to 0 (R367). -/
def State.lkAccept (s : State) (r : LkRequest) : State := s.wrHbm r.at_ 1 0

/-- The record of a Lockkeeper's completion: a clean one; its kind, flags, bytes moved and place are not stated (R302, R303, R408,
log 121). -/
def State.lkRecord (s : State) : Word × Word × Word :=
  (s.freeWord &&& 0x003000F8FFFFFFFF, s.drawn.freeWord &&& 0xE000FFFF003FFFFF, 0)

/-- A request completes: its reply, then its done counter gains 1, with the record of the completion (R368, R408). -/
def State.lkReply (s : State) (reply done status pass frames errata hash : Nat) : State :=
  let w := status % 256 + pass % 256 * 2 ^ 8 + frames % 256 * 2 ^ 16 + errata % 2 ^ 32 * 2 ^ 32
  let s := (s.wrHbm reply 8 w).wrHbm (reply + 8) 8 hash
  match refOf done with
  | some r => s.drawn.drawn.ctrDone r.1 r.2 s.lkRecord
  | none => s

/-! ### Sources and images (R370 to R375) -/

/-- SHA3-256 of the 4,096-byte source page as a fetch reads it, with the hash field of its header taken as zeros (R59, R373). -/
def srcHash (m : Table Byte) (frame : Nat) : BitVec 256 :=
  hashOf ((List.range 4096).map (fun i => if 0x20 ≤ i ∧ i < 0x30 then 0 else tget 0 m (frame + i)))

/-- The bytes of an image. -/
def imageBytes (g : Image) : List Byte := g.words.flatMap (fun w => (List.range 4).map (fun i => w.extractLsb' (8 * i) 8))

/-- Bytes as a memory that begins at 0; it is only read. -/
def bytesAt0 (l : List Byte) : Table Byte := (List.range l.length).zip l

/-- The image as a code page; none where its header is not valid. -/
def imagePage (g : Image) : Option CodePage := CodePage.read (bytesAt0 (imageBytes g)) 0

/-- The mask of the firmware that built an image, as its header has it (R370). -/
def imageErrata (g : Image) : BitVec 32 := BitVec.ofNat 32 (rdBytes (bytesAt0 (imageBytes g)) 0x10 4)

/-- Frames of an image. -/
def imageFrames (g : Image) : Nat := g.words.length / 1024

/-- An image as R370 to R375 have it for a source page: header, size, and what it does. -/
def imageOk (src : CodePage) (g : Image) (errata : BitVec 32) (hash : BitVec 128) : Bool :=
  match imagePage g with
  | none => false
  | some b =>
    decide (b.tag = 0x300 ∧ g.words.length = 1024 * b.info.frames ∧ rdBytes b.mem 0x10 4 = errata.toNat
      ∧ rdBytes b.mem 0x20 16 = hash.toNat) && rewrites src b

/-- An image of a page would be too large: more than four frames, as the page may grow; or a run above 65,520 cycles, as an image that does
what the page does shows. No image has more landings than its source, so that bound is never passed (R60, R369, R370, log 103). -/
def tooLarge (src : CodePage) (g : Image) : Bool :=
  decide (0x4000 < src.grown) || (match imagePage g with
    | some b => decide (b.tag = 0x300) && corresponds src b && b.yields.any (fun w => decide (65520 < b.needs w))
    | none => false)

/-! ### Installation, withdrawal and quiescence (R378 to R382) -/

/-- A page's leaf is what an installed page's record says: a valid leaf that maps the image (R369, R378). -/
def State.mapsImage (s : State) (i : Install) : Bool :=
  let e := s.rdHbm i.leaf 8
  pteV e && pteL e && decide (pteS e = 0) && pteX e && decide (pteFrame e = i.frame)

/-- An installed page goes back to its source: the leaf, the drop, and the image freed; a leaf that has been changed meanwhile is left
as it was found, and the answer is GONE. Each REVERT that waited for the page is answered (R369, R380). -/
def State.withdraw (s : State) (i : Install) : State :=
  let e := s.rdHbm i.leaf 8
  let there := s.mapsImage i
  let s := if there then (s.wrHbm i.leaf 8 (e - pteFrame e + i.source)).dropPage i.va else s
  let s := { s with installs := s.installs.filter (fun k => decide (k ≠ i)) }
  i.asked.foldl (fun (s : State) (a : Nat × Nat) => s.lkReply a.1 a.2 (if there then 0 else 7) 0 0 0 0) s

/-- The second image of a page takes the place of its first: it is written, the leaf maps it, and the page is dropped (R378, R381). Where
there is no room for it or the leaf has been changed, nothing is installed. -/
def State.putSecond (s : State) (i : Install) (img : Image) : State :=
  let drop : State := { s with installs := s.installs.map (fun (k : Install) => if k = i then { i with next := none } else k) }
  if s.mapsImage i = false then drop
  else
    match State.makeRoom (s.cache.length + 1) s img.frame (imageFrames img) with
    | none => drop
    | some (s, a) =>
      let s := s.writeImage a (imageBytes img) (if i.conf then some (s.xkey i.xslot i.job) else none)
      let j : Install := { i with
        frame := a, frames := imageFrames img, errata := imageErrata img, pass := 2, cached := false, next := none }
      let s := { s with installs := s.installs.map (fun (k : Install) => if k = i then j else k) }
      (s.writeLeaf ⟨s.rdHbm i.leaf 8, 4096, i.leaf⟩ a true).dropPage i.va

/-- The test at each task end in the package: of the quiescent pages, those that wait to be reverted go back, and those that have a
second image get it (R380 to R382); a confidential image whose job has ended is freed (R377), and where a REVERT waits for its page, the page goes back. -/
def State.quiesce (s : State) : State :=
  let s := s.installs.foldl (fun (s : State) (i : Install) =>
    if s.quiescent i then
      if i.revert then s.withdraw i
      else match i.next with
        | some img => s.putSecond i img
        | none => s
    else s) s
  let alive : BitVec 16 → Bool := fun j => s.tasks.any (fun t => decide (t.rec_.job = j)) || s.lqs.any (fun (e : Nat × LQueue) => decide (e.2.job = j))
  let s := (s.installs.filter (fun i => i.conf && i.revert && !alive i.job)).foldl State.withdraw s
  { s with installs := s.installs.filter (fun i => !i.conf || alive i.job) }

/-- An entry serves the running mask (R376). -/
def CacheEntry.serves (e : CacheEntry) (running : BitVec 32) : Bool := decide ((e.built ^^^ running) &&& e.relevance = 0)

/-- A cache hit (R376). -/
def State.cacheHit (s : State) (hash : BitVec 128) (tag : Nat) : Option CacheEntry :=
  s.cache.find? (fun e => decide (e.hash = hash ∧ e.tag.toNat = tag) && e.serves s.errata)

/-- A task that does not end now: it is halted for a cut or a rollback, or a bank of it is HELD (R316, R320, R332, log 118). -/
def State.stays (s : State) (t : Task) : Bool :=
  decide (t.st = .cut ∨ t.st = .rolled) || ((t.seqs.map tileOf).dedup).any (fun k =>
    (s.banksOfTask k t.id).any (fun b => ((s.tile k).bank b).held))

/-- TASK_END (R154): every member has halted; once its accesses have performed and its work has ended, everything is released
and the done counters are signalled, unless the task was ended by TEND (R347); then the Lockkeepers test their pages (R380). -/
def execTaskEnd (task : Nat) (s : State) : Out :=
  match s.task task with
  | none => .next s
  | some t =>
    if s.allDone t && !s.stays t then
      -- every member has halted, whatever pre-emption was asked for (R150)
      let s := if t.preempt.isSome then (s.modTask task (fun t => { t with preempt := none })).preqGo else s
      if s.busyTask t then .next (s.modTask task (fun t => { t with ending := true }))
      else
        let s := s.releaseTask t
        let s := if t.killed then s else (s.signal (recField t.rec_.bytes 0x18 4) 1).signal (recField t.rec_.bytes 0x1C 4) 1
        .next s.quiesce
    else .next s

/-- A task ends by a reset of the function: its chains, engines and members stop at once (R402). -/
def State.dropTask (s : State) (t : Task) : State :=
  let s := (s.chains.filter (fun c => decide (c.task = some t.id))).foldl State.resetChain s
  let s := t.members.foldl (fun s m => ((s.quitMember m).setNest m.1 none).setKat m.1 none) s
  let s := ((t.seqs.map tileOf).dedup).foldl (fun s k => match (s.tile k).vg with
    | some v => if v.task = t.id then s.setVg k none else s
    | none => s) s
  s.releaseTask t

/-- FUNCTION_LEVEL_RESET: every task, the launch queues, handle tables, key slots, IDE and TDISP state, and all pools; a snapshot
in progress is given up here and at every peer with reason 1. What is on its way to a pool gets there first, and the Lockkeepers test
their pages, for every task has ended (R377, R380, R402). -/
def execFunctionLevelReset (s : State) : Out :=
  let s := s.abortAll 1 [1]
  let s := s.accs.foldl State.performAcc s
  let s := s.tasks.foldl State.dropTask s
  let s : State := { s with
    lqs := [],
    ctxs := s.ctxs.map (fun (e : Nat × Ctx) => (e.1, { e.2 with handles := [] })),
    chains := s.chains.map (fun c => { c with slot := none }),
    gcm := [], xts := [], tdis := [], pool := [], poolGran := [],
    tiles := s.tiles.map (fun (e : Nat × Tile) => (e.1, { e.2 with slotTags := [], bands := [], regTags := [], regMarks := [] })) }
  .next s.quiesce

/-! ### The steps -/

/-- The install record of a request whose page gets an image (R378). -/
def LkRequest.record (r : LkRequest) (l : Leaf) (frame frames : Nat) (errata : BitVec 32) (pass : BitVec 8) (cached : Bool) : Install :=
  { va := r.page, leaf := l.at_, source := pteFrame l.pte, job := r.job, frame := frame, frames := frames, errata := errata, pass := pass,
    cached := cached, conf := pteC l.pte, xslot := r.conf % 32, revert := false, asked := [], next := none }

/-- A page gets an image that stands in the heap: the record, the leaf with W clear, the drop, the answer (R368, R378). -/
def State.install (s : State) (r : LkRequest) (l : Leaf) (i : Install) (hash : Nat) : State :=
  let s := ({ s with installs := s.installs ++ [i] }.writeLeaf l i.frame true).dropPage r.page
  s.lkReply r.reply r.done 0 i.pass.toNat i.frames i.errata.toNat hash

/-- TRANSLATE (R365 to R379): a Lockkeeper completes a request. Where the cache does not serve, `img` is what the firmware's template
pass has built, or why it has refused the page; what R370 to R375 do not allow of it completes nothing (log 103). -/
def execTranslate (die : Fin 4) (slot : BitVec 7) (img : Image) (s : State) : Out :=
  let r := s.lkRequest die.val slot.toNat
  if r.op = 0 ∨ (r.op = 2 ∧ r.good = true) then .next s
  else
    let t := s.lkAccept r
    let fail : Nat → Nat → Out := fun status hash => .next (t.lkReply r.reply r.done status 0 0 0 hash)
    if r.op ≠ 1 ∨ r.good = false then fail 8 0
    else
      match s.lkLeaf r.ptbase r.page with
      | none => fail 7 0
      | some l =>
        let src := pteFrame l.pte
        match s.installs.find? (fun i => decide (i.leaf = l.at_ ∧ i.frame = src)) with
        | some i => .next (t.lkReply r.reply r.done 1 i.pass.toNat i.frames i.errata.toNat 0)
        | none =>
          let key := if pteC l.pte then some (s.xkey (r.conf % 32) r.job) else none
          let m := s.pageView src 0x4000 key
          match CodePage.read m src with
          | none => fail 3 0
          | some page =>
            if page.tag = 0x300 then fail 1 0
            else if page.tag ≠ 0x100 ∧ page.tag ≠ 0x200 then fail 6 0
            else
              let hash := srcHash m src
              let h16 : BitVec 128 := hash.setWidth 128
              let h8 := hash.toNat % 2 ^ 64
              if rdBytes m (src + 0x20) 16 ≠ h16.toNat ∨ page.valid = false then fail 3 h8
              else
                match (if pteC l.pte then none else s.cacheHit h16 page.tag) with
                | some e =>
                  let t := { t with cache := t.cache.map (fun k => if k = e then { k with used := s.gclk } else k) }
                  .next (t.install r l (r.record l e.frame e.frames e.built e.pass true) h8)
                | none =>
                  if img.status = 4 then (if page.mayLoseTiming then fail 4 h8 else .next s)
                  else if img.status = 5 then (if tooLarge page img then fail 5 h8 else .next s)
                  else if img.status ≠ 0 ∨ imageOk page img s.errata h16 = false then .next s
                  else
                    match State.makeRoom (t.cache.length + 1) t img.frame (imageFrames img) with
                    | none => .next ((t.postD 0 .codeHeap r.page).lkReply r.reply r.done 2 0 0 0 h8)
                    | some (t, a) =>
                      let t := t.writeImage a (imageBytes img) key
                      let e : CacheEntry := ⟨h16, BitVec.ofNat 16 page.tag, s.errata, img.relevance, imageFrames img, 1, a, s.gclk⟩
                      let t := if pteC l.pte then t else { t with cache := t.cache ++ [e] }
                      .next (t.install r l (r.record l a (imageFrames img) s.errata 1 (!pteC l.pte)) h8)

/-- REVERT (R367, R380): at once where the page is quiescent, else at the first test that finds it so; of several for one page each is
answered then. The status for a page with no image is not stated (log 4). -/
def execRevert (die : Fin 4) (slot : BitVec 7) (s : State) : Out :=
  let r := s.lkRequest die.val slot.toNat
  if r.op ≠ 2 ∨ r.good = false then .next s
  else
    let t := s.lkAccept r
    match s.lkLeaf r.ptbase r.page with
    | none => .next (t.lkReply r.reply r.done 7 0 0 0 0)
    | some l =>
      match t.installs.find? (fun i => decide (i.leaf = l.at_ ∧ i.frame = pteFrame l.pte)) with
      | none => .next (t.drawn.lkReply r.reply r.done (t.freeWord.toNat % 9) 0 0 0 0)
      | some i =>
        let j := { i with revert := true, asked := i.asked ++ [(r.reply, r.done)] }
        let t := { t with installs := t.installs.map (fun k => if k = i then j else k) }
        .next (if t.quiescent j then t.withdraw j else t)

/-- The source page of an installed page, as its record names it (R378). -/
def State.sourcePage (s : State) (i : Install) : Option CodePage :=
  CodePage.read (s.pageView i.source 0x4000 (if i.conf then some (s.xkey i.xslot i.job) else none)) i.source

/-- The second image of an installed page is one that R370 to R375 allow. -/
def State.secondOk (s : State) (i : Install) (img : Image) : Bool :=
  match s.sourcePage i with
  | none => false
  | some a => decide (img.status = 0) && imageOk a img s.errata ((srcHash a.mem i.source).setWidth 128)

/-- PROFILE_GUIDED_INSTALL (R381): the pass has built a second image of the pages installed at an address; it waits there for the first
test that finds its page quiescent, which installs it. -/
def execProfileGuidedInstall (va : Word) (img : Image) (s : State) : Out :=
  .next { s with
    installs := s.installs.map (fun (i : Install) =>
      if i.va = va ∧ i.revert = false ∧ s.secondOk i img = true then { i with next := some img } else i) }

/-- The running errata mask changes: entries that fail the test are dropped, and pages installed from them revert at their first
quiescence (R382). -/
def State.newErrata (s : State) (mask : BitVec 32) : State :=
  let gone := s.cache.filter (fun e => !e.serves mask)
  { s with
    errata := mask, cache := s.cache.filter (fun e => e.serves mask),
    installs := s.installs.map (fun i =>
      if i.cached && gone.any (fun e => decide (e.frame = i.frame)) then { i with revert := true, cached := false } else i) }

end Sys2Proof.Machine
end

