-- ==== Sys2Proof/Machine/HostPort.lean ====
section
/-! DEFINITION. The host port and the management paths: BAR accesses, TDISP and key binding, SPDM and PLDM answers, firmware
update and activation (R134, R150, R260, R384 to R387, R395, R397, R398). -/

namespace Sys2Proof.Machine

/-- An answer goes out. -/
def State.answer (s : State) (r : Reply) : State := { s with replies := s.replies ++ [r] }

/-! ### BAR 0 (R384) -/

/-- A register of BAR 0 as the host reads it; other offsets read 0. -/
def State.barRead (s : State) (off : Nat) : Word :=
  if 0x10000 ≤ off ∧ off < 0x11000 then
    let l := s.lq ((off - 0x10000) / 0x40)
    match off % 0x40 with
    | 0x00 => l.base
    | 0x08 => l.ctl
    | 0x10 => l.stat
    | _ => 0
  else if off = 0x11000 then s.preq
  else if off = 0x12000 then s.telcfg
  else if off = 0x13000 then s.resetctl
  else 0

/-- A write of one register of BAR 0. -/
def State.barWrite (s : State) (off : Nat) (v : Word) : Out :=
  if 0x10000 ≤ off ∧ off < 0x11000 ∧ off % 0x40 = 0x08 then execLqctl (BitVec.ofNat 6 ((off - 0x10000) / 0x40)) v s
  else if 0x10000 ≤ off ∧ off < 0x11000 ∧ off % 0x40 = 0x18 then execLqdb (BitVec.ofNat 6 ((off - 0x10000) / 0x40)) s
  else if off = 0x11000 then execPreq v true s
  else execRegisterWrite (.bar (BitVec.ofNat 20 off)) v s

/-- A register's bytes with those that a write of part of it brings. -/
def mergeBytes (old : Word) (at_ off : Nat) (data : List Byte) : Word :=
  BitVec.ofNat 64 (((List.range 8).map (fun i =>
    let b := if off ≤ at_ + i ∧ at_ + i < off + data.length then (data.getD (at_ + i - off) 0).toNat
      else old.toNat / 256 ^ i % 256
    b * 256 ^ i)).sum)

/-- The aligned words that [off, off + n) touches. -/
def wordsOf (off n : Nat) : List Nat :=
  if n = 0 then [] else (List.range ((off + n - 1) / 8 - off / 8 + 1)).map (fun i => 8 * (off / 8 + i))

/-! ### Ownership (R385) -/

/-- The TDI in RUN that guards a frame. -/
def State.guard (s : State) (a : Nat) : Option (Nat × Tdi) :=
  s.tdis.find? (fun e => decide (e.2.state = 2 ∧ e.2.job.toNat = s.owner a))

/-- The frames that a range touches. -/
def framesOf (a n : Nat) : List Nat :=
  if n = 0 then [] else (List.range ((a + n - 1) / 4096 - a / 4096 + 1)).map (fun i => 4096 * (a / 4096 + i))

/-- A host access to HBM is refused (R385). -/
def State.hostRefused (s : State) (h : HostAcc) (n : Nat) : Bool :=
  (framesOf h.off n).any (fun a => decide (a < hbmBytes) && (match s.guard a with
    | some (_, d) => !(h.t && decide (h.stream = d.stream))
    | none => false))

/-! ### Accesses -/

/-- A host write to a pool of a job's task waits between the cut and the end of settle (R316), and where a bank is booked, reserved
or HELD (R256, R320). -/
def State.hostPoolWaits (s : State) (a n : Nat) : Bool :=
  let p := poolPlace (BitVec.ofNat 64 a)
  s.poolBusy p.1 p.2 n || (decide (s.snap.phase = 2) && (banksOf p.2 n).any (fun b => s.jobTasks.any (fun t =>
    decide (((s.tile p.1).bank b).owner = some t.id))))

/-- A host access stands in line behind those that wait. -/
def State.hostQueued (s : State) (o : HostOp) : State := { s with snap := { s.snap with hostWaiting := s.snap.hostWaiting ++ [o] } }

/-- A host write to memory takes place, or waits; for a HELD page its copy is asked for (R320, R322). -/
def State.hostPut (s : State) (h : HostAcc) (data : List Byte) : State :=
  let wait := s.hostQueued (.write h data)
  match h.bar.toNat with
  | 2 =>
    match s.heldAt h.off data.length with
    | some va => { wait with agenda := wait.agenda ++ [.held (BitVec.ofNat 64 va)] }
    | none => s.putHbm h.off (unmarked data)
  | 4 =>
    if 64 ≤ field h.off 27 22 ∨ data = [] then s
    else if s.hostPoolWaits h.off data.length then wait
    else s.putPool (poolPlace (BitVec.ofNat 64 h.off)).1 (poolPlace (BitVec.ofNat 64 h.off)).2 (unmarked data)
  | _ => s

/-- A read of a pool range meets a sealed bank: it completes as Unsupported Request (R299, log 97). -/
def State.hostSealed (s : State) (a n : Nat) : Bool :=
  let p := poolPlace (BitVec.ofNat 64 a)
  decide (field a 27 22 < 64) && (banksOf p.2 n).any (fun b => ((s.tile p.1).bank b).sealed.isSome)

/-- A host write takes place (R384, R385). -/
def State.hostWrites (s : State) (h : HostAcc) (data : List Byte) : Out :=
  match h.bar.toNat with
  | 0 =>
    ((wordsOf h.off data.length).filter (fun o => decide (o < 0x100000))).foldl (fun (o : Out) (a : Nat) => match o with
      | .next s => s.barWrite a (mergeBytes (s.barRead a) a h.off data)
      | o => o) (.next s)
  | 2 => .next (if s.hostRefused h data.length then s.answer .unsupported else s.hostPut h data)
  | 4 => .next (s.hostPut h data)
  | _ => .next (s.answer .unsupported)

/-- A host read takes place (R289, R384, R385): a poisoned granule completes with a poisoned TLP. -/
def State.hostReads (s : State) (h : HostAcc) (n : Nat) : State :=
  match h.bar.toNat with
  | 0 => s.answer (.read ((List.range n).map (fun i =>
      BitVec.ofNat 8 ((s.barRead ((h.off + i) / 8 * 8)).toNat / 256 ^ ((h.off + i) % 8)))) false)
  | 2 =>
    if s.hostRefused h n then s.answer .unsupported
    else
      let bytes := (List.range n).map (fun i => if h.off + i < hbmBytes then s.hbmByte (h.off + i) none else (0, false))
      s.answer (.read (bytes.map (fun b => BitVec.ofNat 8 b.1)) (bytes.any (fun b => b.2)))
  | 4 =>
    if s.hostSealed h.off n then s.answer .unsupported
    else
      let bytes := (List.range n).map (fun i =>
        let p := poolPlace (BitVec.ofNat 64 (h.off + i))
        if tileNo p.1 = 64 then (0, false)
        else ((tget 0 s.pool (poolKey p.1 p.2)).toNat, decide ((s.gran p.1 p.2).mark ≠ .clean)))
      s.answer (.read (bytes.map (fun b => BitVec.ofNat 8 b.1)) (bytes.any (fun b => b.2)))
  | _ => s.answer .unsupported

/-- A host access goes through the port: in order, so none goes past a write that waits (R136, R260, R384, log 106). -/
def State.hostAccess (s : State) (o : HostOp) : Out :=
  if s.snap.hostWaiting ≠ [] then .next (s.hostQueued o)
  else
    match o with
    | .write h data => s.hostWrites h data
    | .read h n => .next (s.hostReads h n)

/-- HOST_WRITE (R136, R260, R384, R385). -/
def execHostWrite (h : HostAcc) (data : List (BitVec 8)) (s : State) : Out :=
  ({ s with pcieIn := s.pcieIn + data.length } : State).hostAccess (.write h data)

/-- HOST_READ (R289, R384, R385). -/
def execHostRead (h : HostAcc) (n : Nat) (s : State) : Out :=
  ({ s with pcieOut := s.pcieOut + n } : State).hostAccess (.read h n)

/-- The host accesses that wait are tried again, in order. -/
def State.retryHost (s : State) : Out :=
  s.snap.hostWaiting.foldl (fun (o : Out) (a : HostOp) => match o with
    | .next s => s.hostAccess a
    | o => o) (.next { s with snap := { s.snap with hostWaiting := [] } })

/-! ### TDISP and keys (R385, R386) -/

/-- A TDI. -/
def State.tdi (s : State) (n : Nat) : Tdi := tget ⟨0, 0, 0⟩ s.tdis n

/-- A TDI's slots come free; a CDEC or CENC in progress on one of them has lost its key, whatever is bound there later (R386). -/
def State.unbind (s : State) (n : Nat) : State :=
  let lost : CopyF → Bool := fun f => decide ((tget ⟨0, 0, 0, none, 0⟩ s.gcm (f.aux.toNat % 32)).tdi = some n)
  { s with
    chains := s.chains.map (fun c => if c.crypt.any lost then { c with slot := none } else c),
    gcm := s.gcm.filter (fun (e : Nat × GcmSlot) => decide (e.2.tdi ≠ some n)),
    xts := s.xts.filter (fun (e : Nat × XtsSlot) => decide (e.2.tdi ≠ some n)) }

/-- TDISP_REQUEST (R385): lock, start, stop or error, as TDISP 1.0 lets a TDI move; one TDI for each job. -/
def execTdispRequest (tdi : Nat) (job : BitVec 16) (state : BitVec 2) (stream : Nat) (s : State) : Out :=
  let d := s.tdi tdi
  let taken := s.tdis.any (fun (e : Nat × Tdi) => decide (e.1 ≠ tdi ∧ e.2.job = job ∧ e.2.state ≠ 0))
  let ok := match d.state.toNat, state.toNat with
    | 0, 1 => !taken && decide (job ≠ 0 ∧ job ≠ 0xFFFF ∧ stream < 5)
    | 1, 2 => true
    | _, 0 => true
    | _, 3 => decide (d.state ≠ 0)
    | _, _ => false
  if ok then
    let s := if d.state = 2 then s.unbind tdi else s
    let d := if state = 1 then { d with job := job, stream := stream, state := state } else { d with state := state }
    .next ({ s with tdis := tput s.tdis tdi d }.answer .accepted)
  else .next (s.answer .refusedReq)

/-- TDI_LEAVE_RUN (R386): the TDI is stopped, and its slots are unbound. -/
def execTdiLeaveRun (tdi : Nat) (s : State) : Out :=
  if (s.tdi tdi).state = 2 then
    .next (({ s with tdis := tput s.tdis tdi { s.tdi tdi with state := 0 } }).unbind tdi)
  else .next s

/-- BIND_KEY (R386): refused for a slot of another TDI, or where the TDI has no secured session; it binds to the contexts of the
TDI's job that are confidential. -/
def execBindKey (f : BindF) (s : State) : Out :=
  let d := s.tdi f.tdi
  let i := f.slot.toNat
  let other : Option Nat → Bool := fun t => match t with
    | some t => decide (t ≠ f.tdi)
    | none => false
  if d.state = 0 ∨ d.state = 3 then .next (s.answer .refusedReq)
  else if f.xts then
    if other ((tget ⟨0, none, 0⟩ s.xts i).tdi) then .next (s.answer .refusedReq)
    else .next ({ s with xts := tput s.xts i ⟨f.key, some f.tdi, d.job⟩ }.answer .accepted)
  else if other ((tget ⟨0, 0, 0, none, 0⟩ s.gcm i).tdi) then .next (s.answer .refusedReq)
  else .next ({ s with gcm := tput s.gcm i ⟨f.key, f.nonce, 0, some f.tdi, d.job⟩ }.answer .accepted)

/-! ### Measurements and sensors (R387, R397) -/

/-- SPDM_REQUEST (R387): a measurement. What the flash holds comes from outside, and its digests are free (log 21); they go with the banks and the
record, whose own measurement reports its failure (R399). -/
def execSpdmRequest (index : BitVec 8) (s : State) : Out :=
  let digest : List Byte → List Byte := fun l => (sha3 (l.map (fun b => b.toNat))).map (fun b => BitVec.ofNat 8 b)
  match index.toNat with
  | 1 => .next (s.answer (.read (Config.digest 0 s.fwActive.content) false))
  | 2 => .next (s.answer (.read (Config.digest 0 s.fwInactive.content) false))
  | 3 => .next (s.answer (if s.cfg.good then .read (Config.digest 1 s.cfg.content) false else .read [] true))
  | 4 => .next (s.answer (.read (digest (wordBytes 4 s.errata.toNat)) false))
  | 5 => .next (s.answer (.read (digest (wordBytes 8 s.health.toNat)) false))
  | _ => .next (s.answer .refusedReq)

/-- PLDM_REQUEST (R395, R397): the reading of a sensor; temperatures and power are values from outside (log 4). TELCFG is reached by PLDM
too, under a number that is not stated (log 120). -/
def execPldmRequest (sensor : BitVec 16) (s : State) : Out :=
  let n := sensor.toNat
  if n = 0x0100 then .next (s.answer (.words [s.health]))
  else if 0x0200 ≤ n ∧ n ≤ 0x0203 then
    .next (s.answer (.words ((List.range 8).map (fun i => tget 0 s.telLast (8 * (n - 0x200) + i)))))
  else if (1 ≤ n ∧ n ≤ 4) ∨ n = 0x10 ∨ (0x20 ≤ n ∧ n ≤ 0x27) then .next (s.drawn.answer (.words [s.freeWord]))
  else if sensor = Config.pldmTelcfg then .next (s.answer (.words [s.telcfg]))
  else .next (s.answer .refusedReq)

/-! ### Firmware (R382, R398) -/

/-- The inactive bank is one that may take the place of the active one: signed, and of no lower version (R398). -/
def State.bankOk (s : State) : Bool := s.fwInactive.signed && decide (s.fwActive.version ≤ s.fwInactive.version)

/-- FIRMWARE_UPDATE (R398): the inactive bank is written, then verified; one whose signature fails or whose version is below the active
one is refused. -/
def execFirmwareUpdate (f : FwBank) (s : State) : Out :=
  let s := { s with fwInactive := f }
  .next (s.answer (if s.bankOk then .accepted else .refusedReq))

/-- The banks change places, and each service tile switches at its next scheduling boundary; a bank that is refused stays where it is
(R398). -/
def State.activate (s : State) : State :=
  if s.bankOk then { s with fwActive := s.fwInactive, fwInactive := s.fwActive, fwSwitch := [0, 1, 2, 3], fwPending := false }
  else { s with fwPending := false }.answer .refusedReq

/-- ACTIVATE_FIRMWARE (R398): it waits while a snapshot or rollback is in progress. -/
def execActivateFirmware (s : State) : Out :=
  if s.bankOk = true ∧ s.snap.busy = true then .next { s with fwPending := true } else .next s.activate

/-- A service tile is at a scheduling boundary: context 0 of neither sequencer has a delivery in progress (R398). -/
def State.atBoundary (s : State) (die : Nat) : Bool :=
  !(s.seq (serviceOf die)).serving && !(s.seq (serviceOf die + 1)).serving

/-- SERVICE_BANK_SWITCH (R382, R398): context 0 of both sequencers goes on at the new bank's entry, with PTBASE and TVEC from its
header; the running mask changes with the last of the four. -/
def execServiceBankSwitch (die : Fin 4) (s : State) : Out :=
  let d := die.val
  if d ∈ s.fwSwitch ∧ s.atBoundary d = true then
    let one : State → Nat → State := fun s x =>
      let s := s.modSeq x (fun q => if q.halt = .supfault then q else { q with
        active := some 0, halt := .run, tvec := s.fwActive.tvec, chamA := none, chamB := none, pages := [] })
      s.modCtx x 0 (fun k => { k with
        entry := some (s.fwActive.entry, 2), ptbase := s.fwActive.ptbase, countdown := none, waits := [], flights := [],
        loops := [], done := false })
    let s := one (one s (serviceOf d)) (serviceOf d + 1)
    let s := { s with fwSwitch := s.fwSwitch.filter (fun k => decide (k ≠ d)) }
    .next (if s.fwSwitch = [] then s.newErrata s.fwActive.errata else s)
  else .next s

end Sys2Proof.Machine
end

