-- ==== Sys2Proof/Machine/Scalar.lean ====
section
/-! DEFINITION. The S slot: the scalar class (R84 to R100). -/

namespace Sys2Proof.Machine

/-! ### Integer functions (R89 to R92) -/

/-- A shift count. -/
def shiftCount (b : Word) : Nat := b.toNat % 64

/-- Leading zero bits (R89). -/
def countLeading (a : Word) : Nat := if a = 0 then 64 else 63 - Nat.log2 a.toNat

/-- Trailing zero bits, looking at `n` more bits. -/
def countTrailing : Nat → Nat → Nat
  | 0, _ => 0
  | n + 1, a => if a % 2 = 1 then 0 else 1 + countTrailing n (a / 2)

/-- Set bits among the low `n`. -/
def countOnes : Nat → Nat → Nat
  | 0, _ => 0
  | n + 1, a => a % 2 + countOnes n (a / 2)

/-- The bytes in reverse order (R89). -/
def swapBytes (a : Word) : Word :=
  BitVec.ofNat 64 ((List.range 8).foldl (fun acc i => acc * 256 + a.toNat / 256 ^ i % 256) 0)

/-- Quotient and remainder (R90). -/
def divide (signed : Bool) (a b : Word) : Word × Word :=
  if b = 0 then (BitVec.allOnes 64, a)
  else if signed then
    if a = BitVec.intMin 64 ∧ b = BitVec.allOnes 64 then (a, 0)
    else (BitVec.ofInt 64 (a.toInt.tdiv b.toInt), BitVec.ofInt 64 (a.toInt.tmod b.toInt))
  else (BitVec.ofNat 64 (a.toNat / b.toNat), BitVec.ofNat 64 (a.toNat % b.toNat))

/-- The place and the width w' of a field descriptor (R92). -/
def descriptor (b : Word) : Nat × Nat :=
  let pos := field b.toNat 5 0
  let w := field b.toNat 12 6
  (pos, min (if w = 0 then 64 else min w 64) (64 - pos))

/-- The field of a descriptor (R92). -/
def fieldOf (a b : Word) : Nat :=
  let (pos, w) := descriptor b
  (a.toNat >>> pos) % 2 ^ w

/-- DEP's value (R92). -/
def deposit (old a b : Word) : Word :=
  let (pos, w) := descriptor b
  let m : Word := BitVec.ofNat 64 ((2 ^ w - 1) <<< pos)
  (old &&& ~~~m) ||| ((a <<< pos) &&& m)

/-! ### Moves and integer arithmetic -/

def execMov (a : SSrc) (d : SDest) (i : BitVec 9) (s : State) : Out := scalar1 s a (immS i) d 1 plain

def execAdd (a b : SSrc) (d : SDest) (i : BitVec 9) (s : State) : Out :=
  scalar2 s a b (immS i) d 1 (fun x y => plain (x + y))

def execSub (a b : SSrc) (d : SDest) (i : BitVec 9) (s : State) : Out :=
  scalar2 s a b (immS i) d 1 (fun x y => plain (x - y))

def execAddsh (a b : SSrc) (d : SDest) (sh : BitVec 3) (s : State) : Out :=
  scalar2 s a b 0 d 1 (fun x y => plain (x + (y <<< sh.toNat)))

def execMul (a b : SSrc) (d : SDest) (i : BitVec 9) (s : State) : Out :=
  scalar2 s a b (immS i) d 4 (fun x y => plain (x * y))

def execMulh (a b : SSrc) (d : SDest) (i : BitVec 9) (s : State) : Out :=
  scalar2 s a b (immS i) d 4 (fun x y => plain (BitVec.ofInt 64 (x.toInt * y.toInt / 2 ^ 64)))

def execMulhn (a b : SSrc) (d : SDest) (i : BitVec 9) (s : State) : Out :=
  scalar2 s a b (immZ i) d 4 (fun x y => plain (BitVec.ofNat 64 (x.toNat * y.toNat / 2 ^ 64)))

def execDiv (a b : SSrc) (d : SDest) (i : BitVec 9) (s : State) : Out :=
  scalar2 s a b (immS i) d 20 (fun x y => plain (divide true x y).1)

def execDivn (a b : SSrc) (d : SDest) (i : BitVec 9) (s : State) : Out :=
  scalar2 s a b (immZ i) d 20 (fun x y => plain (divide false x y).1)

def execRem (a b : SSrc) (d : SDest) (i : BitVec 9) (s : State) : Out :=
  scalar2 s a b (immS i) d 20 (fun x y => plain (divide true x y).2)

def execRemn (a b : SSrc) (d : SDest) (i : BitVec 9) (s : State) : Out :=
  scalar2 s a b (immZ i) d 20 (fun x y => plain (divide false x y).2)

/-! ### Logic and shifts -/

def execAnd (a b : SSrc) (d : SDest) (i : BitVec 9) (s : State) : Out :=
  scalar2 s a b (immZ i) d 1 (fun x y => plain (x &&& y))

def execOr (a b : SSrc) (d : SDest) (i : BitVec 9) (s : State) : Out :=
  scalar2 s a b (immZ i) d 1 (fun x y => plain (x ||| y))

def execXor (a b : SSrc) (d : SDest) (i : BitVec 9) (s : State) : Out :=
  scalar2 s a b (immZ i) d 1 (fun x y => plain (x ^^^ y))

def execAndn (a b : SSrc) (d : SDest) (i : BitVec 9) (s : State) : Out :=
  scalar2 s a b (immZ i) d 1 (fun x y => plain (x &&& ~~~y))

def execShl (a b : SSrc) (d : SDest) (i : BitVec 9) (s : State) : Out :=
  scalar2 s a b (immZ i) d 1 (fun x y => plain (x <<< shiftCount y))

def execShr (a b : SSrc) (d : SDest) (i : BitVec 9) (s : State) : Out :=
  scalar2 s a b (immZ i) d 1 (fun x y => plain (x >>> shiftCount y))

def execSar (a b : SSrc) (d : SDest) (i : BitVec 9) (s : State) : Out :=
  scalar2 s a b (immZ i) d 1 (fun x y => plain (x.sshiftRight (shiftCount y)))

def execRol (a b : SSrc) (d : SDest) (i : BitVec 9) (s : State) : Out :=
  scalar2 s a b (immZ i) d 1 (fun x y => plain (x.rotateLeft (shiftCount y)))

/-! ### Lesser, greater, comparisons, selection -/

def execMin (a b : SSrc) (d : SDest) (i : BitVec 9) (s : State) : Out :=
  scalar2 s a b (immS i) d 1 (fun x y => plain (if x.slt y then x else y))

def execMax (a b : SSrc) (d : SDest) (i : BitVec 9) (s : State) : Out :=
  scalar2 s a b (immS i) d 1 (fun x y => plain (if x.slt y then y else x))

def execMinn (a b : SSrc) (d : SDest) (i : BitVec 9) (s : State) : Out :=
  scalar2 s a b (immZ i) d 1 (fun x y => plain (if x.ult y then x else y))

def execMaxn (a b : SSrc) (d : SDest) (i : BitVec 9) (s : State) : Out :=
  scalar2 s a b (immZ i) d 1 (fun x y => plain (if x.ult y then y else x))

def execSeq (a b : SSrc) (d : SDest) (i : BitVec 9) (s : State) : Out :=
  scalar2 s a b (immS i) d 1 (fun x y => plain (ofBool (x == y)))

def execSne (a b : SSrc) (d : SDest) (i : BitVec 9) (s : State) : Out :=
  scalar2 s a b (immS i) d 1 (fun x y => plain (ofBool (x != y)))

def execSlt (a b : SSrc) (d : SDest) (i : BitVec 9) (s : State) : Out :=
  scalar2 s a b (immS i) d 1 (fun x y => plain (ofBool (x.slt y)))

def execSltn (a b : SSrc) (d : SDest) (i : BitVec 9) (s : State) : Out :=
  scalar2 s a b (immZ i) d 1 (fun x y => plain (ofBool (x.ult y)))

def execSle (a b : SSrc) (d : SDest) (i : BitVec 9) (s : State) : Out :=
  scalar2 s a b (immS i) d 1 (fun x y => plain (ofBool (x.sle y)))

def execSlen (a b : SSrc) (d : SDest) (i : BitVec 9) (s : State) : Out :=
  scalar2 s a b (immZ i) d 1 (fun x y => plain (ofBool (x.ule y)))

/-- SEL (R91): its immediate is imm9, which holds the condition's specifier. -/
def execSel (a b : SSrc) (d : SDest) (c : SSrc) (s : State) : Out :=
  let imm : Word := BitVec.ofNat 64 (encSSrc c)
  let v := if s.valS c ≠ 0 then (s.rdS a imm).val else (s.rdS b imm).val
  .next ((((s.useS a).useS b).useS c).landS d v 1 Flags.none)

/-! ### Bits and fields -/

def execClz (a : SSrc) (d : SDest) (s : State) : Out :=
  scalar1 s a 0 d 1 (fun x => plain (BitVec.ofNat 64 (countLeading x)))

def execCtz (a : SSrc) (d : SDest) (s : State) : Out :=
  scalar1 s a 0 d 1 (fun x => plain (BitVec.ofNat 64 (countTrailing 64 x.toNat)))

def execPopc (a : SSrc) (d : SDest) (s : State) : Out :=
  scalar1 s a 0 d 1 (fun x => plain (BitVec.ofNat 64 (countOnes 64 x.toNat)))

def execExt (a b : SSrc) (d : SDest) (i : BitVec 9) (s : State) : Out :=
  scalar2 s a b (immZ i) d 1 (fun x y => plain (sextTo64 (descriptor y).2 (fieldOf x y)))

def execExtn (a b : SSrc) (d : SDest) (i : BitVec 9) (s : State) : Out :=
  scalar2 s a b (immZ i) d 1 (fun x y => plain (BitVec.ofNat 64 (fieldOf x y)))

/-- The old value of a destination keep, read like a source (R92). -/
def State.destOld (s : State) (d : SDest) : SVal :=
  match d with
  | .queue => SVal.zero
  | .keep n => s.rdS (.k n) 0

def execDep (a b : SSrc) (d : SDest) (i : BitVec 9) (s : State) : Out :=
  let old := s.destOld d
  scalar2 (s.useMark old.mark (encSDest d)) a b (immZ i) d 1 (fun x y => plain (deposit old.val x y))

def execBswap (a : SSrc) (d : SDest) (s : State) : Out := scalar1 s a 0 d 1 (fun x => plain (swapBytes x))

/-! ### Floating point (R93 to R96) -/

def execFadd (a b : SSrc) (d : SDest) (w : Bool) (s : State) : Out :=
  scalar2 s a b 0 d 4 (fun x y => floatRes ((fmtW w).add x.toNat y.toNat))

def execFsub (a b : SSrc) (d : SDest) (w : Bool) (s : State) : Out :=
  scalar2 s a b 0 d 4 (fun x y => floatRes ((fmtW w).sub x.toNat y.toNat))

def execFmul (a b : SSrc) (d : SDest) (w : Bool) (s : State) : Out :=
  scalar2 s a b 0 d 4 (fun x y => floatRes ((fmtW w).mul x.toNat y.toNat))

def execFdiv (a b : SSrc) (d : SDest) (w : Bool) (s : State) : Out :=
  scalar2 s a b 0 d 16 (fun x y => floatRes ((fmtW w).div x.toNat y.toNat))

def execFmin (a b : SSrc) (d : SDest) (w : Bool) (s : State) : Out :=
  scalar2 s a b 0 d 4 (fun x y => floatRes ((fmtW w).minmax false x.toNat y.toNat))

def execFmax (a b : SSrc) (d : SDest) (w : Bool) (s : State) : Out :=
  scalar2 s a b 0 d 4 (fun x y => floatRes ((fmtW w).minmax true x.toNat y.toNat))

def execFcmp (a b : SSrc) (d : SDest) (w : Bool) (c : FCond) (s : State) : Out :=
  scalar2 s a b 0 d 4 (fun x y =>
    let r := (fmtW w).cmp c x.toNat y.toNat
    (ofBool r.1, r.2))

/-- FCVT's value (R95). -/
def convertS (w : Bool) (kd : FKind) (x : Word) : Nat × Flags :=
  let f := fmtW w
  match kd with
  | .toS64 => toInt true 64 (f.decode x.toNat)
  | .toN64 => toInt false 64 (f.decode x.toNat)
  | .ofS64 => f.convert (FV.ofInt x.toInt 0)
  | .ofN64 => f.convert (FV.ofInt x.toNat 0)
  | .other => (fmtW (!w)).convert (f.decode x.toNat)

def execFcvt (a : SSrc) (d : SDest) (w : Bool) (kd : FKind) (s : State) : Out :=
  scalar1 s a 0 d 4 (fun x => floatRes (convertS w kd x))

def execFsqrt (a : SSrc) (d : SDest) (w : Bool) (s : State) : Out :=
  scalar1 s a 0 d 16 (fun x => floatRes ((fmtW w).sqrt x.toNat))

/-! ### Code handles and MADD -/

/-- CHDL (R97): a handle of the bundle's page, the ordinal unchecked. -/
def execChdl (a : SSrc) (d : SDest) (o : BitVec 9) (s : State) : Out :=
  scalar1 s a 0 d 1 (fun x => plain (mkHandle (pageOf s.bundle.pos) (x.setWidth 12 + o.setWidth 12)))

/-- MADD (R99): a microcoded bundle. Micro-step 0 forms the product in an internal temporary; the sum is there from micro-step 1,
which reads it (R100). -/
def execMadd (a b : SSrc) (d : SDest) (c : SSrc) (s : State) : Out :=
  let u := ((s.useS a).useS b).useS c
  let t : Temp := ⟨s.fresh, ⟨s.valS a * s.valS b, .clean⟩, s.valS c⟩
  let u := u.fly { s.flight 5 with vals := [SVal.zero], keep := destKeep d, ready := false }
  .next { u with bundle := { u.bundle with
    micro := true, temps := u.bundle.temps ++ [t] } }

end Sys2Proof.Machine
end

