-- ==== Sys2Proof/Machine/Xfer.lean ====
section
/-! DEFINITION. The X slot and the C slot: transfers between the clusters, literals, shadow writes and predicates (R98, R166,
R176 to R178, R196, R199, R210 to R212, R228). -/

namespace Sys2Proof.Machine

/-! ### Scalar to vector (R176) -/

/-- XBC: every element holds the low bits of a; xb takes the value at the landing. -/
def execXbc (a : SSrc) (t : Tag) (s : State) : Out :=
  let v : Vec := ⟨t, splat t ((s.valS a).toNat % 2 ^ esz t), .clean⟩
  .next ((s.useS a).landV .queue [v] 3 Flags.none true)

/-- XINS: bytes 8g to 8g + 7 of vq0 replaced. -/
def execXins (a : SSrc) (g : BitVec 6) (s : State) : Out :=
  let v := s.rdV (.vq 0)
  let w := unpack 64 v.bits 64
  let out : Vec := ⟨if v.tag = tVOID then tS64 else v.tag, vecOf 64 (w.set g.toNat (s.valS a).toNat), .clean⟩
  .next (((s.useS a).useV (.vq 0)).landV .queue [out] 3 Flags.none false)

/-! ### Vector to scalar (R177) -/

/-- An element as XEXT returns it. -/
def elemScalar (t : Tag) (c : Nat) : Word :=
  if tagSigned t then sextTo64 (esz t) c else BitVec.ofNat 64 (c % 2 ^ esz t)

/-- XEXT. -/
def execXext (v : VSrc) (e : BitVec 4) (s : State) : Out :=
  let u := s.useV v
  let x := s.rdV v
  if x.tag = tVOID then .next (u.find 3 .fmtVoid (fmtTval 0 0 0))
  else .next (u.landS .queue (elemScalar x.tag (elemAt (esz x.tag) x.bits e.toNat)) 3 Flags.none)

/-- XSUM and XMAX: the tree of R168; every step's flags count. -/
def xTree (s : State) (v : VSrc) (f : Tag → Nat → Nat → Nat × Flags) : Out :=
  let u := s.useV v
  let x := s.rdV v
  match tags1 0 x accFI with
  | some e => .next (u.find 3 e.1 e.2)
  | none =>
    let r := tree f x
    .next (u.landS .queue (elemScalar x.tag r.1) 3 r.2)

def execXsum (v : VSrc) (s : State) : Out := xTree s v addElem

def execXmax (v : VSrc) (s : State) : Out := xTree s v (minmaxElem true)

/-- XMSK: bit 31 of 64 lanes. -/
def execXmsk (v : VSrc) (h : Bool) (s : State) : Out :=
  let u := s.useV v
  let x := s.rdV v
  if x.tag = tVOID then .next (u.find 3 .fmtVoid (fmtTval 0 0 0))
  else
    let bits := (List.range 64).map (fun j => elemAt 32 x.bits (64 * h.toNat + j) / 2 ^ 31)
    .next (u.landS .queue (BitVec.ofNat 64 (packElems 1 bits)) 3 Flags.none)

/-! ### The C slot -/

/-- LIT (R98). -/
def execLit (l : BitVec 24) (s : State) : Out := .next (s.landS .queue (l.signExtend 64) 1 Flags.none)

/-- LITH (R98). -/
def execLith (l : BitVec 24) (s : State) : Out :=
  .next ((s.useS (.q 0)).landS .queue ((s.valS (.q 0) <<< 24) ||| l.setWidth 64) 1 Flags.none)

/-- SCLSET with an immediate code (R199). -/
def execSclset (e : BitVec 4) (code : BitVec 8) (s : State) : Out := .next (s.stage 1 (.scl s.ix s.ic e code))

/-- SCLSET with a source (R199). -/
def execSclsetSource (e : BitVec 4) (a : SSrc) (s : State) : Out :=
  .next ((s.useS a).stage 1 (.scl s.ix s.ic e ((s.valS a).setWidth 8)))

/-- NSET with an immediate (R210). -/
def execNset (l : BitVec 3) (f : BitVec 2) (v : BitVec 20) (s : State) : Out := .next (s.stage 1 (.nest s.ix s.ic l f v))

/-- NSET with a source (R210). -/
def execNsetSource (l : BitVec 3) (f : BitVec 2) (a : SSrc) (s : State) : Out :=
  .next ((s.useS a).stage 1 (.nest s.ix s.ic l f ((s.valS a).setWidth 20)))

/-- MXCFG sub 0 (R211). -/
def execMxcfgFmt (fa fb : BitVec 4) (g : Bool) (s : State) : Out := .next (s.stage 1 (.mxFmt s.ix s.ic fa fb g))

/-- MXCFG sub 1 (R211). -/
def execMxcfgPa (p : BitVec 13) (s : State) : Out := .next (s.stage 1 (.mxPa s.ix s.ic p))

/-- MXCFG sub 2 (R211). -/
def execMxcfgPb (p : BitVec 13) (s : State) : Out := .next (s.stage 1 (.mxPb s.ix s.ic p))

/-- VTAG (R196): a relabelling lands in the next cycle and pushes nothing. -/
def execVtag (r : BitVec 7) (t : Tag) (s : State) : Out :=
  if (s.wreg s.ix s.ic r.toNat).tag = tVOID then .next (s.find 3 .fmtVoid (BitVec.ofNat 64 (encVSrc (.w r))))
  else .next (s.fly { s.flight 1 with vtag := some (r, t) })

/-- A nest or known-answer run of the issuing task was active on the tile as the cycle began (R7, R212). -/
def State.taskEngine (s : State) : Bool :=
  let r := s.tile (tileOf s.ix)
  let t := s.icx.task
  t.isSome && ([r.nestA, r.nestB].any (fun z => match z with
        | some z => decide (z.issued ≠ s.gclk ∧ some z.task = t)
        | none => false)
    || [r.katA, r.katB].any (fun k => match k with
        | some k => decide (k.issued ≠ s.gclk ∧ (s.ctx k.seq k.ctx).task = t)
        | none => false))

/-- TMODE (R212). -/
def execTmode (m : BitVec 2) (s : State) : Out :=
  if s.taskEngine then .next (s.find 3 .mxeBusy 1) else .next (s.stage 1 (.tmode s.ix s.ic m))

/-- KATK (R228). -/
def execKatk (v : BitVec 24) (s : State) : Out := .next (s.stage 1 (.katExp s.ix s.ic v))

/-- PSET's new value (R166). -/
def psetValue (m : BitVec 3) (pa pb : BitVec 128) (n : BitVec 8) : BitVec 128 :=
  match m.toNat with
  | 1 => BitVec.ofNat 128 (2 ^ n.toNat - 1)
  | 2 => ~~~pa
  | 3 => pa &&& pb
  | 4 => pa ||| pb
  | 5 => pa &&& ~~~pb
  | 6 => pa ^^^ pb
  | _ => 0

/-- PSET (R166). -/
def execPset (d m pa pb : BitVec 3) (n : BitVec 8) (s : State) : Out :=
  let v := psetValue m (tget 0 s.icx.preds pa.toNat) (tget 0 s.icx.preds pb.toNat) n
  .next (s.fly { s.flight 1 with pred := some (d, v) })

end Sys2Proof.Machine
end

