-- ==== Sys2Proof/Machine/Dispatch.lean ====
section
/-! DEFINITION. What every step of the opcode table does: one arm per constructor of Instr, one meaning per arm. -/

namespace Sys2Proof.Machine

/-- What a step of the opcode table does at a state. -/
def exec (i : Instr) (s : State) : Host.Outcome State Fault Refusal :=
  match i with
  | .mov a d imm => Sys2Proof.Machine.execMov a d imm s
  | .add a b d imm => Sys2Proof.Machine.execAdd a b d imm s
  | .sub a b d imm => Sys2Proof.Machine.execSub a b d imm s
  | .addsh a b d sh => Sys2Proof.Machine.execAddsh a b d sh s
  | .mul a b d imm => Sys2Proof.Machine.execMul a b d imm s
  | .mulh a b d imm => Sys2Proof.Machine.execMulh a b d imm s
  | .mulhn a b d imm => Sys2Proof.Machine.execMulhn a b d imm s
  | .div a b d imm => Sys2Proof.Machine.execDiv a b d imm s
  | .divn a b d imm => Sys2Proof.Machine.execDivn a b d imm s
  | .rem a b d imm => Sys2Proof.Machine.execRem a b d imm s
  | .remn a b d imm => Sys2Proof.Machine.execRemn a b d imm s
  | .and a b d imm => Sys2Proof.Machine.execAnd a b d imm s
  | .or a b d imm => Sys2Proof.Machine.execOr a b d imm s
  | .xor a b d imm => Sys2Proof.Machine.execXor a b d imm s
  | .andn a b d imm => Sys2Proof.Machine.execAndn a b d imm s
  | .shl a b d imm => Sys2Proof.Machine.execShl a b d imm s
  | .shr a b d imm => Sys2Proof.Machine.execShr a b d imm s
  | .sar a b d imm => Sys2Proof.Machine.execSar a b d imm s
  | .rol a b d imm => Sys2Proof.Machine.execRol a b d imm s
  | .min a b d imm => Sys2Proof.Machine.execMin a b d imm s
  | .max a b d imm => Sys2Proof.Machine.execMax a b d imm s
  | .minn a b d imm => Sys2Proof.Machine.execMinn a b d imm s
  | .maxn a b d imm => Sys2Proof.Machine.execMaxn a b d imm s
  | .seq a b d imm => Sys2Proof.Machine.execSeq a b d imm s
  | .sne a b d imm => Sys2Proof.Machine.execSne a b d imm s
  | .slt a b d imm => Sys2Proof.Machine.execSlt a b d imm s
  | .sltn a b d imm => Sys2Proof.Machine.execSltn a b d imm s
  | .sle a b d imm => Sys2Proof.Machine.execSle a b d imm s
  | .slen a b d imm => Sys2Proof.Machine.execSlen a b d imm s
  | .sel a b d c => Sys2Proof.Machine.execSel a b d c s
  | .clz a d => Sys2Proof.Machine.execClz a d s
  | .ctz a d => Sys2Proof.Machine.execCtz a d s
  | .popc a d => Sys2Proof.Machine.execPopc a d s
  | .ext a b d imm => Sys2Proof.Machine.execExt a b d imm s
  | .extn a b d imm => Sys2Proof.Machine.execExtn a b d imm s
  | .dep a b d imm => Sys2Proof.Machine.execDep a b d imm s
  | .bswap a d => Sys2Proof.Machine.execBswap a d s
  | .fadd a b d w => Sys2Proof.Machine.execFadd a b d w s
  | .fsub a b d w => Sys2Proof.Machine.execFsub a b d w s
  | .fmul a b d w => Sys2Proof.Machine.execFmul a b d w s
  | .fdiv a b d w => Sys2Proof.Machine.execFdiv a b d w s
  | .fmin a b d w => Sys2Proof.Machine.execFmin a b d w s
  | .fmax a b d w => Sys2Proof.Machine.execFmax a b d w s
  | .fcmp a b d w c => Sys2Proof.Machine.execFcmp a b d w c s
  | .fcvt a d w kd => Sys2Proof.Machine.execFcvt a d w kd s
  | .fsqrt a d w => Sys2Proof.Machine.execFsqrt a d w s
  | .chdl a d o => Sys2Proof.Machine.execChdl a d o s
  | .madd a b d c => Sys2Proof.Machine.execMadd a b d c s
  | .lit l => Sys2Proof.Machine.execLit l s
  | .lith l => Sys2Proof.Machine.execLith l s
  | .sclset e code => Sys2Proof.Machine.execSclset e code s
  | .sclsetSource e src => Sys2Proof.Machine.execSclsetSource e src s
  | .nset level fld v => Sys2Proof.Machine.execNset level fld v s
  | .nsetSource level fld src => Sys2Proof.Machine.execNsetSource level fld src s
  | .mxcfgFmt fa fb g => Sys2Proof.Machine.execMxcfgFmt fa fb g s
  | .mxcfgPa p => Sys2Proof.Machine.execMxcfgPa p s
  | .mxcfgPb p => Sys2Proof.Machine.execMxcfgPb p s
  | .vtag r t => Sys2Proof.Machine.execVtag r t s
  | .tmode m => Sys2Proof.Machine.execTmode m s
  | .katk v => Sys2Proof.Machine.execKatk v s
  | .pset d m pa pb n => Sys2Proof.Machine.execPset d m pa pb n s
  | .br o => Sys2Proof.Machine.execBr o s
  | .brz src o => Sys2Proof.Machine.execBrz src o s
  | .brnz src o => Sys2Proof.Machine.execBrnz src o s
  | .brx src => Sys2Proof.Machine.execBrx src s
  | .call o => Sys2Proof.Machine.execCall o s
  | .callx src => Sys2Proof.Machine.execCallx src s
  | .ret src => Sys2Proof.Machine.execRet src s
  | .loop src e => Sys2Proof.Machine.execLoop src e s
  | .loopi n e => Sys2Proof.Machine.execLoopi n e s
  | .leave src o n => Sys2Proof.Machine.execLeave src o n s
  | .realn m => Sys2Proof.Machine.execRealn m s
  | .trap src code => Sys2Proof.Machine.execTrap src code s
  | .eret => Sys2Proof.Machine.execEret s
  | .texit => Sys2Proof.Machine.execTexit s
  | .brk code => Sys2Proof.Machine.execBrk code s
  | .ldb a d o => Sys2Proof.Machine.execLdb a d o s
  | .ldbn a d o => Sys2Proof.Machine.execLdbn a d o s
  | .ldh a d o => Sys2Proof.Machine.execLdh a d o s
  | .ldhn a d o => Sys2Proof.Machine.execLdhn a d o s
  | .ldw a d o => Sys2Proof.Machine.execLdw a d o s
  | .ldwn a d o => Sys2Proof.Machine.execLdwn a d o s
  | .ldd a d o => Sys2Proof.Machine.execLdd a d o s
  | .stb a src o => Sys2Proof.Machine.execStb a src o s
  | .sth a src o => Sys2Proof.Machine.execSth a src o s
  | .stw a src o => Sys2Proof.Machine.execStw a src o s
  | .std a src o => Sys2Proof.Machine.execStd a src o s
  | .ldv a d t o => Sys2Proof.Machine.execLdv a d t o s
  | .stv a v o => Sys2Proof.Machine.execStv a v o s
  | .stvm a v p o => Sys2Proof.Machine.execStvm a v p o s
  | .ldvs a d t k => Sys2Proof.Machine.execLdvs a d t k s
  | .stvs a v k => Sys2Proof.Machine.execStvs a v k s
  | .lda a d o => Sys2Proof.Machine.execLda a d o s
  | .sta a v o => Sys2Proof.Machine.execSta a v o s
  | .staa a v o => Sys2Proof.Machine.execStaa a v o s
  | .ldpair a o => Sys2Proof.Machine.execLdpair a o s
  | .stpair a src o => Sys2Proof.Machine.execStpair a src o s
  | .xbc a t => Sys2Proof.Machine.execXbc a t s
  | .xins a g => Sys2Proof.Machine.execXins a g s
  | .xext v e => Sys2Proof.Machine.execXext v e s
  | .xsum v => Sys2Proof.Machine.execXsum v s
  | .xmax v => Sys2Proof.Machine.execXmax v s
  | .xmsk v h => Sys2Proof.Machine.execXmsk v h s
  | .pass u => Sys2Proof.Machine.execPass u s
  | .vadd u y => Sys2Proof.Machine.execVadd u y s
  | .vsub u y => Sys2Proof.Machine.execVsub u y s
  | .vrsub u y => Sys2Proof.Machine.execVrsub u y s
  | .vmul u y => Sys2Proof.Machine.execVmul u y s
  | .vmin u y => Sys2Proof.Machine.execVmin u y s
  | .vmax u y => Sys2Proof.Machine.execVmax u y s
  | .vabs u => Sys2Proof.Machine.execVabs u s
  | .vneg u => Sys2Proof.Machine.execVneg u s
  | .vand u y => Sys2Proof.Machine.execVand u y s
  | .vor u y => Sys2Proof.Machine.execVor u y s
  | .vxor u y => Sys2Proof.Machine.execVxor u y s
  | .vshl u y => Sys2Proof.Machine.execVshl u y s
  | .vshr u y => Sys2Proof.Machine.execVshr u y s
  | .vsar u y => Sys2Proof.Machine.execVsar u y s
  | .vceq u y => Sys2Proof.Machine.execVceq u y s
  | .vclt u y => Sys2Proof.Machine.execVclt u y s
  | .vcle u y => Sys2Proof.Machine.execVcle u y s
  | .vsel u y => Sys2Proof.Machine.execVsel u y s
  | .vcvt u t => Sys2Proof.Machine.execVcvt u t s
  | .vwid u t => Sys2Proof.Machine.execVwid u t s
  | .vnar u t p => Sys2Proof.Machine.execVnar u t p s
  | .vperm u y => Sys2Proof.Machine.execVperm u y s
  | .vrot u y => Sys2Proof.Machine.execVrot u y s
  | .vbcast u y => Sys2Proof.Machine.execVbcast u y s
  | .vradd u => Sys2Proof.Machine.execVradd u s
  | .vrmax u => Sys2Proof.Machine.execVrmax u s
  | .vrmin u => Sys2Proof.Machine.execVrmin u s
  | .vscan u => Sys2Proof.Machine.execVscan u s
  | .vidx u y => Sys2Proof.Machine.execVidx u y s
  | .vrcp u => Sys2Proof.Machine.execVrcp u s
  | .vrsq u => Sys2Proof.Machine.execVrsq u s
  | .vexp2 u => Sys2Proof.Machine.execVexp2 u s
  | .vlog2 u => Sys2Proof.Machine.execVlog2 u s
  | .vtanh u => Sys2Proof.Machine.execVtanh u s
  | .vsigm u => Sys2Proof.Machine.execVsigm u s
  | .vsqrt u => Sys2Proof.Machine.execVsqrt u s
  | .vscale u y => Sys2Proof.Machine.execVscale u y s
  | .vscidx u y => Sys2Proof.Machine.execVscidx u y s
  | .vadds u y => Sys2Proof.Machine.execVadds u y s
  | .vsubs u y => Sys2Proof.Machine.execVsubs u y s
  | .vmulh u y => Sys2Proof.Machine.execVmulh u y s
  | .vmulhn u y => Sys2Proof.Machine.execVmulhn u y s
  | .mxgo f => Sys2Proof.Machine.execMxgo f s
  | .mxstop => Sys2Proof.Machine.execMxstop s
  | .acalloc n src => Sys2Proof.Machine.execAcalloc n src s
  | .acfree src => Sys2Proof.Machine.execAcfree src s
  | .acband f => Sys2Proof.Machine.execAcband f s
  | .aczero a fmt n => Sys2Proof.Machine.execAczero a fmt n s
  | .vgtab a => Sys2Proof.Machine.execVgtab a s
  | .vggo f => Sys2Proof.Machine.execVggo f s
  | .vgstop => Sys2Proof.Machine.execVgstop s
  | .cpgo h ctr => Sys2Proof.Machine.execCpgo h ctr s
  | .cpstop ctr => Sys2Proof.Machine.execCpstop ctr s
  | .cwait ctr x => Sys2Proof.Machine.execCwait ctr x s
  | .cadd ctr x => Sys2Proof.Machine.execCadd ctr x s
  | .cset ctr x empty => Sys2Proof.Machine.execCset ctr x empty s
  | .crd ctr sel => Sys2Proof.Machine.execCrd ctr sel s
  | .rbind h f e base n => Sys2Proof.Machine.execRbind h f e base n s
  | .rwaitf h k => Sys2Proof.Machine.execRwaitf h k s
  | .rwaite h k => Sys2Proof.Machine.execRwaite h k s
  | .radvp h k => Sys2Proof.Machine.execRadvp h k s
  | .radvc h k => Sys2Proof.Machine.execRadvc h k s
  | .fence p q scope => Sys2Proof.Machine.execFence p q scope s
  | .scld f => Sys2Proof.Machine.execScld f s
  | .scst f => Sys2Proof.Machine.execScst f s
  | .scswp f => Sys2Proof.Machine.execScswp f s
  | .scadd f => Sys2Proof.Machine.execScadd f s
  | .sccas f => Sys2Proof.Machine.execSccas f s
  | .snap num job => Sys2Proof.Machine.execSnap num job s
  | .snapq sel => Sys2Proof.Machine.execSnapq sel s
  | .ckwait num => Sys2Proof.Machine.execCkwait num s
  | .rollbk num job => Sys2Proof.Machine.execRollbk num job s
  | .katgo fmt seed => Sys2Proof.Machine.execKatgo fmt seed s
  | .katcmp => Sys2Proof.Machine.execKatcmp s
  | .tlaunch a q => Sys2Proof.Machine.execTlaunch a q s
  | .sysrd index clr ctx => Sys2Proof.Machine.execSysrd index clr ctx s
  | .syswr index src ctx => Sys2Proof.Machine.execSyswr index src ctx s
  | .tlbinv a scope kind => Sys2Proof.Machine.execTlbinv a scope kind s
  | .codeinv a scope all => Sys2Proof.Machine.execCodeinv a scope all s
  | .zerob target mask hbm => Sys2Proof.Machine.execZerob target mask hbm s
  | .capq src => Sys2Proof.Machine.execCapq src s
  | .cmov ch f => Sys2Proof.Machine.execCmov ch f s
  | .czero ch f => Sys2Proof.Machine.execCzero ch f s
  | .cconv ch f => Sys2Proof.Machine.execCconv ch f s
  | .cexp ch f => Sys2Proof.Machine.execCexp ch f s
  | .ccomp ch f => Sys2Proof.Machine.execCcomp ch f s
  | .cdec ch f => Sys2Proof.Machine.execCdec ch f s
  | .cenc ch f => Sys2Proof.Machine.execCenc ch f s
  | .catom ch f => Sys2Proof.Machine.execCatom ch f s
  | .cloop ch f => Sys2Proof.Machine.execCloop ch f s
  | .cif ch f => Sys2Proof.Machine.execCif ch f s
  | .ccw ch f => Sys2Proof.Machine.execCcw ch f s
  | .ccwSatisfied ch => Sys2Proof.Machine.execCcwSatisfied ch s
  | .csig ch f => Sys2Proof.Machine.execCsig ch f s
  | .clink ch f => Sys2Proof.Machine.execClink ch f s
  | .cend ch f => Sys2Proof.Machine.execCend ch f s
  | .copyChunk ch => Sys2Proof.Machine.execCopyChunk ch s
  | .resultLanding x => Sys2Proof.Machine.execResultLanding x s
  | .segmentFetch x => Sys2Proof.Machine.execSegmentFetch x s
  | .segmentPrefetch x => Sys2Proof.Machine.execSegmentPrefetch x s
  | .pageResolution x => Sys2Proof.Machine.execPageResolution x s
  | .waitConditionMet x => Sys2Proof.Machine.execWaitConditionMet x s
  | .fenceComplete x => Sys2Proof.Machine.execFenceComplete x s
  | .realnEnd x => Sys2Proof.Machine.execRealnEnd x s
  | .scWheelSlot x => Sys2Proof.Machine.execScWheelSlot x s
  | .heldStorePerform x => Sys2Proof.Machine.execHeldStorePerform x s
  | .crossDieAccess id => Sys2Proof.Machine.execCrossDieAccess id s
  | .crossDieDataArrival x => Sys2Proof.Machine.execCrossDieDataArrival x s
  | .tlbinvComplete x => Sys2Proof.Machine.execTlbinvComplete x s
  | .codeinvComplete x => Sys2Proof.Machine.execCodeinvComplete x s
  | .zerobComplete x => Sys2Proof.Machine.execZerobComplete x s
  | .remdataReturn x => Sys2Proof.Machine.execRemdataReturn x s
  | .nestStepLanding x => Sys2Proof.Machine.execNestStepLanding x s
  | .nestCompletion x => Sys2Proof.Machine.execNestCompletion x s
  | .katCompletion x => Sys2Proof.Machine.execKatCompletion x s
  | .acfreeZeroed t => Sys2Proof.Machine.execAcfreeZeroed t s
  | .vgCompletion t => Sys2Proof.Machine.execVgCompletion t s
  | .vgFault t => Sys2Proof.Machine.execVgFault t s
  | .arbitrationDecision g => Sys2Proof.Machine.execArbitrationDecision g s
  | .runOverrun task => Sys2Proof.Machine.execRunOverrun task s
  | .lqdb q => Sys2Proof.Machine.execLqdb q s
  | .launchQueuePoll q => Sys2Proof.Machine.execLaunchQueuePoll q s
  | .lqctl q v => Sys2Proof.Machine.execLqctl q v s
  | .tlaunchAccept x => Sys2Proof.Machine.execTlaunchAccept x s
  | .recordReady q j => Sys2Proof.Machine.execRecordReady q j s
  | .placementBind q j g => Sys2Proof.Machine.execPlacementBind q j g s
  | .urgentLaunch q j g => Sys2Proof.Machine.execUrgentLaunch q j g s
  | .gangStart task => Sys2Proof.Machine.execGangStart task s
  | .taskEnd task => Sys2Proof.Machine.execTaskEnd task s
  | .preq v host => Sys2Proof.Machine.execPreq v host s
  | .gangResume task => Sys2Proof.Machine.execGangResume task s
  | .trapDelivery x => Sys2Proof.Machine.execTrapDelivery x s
  | .breakpoint x => Sys2Proof.Machine.execBreakpoint x s
  | .tend x v => Sys2Proof.Machine.execTend x v s
  | .start x v => Sys2Proof.Machine.execStart x v s
  | .remdataWrite x v => Sys2Proof.Machine.execRemdataWrite x v s
  | .remdataRead x => Sys2Proof.Machine.execRemdataRead x s
  | .cpresumeRetry t ctr => Sys2Proof.Machine.execCpresumeRetry t ctr s
  | .cpresumeEnd t ctr => Sys2Proof.Machine.execCpresumeEnd t ctr s
  | .hddata x ctx v => Sys2Proof.Machine.execHddata x ctx v s
  | .tickcfg v => Sys2Proof.Machine.execTickcfg v s
  | .tickPeriodSwitch => Sys2Proof.Machine.execTickPeriodSwitch s
  | .snapcfg v => Sys2Proof.Machine.execSnapcfg v s
  | .registerWrite r v => Sys2Proof.Machine.execRegisterWrite r v s
  | .tickstop => Sys2Proof.Machine.execTickstop s
  | .tickstopRelease => Sys2Proof.Machine.execTickstopRelease s
  | .telemetryLatch => Sys2Proof.Machine.execTelemetryLatch s
  | .traceSample x => Sys2Proof.Machine.execTraceSample x s
  | .pageWalk x ctx va kd => Sys2Proof.Machine.execPageWalk x ctx va kd s
  | .snapshotCut => Sys2Proof.Machine.execSnapshotCut s
  | .settleEnd => Sys2Proof.Machine.execSettleEnd s
  | .snapshotResume => Sys2Proof.Machine.execSnapshotResume s
  | .bankStreamOut bank => Sys2Proof.Machine.execBankStreamOut bank s
  | .heldPageCopy va => Sys2Proof.Machine.execHeldPageCopy va s
  | .marker f => Sys2Proof.Machine.execMarker f s
  | .locallyComplete => Sys2Proof.Machine.execLocallyComplete s
  | .done f => Sys2Proof.Machine.execDone f s
  | .commit f => Sys2Proof.Machine.execCommit f s
  | .snapshotAbort reason => Sys2Proof.Machine.execSnapshotAbort reason s
  | .snapshotTimeLimit => Sys2Proof.Machine.execSnapshotTimeLimit s
  | .abortFlit f => Sys2Proof.Machine.execAbortFlit f s
  | .rollbackFlit f intact => Sys2Proof.Machine.execRollbackFlit f intact s
  | .rollbackResume task => Sys2Proof.Machine.execRollbackResume task s
  | .fabricMessage m => Sys2Proof.Machine.execFabricMessage m s
  | .flitReceive port f crcGood => Sys2Proof.Machine.execFlitReceive port f crcGood s
  | .nak port ack => Sys2Proof.Machine.execNak port ack s
  | .linkDown port => Sys2Proof.Machine.execLinkDown port s
  | .stopGo port stops => Sys2Proof.Machine.execStopGo port stops s
  | .timeFlit port grandMaster => Sys2Proof.Machine.execTimeFlit port grandMaster s
  | .laneRepair boundary => Sys2Proof.Machine.execLaneRepair boundary s
  | .hostWrite h data => Sys2Proof.Machine.execHostWrite h data s
  | .hostRead h n => Sys2Proof.Machine.execHostRead h n s
  | .bindKey f => Sys2Proof.Machine.execBindKey f s
  | .tdiLeaveRun tdi => Sys2Proof.Machine.execTdiLeaveRun tdi s
  | .spdmRequest index => Sys2Proof.Machine.execSpdmRequest index s
  | .pldmRequest sensor => Sys2Proof.Machine.execPldmRequest sensor s
  | .firmwareUpdate f => Sys2Proof.Machine.execFirmwareUpdate f s
  | .activateFirmware => Sys2Proof.Machine.execActivateFirmware s
  | .serviceBankSwitch die => Sys2Proof.Machine.execServiceBankSwitch die s
  | .translate die slot img => Sys2Proof.Machine.execTranslate die slot img s
  | .revert die slot => Sys2Proof.Machine.execRevert die slot s
  | .profileGuidedInstall va img => Sys2Proof.Machine.execProfileGuidedInstall va img s
  | .tileRetirement die tile spare => Sys2Proof.Machine.execTileRetirement die tile spare s
  | .copyEngineReset t => Sys2Proof.Machine.execCopyEngineReset t s
  | .mxeReset t => Sys2Proof.Machine.execMxeReset t s
  | .groupedUnitReset t => Sys2Proof.Machine.execGroupedUnitReset t s
  | .sequencerReset x => Sys2Proof.Machine.execSequencerReset x s
  | .tileReset t => Sys2Proof.Machine.execTileReset t s
  | .dieReset d => Sys2Proof.Machine.execDieReset d s
  | .functionLevelReset => Sys2Proof.Machine.execFunctionLevelReset s
  | .coldReset c => Sys2Proof.Machine.execColdReset c s
  | .powerOff => Sys2Proof.Machine.execPowerOff s
  | .idleBundle => Sys2Proof.Machine.execIdleBundle s
  | .backgroundCapture va => Sys2Proof.Machine.execBackgroundCapture va s
  | .linkTraining port => Sys2Proof.Machine.execLinkTraining port s
  | .tdispRequest tdi job state stream => Sys2Proof.Machine.execTdispRequest tdi job state stream s

end Sys2Proof.Machine
end

