-- ==== Sys2Proof/Machine/Cycle.lean ====
section
/-! DEFINITION. A cycle of the package, piece by piece: what happens at its start, the issue of each sequencer's bundle, the accesses
that perform, the engines, the effects, the landings, and its end (R20 to R24, R42, R254, R344; the order of the pieces is log 2). -/

namespace Sys2Proof.Machine

/-- One part of a step after another. -/
def andThen (o : Out) (f : State → Out) : Out :=
  match o with
  | .next s => f s
  | .fault r => .fault r
  | .refused r => .refused r

/-- A part for each of some things, in order. -/
def forEach {α : Type} : List α → (α → State → Out) → State → Out
  | [], _, s => .next s
  | a :: l, f, s => andThen (f a s) (forEach l f)

/-- A free yes or no (log 4). -/
def State.coin (s : State) : Bool × State := (!s.freeWord.getLsbD 0, s.drawn)

/-- A part that takes place in a cycle that is not fixed. -/
def perhaps (f : State → Out) (s : State) : Out := if s.coin.1 then f s.coin.2 else .next s.coin.2

/-! ### Windows and placement (R137, R139, R153) -/

/-- The records of the windows are looked at: those whose dependences are met become ready; then the first ready record for which a
gang is open is placed. -/
def State.place (s : State) : Out :=
  let wait := s.windows.filter (fun w => !w.2.2.ready && s.depsMet w.2.2.bytes)
  andThen (forEach wait (fun w => execRecordReady (BitVec.ofNat 6 w.1) w.2.1) s) (fun s =>
    let open_ := s.windows.filterMap (fun w =>
      if w.2.2.ready then (s.pickGang w.2.2.bytes).map (fun g => (w.1, w.2.1, w.2.2, g)) else none)
    match s.firstRec (open_.filter (fun w => s.canBind w.2.2.1 w.2.2.2)) with
    | none => .next s
    | some (q, i, r, g) =>
      let s := { s with free := s.free + g.length }
      if s.urgentRec r then execUrgentLaunch (BitVec.ofNat 6 q) i (g.map seqIdOf) s
      else execPlacementBind (BitVec.ofNat 6 q) i (g.map seqIdOf) s)

/-! ### Ticks (R21, R141, R144, R149) -/

/-- What happens on a tick: the decisions of complete rendezvous, what held sequencers hold for, the decisions on idle sequencers,
starts, resumptions, and context 0 where no task is to be had (R336). -/
def State.tickWork (s : State) : Out :=
  let met := s.tasks.filter s.rendezvous
  andThen (forEach met (fun t => execArbitrationDecision (t.seqs.map seqIdOf)) s) (fun s =>
  let s := if s.tasks = [] then s else computeSeqs.foldl State.rehold s
  let idle := if s.tasks.any Task.waits then computeSeqs.filter s.idleSeq else []
  andThen (if idle = [] then .next s else execArbitrationDecision (idle.map seqIdOf) s) (fun s =>
  let ids := s.tasks.map (fun t => t.id)
  andThen (forEach ids execGangStart s) (fun s =>
  andThen (forEach ids execGangResume s) (fun s =>
  andThen (execSnapshotResume s) (fun s =>
  andThen (forEach ids execRollbackResume s) (fun s =>
  .next ((s.seqs.map Prod.fst).foldl State.runIdle s)))))))

/-! ### Snapshot work of a cycle (R315 to R329) -/

/-- The cut, the end of settle, streaming, capture, completion, the time limit, a snapshot that waits to begin, and traffic that
waits. -/
def State.snapWork (s : State) : Out :=
  andThen (execSnapshotCut s) (fun s =>
  let late := match s.snap.cut with
    | some c => decide (c + 4096 ≤ s.gclk)
    | none => false
  let owed := match s.snap.cut with
    | some c => decide (c + 600 ≤ s.gclk)
    | none => false
  let states : State → Out := fun s => .next s.storeStates
  andThen (if s.snap.owes then (if owed then states s else perhaps states s) else .next s) (fun s =>
  andThen (if s.snap.phase = 2 then (if late then execSettleEnd s else perhaps execSettleEnd s) else .next s) (fun s =>
  andThen (match s.snap.heldBanks with
    | b :: _ => if s.snap.phase = 3 then perhaps (execBankStreamOut b) s else .next s
    | [] => .next s) (fun s =>
  andThen (match s.snap.heldPages.findSome? (fun a => (s.jobPages s.snapJobNo).find? (fun p => decide (p.at_ = a))) with
    | some p => if s.snap.phase = 3 then perhaps (execBackgroundCapture (BitVec.ofNat 64 p.va)) s else .next s
    | none => .next s) (fun s =>
  andThen (execLocallyComplete s) (fun s =>
  andThen (execSnapshotTimeLimit s) (fun s =>
  s.snapNext.takeEarly.retryMsgs.retryHost)))))))

/-- The snapshot unit has something to do. -/
def State.snapActive (s : State) : Bool :=
  s.snap.busy || decide (s.snap.limits ≠ [] ∨ s.snap.waiting ≠ [] ∨ s.snap.hostWaiting ≠ [] ∨ s.snap.early ≠ [])

/-! ### Events -/

/-- Resets and power for which the package need not be clocked. -/
def wakes : Ev → Bool
  | .outside (.tickstopRelease) => true
  | .outside (.coldReset _) => true
  | .outside (.powerOff) => true
  | _ => false

/-- The internal temporaries of a bundle are not to be read (R100). -/
def Bundle.struck (b : Bundle) : Bundle := { b with temps := b.temps.map (fun t => { t with val := { t.val with mark := .ue } }) }

/-- A cross-die access is there by the cycle in which its data would land on time, unless a link of the ring is under repair or at
reduced width (R16, R17). -/
def State.crossDue (s : State) (id : Nat) : Bool :=
  decide (s.half = []) && s.accs.any (fun a => decide (a.id = id) && (match a.at_ with
    | some t => decide (t + 4 + hops (tileOf a.seq) a.tile ≤ s.gclk)
    | none => false))

/-- An uncorrectable error is counted (R359). -/
def State.strike (s : State) (m : Mark) : State := if m = .ue then { s with health := healthMore s.health 8 } else s

/-- The waits of a context that has resumed on this tick are looked at in this cycle, as those of the others (R120, R152). -/
def State.wakeWaits (s : State) : State :=
  let l := (s.seqs.filter (fun (e : Nat × Seq) => match e.2.active with
    | some c => decide ((s.ctx e.1 c).waits ≠ [] ∧ Ev.waits e.1 ∉ s.agenda)
    | none => false)).map Prod.fst
  { s with agenda := l.map Ev.waits ++ s.agenda }

/-- What an event does. -/
def runEv (e : Ev) (s : State) : Out :=
  match e with
  | .outside i => exec i s
  | .reg x c i v => s.regEvent x c i v
  | .waits x => s.lookWaits x
  | .chain t => perhaps (fun s => .next (s.copyTurn t)) s
  | .cross id =>
    if s.snap.phase = 2 || s.crossDue id then execCrossDieAccess id s else perhaps (execCrossDieAccess id) s
  | .remRead x => execRemdataRead (seqIdOf x) s
  | .remWrite x v => execRemdataWrite (seqIdOf x) v s
  | .freed t => execAcfreeZeroed (tileIdOf t) s
  | .tick => andThen s.tickWork (fun s => .next s.wakeWaits)
  | .trap x => execTrapDelivery (seqIdOf x) s
  | .poll q => execLaunchQueuePoll (BitVec.ofNat 6 q) s
  -- the time to acceptance is variable (R138, log 4)
  | .accept x => perhaps (execTlaunchAccept (seqIdOf x)) s
  | .place => perhaps State.place s
  | .ends t => execTaskEnd t s
  | .halt t =>
    let ms := match s.task t with
      | some k => k.seqs
      | none => []
    let s := s.haltGang t
    .next { s with agenda := s.agenda ++ ms.map Ev.trap }
  | .snapBegin n => .next (s.snapBegin n)
  | .rollback n => .next (s.rollBegin n)
  | .rollHalt n => .next (s.rollNow n)
  | .snap => s.snapWork
  | .held va => execHeldPageCopy va s
  | .clocks =>
    andThen (execTelemetryLatch s) (fun s =>
      let traced := (s.seqs.filter (fun (q : Nat × Seq) => q.2.dbgctl.getLsbD 8)).map Prod.fst
      forEach traced (fun x => execTraceSample (seqIdOf x)) s)
  | .bankSwitch d => execServiceBankSwitch ⟨d % 4, Nat.mod_lt _ (by decide)⟩ s
  | .resetAsked v => s.resetAsked v
  | .strikePool t g m => .next ((s.setGran t (64 * g) { s.gran t (64 * g) with mark := m }).strike m)
  | .strikeHbm g m =>
    .next ({ s with hbmGran := tset Gran.clean s.hbmGran g { (tget Gran.clean s.hbmGran g) with mark := m } }.strike m)
  | .strikeKeep k n m =>
    let c := tget Ctx.init s.ctxs k
    .next ({ s with ctxs := tput s.ctxs k { c with keeps := tset SVal.zero c.keeps n { (tget SVal.zero c.keeps n) with mark := m } } }.strike m)
  | .strikeQ k n m =>
    let c := tget Ctx.init s.ctxs k
    .next ({ s with ctxs := tput s.ctxs k { c with q := c.q.modify n (fun v => { v with mark := m }) } }.strike m)
  | .strikeVq k n m =>
    let c := tget Ctx.init s.ctxs k
    .next ({ s with ctxs := tput s.ctxs k { c with vq := c.vq.modify n (fun v => { v with mark := m }) } }.strike m)
  | .strikeTemp x => .next ((s.modSeq x (fun q => { q with micro := q.micro.map Bundle.struck })).strike .ue)
  | .corrected => .next { s with health := healthMore s.health 0 }

/-! ### The start of a cycle -/

/-- Sequencers in the table that satisfy a condition. -/
def State.seqsWith (s : State) (p : Nat → Seq → Bool) : List Nat := (s.seqs.filter (fun (e : Nat × Seq) => p e.1 e.2)).map Prod.fst

/-- What is to be done at the start of a cycle, in order (log 2). -/
def State.dueEvents (s : State) : List Ev :=
  let snap := if s.snapActive then [Ev.snap] else []
  let posted := (s.seqsWith (fun x _ => (s.deliverable x).any (fun p => decide (p.kind = .p)))).map Ev.trap
  let due := (s.env.filter (fun (e : Nat × Ev) => decide (e.1 ≤ s.gclk))).map Prod.snd
  let tick := if s.isTick s.gclk then [Ev.tick, Ev.clocks] else []
  let waits := (s.seqsWith (fun x q => match q.active with
    | some c => decide ((s.ctx x c).waits ≠ [])
    | none => false)).map Ev.waits
  let freed := ((s.tiles.filter (fun (e : Nat × Tile) => e.2.banks.any (fun b => match b.2.zeroTo with
    | some z => decide (z < s.gclk)
    | none => false))).map Prod.fst).map Ev.freed
  let chains := ((s.chains.map (fun c => c.tile)).dedup).map Ev.chain
  let cross := (s.accs.filter (fun a => a.cross)).map (fun a => Ev.cross a.id)
  let place := if s.lqs.any (fun (e : Nat × LQueue) => decide (e.2.window ≠ [])) then [Ev.place] else []
  let ends := (s.tasks.filter s.allDone).map (fun t => Ev.ends t.id)
  let polls := if s.gclk % 2 ^ 16 = 0 then ((s.lqs.filter (fun (e : Nat × LQueue) => e.2.en)).map Prod.fst).map Ev.poll else []
  let accepts := (s.seqsWith (fun _ q => decide (q.launches ≠ []))).map Ev.accept
  let switches := (s.fwSwitch.filter s.atBoundary).map Ev.bankSwitch
  -- a context that goes on in this cycle takes what its own bundle has posted before it issues again
  let traps := (s.seqsWith (fun x q => decide (s.deliverable x ≠ []) || q.pend.any (fun p => decide (p.kind = .p)))).map Ev.trap
  snap ++ posted ++ due ++ tick ++ waits ++ freed ++ chains ++ cross ++ place ++ ends ++ polls ++ accepts ++ switches ++ traps

/-- A new cycle has begun: what is due stands in the agenda. -/
def State.begun (s : State) : State :=
  { s with agenda := s.dueEvents, env := s.env.filter (fun (e : Nat × Ev) => decide (s.gclk < e.1)) }

/-! ### Issue (R22, R28, R254) -/

/-- The order in which sequencers issue in a cycle: increasing order of die, tile and sequencer; what they ask for over the canal is
settled after all of them (R254). -/
def State.issueOrder (s : State) : List Nat := s.seqsWith (fun _ q => q.active.isSome || q.micro.isSome)

/-- The next operation of the bundle that issues, or its commit. -/
def State.bundleStep (s : State) : Out :=
  match s.bundle.todo with
  | [] => execIdleBundle s
  | (k, i) :: rest => exec i { s with bundle := { s.bundle with focus := k, todo := rest } }

/-- An effect of VGSTOP or MXSTOP. -/
def Eff.stops (e : Eff) : Bool :=
  match e with
  | .vgstop .. => true
  | .mxstop .. => true
  | _ => false

/-- What a microcoded bundle has asked to stop, once its second micro-step finds no cause: the engines see it in this cycle, as they would
after a bundle that commits at the end of its issue cycle (R100, R219, R242). -/
def State.stopNow (s : State) (b : Bundle) : State :=
  (b.effs.map (b.dueAt (s.gclk - 1))).foldl (fun s e =>
    if Eff.stops e.2 && decide (e ∈ s.pending) then ({ s with pending := s.pending.erase e }).applyEff e.2 else s) s

/-- The beginning of a sequencer's turn: the second micro-step of the bundle before; then whether a bundle can issue (R22, R100). -/
def State.turn (s : State) (x : Nat) : State × Bool :=
  let q := s.seq x
  let t := s.microStep x
  let t := match q.micro with
    | some b => t.stopNow b
    | none => t
  if q.closes then (t, false) else t.ready x

/-- A sequencer's turn: its beginning, then the beginning of the next bundle with its first operation. -/
def State.issueOne (s : State) (x : Nat) : Out :=
  let r := s.turn x
  if r.2 then
    let t := r.1.begin_ x
    if t.bundle.active then t.bundleStep else .next t
  else .next r.1

/-! ### The rest of a cycle -/

/-- Accesses whose cycle this is, then stores that a hold has delayed (R253, R256). -/
def State.performPhase (s : State) : Out :=
  let s := s.performDue
  let late := ((s.accs.filter (fun a => decide (a.at_ = none) && !a.cross)).map (fun a => a.seq)).dedup
  forEach late (fun x => execHeldStorePerform (seqIdOf x)) s

/-- The engines of every tile (R213 to R244). -/
def State.enginePhase (s : State) : Out := forEach (s.tiles.map Prod.fst) (fun t s => s.engineTile t) s

/-- Tasks of which a member has just run over its stated run (R118). -/
def State.overrun (s : State) : List Nat :=
  (s.tasks.filter (fun t => t.members.any (fun m =>
    let k := s.ctx m.1 m.2
    decide (k.stated.map (fun r => r + 1) = some k.ran)))).map (fun t => t.id)

/-- Landings of every sequencer, overruns, and flags of engines and accesses (R42, R118, R337). -/
def State.landingPhase (s : State) : Out :=
  andThen (forEach (s.seqs.map Prod.fst) (fun x => execResultLanding (seqIdOf x)) s) (fun s =>
    andThen (forEach s.overrun execRunOverrun s) (fun s => .next s.dueFlags))

/-- What a bundle does once its cycle's landings are over (R22, R121, R123, R347). -/
def State.applyTail (s : State) (t : Tail) : State :=
  match t with
  | .wait x c w => s.modCtx x c (fun k => { k with waits := k.waits ++ w })
  | .eret x => s.eret x
  | .texit x 0 => (s.modCtx x 0 (fun k => { k with loops := [] })).modSeq x (fun q => { q with active := none, halt := .texit, serving := false })
  | .texit x c => s.modCtx x c (fun k => { k with done := true, loops := [] })
  | .post x p => if (s.seq x).active = some 0 then s.deliver x p else s.post x p
  | .trace x c h v => s.trace 0 0 x c h v
  | .halt x c => s.haltMicro x c

/-- Counters of a cycle (R396). -/
def State.count (s : State) : State :=
  let one : Nat → Seq → Seq := fun x q => match q.active with
    | none => q
    | some c =>
      let frozen := decide ((s.ctx x c).waits ≠ [])
      { q with frozenCycles := q.frozenCycles + frozen.toNat, ctx0Cycles := q.ctx0Cycles + (decide (c = 0)).toNat }
  { s with
    seqs := s.seqs.map (fun (e : Nat × Seq) => (e.1, one e.1 e.2)),
    links := s.links.map (fun (e : Nat × Link) => (e.1, if e.2.stops = 0 then e.2 else { e.2 with stoppedCycles := e.2.stoppedCycles + 1 })) }

/-- The next cycle begins: the clock, the tick period at a multiple of 2^16, links that have been silent too long, resets that end,
an activation that waited, what the ports send, and what is due. -/
def State.advance (s : State) : Out :=
  andThen (execTickstop s.count) (fun s =>
  let s := { s with gclk := s.gclk + 1, phase := .start, books := s.books.filter (fun b => decide (s.gclk < b.cycle)) }
  andThen (if s.gclk % 2 ^ 16 = 0 then execTickPeriodSwitch s else .next s) (fun s =>
  let quiet := (List.finRange 24).filter (fun p => s.quiet p.val)
  andThen (forEach quiet execLinkDown s.endResets) (fun s =>
  let s := if s.fwPending && !s.snap.busy then s.activate else s
  .next s.portWork.begun)))

/-- The end of a cycle. -/
def State.tailPhase (s : State) : Out :=
  let l := s.tails
  (l.foldl State.applyTail { s with tails := [] }).advance

/-- A package whose clocks stand still, or that is without power: only what wakes it happens. -/
def State.asleep (s : State) : Out :=
  match s.agenda.find? wakes with
  | some e => runEv e { s with agenda := s.agenda.erase e ++ [.trap (serviceOf 0)] }
  | none =>
    match s.env.find? (fun (e : Nat × Ev) => decide (e.1 ≤ s.gclk) && wakes e.2) with
    | some e => runEv e.2 { s with env := s.env.erase e, agenda := s.agenda ++ [.trap (serviceOf 0)] }
    | none => .next s

/-- One step: the next operation of the bundle that issues, else the next event that is due, else the next part of the cycle. -/
def State.stepOnce (s : State) : Out :=
  if s.power = false ∨ s.stopped = true then s.asleep
  else if s.bundle.active then s.bundleStep
  else
    match s.agenda with
    | e :: rest => runEv e { s with agenda := rest }
    | [] =>
      match s.phase with
      | .start => .next { s.meetHeld with phase := .issue s.meetHeld.issueOrder }
      | .issue [] => .next { s.settleCanal with phase := .perform }
      | .issue (x :: l) => { s with phase := .issue l }.issueOne x
      | .perform => { s with phase := .engines }.performPhase
      | .engines => { s with phase := .effects }.enginePhase
      | .effects => .next { s with phase := .landing }.dueEffects
      | .landing => { s with phase := .tail }.landingPhase
      | .tail => s.tailPhase

/-! ### A program for the first step (log 10) -/

/-- The page in which a placed word stands. -/
def placedPage : BitVec 45 := 1

/-- Its segment: the bundle of `n` words at offset 0x48, and an idle bundle after it. -/
def placedInfo (n : Nat) : PageInfo := ⟨0, placedPage, 1, [], [⟨0x40, 4 * n + 8, 0, false, [0x48, 0x48 + 4 * n]⟩], false⟩

/-- A page without landings, in which every handle is LAND_BAD. -/
def placedZero : PageInfo := ⟨0, 0, 1, [], [], false⟩

/-- A lone slot word stands in the chamber of sequencer A of die 0's service tile, at the bundle that its context 0 issues next,
and that sequencer's turn has come (log 10). -/
def State.placed (s : State) (w : Nat) : State :=
  let slot := ((tableSlot w).map Prod.fst).getD .s0
  let ws := oneSlotBundle slot w
  let x := serviceOf 0
  let cham : Chamber := ⟨0, placedPage, 0x40, ws ++ [0, 0], false⟩
  let s := s.modSeq x (fun q => { q with
    active := some 0, halt := .run, serving := false, chamA := some cham, chamB := none, inB := false,
    pages := [placedInfo ws.length, placedZero], micro := none, microOld := none })
  let s := s.modCtx x 0 (fun k => { k with
    pos := mkHandle placedPage 18, entry := none, countdown := some 0, flights := [], waits := [], done := false })
  { s with phase := .issue [x], agenda := [], bundle := Bundle.idle, power := true, stopped := false }

end Sys2Proof.Machine
end

