-- ==== Sys2Proof/Machine/Step.lean ====
section
/-! DEFINITION. One step of the package. -/

namespace Sys2Proof.Machine

/-- One step: the next operation of the bundle that issues, else the next event that is due, else the next part of the cycle
(log 2). -/
def step (s : State) : Host.Outcome State Fault Refusal := s.stepOnce

/-- The state with a lone slot word where the next step fetches its instruction (log 10): the bits of the table's row, those above
them zero. -/
def State.withFetchWord (s : State) (nbits w : Nat) : State := s.placed (w % 2 ^ nbits % 2 ^ 32)

end Sys2Proof.Machine
end

