-- ==== Sys2Proof/Safety.lean ====
section
/-! DEFINITION. What a safe run is: one that neither faults nor is refused; and the terms in which the statements speak of an
answer, of the results a bundle stages and of what a step leaves alone. -/

namespace Sys2Proof
open Sys2Proof.Machine

/-! ### Safe runs -/

/-- A step answers a next state. -/
def Completes (o : Host.Outcome State Fault Refusal) : Prop := ∃ t, o = .next t

/-- A run of some steps from a state answers a next state. -/
def SafeFor (k : Nat) (s : State) : Prop := Completes (core.run k s)

/-- An answer is a next state of which P holds. -/
def Answers (o : Host.Outcome State Fault Refusal) (P : State → Prop) : Prop := ∃ t, o = .next t ∧ P t

/-! ### What the issuing bundle stages -/

/-- The causes that the marks of scalar sources show, in the order in which the sources are read (R348). -/
def readAll (s : State) (l : List SSrc) : State := l.foldl State.useS s

/-- The state in which the issuing bundle has staged one scalar result for a destination, landing `lat` cycles after its issue:
nothing else of the package differs from `s` but the causes that its sources show (R7, R87, R348). -/
def landed (s : State) (srcs : List SSrc) (d : SDest) (v : Word) (lat : Nat) (fl : Flags) : State :=
  { s with
    fresh := s.fresh + 1
    bundle := { s.bundle with
      found := (readAll s srcs).bundle.found
      flights := s.bundle.flights ++ [
        { id := s.fresh, remaining := lat + 1, slot := s.bundle.focus, issued := s.bundle.number, vals := [⟨v, .clean⟩],
          keep := destKeep d, vecs := [], wreg := none, xb := false, pred := none, vtag := none, flags := fl, ret := false,
          ready := true, obs := none }] } }

/-- The state in which the issuing bundle, a microcoded one, has formed a product in an internal temporary: the sum with the addend is
formed in its second step, and its result lands 5 cycles after the issue (R99, R100). -/
def multiplying (s : State) (srcs : List SSrc) (d : SDest) (p addend : Word) : State :=
  { s with
    fresh := s.fresh + 1
    bundle := { s.bundle with
      found := (readAll s srcs).bundle.found
      micro := true
      temps := s.bundle.temps ++ [⟨s.fresh, ⟨p, .clean⟩, addend⟩]
      flights := s.bundle.flights ++ [
        { id := s.fresh, remaining := 6, slot := s.bundle.focus, issued := s.bundle.number, vals := [SVal.zero],
          keep := destKeep d, vecs := [], wreg := none, xb := false, pred := none, vtag := none, flags := Flags.none, ret := false,
          ready := false, obs := none }] } }

/-- The answer of a scalar operation is such a state, with a value of which P holds. -/
def Lands (s : State) (i : Instr) (srcs : List SSrc) (d : SDest) (lat : Nat) (fl : Flags) (P : Word → Prop) : Prop :=
  ∃ v, exec i s = .next (landed s srcs d v lat fl) ∧ P v

/-- Nothing outside the issuing bundle and the counter of identifiers differs: every register, flag, queue, counter and byte of
memory is as before. -/
def OnlyBundle (s t : State) : Prop := t = { s with fresh := t.fresh, free := t.free, bundle := t.bundle }

/-- The state with one more cause found in the issuing bundle (R345). -/
def showing (s : State) (rank : Nat) (c : Cause) (v : Word) : State :=
  { s with bundle := { s.bundle with found := s.bundle.found ++ [⟨rank, s.bundle.focus, s.bundle.found.length, c, v, 0⟩] } }

/-- The state with one more effect staged, due at the end of the n-th cycle after the issue cycle. -/
def staged (s : State) (n : Nat) (e : Eff) : State :=
  { s with bundle := { s.bundle with effs := s.bundle.effs ++ [(n, e)] } }

/-- The state in which the sequencer will also wait for `w` once the bundle has committed (R22). -/
def waiting (s : State) (w : Wait) : State := { s with bundle := { s.bundle with waits := s.bundle.waits ++ [w] } }

/-! ### What an access of the issuing bundle stages -/

/-- The state in which the issuing bundle has staged a load: the causes found, the banks booked for a cycle, the result in flight
that waits for its data, and the access that will bring it. Nothing else differs. -/
def loading (s : State) (found : List Found) (banks : List Nat) (p : PoolAddr) (at_ : Nat) (k : AccKind) (f : Flight) : State :=
  { s with
    fresh := s.fresh + 2
    bundle := { s.bundle with
      found := found
      books := s.bundle.books ++ banks.map (fun b => ⟨p.tile, b, at_, s.ix, p.canal⟩)
      flights := s.bundle.flights ++ [{ f with id := s.fresh, ready := false }]
      accs := s.bundle.accs ++ [⟨s.fresh, some at_, s.ix, s.ic, p.tile, p.off, k,
        p.canal && decide (dieOf p.tile ≠ dieOf (tileOf s.ix))⟩] } }

/-- The state in which the issuing bundle has staged a store. -/
def storing (s : State) (found : List Found) (banks : List Nat) (p : PoolAddr) (at_ : Nat) (k : AccKind) : State :=
  { s with
    fresh := s.fresh + 1
    bundle := { s.bundle with
      found := found
      books := s.bundle.books ++ banks.map (fun b => ⟨p.tile, b, at_, s.ix, p.canal⟩)
      accs := s.bundle.accs ++ [⟨s.fresh, some at_, s.ix, s.ic, p.tile, p.off, k,
        p.canal && decide (dieOf p.tile ≠ dieOf (tileOf s.ix))⟩] } }

/-- The bank of an access is free for it: neither booked nor reserved in the cycle in which it performs (R254). -/
def Free (s : State) (p : PoolAddr) (at_ : Nat) : Prop := s.conflict p.tile (p.off / 0x10000) at_ = none

/-! ### What the cascade puts out -/

/-- The lanes that are active for a unit of a slot whose units before it, and itself, are no VSEL (R159, R165). -/
def unitLanes (s : State) (u : VPos) : BitVec 128 :=
  if u.pred = 0 ∨ s.bundle.todo.any (fun p => decide (p.1 = .v) && p.2.unitSel) = true ∨ (decide (u.unit ≠ .a) && s.bundle.vpipe.mask) = true
  then BitVec.allOnes 128
  else tget 0 s.icx.preds (u.pred.toNat - 1)

/-- The flags with which a unit starts: none in unit A. -/
def unitFlags (s : State) (u : VPos) : Flags := if u.unit = .a then Flags.none else s.bundle.vpipe.flags

/-- A unit operation on the parts `xs`: the answer is a next state that differs from `s` in the issuing bundle alone, in whose pipe
stands for each part one of which P holds, with the flags of each part ORed in; from unit C one result is staged, `lat` cycles
after the issue, 2 more where unit A did cross-lane work (R157, R160). -/
def UnitGives (s : State) (i : Instr) (u : VPos) (xs : List Vec) (lat : Nat) (fl : Vec → Flags) (P : Vec → Vec → Prop) : Prop :=
  ∃ t, exec i s = .next t ∧ OnlyBundle s t ∧ List.Forall₂ P xs t.bundle.vpipe.parts
    ∧ t.bundle.vpipe.flags = xs.foldl (fun a x => a.or (fl x)) (unitFlags s u)
    ∧ (u.unit ≠ .c → t.bundle.flights = s.bundle.flights)
    ∧ (u.unit = .c → ∃ f : Flight, t.bundle.flights = s.bundle.flights ++ [f]
        ∧ f.remaining = lat + s.bundle.vpipe.extra + 1)

/-- Every element of a vector, under a width: element i of v is g i. -/
def Elements (w n : Nat) (v : VBits) (g : Nat → Nat) : Prop := ∀ k, k < n → elemAt w v k = g k

/-! ### The numbers that codes stand for -/

/-- The rational number of an exact value; none of an infinity or a NaN. -/
def ratOf : FV → Option ℚ
  | .zero _ => some 0
  | .fin neg m e => some ((if neg then -1 else 1) * (m : ℚ) * 2 ^ e)
  | _ => none

/-- The code c stands for a number than which no code of the format stands for one nearer to r; of two that are as near it is
the one whose last bit is 0. -/
def Nearest (f : Fmt) (r : ℚ) (c : Nat) : Prop :=
  ∃ v, ratOf (f.decode c) = some v ∧ ∀ c' v', ratOf (f.decode c') = some v' →
    |r - v| ≤ |r - v'| ∧ (|r - v| = |r - v'| → v' ≠ v → c % 2 = 0)

/-- The least magnitude that rounds to infinity: half a unit in the last place above the largest number (R93). -/
def overflowsFrom (f : Fmt) : ℚ :=
  (2 - 2 ^ (-(f.fb : Int) - 1)) * 2 ^ ((2 ^ f.eb - 2 : Int) - f.bias)

/-- A code and its flags are r rounded once: the nearest code, INEXACT where it is not r itself, UNDERFLOW where besides it is
below the normal numbers; or, from the overflow bound on, the infinity of r's sign with OVERFLOW and INEXACT (R93, R96). -/
def RoundsTo (f : Fmt) (r : ℚ) (c : Nat) (fl : Flags) : Prop :=
  (|r| < overflowsFrom f → Nearest f r c ∧
    let inx := decide (ratOf (f.decode c) ≠ some r)
    fl = { Flags.none with inexact := inx, underflow := inx && decide (c % f.sign < 2 ^ f.fb) })
  ∧ (overflowsFrom f ≤ |r| → c = f.signed (decide (r < 0)) f.infMag ∧ fl = Flags.ovf)

/-! ### Frames of the parts of the package -/

/-- Only one context differs. -/
def OnlyCtx (s t : State) (x c : Nat) : Prop :=
  t = { s with ctxs := t.ctxs } ∧ ∀ k, k ≠ ctxKey x c → tget Ctx.init t.ctxs k = tget Ctx.init s.ctxs k

/-- Only one sequencer differs. -/
def OnlySeq (s t : State) (x : Nat) : Prop :=
  t = { s with seqs := t.seqs } ∧ ∀ k, k ≠ x → t.seq k = s.seq k

/-- Only one tile differs. -/
def OnlyTile (s t : State) (y : Nat) : Prop :=
  t = { s with tiles := t.tiles } ∧ ∀ k, k ≠ y → t.tile k = s.tile k

/-- Only what one task holds on one tile differs. -/
def OnlyTt (s t : State) (x c : Nat) : Prop :=
  t = { s with ttiles := t.ttiles } ∧ ∀ k, k ≠ s.ttKey x c → tget TaskTile.init t.ttiles k = tget TaskTile.init s.ttiles k

end Sys2Proof
end

