-- ==== Sys2Proof/Certificates/Slice0/Obligations.lean ====
section
/-! DEFINITION. The statements for the provers. -/

open Sys2Proof Sys2Proof.Machine

/-- After R89 and R99: the sums and products, with the sources, the destination and the latency of each. After R89:
logic and shifts, bit by bit; a shift count is the low 6 bits. After R97 and R98: literals and code handles. -/
def Obligations.IntegerArithmeticLogicAndLiterals : Prop :=
  (
    ∀ (s : State) (a b c : SSrc) (d : SDest) (imm : BitVec 9) (sh : BitVec 3),
      let va := (s.rdS a (imm.signExtend 64)).val
      let vb := (s.rdS b (imm.signExtend 64)).val
      let na := (s.rdS a (imm.setWidth 64)).val
      let nb := (s.rdS b (imm.setWidth 64)).val
      let pa := (s.rdS a 0).val
      let pb := (s.rdS b 0).val
      let pc := (s.rdS c 0).val
      Lands s (.mov a d imm) [a] d 1 Flags.none (fun v => v = va)
      ∧ Lands s (.add a b d imm) [a, b] d 1 Flags.none (fun v => v.toNat = (va.toNat + vb.toNat) % 2 ^ 64)
      ∧ Lands s (.sub a b d imm) [a, b] d 1 Flags.none (fun v => (v.toNat + vb.toNat) % 2 ^ 64 = va.toNat)
      ∧ Lands s (.addsh a b d sh) [a, b] d 1 Flags.none (fun v => v.toNat = (pa.toNat + pb.toNat * 2 ^ sh.toNat) % 2 ^ 64)
      ∧ Lands s (.mul a b d imm) [a, b] d 4 Flags.none (fun v => v.toNat = va.toNat * vb.toNat % 2 ^ 64)
      ∧ Lands s (.mulh a b d imm) [a, b] d 4 Flags.none (fun v => v.toInt = va.toInt * vb.toInt / 2 ^ 64)
      ∧ Lands s (.mulhn a b d imm) [a, b] d 4 Flags.none (fun v => v.toNat = na.toNat * nb.toNat / 2 ^ 64)
      ∧ (∃ p, exec (.madd a b d c) s = .next (multiplying s [a, b, c] d p pc) ∧ p.toNat = pa.toNat * pb.toNat % 2 ^ 64)
      ∧ ∀ (x k : Nat) (t : Temp) (f : Flight), (s.ctx x k).flights = [f] → f.id = t.flight → f.ready = false →
          ((s.addTemp x k t).ctx x k).flights = [{ f with ready := true, vals := [⟨t.val.val + t.addend, t.val.mark⟩] }])
  ∧ (
    ∀ (s : State) (a b : SSrc) (d : SDest) (imm : BitVec 9),
      let x := (s.rdS a (imm.setWidth 64)).val
      let y := (s.rdS b (imm.setWidth 64)).val
      let n := y.toNat % 64
      let bits : Instr → (Nat → Bool) → Prop := fun i f =>
        Lands s i [a, b] d 1 Flags.none (fun v => ∀ j, j < 64 → v.getLsbD j = f j)
      bits (.and a b d imm) (fun j => x.getLsbD j && y.getLsbD j)
      ∧ bits (.or a b d imm) (fun j => x.getLsbD j || y.getLsbD j)
      ∧ bits (.xor a b d imm) (fun j => x.getLsbD j != y.getLsbD j)
      ∧ bits (.andn a b d imm) (fun j => x.getLsbD j && !y.getLsbD j)
      ∧ bits (.shl a b d imm) (fun j => decide (n ≤ j) && x.getLsbD (j - n))
      ∧ bits (.shr a b d imm) (fun j => decide (j + n < 64) && x.getLsbD (j + n))
      ∧ bits (.sar a b d imm) (fun j => x.getLsbD (if j + n < 64 then j + n else 63))
      ∧ bits (.rol a b d imm) (fun j => x.getLsbD ((j + 64 - n) % 64)))
  ∧ (
    ∀ (s : State) (a : SSrc) (d : SDest) (o : BitVec 9) (l : BitVec 24),
      Lands s (.lit l) [] .queue 1 Flags.none (fun v => v.toInt = l.toInt)
      ∧ Lands s (.lith l) [.q 0] .queue 1 Flags.none (fun v =>
          v.toNat = ((s.rdS (.q 0) 0).val.toNat * 2 ^ 24 + l.toNat) % 2 ^ 64)
      ∧ Lands s (.chdl a d o) [a] d 1 Flags.none (fun v =>
          v.toNat % 2 ^ 12 = ((s.rdS a 0).val.toNat + o.toNat) % 2 ^ 12
          ∧ (v.toNat / 2 ^ 12) % 2 ^ 45 = (s.bundle.pos.toNat / 2 ^ 12) % 2 ^ 45
          ∧ ∀ j, 57 ≤ j → j < 64 → v.getLsbD j = v.getLsbD 56))

/-- After R90: division. -/
def Obligations.DivisionFollowsR90 : Prop :=
  ∀ (s : State) (a b : SSrc) (d : SDest) (imm : BitVec 9),
    let x := (s.rdS a (imm.signExtend 64)).val
    let y := (s.rdS b (imm.signExtend 64)).val
    let m := (s.rdS a (imm.setWidth 64)).val
    let n := (s.rdS b (imm.setWidth 64)).val
    ∃ q r, exec (.div a b d imm) s = .next (landed s [a, b] d q 20 Flags.none)
      ∧ exec (.rem a b d imm) s = .next (landed s [a, b] d r 20 Flags.none)
      ∧ (y = 0 → q = BitVec.allOnes 64 ∧ r = x)
      ∧ (x = BitVec.intMin 64 ∧ y = BitVec.allOnes 64 → q = x ∧ r = 0)
      ∧ (y ≠ 0 ∧ ¬(x = BitVec.intMin 64 ∧ y = BitVec.allOnes 64) →
          x.toInt = q.toInt * y.toInt + r.toInt ∧ |r.toInt| < |y.toInt| ∧ (r.toInt ≠ 0 → (r.toInt < 0 ↔ x.toInt < 0))
          ∧ (q.toInt < 0 → (x.toInt < 0 ↔ 0 < y.toInt)))
      ∧ ∃ u w, exec (.divn a b d imm) s = .next (landed s [a, b] d u 20 Flags.none)
      ∧ exec (.remn a b d imm) s = .next (landed s [a, b] d w 20 Flags.none)
      ∧ (n = 0 → u = BitVec.allOnes 64 ∧ w = m)
      ∧ (n ≠ 0 → m.toNat = u.toNat * n.toNat + w.toNat ∧ w.toNat < n.toNat)

/-- After R89 and R91: lesser and greater, comparisons and selection. -/
def Obligations.ComparisonsAndSelection : Prop :=
  ∀ (s : State) (a b c : SSrc) (d : SDest) (imm : BitVec 9),
    let x := (s.rdS a (imm.signExtend 64)).val
    let y := (s.rdS b (imm.signExtend 64)).val
    let m := (s.rdS a (imm.setWidth 64)).val
    let n := (s.rdS b (imm.setWidth 64)).val
    let gives : Instr → (Word → Prop) → Prop := fun i p => Lands s i [a, b] d 1 Flags.none p
    gives (.min a b d imm) (fun v => v.toInt = min x.toInt y.toInt)
    ∧ gives (.max a b d imm) (fun v => v.toInt = max x.toInt y.toInt)
    ∧ gives (.minn a b d imm) (fun v => v.toNat = min m.toNat n.toNat)
    ∧ gives (.maxn a b d imm) (fun v => v.toNat = max m.toNat n.toNat)
    ∧ gives (.seq a b d imm) (fun v => v = if x = y then 1 else 0)
    ∧ gives (.sne a b d imm) (fun v => v = if x = y then 0 else 1)
    ∧ gives (.slt a b d imm) (fun v => v = if x.toInt < y.toInt then 1 else 0)
    ∧ gives (.sle a b d imm) (fun v => v = if x.toInt ≤ y.toInt then 1 else 0)
    ∧ gives (.sltn a b d imm) (fun v => v = if m.toNat < n.toNat then 1 else 0)
    ∧ gives (.slen a b d imm) (fun v => v = if m.toNat ≤ n.toNat then 1 else 0)
    ∧ Lands s (.sel a b d c) [a, b, c] d 1 Flags.none (fun v =>
        let k : Word := BitVec.ofNat 64 (encSSrc c)
        v = if (s.rdS c 0).val ≠ 0 then (s.rdS a k).val else (s.rdS b k).val)

/-- After R89 and R92: counts of bits, reversed bytes, fields. -/
def Obligations.BitCountsAndFields : Prop :=
  ∀ (s : State) (a b : SSrc) (d : SDest) (imm : BitVec 9),
    let x := (s.rdS a 0).val
    let f := (s.rdS a (imm.setWidth 64)).val
    let g := (s.rdS b (imm.setWidth 64)).val
    let pos := g.toNat % 64
    let w := g.toNat / 64 % 128
    let n := min (if w = 0 then 64 else min w 64) (64 - pos)
    let gives : Instr → (Word → Prop) → Prop := fun i p => Lands s i [a] d 1 Flags.none p
    gives (.clz a d) (fun v => v.toNat ≤ 64 ∧ x.toNat < 2 ^ (64 - v.toNat) ∧ (v.toNat < 64 → x.getLsbD (63 - v.toNat) = true))
    ∧ gives (.ctz a d) (fun v => v.toNat ≤ 64 ∧ 2 ^ v.toNat ∣ x.toNat ∧ (v.toNat < 64 → x.getLsbD v.toNat = true) ∧ (x = 0 → v = 64))
    ∧ gives (.popc a d) (fun v => v.toNat = (List.range 64).countP x.getLsbD)
    ∧ gives (.bswap a d) (fun v => ∀ j, j < 64 → v.getLsbD j = x.getLsbD (8 * (7 - j / 8) + j % 8))
    ∧ Lands s (.ext a b d imm) [a, b] d 1 Flags.none (fun v => ∀ j, j < 64 → v.getLsbD j = f.getLsbD (pos + min j (n - 1)))
    ∧ Lands s (.extn a b d imm) [a, b] d 1 Flags.none (fun v => ∀ j, j < 64 → v.getLsbD j = (decide (j < n) && f.getLsbD (pos + j)))
    ∧ ∀ k : BitVec 4, Lands s (.dep a b (.keep k) imm) [.k k, a, b] (.keep k) 1 Flags.none (fun v => ∀ j, j < 64 → v.getLsbD j =
          if pos ≤ j ∧ j < pos + n then f.getLsbD (j - pos) else (tget SVal.zero s.icx.keeps k.toNat).val.getLsbD j)

/-- After R161, R163, R164, R168, R169: what the units do with the elements of integer vectors of one tag. -/
def Obligations.IntegerLanes : Prop :=
  ∀ (s : State) (u : VPos) (y : VSrc) (xs : List Vec),
    let gives : Instr → (Tag → Tag) → (Tag → Nat → Nat → Nat → Nat) → Prop := fun i out f =>
      UnitGives s i u xs 6 (fun _ => Flags.none) (fun x v => v.tag = out x.tag ∧ v.mark = .clean ∧
        ∃ z, s.unitSecondIn u x (some y) = .ok z ∧ Elements (esz x.tag) (elems x.tag) v.bits
          (fun k => f x.tag k (elemAt (esz x.tag) x.bits k) (elemAt (esz x.tag) z.bits k)))
    let unary : Instr → (Tag → Nat → Nat) → Prop := fun i f =>
      UnitGives s i u xs 6 (fun _ => Flags.none) (fun x v => v.tag = x.tag ∧ v.mark = .clean ∧
        Elements (esz x.tag) (elems x.tag) v.bits (fun k => f x.tag (elemAt (esz x.tag) x.bits k)))
    let val : Tag → Nat → Int := fun t a => intVal (tagSigned t) (esz t) a
    let yes : Tag → Prop → Nat := fun t p => open Classical in if p then 2 ^ esz t - 1 else 0
    (s.unitIn u (some y) = .ok xs →
      (∀ x ∈ xs, tagClass x.tag = .int ∧ ∃ z, s.unitSecondIn u x (some y) = .ok z ∧ z.tag = x.tag) →
    gives (.vadd u y) id (fun t _ a b => (a + b) % 2 ^ esz t)
    ∧ gives (.vsub u y) id (fun t _ a b => (a + 2 ^ esz t - b) % 2 ^ esz t)
    ∧ gives (.vrsub u y) id (fun t _ a b => (b + 2 ^ esz t - a) % 2 ^ esz t)
    ∧ gives (.vmul u y) id (fun t _ a b => a * b % 2 ^ esz t)
    ∧ gives (.vmin u y) id (fun t _ a b => if val t a < val t b then a else b)
    ∧ gives (.vmax u y) id (fun t _ a b => if val t a < val t b then b else a)
    ∧ gives (.vshl u y) id (fun t _ a b => a * 2 ^ (b % esz t) % 2 ^ esz t)
    ∧ gives (.vshr u y) id (fun t _ a b => a / 2 ^ (b % esz t))
    ∧ gives (.vsar u y) id (fun t _ a b => intCode (esz t) (val t a / 2 ^ (b % esz t)))
    ∧ gives (.vadds u y) id (fun t _ a b =>
        intCode (esz t) (max (intMin (tagSigned t) (esz t)) (min (intMax (tagSigned t) (esz t)) (val t a + val t b))))
    ∧ gives (.vsubs u y) id (fun t _ a b =>
        intCode (esz t) (max (intMin (tagSigned t) (esz t)) (min (intMax (tagSigned t) (esz t)) (val t a - val t b))))
    ∧ gives (.vidx u y) id (fun t k a b => (a + k * b) % 2 ^ esz t)
    ∧ gives (.vceq u y) (fun _ => tMASK) (fun t _ a b => yes t (a = b))
    ∧ gives (.vclt u y) (fun _ => tMASK) (fun t _ a b => yes t (val t a < val t b))
    ∧ gives (.vcle u y) (fun _ => tMASK) (fun t _ a b => yes t (val t a ≤ val t b))
    ∧ ((∀ x ∈ xs, tagSigned x.tag = true) → gives (.vmulh u y) id (fun t _ a b => intCode (esz t) (val t a * val t b / 2 ^ esz t)))
    ∧ ((∀ x ∈ xs, tagSigned x.tag = false) → gives (.vmulhn u y) id (fun t _ a b => a * b / 2 ^ esz t)))
    ∧ (s.unitIn u none = .ok xs → (∀ x ∈ xs, tagClass x.tag = .int) →
      unary (.vabs u) (fun t a => intCode (esz t) |val t a|) ∧ unary (.vneg u) (fun t a => (2 ^ esz t - a) % 2 ^ esz t))

/-- After R161, R162, R164: the same of floating vectors: each element is the format's own operation, and the flags of
the elements in active lanes count. -/
def Obligations.FloatLanes : Prop :=
  ∀ (s : State) (u : VPos) (y : VSrc) (xs : List Vec),
    let fmt : Tag → Fmt := fun t => (fmtOf t).getD fmtF32
    let at_ : (Fmt → Nat → Nat → Nat × Flags) → Vec → Nat → Nat × Flags := fun f x k =>
      match s.unitSecondIn u x (some y) with
      | .ok z => f (fmt x.tag) (elemAt (esz x.tag) x.bits k) (elemAt (esz x.tag) z.bits k)
      | .error _ => (0, Flags.none)
    let gives : Instr → (Tag → Tag) → (Fmt → Nat → Nat → Nat × Flags) → Prop := fun i out f =>
      UnitGives s i u xs 6 (fun x => activeFlags (unitLanes s u) (esz x.tag) ((List.range (elems x.tag)).map (at_ f x)))
        (fun x v => v.tag = out x.tag ∧ v.mark = .clean ∧
          Elements (esz x.tag) (elems x.tag) v.bits (fun k => (at_ f x k).1 % 2 ^ esz x.tag))
    let cmp : FCond → Fmt → Nat → Nat → Nat × Flags := fun c f a b =>
      (if (f.cmp c a b).1 then 2 ^ (f.eb + f.fb + 1) - 1 else 0, (f.cmp c a b).2)
    let unary : Instr → (Fmt → Nat → Nat) → Prop := fun i f =>
      UnitGives s i u xs 6 (fun _ => Flags.none) (fun x v => v.tag = x.tag ∧ v.mark = .clean ∧
        Elements (esz x.tag) (elems x.tag) v.bits (fun k => f (fmt x.tag) (elemAt (esz x.tag) x.bits k)))
    (s.unitIn u (some y) = .ok xs →
      (∀ x ∈ xs, tagClass x.tag = .float ∧ ∃ z, s.unitSecondIn u x (some y) = .ok z ∧ z.tag = x.tag) →
    gives (.vadd u y) id Fmt.add
    ∧ gives (.vsub u y) id Fmt.sub
    ∧ gives (.vrsub u y) id (fun f a b => f.sub b a)
    ∧ gives (.vmul u y) id Fmt.mul
    ∧ gives (.vmin u y) id (fun f a b => f.minmax false a b)
    ∧ gives (.vmax u y) id (fun f a b => f.minmax true a b)
    ∧ gives (.vceq u y) (fun _ => tMASK) (cmp .eq)
    ∧ gives (.vclt u y) (fun _ => tMASK) (cmp .lt)
    ∧ gives (.vcle u y) (fun _ => tMASK) (cmp .le))
    ∧ (s.unitIn u none = .ok xs → (∀ x ∈ xs, tagClass x.tag = .float) →
      unary (.vabs u) (fun f a => a % 2 ^ (f.eb + f.fb))
      ∧ unary (.vneg u) (fun f a => (a + 2 ^ (f.eb + f.fb)) % 2 ^ (f.eb + f.fb + 1)))

/-- After R158 and R165: bits of two vectors, where either may be MASK; VSEL takes each lane of its first input where
the predicate is 1; PASS hands its input on (R157). -/
def Obligations.LogicSelectAndPass : Prop :=
  ∀ (s : State) (u : VPos) (y : VSrc) (xs : List Vec),
    let gives : Instr → (Bool → Bool → Bool) → Prop := fun i f =>
      UnitGives s i u xs 6 (fun _ => Flags.none) (fun x v => ∃ z, s.unitSecondIn u x (some y) = .ok z
        ∧ v.tag = (if x.tag = tMASK then z.tag else x.tag) ∧ v.mark = .clean
        ∧ ∀ j, j < 4096 → v.bits.getLsbD j = f (x.bits.getLsbD j) (z.bits.getLsbD j))
    (s.unitIn u (some y) = .ok xs → (∀ x ∈ xs, ∃ z, s.unitSecondIn u x (some y) = .ok z ∧ x.tag ≠ tVOID ∧ z.tag ≠ tVOID
        ∧ (x.tag = z.tag ∨ x.tag = tMASK ∨ z.tag = tMASK)) →
      gives (.vand u y) (fun a b => a && b) ∧ gives (.vor u y) (fun a b => a || b) ∧ gives (.vxor u y) (fun a b => a != b))
    ∧ (s.unitIn u none = .ok xs → UnitGives s (.pass u) u xs 6 (fun _ => Flags.none) (fun x v => v = x))
    ∧ (s.unitIn u (some y) = .ok xs → (∀ x ∈ xs, ∃ z, s.unitSecondIn u x (some y) = .ok z ∧ tagClass x.tag ≠ .void ∧ z.tag = x.tag) →
        UnitGives s (.vsel u y) u xs 6 (fun _ => Flags.none) (fun x v => ∃ z, s.unitSecondIn u x (some y) = .ok z
          ∧ v.tag = x.tag ∧ v.mark = .clean ∧ ∀ k, k < 128 → elemAt 32 v.bits k
            = if (tget 0 s.icx.preds (u.pred.toNat - 1)).getLsbD k then elemAt 32 x.bits k else elemAt 32 z.bits k))

/-- After R170 to R172: conversions of every element, between formats of one element count, to f parts, and from the
places of one. After R173, R200, R201: transcendentals of each element, 4 cycles later than the rest, and block
scales. -/
def Obligations.ConversionsTranscendentalsAndScales : Prop :=
  (
    ∀ (s : State) (u : VPos) (t : Tag) (p : BitVec 2) (xs : List Vec) (x : Vec) (f : Nat),
      let num : Tag → Prop := fun t => tagClass t ≠ .void ∧ t ≠ tMASK ∧ t ≠ tIDX
      let conv : Vec → Nat → Nat := fun x k => (convElem x.tag t (elemAt (esz x.tag) x.bits k)).1 % 2 ^ esz t
      num t →
      (s.unitIn u none = .ok xs → (∀ x ∈ xs, num x.tag ∧ elems x.tag = elems t) →
        UnitGives s (.vcvt u t) u xs 6 (fun x => activeFlags (unitLanes s u) (esz t) (convAll x t)) (fun x v =>
          v.tag = t ∧ v.mark = .clean ∧ Elements (esz t) (elems t) v.bits (conv x)))
      ∧ (s.unitIn u none = .ok [x] → num x.tag → elems x.tag = f * elems t → f = 2 ∨ f = 4 →
          ∃ r, exec (.vwid u t) s = .next r ∧ OnlyBundle s r ∧ r.bundle.vpipe.parts.length = f ∧ ∀ j, j < f →
            ∃ v, r.bundle.vpipe.parts[j]? = some v ∧ v.tag = t ∧ v.mark = .clean
              ∧ Elements (esz t) (elems t) v.bits (fun k => conv x (k * f + j)))
      ∧ (s.unitIn u none = .ok [x] → num x.tag → elems t = f * elems x.tag → f = 2 ∨ f = 4 → p.toNat < f →
          UnitGives s (.vnar u t p) u [x] 6 (fun x => (convAll x t).foldl (fun a q => a.or q.2) Flags.none) (fun x v =>
            v.tag = t ∧ v.mark = .clean
              ∧ Elements (esz t) (elems t) v.bits (fun k => if k % f = p.toNat then conv x (k / f) else 0))))
  ∧ (
    ∀ (s : State) (u : VPos) (y : VSrc) (xs : List Vec),
      let real : Tag → Prop := fun t => t = tF32 ∨ t = tBF16 ∨ t = tF16
      let fmt : Tag → Fmt := fun t => (fmtOf t).getD fmtF32
      (s.unitIn u none = .ok xs → (∀ x ∈ xs, real x.tag) →
        let gives : Instr → (Fmt → Nat → Nat × Flags) → Prop := fun i f =>
          UnitGives s i u xs 10 (fun x => activeFlags (unitLanes s u) (esz x.tag)
              ((List.range (elems x.tag)).map (fun k => f (fmt x.tag) (elemAt (esz x.tag) x.bits k))))
            (fun x v => v.tag = x.tag ∧ v.mark = .clean ∧ Elements (esz x.tag) (elems x.tag) v.bits
              (fun k => (f (fmt x.tag) (elemAt (esz x.tag) x.bits k)).1 % 2 ^ esz x.tag))
        gives (.vrcp u) Fmt.rcp ∧ gives (.vrsq u) Fmt.rsq ∧ gives (.vexp2 u) Fmt.exp2 ∧ gives (.vlog2 u) Fmt.log2
        ∧ gives (.vtanh u) Fmt.tanh ∧ gives (.vsigm u) Fmt.sigm ∧ gives (.vsqrt u) Fmt.sqrt)
      ∧ (s.unitIn u (some y) = .ok xs → (∀ x ∈ xs, real x.tag ∧ ∃ z, s.unitSecondIn u x (some y) = .ok z ∧ (z.tag = tIDX ∨ z.tag = tN4)) →
          let one : Vec → Nat → Nat × Flags := fun x k => match s.unitSecondIn u x (some y) with
            | .error _ => (0, Flags.none)
            | .ok z =>
              let c := s.sclAt (elemAt 4 z.bits (k / 8))
              let e : Int := if z.tag = tIDX then (c : Int) - 127 else 127 - (c : Int)
              let v := (fmt x.tag).decode (elemAt (esz x.tag) x.bits k)
              if c = 255 then ((fmt x.tag).nan, Flags.inv)
              else (((fmt x.tag).ofFV (v.scale e)).1, (Flags.invIf v.snan).or ((fmt x.tag).ofFV (v.scale e)).2)
          UnitGives s (.vscale u y) u xs 6 (fun x => activeFlags (unitLanes s u) (esz x.tag) ((List.range (elems x.tag)).map (one x)))
            (fun x v => v.tag = x.tag ∧ v.mark = .clean ∧ Elements (esz x.tag) (elems x.tag) v.bits (fun k => (one x k).1 % 2 ^ esz x.tag)))
      ∧ (s.unitIn u (some y) = .ok xs → (∀ x ∈ xs, real x.tag ∧ ∃ z, s.unitSecondIn u x (some y) = .ok z ∧ (emaxOf z.tag).isSome) →
          let one : Vec → Nat → Nat × Flags := fun x j => match s.unitSecondIn u x (some y) with
            | .error _ => (0, Flags.none)
            | .ok z => scaleIndex ((List.range 16).map (fun k => (k, s.sclAt k))) ((emaxOf z.tag).getD 0)
                (blockLog (fmt x.tag) ((List.range 8).map (fun i => elemAt (esz x.tag) x.bits (8 * j + i))))
          UnitGives s (.vscidx u y) u xs 6 (fun x => activeFlags (unitLanes s u) 4 ((List.range (elems x.tag / 8)).map (one x)))
            (fun x v => v.tag = tIDX ∧ v.mark = .clean
              ∧ Elements 4 1024 v.bits (fun j => if j < elems x.tag / 8 then (one x j).1 % 16 else 0))))

/-- After R167, R168: moves of elements across the lanes, reductions and prefix sums, in unit A. After R168: the tree
over an integer vector is the sum of its elements, or their greatest or least. -/
def Obligations.CrossLaneWorkAndTrees : Prop :=
  (
    ∀ (s : State) (u : VPos) (y : VSrc) (x z w : Vec), u.unit = .a →
      (s.unitIn u (some y) = .ok [x] → s.unitSecondIn u x (some y) = .ok z → tagClass x.tag ≠ .void → tagClass x.tag ≠ .mask →
        let moves : Instr → (Nat → Nat) → Prop := fun i at_ =>
          UnitGives s i u [x] 6 (fun _ => Flags.none) (fun x v => v.tag = x.tag ∧ v.mark = .clean ∧
            Elements (esz x.tag) (elems x.tag) v.bits (fun k => elemAt (esz x.tag) x.bits (at_ k % elems x.tag)))
        (tagClass z.tag = .int ∨ z.tag = tS4 ∨ z.tag = tN4 → elems z.tag = elems x.tag →
          moves (.vperm u y) (elemAt (esz z.tag) z.bits))
        ∧ (tagClass z.tag = .int → moves (.vrot u y) (fun k => k + elemAt (esz z.tag) z.bits 0)
          ∧ moves (.vbcast u y) (fun _ => elemAt (esz z.tag) z.bits 0)))
      ∧ (s.unitIn u none = .ok [w] → tagClass w.tag = .float ∨ tagClass w.tag = .int →
        let all : Instr → (Tag → Nat → Nat → Nat × Flags) → Prop := fun i f =>
          UnitGives s i u [w] 6 (fun x => if unitLanes s u = 0 then Flags.none else (tree f x).2) (fun x v => v.tag = x.tag
            ∧ v.mark = .clean ∧ Elements (esz x.tag) (elems x.tag) v.bits (fun _ => (tree f x).1 % 2 ^ esz x.tag))
        all (.vradd u) addElem ∧ all (.vrmax u) (minmaxElem true) ∧ all (.vrmin u) (minmaxElem false))
      ∧ (s.unitIn u none = .ok [w] → tagClass w.tag = .int →
          UnitGives s (.vscan u) u [w] 6 (fun _ => Flags.none) (fun x v => v.tag = x.tag ∧ v.mark = .clean ∧
            Elements (esz x.tag) (elems x.tag) v.bits (fun k =>
              (((List.range (k + 1)).map (elemAt (esz x.tag) x.bits)).sum) % 2 ^ esz x.tag)))
      ∧ (s.unitIn u none = .ok [w] → tagClass w.tag = .float →
          let el : Nat → Nat := elemAt (esz w.tag) w.bits
          let upTo : Nat → Nat × Flags := fun k => (List.range k).foldl (fun a i =>
            ((addElem w.tag a.1 (el (i + 1))).1, a.2.or (addElem w.tag a.1 (el (i + 1))).2)) (el 0, Flags.none)
          let last := (List.range (elems w.tag)).foldl (fun a i => if elemActive (unitLanes s u) (esz w.tag) i then i else a) 0
          UnitGives s (.vscan u) u [w] 6 (fun _ => (upTo last).2) (fun x v => v.tag = x.tag ∧ v.mark = .clean ∧
            Elements (esz x.tag) (elems x.tag) v.bits (fun k => (upTo k).1 % 2 ^ esz x.tag))))
  ∧ (
    ∀ x : Vec, tagClass x.tag = .int →
      let el : Nat → Nat := elemAt (esz x.tag) x.bits
      let val : Nat → Int := fun c => intVal (tagSigned x.tag) (esz x.tag) c
      (tree addElem x).1 = ((List.range (elems x.tag)).map el).sum % 2 ^ esz x.tag
      ∧ (∃ k, k < elems x.tag ∧ (tree (minmaxElem true) x).1 = el k) ∧ (∀ k, k < elems x.tag → val (el k) ≤ val (tree (minmaxElem true) x).1)
      ∧ (∃ k, k < elems x.tag ∧ (tree (minmaxElem false) x).1 = el k) ∧ (∀ k, k < elems x.tag → val (tree (minmaxElem false) x).1 ≤ val (el k)))

/-- After R159, R160, R164, R165: unit C lands the slot, whatever it works: a lane that is not active keeps the first operand's bits,
and a predicate destination takes bit i from lane i, of the first part where the slot has widened; PASS lands what the unit
before put out. After R158: a unit whose inputs break the rule of tags shows FMT_VOID or FMT_MISMATCH with the unit and both
tags, and puts nothing out. Choices of the model that it rests on: log 18, 87 and 111. -/
def Obligations.CascadesLandUnderTheirTags : Prop :=
  (
    ∀ (s : State) (u : VPos) (y : VSrc) (g : Tag) (part : BitVec 2), u.unit = .c →
      ∀ i ∈ [Instr.pass u, .vadd u y, .vsub u y, .vrsub u y, .vmul u y, .vmin u y, .vmax u y, .vabs u, .vneg u, .vand u y, .vor u y, .vxor u y,
        .vshl u y, .vshr u y, .vsar u y, .vadds u y, .vsubs u y, .vmulh u y, .vmulhn u y, .vceq u y, .vclt u y, .vcle u y, .vsel u y,
        .vcvt u g, .vwid u g, .vnar u g part, .vperm u y, .vrot u y, .vbcast u y, .vradd u, .vrmax u, .vrmin u, .vscan u, .vidx u y,
        .vrcp u, .vrsq u, .vexp2 u, .vlog2 u, .vtanh u, .vsigm u, .vsqrt u, .vscale u y, .vscidx u y],
      let lanes : BitVec 128 := if i = .vsel u y then BitVec.allOnes 128 else unitLanes s u
      ∃ t, exec i s = .next t ∧ OnlyBundle s t ∧ ∀ f : Flight, t.bundle.flights = s.bundle.flights ++ [f] →
        let out := t.bundle.vpipe.parts
        let lane : VBits → Nat → Nat := fun b k => if lanes.getLsbD k then elemAt 32 b k else elemAt 32 s.bundle.vpipe.a1.bits k
        f.flags = t.bundle.vpipe.flags ∧ f.vals = [] ∧ f.ready = true
        ∧ (∀ n, u.dest = .pred n → f.vecs = [] ∧ f.wreg = none ∧ ∃ b, f.pred = some (n, b) ∧ ∀ k, k < 128 →
            b.getLsbD k = decide (lane (out.headD Vec.void).bits k = 0xFFFFFFFF))
        ∧ (u.dest.isPred = false → f.pred = none ∧ (∀ n, f.wreg = some n ↔ u.dest = .w n)
            ∧ List.Forall₂ (fun x y => y.tag = x.tag ∧ y.mark = x.mark ∧ ∀ k, k < 128 → elemAt 32 y.bits k = lane x.bits k) out f.vecs))
  ∧ (
    ∀ (s : State) (u : VPos) (v : Vec) (p : List Vec), u.unit = .c → s.bundle.vpipe.parts = v :: p →
      let lane : VBits → Nat → Nat := fun b k =>
        if (unitLanes s u).getLsbD k then elemAt 32 b k else elemAt 32 s.bundle.vpipe.a1.bits k
      ∃ t, exec (.pass u) s = .next t ∧ OnlyBundle s t ∧ ∃ f : Flight, t.bundle.flights = s.bundle.flights ++ [f]
        ∧ f.remaining = 7 + s.bundle.vpipe.extra ∧ f.flags = s.bundle.vpipe.flags ∧ f.vals = [] ∧ f.ready = true
        ∧ (∀ n, u.dest = .pred n → f.vecs = [] ∧ f.wreg = none ∧ ∃ b, f.pred = some (n, b) ∧ ∀ k, k < 128 →
            b.getLsbD k = decide (lane v.bits k = 0xFFFFFFFF))
        ∧ (u.dest.isPred = false → f.pred = none ∧ (∀ n, f.wreg = some n ↔ u.dest = .w n)
            ∧ List.Forall₂ (fun x y => y.tag = x.tag ∧ y.mark = x.mark ∧ ∀ k, k < 128 → elemAt 32 y.bits k = lane x.bits k)
                (v :: p) f.vecs))
  ∧ (
    ∀ (s : State) (u : VPos) (y : VSrc) (x z : Vec), s.unitIn u (some y) = .ok [x] → s.unitSecondIn u x (some y) = .ok z →
      ∀ (i : Instr), i ∈ [.vadd u y, .vsub u y, .vrsub u y, .vmul u y, .vmin u y, .vmax u y, .vceq u y, .vclt u y, .vcle u y] →
      let shows : Cause → Prop := fun c => ∃ t, exec i s = .next t ∧ OnlyBundle s t ∧ t.bundle.flights = s.bundle.flights
        ∧ t.bundle.found = (s.unitRead u (some y)).bundle.found ++ [⟨3, s.bundle.focus, (s.unitRead u (some y)).bundle.found.length, c,
            BitVec.ofNat 64 (unitNo u.unit + x.tag.toNat * 2 ^ 8 + z.tag.toNat * 2 ^ 16), 0⟩]
      (x.tag = tVOID ∨ z.tag = tVOID → shows .fmtVoid)
      ∧ (x.tag ≠ tVOID → z.tag ≠ tVOID → (x.tag ≠ z.tag ∨ (tagClass x.tag ≠ .float ∧ tagClass x.tag ≠ .int)) → shows .fmtMismatch))

/-- After R199, R210 to R212, R228: the C slot stages its writes for the end of the next cycle; TMODE is refused with
MXE_BUSY, 1, while the task's engine runs. After R198, R199, R208, R210 to R212, R228: what these writes leave, and
that they leave everything else. -/
def Obligations.ShadowWrites : Prop :=
  (
    ∀ (s : State) (e : BitVec 4) (code : BitVec 8) (a : SSrc) (l : BitVec 3) (f : BitVec 2) (v : BitVec 20) (fa fb : BitVec 4) (g : Bool)
      (p : BitVec 13) (m : BitVec 2) (h : BitVec 24),
      let x := (s.rdS a 0).val
      exec (.sclset e code) s = .next (staged s 1 (.scl s.ix s.ic e code))
      ∧ exec (.sclsetSource e a) s = .next (staged (readAll s [a]) 1 (.scl s.ix s.ic e (x.setWidth 8)))
      ∧ exec (.nset l f v) s = .next (staged s 1 (.nest s.ix s.ic l f v))
      ∧ exec (.nsetSource l f a) s = .next (staged (readAll s [a]) 1 (.nest s.ix s.ic l f (x.setWidth 20)))
      ∧ exec (.mxcfgFmt fa fb g) s = .next (staged s 1 (.mxFmt s.ix s.ic fa fb g))
      ∧ exec (.mxcfgPa p) s = .next (staged s 1 (.mxPa s.ix s.ic p))
      ∧ exec (.mxcfgPb p) s = .next (staged s 1 (.mxPb s.ix s.ic p))
      ∧ (s.taskEngine = false → exec (.tmode m) s = .next (staged s 1 (.tmode s.ix s.ic m)))
      ∧ (s.taskEngine = true → exec (.tmode m) s = .next (showing s 3 .mxeBusy 1))
      ∧ exec (.katk h) s = .next (staged s 1 (.katExp s.ix s.ic h)))
  ∧ (
    ∀ (s : State) (x c : Nat) (e : BitVec 4) (code : BitVec 8) (l : BitVec 3) (f : BitVec 2) (v : BitVec 20) (fa fb : BitVec 4) (g : Bool)
      (p : BitVec 13) (m : BitVec 2) (h : BitVec 24),
      let k := s.ctx x c
      (let t := s.applyEff (.scl x c e code)
       OnlyTt s t x c ∧ (t.tt x c).tmode = (s.tt x c).tmode
        ∧ ∀ j, tget 0x7F (t.tt x c).scl j = if j = e.toNat then code else tget 0x7F (s.tt x c).scl j)
      ∧ (let t := s.applyEff (.tmode x c m)
         OnlyTt s t x c ∧ t.tt x c = { s.tt x c with tmode := m })
      ∧ (let t := s.applyEff (.nest x c l f v)
         OnlyCtx s t x c ∧ t.ctx x c = { k with nest := (t.ctx x c).nest } ∧ (t.ctx x c).nest.length = k.nest.length
          ∧ ∀ j, (t.ctx x c).nest[j]? = (k.nest[j]?).map (fun n => if j = l.toNat then
              (if f = 0 then { n with bound := BitVec.ofNat 16 v.toNat, role := BitVec.ofNat 2 (v.toNat / 2 ^ 18) }
               else if f = 1 then { n with sa := v } else if f = 2 then { n with sb := v } else { n with sc := v }) else n))
      ∧ (let t := s.applyEff (.mxFmt x c fa fb g)
         OnlyCtx s t x c ∧ t.ctx x c = { k with cfg := ⟨fa, fb, g, k.cfg.pa, k.cfg.pb⟩ })
      ∧ (let t := s.applyEff (.mxPa x c p)
         OnlyCtx s t x c ∧ t.ctx x c = { k with cfg := { k.cfg with pa := p } })
      ∧ (let t := s.applyEff (.mxPb x c p)
         OnlyCtx s t x c ∧ t.ctx x c = { k with cfg := { k.cfg with pb := p } })
      ∧ (let t := s.applyEff (.katExp x c h)
         OnlyCtx s t x c ∧ t.ctx x c = { k with katExp := h }))

/-- After R166, R196: PSET lands a predicate and VTAG a tag in the next cycle, neither pushing anything; VTAG of a
register tagged VOID shows FMT_VOID with the register's specifier. After R176, R177: the transfers between the scalar
and the vector cluster, landing after 3 cycles. -/
def Obligations.PredicatesTagsAndTransfers : Prop :=
  (
    ∀ (s : State) (d m pa pb : BitVec 3) (n : BitVec 8) (r : BitVec 7) (t : Tag),
      let a := tget 0 s.icx.preds pa.toNat
      let b := tget 0 s.icx.preds pb.toNat
      (m.toNat ≤ 6 → n.toNat ≤ 128 → ∃ v, exec (.pset d m pa pb n) s = .next (s.fly { s.flight 1 with pred := some (d, v) })
        ∧ ∀ j, j < 128 → v.getLsbD j =
            (if m = 0 then false else if m = 1 then decide (j < n.toNat) else if m = 2 then !a.getLsbD j
             else if m = 3 then a.getLsbD j && b.getLsbD j else if m = 4 then a.getLsbD j || b.getLsbD j
             else if m = 5 then a.getLsbD j && !b.getLsbD j else a.getLsbD j != b.getLsbD j))
      ∧ ((s.wreg s.ix s.ic r.toNat).tag ≠ tVOID → exec (.vtag r t) s = .next (s.fly { s.flight 1 with vtag := some (r, t) }))
      ∧ ((s.wreg s.ix s.ic r.toNat).tag = tVOID →
          exec (.vtag r t) s = .next (showing s 3 .fmtVoid (BitVec.ofNat 64 (0x10 + r.toNat)))))
  ∧ (
    ∀ (s : State) (a : SSrc) (t : Tag) (g : BitVec 6) (v : VSrc) (e : BitVec 4) (h : Bool),
      let x := s.rdV v
      let w := (s.rdS a 0).val
      (tagOk t = true → ∃ r : Vec, exec (.xbc a t) s = .next ((s.useS a).landV .queue [r] 3 Flags.none true) ∧ r.tag = t ∧ r.mark = .clean
        ∧ Elements (esz t) (elems t) r.bits (fun _ => w.toNat % 2 ^ esz t))
      ∧ (∃ r : Vec, exec (.xins a g) s = .next (((s.useS a).useV (.vq 0)).landV .queue [r] 3 Flags.none false) ∧ r.mark = .clean
        ∧ r.tag = (if (s.rdV (.vq 0)).tag = tVOID then tS64 else (s.rdV (.vq 0)).tag)
        ∧ Elements 64 64 r.bits (fun k => if k = g.toNat then w.toNat else elemAt 64 (s.rdV (.vq 0)).bits k))
      ∧ (tagClass x.tag ≠ .void →
          (∃ r : Word, exec (.xext v e) s = .next ((s.useV v).landS .queue r 3 Flags.none)
            ∧ (tagSigned x.tag = true → r.toInt = intVal true (esz x.tag) (elemAt (esz x.tag) x.bits e.toNat))
            ∧ (tagSigned x.tag = false → r.toNat = elemAt (esz x.tag) x.bits e.toNat))
          ∧ ∃ r : Word, exec (.xmsk v h) s = .next ((s.useV v).landS .queue r 3 Flags.none)
            ∧ ∀ j, j < 64 → r.getLsbD j = x.bits.getLsbD (32 * (64 * h.toNat + j) + 31))
      ∧ (x.tag = tVOID → exec (.xext v e) s = .next (showing (s.useV v) 3 .fmtVoid 0)
          ∧ exec (.xmsk v h) s = .next (showing (s.useV v) 3 .fmtVoid 0))
      ∧ (tagClass x.tag = .float ∨ tagClass x.tag = .int →
          let lands : Instr → (Tag → Nat → Nat → Nat × Flags) → Prop := fun i f =>
            exec i s = .next ((s.useV v).landS .queue (elemScalar x.tag (tree f x).1) 3 (tree f x).2)
          lands (.xsum v) addElem ∧ lands (.xmax v) (minmaxElem true)))

/-- After R104, R106, R108: branches. An ordinal that is no landing of the page is LAND_BAD with its handle. After
R116, R121 to R123: REALN waits for the next cycle that is a multiple of its period, TRAP and BRK post their causes
for after the commit, ERET and TEXIT name the return and the exit. -/
def Obligations.BranchesTicksTrapsAndExits : Prop :=
  (
    ∀ (s : State) (a : SSrc) (o : BitVec 12) (w : BitVec 12) (h : Word),
      let u := s.useS a
      let c := (s.rdS a 1).val
      (s.landingOf o = some w →
        exec (.br o) s = .next (s.goTo (.word w))
        ∧ exec (.brz a o) s = .next (if c = 0 then u.goTo (.word w) else u)
        ∧ exec (.brnz a o) s = .next (if c = 0 then u else u.goTo (.word w)))
      ∧ (s.landingOf o = none →
        exec (.br o) s = .next (showing s 3 .landBad (s.ordHandle o))
        ∧ exec (.brz a o) s = .next (if c = 0 then showing u 3 .landBad (s.ordHandle o) else u)
        ∧ exec (.brnz a o) s = .next (if c = 0 then u else showing u 3 .landBad (s.ordHandle o)))
      ∧ (∀ need, (need = 0 ∨ need = 1) →
        let i : Instr := if need = 0 then .brx a else .ret a
        ((s.seq s.ix).handleTarget (s.rdS a 0).val need = some h → exec i s = .next (u.goTo (.handle h)))
        ∧ ((s.seq s.ix).handleTarget (s.rdS a 0).val need = none → exec i s = .next (showing u 3 .landBad (s.rdS a 0).val))))
  ∧ (
    ∀ (s : State) (a : SSrc) (m code : BitVec 9),
      let u := s.useS a
      let p := (max m.toNat 1) * 2 ^ s.tickK.toNat
      (∃ t, p ∣ t ∧ s.gclk < t ∧ t ≤ s.gclk + p
        ∧ exec (.realn m) s = .next (if t = s.gclk + 1 then s else waiting s (.realn p t)))
      ∧ ((s.rdS a 1).val = 0 → exec (.trap a code) s = .next u)
      ∧ ((s.rdS a 1).val ≠ 0 → exec (.trap a code) s = .next
          { u with bundle := { u.bundle with post := some (.swtrap, BitVec.ofNat 64 code.toNat) } })
      ∧ exec (.brk code) s = .next { s with bundle := { s.bundle with post := some (.brk, BitVec.ofNat 64 code.toNat) } }
      ∧ exec .eret s = .next { s with bundle := { s.bundle with target := .eret } }
      ∧ exec .texit s = .next { s with bundle := { s.bundle with target := .texit } })

/-- After R45, R109: calls leave the code handle of the RETURN landing after the bundle in the queue and in k15, one
cycle later; without such a landing LAND_BAD with the bundle's own handle. RET goes to the RETURN landing that its source
names and leaves nothing; LAND_BAD where it names none. -/
def Obligations.CallsLeaveAReturn : Prop :=
  (∀ (s : State) (a : SSrc) (h : Word),
    ((s.seq s.ix).handleTarget (s.rdS a 0).val 1 = some h → exec (.ret a) s = .next ((s.useS a).goTo (.handle h)))
    ∧ ((s.seq s.ix).handleTarget (s.rdS a 0).val 1 = none → exec (.ret a) s = .next (showing (s.useS a) 3 .landBad (s.rdS a 0).val)))
  ∧ ∀ (s : State) (a : SSrc) (o w : BitVec 12) (h : Word) (p : PageInfo) (n : BitVec 12),
    s.bundlePage = some p → p.after (wordOf s.bundle.pos) = .word n →
    let u := s.useS a
    let back : State → Nat → State := fun t r =>
      t.fly { t.flight 1 with vals := [⟨mkHandle (pageOf s.bundle.pos) (BitVec.ofNat 12 r), .clean⟩], keep := some 15, ret := true }
    (∀ r, p.returnOrd n = some r →
      (s.landingOf o = some w → exec (.call o) s = .next (back (s.goTo (.word w)) r))
      ∧ ((s.seq s.ix).handleTarget (s.rdS a 0).val 0 = some h → exec (.callx a) s = .next (back (u.goTo (.handle h)) r)))
    ∧ (p.returnOrd n = none →
      (s.landingOf o = some w → exec (.call o) s = .next (showing (s.goTo (.word w)) 3 .landBad s.bundle.pos))
      ∧ ((s.seq s.ix).handleTarget (s.rdS a 0).val 0 = some h →
          exec (.callx a) s = .next (showing (u.goTo (.handle h)) 3 .landBad s.bundle.pos)))

/-- After R112, R114: LOOP and LOOPI push a level whose body runs from the next bundle to the named landing, skip it
for a count of 0 and show LOOP_DEPTH at six levels; LEAVE pops levels and branches where its source is not 0. After
R113: a loop of n iterations runs its body n times: at the end of the first n - 1 its index counts and execution goes
back to its head, and at the end of the last its level is popped and the levels around it complete in their turn. -/
def Obligations.LoopsRunTheirCount : Prop :=
  (
    ∀ (s : State) (a : SSrc) (n : BitVec 9) (e fin head : BitVec 12) (p : PageInfo) (k : BitVec 3),
      s.bundlePage = some p → s.landingOf e = some fin → p.after (wordOf s.bundle.pos) = .word head → head ≠ fin →
      p.reaches 4096 head fin [] = true →
      let u := s.useS a
      let enters : Instr → State → BitVec 32 → Prop := fun i t c =>
        (c = 0 → exec i s = .next (t.goTo (.word fin)))
        ∧ (c ≠ 0 → s.icx.loops.length = 6 → exec i s = .next (showing t 3 .loopDepth 6))
        ∧ (c ≠ 0 → s.icx.loops.length ≠ 6 → exec i s = .next
            { t with bundle := { t.bundle with push := some ⟨pageOf s.bundle.pos, head, fin, c, 0⟩ } })
      enters (.loop a e) u ((s.rdS a 1).val.setWidth 32)
      ∧ enters (.loopi n e) s (n.setWidth 32)
      ∧ ((s.rdS a 1).val = 0 → exec (.leave a e k) s = .next u)
      ∧ ((s.rdS a 1).val ≠ 0 → s.icx.loops.length < k.toNat →
          exec (.leave a e k) s = .next (showing u 3 .loopDepth (BitVec.ofNat 64 s.icx.loops.length)))
      ∧ ((s.rdS a 1).val ≠ 0 → k.toNat ≤ s.icx.loops.length → exec (.leave a e k) s = .next
          { u with bundle := { u.bundle with target := .word fin, pops := k.toNat } }))
  ∧ (
    ∀ (page : BitVec 45) (head fin : BitVec 12) (n : BitVec 32) (rest : List Level) (k : Nat), k < n.toNat →
      (fun st => (complete page st fin).1)^[k] (⟨page, head, fin, n, 0⟩ :: rest) = ⟨page, head, fin, n, BitVec.ofNat 32 k⟩ :: rest
      ∧ (k + 1 < n.toNat → (complete page (⟨page, head, fin, n, BitVec.ofNat 32 k⟩ :: rest) fin).2 = head)
      ∧ (k + 1 = n.toNat → complete page (⟨page, head, fin, n, BitVec.ofNat 32 k⟩ :: rest) fin = complete page rest fin))

/-- After R7, R345, R348: a bundle that shows no cause commits at the end of its slots: its results fly, its accesses,
bookings, effects and waits are due, its context moves on, and no byte of memory, no tile and no other context
changes. After R345: of the causes a bundle shows, the one delivered is the first by class, then slot, then the order
of the entry; a bundle that shows one has no effect but its delivery (R7, R344). One that asks for banks over the canal
is looked at again after the cycle's other bundles (R254), and so is one of which a cause hangs on such a bundle; one whose
target in another page is not resolved freezes for the resolution, unless it shows a cause of class 1 or 2 (R107). One that
would write a HELD bank by its E slot freezes (R22, R320). Choices of the model that it rests on: log 70, 92 and 118. -/
def Obligations.BundlesCommitOrAreCancelled : Prop :=
  (
    ∀ (s : State), s.bundle.active = true → s.bundle.found = [] → s.edgeFault = none → s.unresolved = none → s.bundle.starts = [] →
      s.meetsHold s.bundle = false →
      let b := s.bundle
      let n := s.successor
      let late := if b.micro then 1 else 0
      let due : Nat × Eff → Nat := fun e => match e.2 with
        | .crd .. => e.1
        | .sysr .. => e.1
        | _ => max e.1 late
      ∃ t, exec .idleBundle { s with bundle := { s.bundle with todo := [] } } = .next t
        ∧ t.bundle = Bundle.idle ∧ t.pool = s.pool ∧ t.poolGran = s.poolGran ∧ t.hbm = s.hbm ∧ t.hbmGran = s.hbmGran
        ∧ t.tiles = s.tiles ∧ t.ttiles = s.ttiles ∧ t.gclk = s.gclk
        ∧ t.accs = s.accs ++ b.accs ∧ t.books = s.books ++ b.books.filter (fun k => !k.canal)
        ∧ t.pending = s.pending ++ b.effs.map (fun e => (s.gclk + due e, e.2))
        ∧ t.ctx b.seq b.ctx = { s.ctx b.seq b.ctx with
            flights := (s.ctx b.seq b.ctx).flights ++ b.flights, pos := n.pos, entry := n.entry, loops := n.loops, countdown := none,
            bpx := false }
        ∧ (∀ y d, ctxKey y d ≠ ctxKey b.seq b.ctx → t.ctx y d = s.ctx y d)
        ∧ ∀ y, (t.seq y).pend = (s.seq y).pend ∧ (t.seq y).active = (s.seq y).active ∧ (t.seq y).tcause = (s.seq y).tcause)
  ∧ (
    (∀ l : List Found, (l = [] ↔ pickFound l = none) ∧ ∀ f, pickFound l = some f → f ∈ l ∧ ∀ g ∈ l, g.before f = false)
    ∧ ∀ (s : State), s.bundle.active = true → s.edgeFault = none →
      let done : State := { s with bundle := { s.bundle with todo := [] } }
      let idle : State := { s with bundle := Bundle.idle }
      let cancelled : Found → Prop := fun f => exec .idleBundle done
        = .next (idle.deliver s.bundle.seq ⟨.s, f.cause, f.tval, Slot.idx f.slot % 8, f.ms, true, false, 0⟩)
      (∀ f, pickFound s.bundle.found = some f → f.cause ≠ .katMismatch → s.unresolved = none → s.bundle.canals = [] → s.bundle.cond = [] →
        cancelled f)
      ∧ (∀ f, pickFound s.bundle.found = some f → s.unresolved = none → s.bundle.canals ≠ [] ∨ s.bundle.cond ≠ [] →
          exec .idleBundle done = .next { idle with
            parked := s.parked ++ [({ s.bundle with todo := [], active := false }, s.ctx s.bundle.seq s.bundle.ctx, false)] })
      ∧ ∀ h need, s.unresolved = some (h, need) →
          (∀ f, pickFound (early s.bundle.found) = some f → f.cause ≠ .katMismatch → cancelled f)
          ∧ (pickFound (early s.bundle.found) = none → s.meetsHold s.bundle = false →
              exec .idleBundle done = .next (idle.addWait s.bundle.seq s.bundle.ctx (.resolve h need))))
  ∧ (
    ∀ (s : State), s.bundle.active = true → s.meetsHold s.bundle = true →
      exec .idleBundle { s with bundle := { s.bundle with todo := [] } } = .next
        (({ s with bundle := Bundle.idle, fresh := s.fresh + 1 } : State).addWait s.bundle.seq s.bundle.ctx (.held s.fresh)))

/-- After R184, R191, R93: the one rounding of every float format of table R184 is to nearest, ties to even. After
R93, R96: FADD, FSUB, FMUL and FDIV round the exact result once; 0 ÷ 0, ∞ ÷ ∞, 0 × ∞ and ∞ − ∞ give the canonical NaN
with INVALID, x ÷ 0 an infinity with DIVZERO; an infinity with a finite number gives an infinity or a zero, exactly.
Choices of the model that it rests on: log 89. -/
def Obligations.FloatArithmeticRoundsOnce : Prop :=
  (
    ∀ (t : Tag) (f : Fmt) (n : Bool) (m : Nat) (e : Int), fmtOf t = some f → 0 < m →
      let r : ℚ := (if n then -1 else 1) * (m : ℚ) * 2 ^ e
      let g := (f.roundMag m e false).1
      let k := (f.sat n m e).1
      Nearest f r k ∧ k = f.signed n (min g f.maxMag) ∧ (g ≤ f.maxMag → (f.arith n m e false).1 = k))
  ∧ (
    ∀ (s : State) (a b : SSrc) (d : SDest) (w : Bool),
      let f := if w then fmtF64 else fmtF32
      let x := f.decode (s.rdS a 0).val.toNat
      let y := f.decode (s.rdS b 0).val.toNat
      let gives : Instr → Nat → (Nat → Flags → Prop) → Prop := fun i lat P =>
        ∃ v fl, exec i s = .next (landed s [a, b] d v lat fl) ∧ v.toNat < 2 * f.sign ∧ P v.toNat fl
      let nan : Nat → Flags → Prop := fun c fl => c = f.nan ∧ fl = Flags.inv
      let inf : Bool → Nat → Flags → Prop := fun n c fl => c = f.signed n f.infMag ∧ fl = Flags.none
      (∀ p q, ratOf x = some p → ratOf y = some q →
        gives (.fadd a b d w) 4 (fun c fl => RoundsTo f (p + q) c fl ∧ (p + q = 0 → (f.decode c).sign = (x.sign && y.sign)))
        ∧ gives (.fsub a b d w) 4 (fun c fl => RoundsTo f (p - q) c fl ∧ (p = q → (f.decode c).sign = (x.sign && !y.sign)))
        ∧ gives (.fmul a b d w) 4 (fun c fl => RoundsTo f (p * q) c fl ∧ (f.decode c).sign = (x.sign != y.sign))
        ∧ (q ≠ 0 → gives (.fdiv a b d w) 16 (fun c fl => RoundsTo f (p / q) c fl ∧ (f.decode c).sign = (x.sign != y.sign)))
        ∧ (q = 0 → p ≠ 0 → gives (.fdiv a b d w) 16 (fun c fl => c = f.signed (x.sign != y.sign) f.infMag ∧ fl = Flags.dz))
        ∧ (q = 0 → p = 0 → gives (.fdiv a b d w) 16 nan))
      ∧ (∀ n m, x = .inf n → y = .inf m →
        gives (.fdiv a b d w) 16 nan ∧ gives (.fadd a b d w) 4 (if n = m then inf n else nan)
        ∧ gives (.fsub a b d w) 4 (if n = m then nan else inf n) ∧ gives (.fmul a b d w) 4 (inf (n != m)))
      ∧ (∀ n q, x = .inf n → ratOf y = some q →
        gives (.fadd a b d w) 4 (inf n) ∧ gives (.fsub a b d w) 4 (inf n) ∧ (q ≠ 0 → gives (.fmul a b d w) 4 (inf (n != y.sign)))
        ∧ gives (.fdiv a b d w) 16 (inf (n != y.sign)))
      ∧ (∀ n p, y = .inf n → ratOf x = some p →
        gives (.fadd a b d w) 4 (inf n) ∧ gives (.fsub a b d w) 4 (inf (!n)) ∧ (p ≠ 0 → gives (.fmul a b d w) 4 (inf (x.sign != n)))
        ∧ gives (.fdiv a b d w) 16 (fun c fl => c = f.signed (x.sign != n) 0 ∧ fl = Flags.none))
      ∧ (∀ n m, (x = .inf n ∧ y = .zero m) ∨ (x = .zero n ∧ y = .inf m) → gives (.fmul a b d w) 4 nan)
      ∧ (x.isNan = true ∨ y.isNan = true → ∀ i ∈ [Instr.fadd a b d w, .fsub a b d w, .fmul a b d w],
          gives i 4 (fun c fl => c = f.nan ∧ fl = Flags.invIf (x.snan || y.snan)))
      ∧ (x.isNan = true ∨ y.isNan = true → gives (.fdiv a b d w) 16 (fun c fl => c = f.nan ∧ fl = Flags.invIf (x.snan || y.snan))))

/-- After R93, R94: the lesser and the greater number, the comparisons and the square root. After R95: the conversions
are one rounding of the exact source value, saturating. -/
def Obligations.FloatOrderRootsAndConversions : Prop :=
  (
    ∀ (s : State) (a b : SSrc) (d : SDest) (w : Bool),
      let f := if w then fmtF64 else fmtF32
      let cx := (s.rdS a 0).val.toNat % (2 * f.sign)
      let cy := (s.rdS b 0).val.toNat % (2 * f.sign)
      let x := f.decode cx
      let y := f.decode cy
      let gives : Instr → (Nat → Flags → Prop) → Prop := fun i P =>
        ∃ v fl, exec i s = .next (landed s [a, b] d v 4 fl) ∧ P v.toNat fl
      let snan := Flags.invIf (x.snan || y.snan)
      (∀ p q, ratOf x = some p → ratOf y = some q →
        gives (.fmin a b d w) (fun c fl => (c = cx ∨ c = cy) ∧ ratOf (f.decode c) = some (min p q)
          ∧ (p = q → (f.decode c).sign = (x.sign || y.sign)) ∧ fl = Flags.none)
        ∧ gives (.fmax a b d w) (fun c fl => (c = cx ∨ c = cy) ∧ ratOf (f.decode c) = some (max p q)
          ∧ (p = q → (f.decode c).sign = (x.sign && y.sign)) ∧ fl = Flags.none)
        ∧ gives (.fcmp a b d w .eq) (fun v fl => v = (if p = q then 1 else 0) ∧ fl = Flags.none)
        ∧ gives (.fcmp a b d w .ne) (fun v fl => v = (if p = q then 0 else 1) ∧ fl = Flags.none)
        ∧ gives (.fcmp a b d w .lt) (fun v fl => v = (if p < q then 1 else 0) ∧ fl = Flags.none)
        ∧ gives (.fcmp a b d w .le) (fun v fl => v = (if p ≤ q then 1 else 0) ∧ fl = Flags.none)
        ∧ gives (.fcmp a b d w .un) (fun v fl => v = 0 ∧ fl = Flags.none))
      ∧ (∀ n, x = .inf n ∨ y = .inf n → x.isNan = false → y.isNan = false →
        -- an infinity is beyond every number, and equal to itself alone
        let first := decide (x = .inf true ∨ y = .inf false)
        gives (.fmin a b d w) (fun c fl => c = (if first then cx else cy) ∧ fl = Flags.none)
        ∧ gives (.fmax a b d w) (fun c fl => c = (if first then cy else cx) ∧ fl = Flags.none)
        ∧ gives (.fcmp a b d w .eq) (fun v fl => v = (if x = y then 1 else 0) ∧ fl = Flags.none)
        ∧ gives (.fcmp a b d w .ne) (fun v fl => v = (if x = y then 0 else 1) ∧ fl = Flags.none)
        ∧ gives (.fcmp a b d w .lt) (fun v fl => v = (if x ≠ y ∧ first then 1 else 0) ∧ fl = Flags.none)
        ∧ gives (.fcmp a b d w .le) (fun v fl => v = (if x = y ∨ first then 1 else 0) ∧ fl = Flags.none)
        ∧ gives (.fcmp a b d w .un) (fun v fl => v = 0 ∧ fl = Flags.none))
      ∧ (x.isNan = true ∨ y.isNan = true →
        gives (.fcmp a b d w .eq) (fun v fl => v = 0 ∧ fl = snan) ∧ gives (.fcmp a b d w .ne) (fun v fl => v = 1 ∧ fl = snan)
        ∧ gives (.fcmp a b d w .un) (fun v fl => v = 1 ∧ fl = snan)
        ∧ gives (.fcmp a b d w .lt) (fun v fl => v = 0 ∧ fl = Flags.inv) ∧ gives (.fcmp a b d w .le) (fun v fl => v = 0 ∧ fl = Flags.inv)
        ∧ ∀ i ∈ [Instr.fmin a b d w, .fmax a b d w], gives i (fun c fl => fl = snan
            ∧ c = if x.isNan = true then (if y.isNan = true then f.nan else cy) else cx))
      ∧ (∀ r, ratOf x = some r → 0 ≤ r → ∃ v fl, exec (.fsqrt a d w) s = .next (landed s [a] d v 16 fl)
          ∧ ∃ z, ratOf (f.decode v.toNat) = some z ∧ (f.decode v.toNat).sign = x.sign ∧ fl = Flags.inxIf (decide (z * z ≠ r))
            ∧ ∀ c' z', ratOf (f.decode c') = some z' → 0 ≤ z' →
              (z < z' → r ≤ ((z + z') / 2) ^ 2) ∧ (z' < z → ((z + z') / 2) ^ 2 ≤ r))
      ∧ (∀ r, ratOf x = some r → r < 0 → ∃ v, exec (.fsqrt a d w) s = .next (landed s [a] d v 16 Flags.inv) ∧ v.toNat = f.nan)
      ∧ (∀ n, x = .inf n → ∃ v, exec (.fsqrt a d w) s = .next (landed s [a] d v 16 (if n then Flags.inv else Flags.none))
          ∧ v.toNat = if n then f.nan else f.infMag)
      ∧ (x.isNan = true → ∃ v, exec (.fsqrt a d w) s = .next (landed s [a] d v 16 (Flags.invIf x.snan)) ∧ v.toNat = f.nan))
  ∧ (
    ∀ (s : State) (a : SSrc) (d : SDest) (w : Bool),
      let f := if w then fmtF64 else fmtF32
      let u := (s.rdS a 0).val
      let x := f.decode u.toNat
      let gives : FKind → (Word → Flags → Prop) → Prop := fun k P =>
        ∃ v fl, exec (.fcvt a d w k) s = .next (landed s [a] d v 4 fl) ∧ P v fl
      let toward : FKind → Int → Int → (Word → Int) → Prop := fun k lo hi val =>
        (∀ r, ratOf x = some r → ∃ n : Int, |r - n| ≤ 1 / 2 ∧ (|r - n| = 1 / 2 → n % 2 = 0) ∧
          gives k (fun v fl => val v = max lo (min hi n) ∧ fl = if n < lo ∨ hi < n then Flags.inv else Flags.inxIf (decide ((n : ℚ) ≠ r))))
        ∧ ((∀ r, ratOf x ≠ some r) → gives k (fun v fl => val v = (if x.sign then lo else hi) ∧ fl = Flags.inv))
      toward .toS64 (-2 ^ 63) (2 ^ 63 - 1) BitVec.toInt
      ∧ toward .toN64 0 (2 ^ 64 - 1) (fun v => v.toNat)
      ∧ gives .ofS64 (fun v fl => RoundsTo f u.toInt v.toNat fl)
      ∧ gives .ofN64 (fun v fl => RoundsTo f u.toNat v.toNat fl)
      ∧ (w = false → (∀ r, ratOf x = some r → gives .other (fun v fl => ratOf (fmtF64.decode v.toNat) = some r ∧ fl = Flags.none))
          ∧ (∀ n, x = .inf n → gives .other (fun v fl => fmtF64.decode v.toNat = .inf n ∧ fl = Flags.none))
          ∧ (x.isNan = true → gives .other (fun v fl => v.toNat = fmtF64.nan ∧ fl = Flags.invIf x.snan)))
      ∧ (w = true → (∀ r, ratOf x = some r → |r| < overflowsFrom fmtF32 → gives .other (fun v fl => RoundsTo fmtF32 r v.toNat fl))
          ∧ (∀ r, ratOf x = some r → overflowsFrom fmtF32 ≤ |r| →
              gives .other (fun v fl => v.toNat = fmtF32.signed x.sign 0x7F7FFFFF ∧ fl = Flags.ovf))
          ∧ (∀ n, x = .inf n → gives .other (fun v fl => fmtF32.decode v.toNat = .inf n ∧ fl = Flags.none))
          ∧ (x.isNan = true → gives .other (fun v fl => v.toNat = fmtF32.nan ∧ fl = Flags.invIf x.snan))))

/-- After R179, R252: the checks of an address in their order, and what passes them. `a` is the source's value, `o`
the scaled offset, `n` the bytes, `al` the alignment. After R181, R259: strided accesses and pairs. Choices of the
model that it rests on: log 19 and 24. -/
def Obligations.AddressesStridesAndPairs : Prop :=
  (
    ∀ (s : State) (a : Word) (o n al : Nat) (canalToo : Bool) (rule : TargetRule), 0 < n → n ≤ al → 0x10000 % al = 0 →
      let r := s.checkAddr a o n al canalToo rule
      let e := a.toNat % 2 ^ 22 + o
      let near := a.toNat < 2 ^ 22
      let far := canalToo = true ∧ ¬near ∧ a.toNat / 2 ^ 30 = 1
      let t := if near then tileOf s.ix else 65 * (a.toNat / 2 ^ 28 % 4) + a.toNat / 2 ^ 22 % 64
      let allowed := (match rule with | .scratch => s.scratchOk s.ix s.ic t (e / 0x10000) | .acc => s.accOk s.ix s.ic t (e / 0x10000)) = true
      let shows : Cause → Prop := fun c => ∃ v, r = .error (c, v)
      (¬(near ∨ far) ∨ 2 ^ 22 ≤ e → shows .spRange)
      ∧ ((near ∨ far) → e < 2 ^ 22 → e % al ≠ 0 → r = .error (.align, BitVec.ofNat 64 e))
      ∧ (e < 2 ^ 22 → e % al = 0 → far → s.canalReach s.ix s.ic t = false → r = .error (.canalScope, a))
      ∧ ((near ∨ far) → e < 2 ^ 22 → e % al = 0 → (far → s.canalReach s.ix s.ic t = true) → ¬allowed →
          r = .error (.spRange, BitVec.ofNat 64 e))
      ∧ ((near ∨ far) → e < 2 ^ 22 → e % al = 0 → (far → s.canalReach s.ix s.ic t = true) → allowed →
          ∃ p, r = .ok p ∧ p.tile = t ∧ p.off = e ∧ (p.canal = true ↔ far)))
  ∧ (
    ∀ (s : State) (a b : SSrc) (d : VDest) (v : VSrc) (t : Tag) (k : BitVec 4) (o : BitVec 12),
      let base := (s.rdS a 0).val.toNat
      let st := (tget SVal.zero s.icx.keeps k.toNat).val.toInt
      let own := tileOf s.ix
      let place : Nat → Int := fun j => (base : Int) + j * st
      let fits : Tag → Prop := fun t => ∀ j, j < elems t →
        0 ≤ place j ∧ place j < 2 ^ 22 ∧ place j % (esz t / 8 : Nat) = 0 ∧ s.scratchOk s.ix s.ic own ((place j).toNat / 0x10000) = true
      let idle : Tag → Prop := fun t => ∀ j, j < elems t → s.conflict own ((place j).toNat / 0x10000) (s.gclk + 1) = none
      let mine : PoolAddr := ⟨own, base, false⟩
      let banks : Tag → List Nat := fun t => ((List.range (elems t)).map (fun j => (place j).toNat / 0x10000)).dedup
      (base < 2 ^ 22 → 8 ≤ esz t → fits t → idle t → (∀ j, j < elems t → s.poolComp own (place j).toNat (esz t / 8) = false) →
        exec (.ldvs a d t k) s = .next (loading s ((s.useS a).useS (.k k)).bundle.found (banks t) mine (s.gclk + 1) (.ldvs t st)
          { s.flight 5 with vecs := [Vec.void], wreg := match d with | .w n => some n | _ => none }))
      ∧ (let x := s.rdV v
        base < 2 ^ 22 → x.tag ≠ tVOID → x.tag ≠ tMASK → 8 ≤ esz x.tag → fits x.tag → idle x.tag →
        exec (.stvs a v k) s = .next (storing s (((s.useS a).useV v).useS (.k k)).bundle.found (banks x.tag) mine (s.gclk + 1)
          (.stvs x.tag x.bits st)))
      ∧ ∀ p, s.checkAddr (s.rdS a 0).val (o.toNat * 16) 16 16 false .scratch = .ok p →
        let temp : Temp := ⟨s.fresh, ⟨(s.rdS a 0).val + BitVec.ofNat 64 (o.toNat * 16), .clean⟩, 0⟩
        let twoSteps : State → State := fun t => { t with bundle := { t.bundle with micro := true, temps := s.bundle.temps ++ [temp] } }
        (s.poolComp p.tile p.off 16 = false → exec (.ldpair a o) s = .next (twoSteps (loading s (s.useS a).bundle.found [] p (s.gclk + 2)
          .ldpair { s.flight 5 with vals := [SVal.zero, SVal.zero] })))
        ∧ (exec (.stpair a b o) s = .next (twoSteps (storing s
          (((s.useS a).useS b).useS (pairNext b)).bundle.found [] p (s.gclk + 2) (.stpair (s.rdS b 0).val (s.rdS (pairNext b) 0).val)))))

/-- After R180, R223, R252 to R258: scalar and vector loads and LDA stage an access that performs in the next cycle,
or over the canal after 4 + h, and a result 4 or 5 cycles after the issue, or 8 + 2h. A failed check of the address, and
a granule held in compressed form, show their cause and stage nothing; a bank taken in the perform cycle shows
BANK_CONFLICT beside what the bundle has staged, which its cancellation discards. Choices of the model that it rests on:
log 19 (what TVAL names) and 80. -/
def Obligations.LoadsAreStaged : Prop :=
  ∀ (s : State) (a : SSrc) (d : SDest) (e : VDest) (t : Tag) (o : BitVec 12) (m : BitVec 7) (p : PoolAddr),
    let u := s.useS a
    let h := hops (tileOf s.ix) p.tile
    let at_ := if p.canal then s.gclk + 4 + h else s.gclk + 1
    let cross : Bool := p.canal && decide (dieOf p.tile ≠ dieOf (tileOf s.ix))
    let banks := if cross then [] else [p.off / 0x10000]
    let loads : Instr → Nat → Nat → TargetRule → Nat → AccKind → (Flight → Flight) → Prop := fun i off n rule base k fill =>
      let r := s.checkAddr (s.rdS a 0).val (off * n) n n true rule
      let f := fill (s.flight (if p.canal then 8 + 2 * h else base))
      (r = .ok p → s.poolComp p.tile p.off n = false ∨ rule = .acc → (p.canal = false → Free s p at_) →
        exec i s = .next (loading s u.bundle.found banks p at_ k f))
      ∧ (∀ v, r = .ok p → p.canal = false → s.conflict p.tile (p.off / 0x10000) at_ = some v →
          s.poolComp p.tile p.off n = false ∨ rule = .acc →
          exec i s = .next (loading s (showing u 3 .bankConflict v).bundle.found [] p at_ k f))
      ∧ (r = .ok p → s.poolComp p.tile p.off n = true → rule = .scratch →
        exec i s = .next (showing u 3 .compressedLoad (BitVec.ofNat 64 p.off)))
      ∧ ∀ c v, r = .error (c, v) → exec i s = .next (showing u 3 c v)
    let word : Flight → Flight := fun f => { f with vals := [SVal.zero], keep := destKeep d }
    let vec : Flight → Flight := fun f => { f with vecs := [Vec.void], wreg := match e with | .w n => some n | _ => none }
    loads (.ldb a d o) o.toNat 1 .scratch 4 (.load 1 true) word
    ∧ loads (.ldbn a d o) o.toNat 1 .scratch 4 (.load 1 false) word
    ∧ loads (.ldh a d o) o.toNat 2 .scratch 4 (.load 2 true) word
    ∧ loads (.ldhn a d o) o.toNat 2 .scratch 4 (.load 2 false) word
    ∧ loads (.ldw a d o) o.toNat 4 .scratch 4 (.load 4 true) word
    ∧ loads (.ldwn a d o) o.toNat 4 .scratch 4 (.load 4 false) word
    ∧ loads (.ldd a d o) o.toNat 8 .scratch 4 (.load 8 false) word
    ∧ loads (.ldv a e t m) m.toNat 512 .scratch 5 (.ldv t) vec
    ∧ ((s.slotAlloc p.tile (p.off / 0x4000) = true → s.drainOk p.tile p.off 512 = true) →
        loads (.lda a e o) o.toNat 512 .acc 5 .lda vec)

/-- After R180, R223, R225, R252 to R258, R320: scalar, vector and accumulator stores stage an access that performs in
the next cycle, or over the canal after 4 + h. One whose bank is HELD in its perform cycle changes no byte of a pool, its
booking lapses and it waits, its sequencer frozen. -/
def Obligations.StoresAreStaged : Prop :=
  (∀ (s : State),
    let t := s.meetHeld
    t.pool = s.pool ∧ t.poolGran = s.poolGran
    ∧ ∀ a ∈ s.accs, a.at_ = some s.gclk → a.cross = false → a.kind.holds = true → s.anyHeld a.tile a.banks = true →
      (∀ b ∈ t.accs, b.id = a.id → b.at_ = none)
      ∧ (∀ k ∈ t.books, ¬(k.tile = a.tile ∧ k.bank ∈ a.banks ∧ k.cycle = s.gclk))
      ∧ .held a.id ∈ (t.ctx a.seq (((s.seq a.seq).active).getD a.ctx)).waits)
  ∧ ∀ (s : State) (a b : SSrc) (v : VSrc) (pr : BitVec 3) (o : BitVec 12) (m : BitVec 9) (p : PoolAddr),
    let at_ := if p.canal then s.gclk + 4 + hops (tileOf s.ix) p.tile else s.gclk + 1
    let cross : Bool := p.canal && decide (dieOf p.tile ≠ dieOf (tileOf s.ix))
    let banks := if cross then [] else [p.off / 0x10000]
    let stores : Instr → Nat → Nat → TargetRule → AccKind → State → Prop := fun i off n rule k u =>
      let r := s.checkAddr (s.rdS a 0).val (off * n) n n true rule
      (r = .ok p → (p.canal = false → Free s p at_) →
        exec i s = .next (storing s u.bundle.found banks p at_ k))
      ∧ (∀ x, r = .ok p → p.canal = false → s.conflict p.tile (p.off / 0x10000) at_ = some x →
          exec i s = .next (storing s (showing u 3 .bankConflict x).bundle.found [] p at_ k))
      ∧ ∀ c x, r = .error (c, x) → exec i s = .next (showing u 3 c x)
    let w := (s.rdS b 0).val
    let x := s.rdV v
    let us := (s.useS a).useS b
    let uv := (s.useS a).useV v
    stores (.stb a b o) o.toNat 1 .scratch (.store 1 w) us
    ∧ stores (.sth a b o) o.toNat 2 .scratch (.store 2 w) us
    ∧ stores (.stw a b o) o.toNat 4 .scratch (.store 4 w) us
    ∧ stores (.std a b o) o.toNat 8 .scratch (.store 8 w) us
    ∧ stores (.stv a v o) o.toNat 512 .scratch (.stv x.bits (BitVec.allOnes 128)) uv
    ∧ stores (.stvm a v pr m) m.toNat 512 .scratch (.stv x.bits (tget 0 s.icx.preds pr.toNat)) uv
    ∧ (let slot := p.off / 0x4000
      let tag := tget 0 (s.tile p.tile).slotTags slot
      s.slotAlloc p.tile slot = true → s.drainOk p.tile p.off 512 = true → x.tag = tag → x.tag ≠ tVOID →
        stores (.sta a v o) o.toNat 512 .acc (.sta x.bits tag) uv ∧ stores (.staa a v o) o.toNat 512 .acc (.staa x.bits tag) uv)

/-- After R2, R180 to R182, R223, R257, R259: a load that performs brings the bytes of its place, little-endian,
sign-extended where it is signed, poisoned where a granule of it is marked; it changes no byte of memory. After R2,
R180, R181, R223, R259, R264, R348: a store that performs writes its bytes, the lowest first, and no other byte of any
memory. Choices of the model that it rests on: log 37. -/
def Obligations.AccessesMoveTheirBytes : Prop :=
  (
    ∀ (s : State) (a : Acc), s.underReset a.tile = false → a.kind.writes = false →
      let t := s.performAcc a
      let byte : Nat → Byte := fun j => tget 0 s.pool (2 ^ 22 * a.tile + a.off + j)
      let after := t.ctx a.seq a.ctx
      let brings : (Flight → Prop) → Prop := fun P => ∀ f ∈ (s.ctx a.seq a.ctx).flights, f.id = a.id →
        ∃ g ∈ after.flights, g.id = a.id ∧ g.ready = true ∧ g.remaining = f.remaining ∧ g.keep = f.keep ∧ g.wreg = f.wreg ∧ P g
      let marked : Nat → Mark := fun n => if s.poolBad a.tile a.off n then .poison else .clean
      (∀ n sg, a.kind = .load n sg → 0 < n → n ≤ 8 → brings (fun g => ∃ v, g.vals = [⟨v, marked n⟩]
          ∧ ∀ j, j < 64 → v.getLsbD j = if j < 8 * n then (byte (j / 8)).getLsbD (j % 8) else (sg && (byte (n - 1)).getLsbD 7)))
      ∧ (∀ tag, a.kind = .ldv tag → brings (fun g => ∃ v, g.vecs = [⟨tag, v, marked 512⟩]
          ∧ ∀ j, j < 512 → elemAt 8 v j = (byte j).toNat))
      ∧ (∀ tag st, a.kind = .ldvs tag st → esz tag % 8 = 0 → (∀ k, k < elems tag → 0 ≤ (a.off : Int) + k * st) →
          brings (fun g => ∃ v m, g.vecs = [⟨tag, v, m⟩]
          ∧ ∀ k j, k < elems tag → j < esz tag / 8 →
            elemAt 8 v (esz tag / 8 * k + j) = (tget 0 s.pool (2 ^ 22 * a.tile + ((a.off : Int) + k * st).toNat + j)).toNat))
      ∧ (a.kind = .lda → brings (fun g => if s.slotAlloc a.tile (a.off / 0x4000) then
            ∃ v, g.vecs = [⟨tget 0 (s.tile a.tile).slotTags (a.off / 0x4000), v, marked 512⟩] ∧ ∀ j, j < 512 → elemAt 8 v j = (byte j).toNat
          else g.vecs = [Vec.void] ∧ g.flags.voidrd = true))
      ∧ (a.kind = .ldpair → brings (fun g => ∃ v w m n, g.vals = [⟨v, m⟩, ⟨w, n⟩]
          ∧ ∀ j, j < 64 → v.getLsbD j = (byte (j / 8)).getLsbD (j % 8) ∧ w.getLsbD j = (byte (8 + j / 8)).getLsbD (j % 8)))
      ∧ t.pool = s.pool ∧ t.hbm = s.hbm ∧ t.poolGran = s.poolGran ∧ t.hbmGran = s.hbmGran
          ∧ ∀ y d, ctxKey y d ≠ ctxKey a.seq a.ctx → t.ctx y d = s.ctx y d)
  ∧ (
    ∀ (s : State) (a : Acc), s.underReset a.tile = false → (∀ b ∈ a.banks, s.zeroingBank a.tile b = false) →
      let t := s.performAcc a
      let at_ : Nat → Nat := fun o => 2 ^ 22 * a.tile + o
      let rest : (Nat → Prop) → Prop := fun own => t.hbm = s.hbm ∧ t.hbmGran = s.hbmGran ∧ t.ctxs = s.ctxs ∧ t.seqs = s.seqs ∧ t.tiles = s.tiles
        ∧ t.ttiles = s.ttiles ∧ ∀ k, (¬∃ o, own o ∧ k = at_ o) → tget 0 t.pool k = tget 0 s.pool k
      (∀ n v, a.kind = .store n v → (∀ j, j < n → tget 0 t.pool (at_ (a.off + j)) = BitVec.ofNat 8 (v.toNat / 2 ^ (8 * j)))
        ∧ rest (fun o => a.off ≤ o ∧ o < a.off + n))
      ∧ (∀ v m, a.kind = .stv v m → (∀ j, j < 512 → m.getLsbD (j / 4) = true →
            (tget 0 t.pool (at_ (a.off + j))).toNat = elemAt 8 v j)
        ∧ rest (fun o => a.off ≤ o ∧ o < a.off + 512 ∧ m.getLsbD ((o - a.off) / 4) = true))
      ∧ (∀ v tag, a.kind = .sta v tag → (∀ j, j < 512 → (tget 0 t.pool (at_ (a.off + j))).toNat = elemAt 8 v j)
        ∧ rest (fun o => a.off ≤ o ∧ o < a.off + 512))
      ∧ (∀ v tag, a.kind = .staa v tag → rest (fun o => a.off ≤ o ∧ o < a.off + 512)
        ∧ (tag = tS32 → ∀ k, k < 128 → t.rdPool a.tile (a.off + 4 * k) 4 = (s.rdPool a.tile (a.off + 4 * k) 4 + elemAt 32 v k) % 2 ^ 32)
        ∧ (tag = tF32 → ∀ k, k < 128 → t.rdPool a.tile (a.off + 4 * k) 4 = (fmtF32.add (s.rdPool a.tile (a.off + 4 * k) 4) (elemAt 32 v k)).1))
      ∧ (∀ v w, a.kind = .stpair v w → (∀ j, j < 8 → tget 0 t.pool (at_ (a.off + j)) = BitVec.ofNat 8 (v.toNat / 2 ^ (8 * j))
          ∧ tget 0 t.pool (at_ (a.off + 8 + j)) = BitVec.ofNat 8 (w.toNat / 2 ^ (8 * j)))
        ∧ rest (fun o => a.off ≤ o ∧ o < a.off + 16))
      ∧ (∀ tag v st, a.kind = .stvs tag v st → esz tag % 8 = 0 → (∀ k, k < elems tag → 0 ≤ (a.off : Int) + k * st) →
        rest (fun o => ∃ k, k < elems tag ∧ (a.off : Int) + k * st ≤ o ∧ o < (a.off : Int) + k * st + (esz tag / 8 : Nat))
        ∧ ((∀ k l, k < l → l < elems tag → ((esz tag / 8 : Nat) : Int) ≤ |((k : Int) - l) * st|) → ∀ k j, k < elems tag → j < esz tag / 8 →
          (tget 0 t.pool (at_ (((a.off : Int) + k * st).toNat + j))).toNat = elemAt 8 v (esz tag / 8 * k + j))))

/-- After R214, R219, R227, R229, R236, R237, R242, R273, R274: the operations that start engines pass their checks
and start what their operands say from the next cycle; those that stop them stage the stop. Where an engine or the last
chain place is taken only by what the partner's bundle of the same cycle starts, and that bundle may still be cancelled
(`s.calm` is the package without it), the start is staged and its cause hangs on the partner's bundle. Choices of the
model that it rests on: log 92 (what a partner's start of the same cycle does) and 110, 111, 114. -/
def Obligations.EnginesStartAndStop : Prop :=
  ∀ (s : State) (f : MxgoF) (g : VggoF) (a : SSrc) (c : BitVec 6) (fmt : BitVec 4) (seed : BitVec 8),
    let k := s.icx
    let own := tileOf s.ix
    let v : SSrc → Nat := fun x => (s.rdS x 0).val.toNat
    let starting : State → Start → State := fun u e => { u with bundle := { u.bundle with starts := u.bundle.starts ++ [e] } }
    let hanging : Cause → Word → State → State := fun c w u =>
      { u with bundle := { u.bundle with cond := u.bundle.cond ++ [⟨3, u.bundle.focus, u.bundle.found.length, c, w, 0⟩] } }
    let go : State → State := fun u => match s.engineBusy with
      | some w => hanging .mxeBusy w u
      | none => u
    let clear := s.engineBusy = none ∨ s.calm.engineBusy = none
    let mine : Int → Prop := fun t => 0 ≤ t ∧ t < 256 ∧ s.accOk s.ix s.ic own (t.toNat / 4) = true ∧ s.slotAlloc own t.toNat = true
    (let z := s.mxgoNest f
      let scaled := k.cfg.fmt.scaled
      let ops := [v f.a, v f.b] ++ if scaled then [v f.sa, v f.sb] else []
      let u := readAll s ([f.a, f.b, f.c] ++ if scaled then [f.sa, f.sb] else [])
      clear → nestBad k.nest k.cfg (v f.c / 2 ^ 14 % 2 ^ 8) f = none → (∀ x ∈ ops, x % 32 = 0 ∧ x < 2 ^ 22) →
      v f.c % 0x4000 = 0 → v f.c < 2 ^ 22 → s.rangeFail z z.steps 0 = none → (∀ t ∈ nestSlots z, mine t ∧ s.slotTag own t.toNat = k.cfg.fmt.acc) →
      (k.cfg.g = true → (s.rdV f.x).tag = tN16) →
      (k.cfg.g = true → (s.rdV f.x).mark = .poison →
        exec (.mxgo f) s = .next (showing (go u) 3 .poisonUse (BitVec.ofNat 64 (encVSrc f.x))))
      ∧ ((k.cfg.g = true → (s.rdV f.x).mark ≠ .poison) →
        exec (.mxgo f) s = .next (starting (go (if k.cfg.g then u.useV f.x else u)) (.nest z)))
        ∧ z.issued = s.gclk ∧ z.seq = s.ix ∧ z.ctx = s.ic ∧ z.levels = k.nest ∧ z.cfg = k.cfg ∧ z.a = v f.a ∧ z.b = v f.b ∧ z.c = v f.c
        ∧ z.steps = (k.nest.map (fun l => l.bound.toNat)).prod ∧ z.landed = 0 ∧ z.n = 0)
    ∧ (clear → exec (.katgo fmt seed) s = .next (starting (go s) (.kat ⟨s.gclk, s.ix, s.ic, fmt, seed, 0⟩)))
    ∧ (∀ w, s.engineBusy = some w → s.calm.engineBusy ≠ none → exec (.katgo fmt seed) s = .next (showing s 3 .mxeBusy w)
        ∧ ∃ u, OnlyBundle s u ∧ exec (.mxgo f) s = .next (showing u 3 .mxeBusy w))
    ∧ (let busy := if s.ix % 2 = 1 then (s.tile own).katB else (s.tile own).katA
      (busy.isSome = true → exec .katcmp s = .next (showing s 3 .mxeBusy 1))
      ∧ (busy = none → k.katHash = k.katExp → exec .katcmp s = .next s)
      ∧ (busy = none → k.katHash ≠ k.katExp →
          exec .katcmp s = .next (showing s 3 .katMismatch (BitVec.ofNat 64 (k.katHash.toNat * 2 ^ 24 + k.katExp.toNat)))))
    ∧ exec .mxstop s = .next (staged s 0 (.mxstop s.ix))
    ∧ exec (.cpstop c) s = .next (staged s 0 (.cpstop s.ix s.ic c))
    ∧ exec .vgstop s = .next (if s.claimsMxe s.ix s.ic then staged s 0 (.vgstop own (k.task.getD 0)) else showing s 3 .mxeBusy 0)
    ∧ (let u := s.useS a
      let roomIn : State → Prop := fun t => (t.chains.filter (fun h => decide (h.tile = own))).length < 16
      let room := roomIn s
      let chained : State → Prop := fun u => ∃ h : Chain, exec (.cpgo a c) s = .next { starting u (.chain h) with fresh := s.fresh + 1 }
          ∧ h.id = s.fresh ∧ h.tile = own ∧ h.seq = s.ix ∧ h.ctx = s.ic ∧ h.task = k.task ∧ h.ctr = c ∧ h.pc = v a ∧ h.loops = []
          ∧ h.moved = 0 ∧ h.st = .next ∧ h.stop = false
      (v a < 2 ^ 22 → v a % 32 = 0 → s.scratchOk s.ix s.ic own (v a / 0x10000) = true → room → chained u)
      ∧ (v a < 2 ^ 22 → v a % 32 = 0 → s.scratchOk s.ix s.ic own (v a / 0x10000) = true → ¬room → roomIn s.calm →
        chained (hanging .chainBad 1 u))
      ∧ (v a < 2 ^ 22 → v a % 32 = 0 → s.scratchOk s.ix s.ic own (v a / 0x10000) = true → ¬room → ¬roomIn s.calm →
        exec (.cpgo a c) s = .next (showing u 3 .chainBad 1))
      ∧ (2 ^ 22 ≤ v a → exec (.cpgo a c) s = .next (showing u 3 .spRange (s.rdS a 0).val)))
    ∧ (let d := s.rdV g.d
      let hs := (unpack 64 d.bits 8).map churnOf
      let live := hs.filter (fun h => h.live)
      let nb := g.nb.toNat + 1
      let bank : Nat → Prop := fun b => s.scratchOk s.ix s.ic own b = true
      s.claimsMxe s.ix s.ic = true → s.engineOf s.ix = false → s.engineOf (s.ix / 2 * 2 + (1 - s.ix % 2)) = false → (s.tile own).vg = none →
      d.tag = tS64 → d.mark ≠ .poison → (∀ w ∈ unpack 64 d.bits 8, descBad w = false) → v g.x % 64 = 0 → v g.c % 0x4000 = 0 → v g.x < 2 ^ 22 → v g.c < 2 ^ 22 →
      (∀ h ∈ live, h.base % 32 = 0 ∧ h.base + h.len ≤ 2 ^ 22 ∧ s.poolComp own h.base h.len = false ∧ ∀ b ∈ streamBanks h, bank b) →
      v g.x / 0x10000 + nb ≤ 64 → (∀ i, i < nb → bank (v g.x / 0x10000 + i)) →
      (∀ i, i < min nb (g.kmax.toNat + 1) → v g.x / 0x10000 + i ∉ hs.flatMap streamBanks) →
      v g.x % 0x10000 + (g.kmax.toNat + nb) / nb * colBytes g.fmt ≤ 0x10000 → mine (v g.c / 0x4000 : Nat) → s.slotTag own (v g.c / 0x4000) = tF32 →
      (∀ e, e < 256 → tget false (s.tt s.ix s.ic).vtabBad e = false) →
      ∃ (t : State) (z : Vg), exec (.vggo g) s = .next t ∧ OnlyBundle s t ∧ t.bundle.starts = s.bundle.starts ++ [.vg z]
        ∧ z.issued = s.gclk ∧ z.seq = s.ix ∧ z.ctx = s.ic ∧ z.churns = hs ∧ z.table = (s.tt s.ix s.ic).vtab ∧ z.x = v g.x ∧ z.c = v g.c ∧ z.ctr = g.ctr
        ∧ z.fmt = g.fmt ∧ z.nb = nb ∧ z.kmax = g.kmax.toNat + 1 ∧ z.cycle = 0 ∧ z.stopAsked = false ∧ z.completed = false)

/-- After R220, R221, R235: the accumulator bank instructions and VGTAB, their checks and their effects: the banks that
ACALLOC grants and the mask that lands, the banks that ACFREE releases, the slots that ACZERO zeroes, the band entry that
ACBAND writes or clears, and the table that VGTAB takes in half by half and makes the shadow. -/
def Obligations.AccumulatorBanksAreManaged : Prop :=
  ∀ (s : State) (a : SSrc) (n : Option (BitVec 7)) (fmt k : BitVec 2) (f : BandF),
    let own := tileOf s.ix
    let u := s.useS a
    let m := (s.rdS a 0).val
    let slot := m.toNat / 0x4000
    let writes : Nat → Prop := fun b => ∃ i, i < 4 ∧ s.slotBusy own (4 * b + i) = true
    let owned : Nat → Prop := fun b => s.accOk s.ix s.ic own b = true ∧ ((s.tile own).bank b).alloc = true
    (s.claimsMxe s.ix s.ic = false →
      exec (.acalloc n a) s = .next (showing (if n.isSome then s else u) 3 .mxeBusy 0) ∧ exec (.acfree a) s = .next (showing u 3 .mxeBusy 0)
      ∧ exec (.aczero a fmt k) s = .next (showing u 3 .mxeBusy 0) ∧ exec (.acband f) s = .next (showing (s.useS f.addr) 3 .mxeBusy 0)
      ∧ exec (.vgtab a) s = .next (showing u 3 .mxeBusy 0))
    ∧ (s.claimsMxe s.ix s.ic = true →
      (let want := match n with | some x => x.toNat | none => m.toNat
        exec (.acalloc n a) s = .next (landed (staged s 0 (.grant s.ix s.ic want s.fresh)) (if n.isSome then [] else [a]) .queue 0 2 Flags.none)
        ∧ ∀ (t : State) (x c id : Nat), let g := t.freeAcc x c want
          (∀ b ∈ g, ((t.tile (tileOf x)).bank b).role = .acc ∧ ((t.tile (tileOf x)).bank b).alloc = false)
          ∧ g.Pairwise (· < ·) ∧ (g ≠ [] → g.length = want) ∧ (g.length = want → want ≠ 0 → ∀ b ∈ g,
              (((t.applyEff (.grant x c want id)).tile (tileOf x)).bank b).alloc = true
              ∧ ∀ i, i < 4 → tget 0 ((t.applyEff (.grant x c want id)).tile (tileOf x)).slotTags (4 * b + i) = tF32)
          ∧ (∀ b, b ∉ g → ((t.applyEff (.grant x c want id)).tile (tileOf x)).bank b = (t.tile (tileOf x)).bank b)
          ∧ (∀ f ∈ ((t.applyEff (.grant x c want id)).ctx x c).flights, f.id = id →
              ∃ v : Word, f.vals = [⟨v, .clean⟩] ∧ ∀ b, b < 64 → (v.getLsbD b = true ↔ b ∈ g)))
      ∧ ((∀ b, b < 64 → m.getLsbD b = true → owned b ∧ ¬writes b) → exec (.acfree a) s = .next (staged u 0 (.free s.ix s.ic m))
        ∧ ∀ (t : State) (x c b : Nat), b < 64 →
          let t' := (t.applyEff (.free x c m)).tile (tileOf x)
          (m.getLsbD b = true → (t'.bank b).alloc = false ∧ (t'.bank b).zeroTo = some (t.gclk + 64)
            ∧ ∀ i, i < 4 → tget 0 t'.slotTags (4 * b + i) = tVOID)
          ∧ (m.getLsbD b = false → t'.bank b = (t.tile (tileOf x)).bank b))
      ∧ ((∀ b, b < 64 → m.getLsbD b = true → owned b) → (∃ b, b < 64 ∧ m.getLsbD b = true ∧ writes b) →
          exec (.acfree a) s = .next (showing u 3 .mxeBusy 1))
      ∧ ((∃ b, b < 64 ∧ m.getLsbD b = true ∧ ¬owned b) → ∃ w, exec (.acfree a) s = .next (showing u 3 .accUnowned w)
          ∧ ∀ b, b < 64 → (w.getLsbD b = true ↔ m.getLsbD b = true ∧ ¬owned b))
      ∧ (m.toNat < 2 ^ 22 → slot % 4 + k.toNat < 4 → m.toNat % 0x4000 = 0 → (fmt = 1 → slot % 2 = 0 ∧ k.toNat % 2 = 1) →
          s.slotMine slot = true → (∀ i, i ≤ k.toNat → s.slotBusy own (slot + i) = false) →
          exec (.aczero a fmt k) s = .next (staged u 1 (.zeroSlots own slot (k.toNat + 1) (if fmt = 0 then tF32 else if fmt = 1 then tF64 else tS32))))
      ∧ (let b := (s.rdS f.addr 0).val
        b.toNat < 2 ^ 22 → b.toNat % 0x4000 = 0 → s.slotMine (b.toNat / 0x4000 : Nat) = true →
        exec (.acband f) s = .next (staged (s.useS f.addr) 1 (.band own (b.toNat / 0x4000) f.entry
          (if f.valid then some (f.lo.toNat, f.cnt.toNat, 2 * (65 * f.die.toNat + f.tile.toNat) + f.seq.toNat) else none))))
      ∧ (m.toNat < 2 ^ 22 → m.toNat % 1024 = 0 → s.scratchOk s.ix s.ic own (m.toNat / 0x10000) = true →
          (∀ i, i < 2 → s.conflict own (m.toNat / 0x10000) (s.gclk + 1 + i) = none) →
          ∃ t, exec (.vgtab a) s = .next t ∧ OnlyBundle s t ∧ t.bundle.effs = s.bundle.effs ++ [(2, .vgtab s.ix s.ic)]
            ∧ (t.bundle.accs.drop s.bundle.accs.length).map (fun x => (x.at_, x.tile, x.off, x.kind))
              = [(some (s.gclk + 1), own, m.toNat, .vgtab 0), (some (s.gclk + 2), own, m.toNat + 512, .vgtab 1)]))
    ∧ (∀ (t : State) (tile sl : Nat) (e : BitVec 2) (b : Option (Nat × Nat × Nat)) (d : Band) (y : Nat),
      let t' := t.applyEff (.band tile sl e b)
      let entry := 4 * (if tget 0 (t.tile tile).slotTags sl = tF64 then sl / 2 * 2 else sl) + e.toNat
      tget d (t'.tile tile).bands y = (if y = entry then (match b with
          | some r => ⟨r.1, r.2.1, r.2.2⟩
          | none => d) else tget d (t.tile tile).bands y)
      ∧ t'.pool = t.pool ∧ (t'.tile tile).slotTags = (t.tile tile).slotTags ∧ (t'.tile tile).banks = (t.tile tile).banks)
    ∧ (∀ (t : State) (x c j : Nat), j < 256 →
      let at_ := 512 * (x % 2) + 256 * (t.gclk % 2) + j
      let t' := t.applyEff (.vgtab x c)
      tget 0 (t'.tt x c).vtab j = tget 0 (t.tt x c).inVtab at_ ∧ tget false (t'.tt x c).vtabBad j = tget false (t.tt x c).inBad at_)
    ∧ (∀ (t : State) (h : Acc) (half j : Nat), h.kind = .vgtab half → half < 2 → j < 128 → t.underReset h.tile = false →
      let issue := t.gclk - 1 - half
      let at_ := 512 * (h.seq % 2) + 256 * (issue % 2) + 128 * half + j
      let t' := (t.performAcc h).tt h.seq h.ctx
      half < t.gclk → tget 0 t'.inVtab at_ = BitVec.ofNat 32 (t.rdPool h.tile (h.off + 4 * j) 4)
        ∧ tget false t'.inBad at_ = t.poolBad h.tile (h.off + 4 * j) 4)
    ∧ ∀ t tile sl cnt tag, 0 < cnt → sl + cnt ≤ 256 →
      let t' := State.applyEff t (.zeroSlots tile sl cnt tag)
      ∀ i o, i < cnt → o < 0x4000 → tget 0 t'.pool (2 ^ 22 * tile + (sl + i) * 0x4000 + o) = 0 ∧ tget 0 (t'.tile tile).slotTags (sl + i) = tag

/-- After R301, R305 to R311: counters and rings. -/
def Obligations.CountersAndRings : Prop :=
  ∀ (s : State) (c f e : BitVec 6) (x : CtrArg) (r : Bool) (sel : BitVec 2) (h : BitVec 4) (base : SSrc) (n : BitVec 12) (k : BitVec 13),
    let own := tileOf s.ix
    let v : BitVec 32 := match x with | .imm y => y | .src a => (s.rdS a 0).val.setWidth 32
    let u := match x with | .imm _ => s | .src a => s.useS a
    let ring := (s.tile own).ring h.toNat
    let owner := if s.ic = 0 then (1, ctxKey s.ix 0) else match s.icx.task with | some t => (0, t) | none => (1, ctxKey s.ix s.ic)
    let tval : Nat → Word := fun op => BitVec.ofNat 64 (h.toNat * 2 ^ 16 + op)
    exec (.cwait c x) s = .next (waiting u (.ctr c v))
    ∧ exec (.cadd c x) s = .next (staged u 1 (.ctr ⟨own, c.toNat, none, v, none⟩))
    ∧ exec (.cset c x r) s = .next (staged u 1 (.ctr ⟨own, c.toNat, some r, v, none⟩))
    ∧ exec (.crd c sel) s = .next (landed (staged s 0 (.crd s.ix s.ic c sel s.fresh)) [] .queue 0 2 Flags.none)
    ∧ (∀ (t : State) (y : Nat) (b : Nat) (up : Option Bool) (w : BitVec 32),
      let t' := t.applyEff (.ctr ⟨y, b, up, w, none⟩)
      ((t'.tile y).counter b).value = (if up.isSome then w else ((t.tile y).counter b).value + w)
      ∧ (up = some true → (t'.tile y).counter b = ⟨w, 0, 0, 0⟩)
      ∧ ∀ y' b', (y' ≠ y ∨ b' ≠ b) → (t'.tile y').counter b' = (t.tile y').counter b')
    ∧ (ring.owner = none ∨ ring.owner = some owner →
      exec (.rbind h f e base n) s = .next (staged (s.useS base) 1
        (.ringBind own owner h f e ((s.rdS base 0).val.setWidth 32) (n.toNat + 1))))
    ∧ (ring.owner ≠ none → ring.owner ≠ some owner → exec (.rbind h f e base n) s = .next (showing (s.useS base) 3 .ringBad (tval 0x14)))
    ∧ (let bad := ring.owner ≠ some owner ∨ ring.n < k.toNat + 1
      (bad → exec (.rwaitf h k) s = .next (showing s 3 .ringBad (tval 0x15)) ∧ exec (.rwaite h k) s = .next (showing s 3 .ringBad (tval 0x16))
        ∧ exec (.radvp h k) s = .next (showing s 3 .ringBad (tval 0x17)) ∧ exec (.radvc h k) s = .next (showing s 3 .ringBad (tval 0x18)))
      ∧ (¬bad → exec (.rwaitf h k) s = .next (waiting s (.ringF h k)) ∧ exec (.rwaite h k) s = .next (waiting s (.ringE h k))
        ∧ exec (.radvp h k) s = .next (staged (staged s 1 (.ringP own h k)) 1 (.ctr ⟨own, ring.f.toNat, none, k.setWidth 32 + 1, none⟩))
        ∧ exec (.radvc h k) s = .next (staged (staged s 1 (.ringC own h k)) 1 (.ctr ⟨own, ring.e.toNat, none, k.setWidth 32 + 1, none⟩))))
    ∧ (∀ (t : State) (y : Nat), let old := (t.tile y).ring h.toNat
      ((t.applyEff (.ringP y h k)).tile y).ring h.toNat = { old with p := old.p + k.setWidth 32 + 1 }
      ∧ ((t.applyEff (.ringC y h k)).tile y).ring h.toNat = { old with c := old.c + k.setWidth 32 + 1 })

/-- After R265 to R267, R345: the SC operations are checked, their form and target first and their alignment after them;
they book their bank for cycle c + 2 and land the old value after 6 cycles. After R216, R266: what an SC operation does as it performs: the old word lands, and its word of the pool takes
the new value. -/
def Obligations.SerialOperationsAreAtomic : Prop :=
  (
    ∀ (s : State) (f : ScF) (p : PoolAddr),
      let n := if f.w then 8 else 4
      let slot := p.off / 0x4000
      let tag := tget 0 (s.tile p.tile).slotTags slot
      let fits := if f.w then tag = tF64 else tag = tF32 ∨ tag = tS32
      let r := s.checkSc (s.rdS f.addr 0).val (f.off.toNat * n) n
      let base := (s.rdS f.addr 0).val
      let e := base.toNat % 2 ^ 22 + f.off.toNat * n
      let mine := s.accOk s.ix s.ic (tileOf s.ix) (e / 0x10000) = true
      let val := (s.rdS f.value 0).val
      let stages : Instr → State → AccKind → Bool → Prop := fun i u k push =>
        (r = .ok p → s.slotAlloc p.tile slot = true → s.drainOk p.tile p.off n = true → fits → Free s p (s.gclk + 2) →
          exec i s = .next (if push then loading s u.bundle.found [p.off / 0x10000] p (s.gclk + 2) k { s.flight 6 with vals := [SVal.zero] }
            else storing s u.bundle.found [p.off / 0x10000] p (s.gclk + 2) k))
        ∧ (r = .ok p → s.slotAlloc p.tile slot = false ∨ s.drainOk p.tile p.off n = false →
          exec i s = .next (showing u 3 .accUnowned (BitVec.ofNat 64 (if tag = tF64 then slot / 2 * 2 else slot))))
        ∧ (r = .ok p → s.slotAlloc p.tile slot = true → s.drainOk p.tile p.off n = true → ¬fits →
          exec i s = .next (showing u 3 .fmtMismatch (BitVec.ofNat 64 (tag.toNat * 2 ^ 8))))
        ∧ ∀ c v, r = .error (c, v) → exec i s = .next (showing u 3 c v)
      let u1 := s.useS f.addr
      let u2 := u1.useS f.value
      (2 ^ 22 ≤ base.toNat ∨ 2 ^ 22 ≤ e → ∃ x, r = .error (.spRange, x))
      ∧ (base.toNat < 2 ^ 22 → e < 2 ^ 22 → e / 0x10000 = (e + n - 1) / 0x10000 → ¬mine → r = .error (.spRange, BitVec.ofNat 64 e))
      ∧ (base.toNat < 2 ^ 22 → e < 2 ^ 22 → e / 0x10000 = (e + n - 1) / 0x10000 → mine → e % n ≠ 0 → r = .error (.align, BitVec.ofNat 64 e))
      ∧ (base.toNat < 2 ^ 22 → e < 2 ^ 22 → mine → e % n = 0 → ∃ q, r = .ok q ∧ q.tile = tileOf s.ix ∧ q.off = e ∧ q.canal = false) ∧
      stages (.scld f) u1 (.scld f.w) true ∧ stages (.scst f) u2 (.scst f.w val) false ∧ stages (.scswp f) u2 (.scswp f.w val) true
      ∧ stages (.scadd f) u2 (.scadd f.w val) true
      ∧ stages (.sccas f) (u2.useS f.expect) (.sccas f.w val (s.rdS f.expect 0).val) true)
  ∧ (
    ∀ (s : State) (a : Acc) (w : Bool) (v x : Word), s.underReset a.tile = false → (∀ b ∈ a.banks, s.zeroingBank a.tile b = false) →
      s.poolBad a.tile a.off (if w then 8 else 4) = false →
      let n := if w then 8 else 4
      let tag := tget 0 (s.tile a.tile).slotTags (a.off / 0x4000)
      let old := s.rdPool a.tile a.off n
      let t := s.performAcc a
      let now := t.rdPool a.tile a.off n
      let low := v.toNat % 2 ^ (8 * n)
      let lands := ∀ f ∈ (s.ctx a.seq a.ctx).flights, f.id = a.id → ∃ g ∈ (t.ctx a.seq a.ctx).flights, g.id = a.id ∧ g.ready = true
        ∧ ∃ y : Word, g.vals = [⟨y, .clean⟩] ∧ (if tag = tS32 then y.toInt = (BitVec.ofNat 32 old).toInt else y.toNat = old)
      let frame := (∀ k, (k < 2 ^ 22 * a.tile + a.off ∨ 2 ^ 22 * a.tile + a.off + n ≤ k) → tget 0 t.pool k = tget 0 s.pool k)
        ∧ t.hbm = s.hbm ∧ t.poolGran = s.poolGran ∧ t.tiles = s.tiles
      (a.kind = .scld w → lands ∧ now = old ∧ frame)
      ∧ (a.kind = .scst w v → now = low ∧ frame ∧ t.ctxs = s.ctxs)
      ∧ (a.kind = .scswp w v → lands ∧ now = low ∧ frame)
      ∧ (a.kind = .scadd w v → (tag = tS32 → w = false → lands ∧ now = (old + low) % 2 ^ 32 ∧ frame)
          ∧ (tag = tF32 → w = false → lands ∧ now = (fmtF32.add old low).1 ∧ frame)
          ∧ (tag = tF64 → w = true → lands ∧ now = (fmtF64.add old low).1 ∧ frame))
      ∧ (a.kind = .sccas w v x → lands ∧ frame ∧ now = if old = x.toNat % 2 ^ (8 * n) then low else old))

/-- After R138, R261, R330, R337, R342, R353, R354, R358, R360: fences, waits, snapshots, launches and the system
registers. A fence of grouped operations waits for the spans of completed operations in its scope that the issuing
sequencer has observed, or, on another tile, that a sequencer of that tile has observed of the issuer's own task (log 93).
Choices of the model that it rests on: log 32, 35, 93 and 102. -/
def Obligations.SystemOperations : Prop :=
  ∀ (s : State) (a b : SSrc) (p q sc : BitVec 3) (sel kind c : BitVec 2) (qn : BitVec 6) (i : BitVec 12) (clr all : Bool),
    let own := tileOf s.ix
    let va := (s.rdS a 0).val
    let vb := (s.rdS b 0).val
    let u := s.useS a
    let ub := (s.useS a).useS b
    let n := va.toNat % 2 ^ 32
    let job : BitVec 16 := vb.setWidth 16
    (let prior := (s.accs.filter (fun x => decide (x.seq = s.ix) && x.kind.writes && inScope own sc x.tile)).map (fun x => x.id)
      let spans := s.openSpans sc
      (p = 0 → exec (.fence p q sc) s = .next (if prior = [] then s else waiting s (.fence p q sc prior [])))
      ∧ (p ≠ 0 → p ≠ 3 → exec (.fence p q sc) s = .next s)
      ∧ (p = 3 → exec (.fence p q sc) s = .next (if spans = [] then s else waiting s (.fence p q sc [] spans)))
      ∧ (∀ v, (s.tile own).vg = some v → v.completed = true → v.id ∈ (s.seq s.ix).seenVg → v.id ∈ spans)
      ∧ ∀ i ∈ spans, ∃ e ∈ s.tiles, ∃ v, e.2.vg = some v ∧ v.id = i ∧ v.completed = true ∧ inScope own sc e.1 = true
          ∧ (e.1 = own → v.id ∈ (s.seq s.ix).seenVg) ∧ (e.1 ≠ own → some v.task = s.icx.task))
    ∧ (s.ckptJob job = false → exec (.snap a b) s = .next (showing ub 3 .ckptBad 1) ∧ exec (.rollbk a b) s = .next (showing ub 3 .ckptBad 1))
    ∧ (s.ckptJob job = true →
      (n ≤ s.snap.b.toNat → exec (.snap a b) s = .next ub)
      ∧ (n = s.snap.b.toNat + 1 → exec (.snap a b) s = .next (staged ub 0 (.ev (.snapBegin n))))
      ∧ (s.snap.b.toNat + 1 < n → exec (.snap a b) s = .next (showing ub 3 .ckptBad 2))
      ∧ (n = s.snap.k.toNat → exec (.rollbk a b) s = .next (staged ub 0 (.ev (.rollback n))))
      ∧ (n ≠ s.snap.k.toNat → exec (.rollbk a b) s = .next (showing ub 3 .ckptBad 3)))
    ∧ (s.ckptJob (if s.ic = 0 then 0 else s.icx.jobid) = true → exec (.ckwait a) s = .next (waiting u (.ckpt (va.setWidth 32))))
    ∧ (s.ckptJob (if s.ic = 0 then 0 else s.icx.jobid) = false → exec (.ckwait a) s = .next (showing u 3 .ckptBad 1))
    ∧ Lands s (.snapq 1) [] .queue 2 Flags.none (fun w => w.toNat = s.snap.k.toNat)
    ∧ Lands s (.snapq 2) [] .queue 2 Flags.none (fun w => w.toNat = s.snap.a.toNat)
    ∧ Lands s (.snapq 0) [] .queue 2 Flags.none (fun w => w.toNat / 2 ^ 32 = s.snap.b.toNat ∧ w.toNat % 2 ^ 16 = s.snap.inc.toNat
        ∧ w.toNat / 2 ^ 24 % 2 ^ 4 = s.snap.reason.toNat ∧ w.toNat / 2 ^ 28 % 2 ^ 4
          = if ∃ b ∈ s.snap.begin_, b.1 = s.snap.b.toNat then 0 else if s.snap.now = s.snap.b.toNat then s.snap.phase.toNat else 6)
    ∧ Lands s (.capq a) [a] .queue 2 Flags.none (fun w => w = s.capWord (va.toNat % 2 ^ 16))
    ∧ exec (.tlbinv a sel kind) s = .next (waiting u (.tlbinv va sel kind))
    ∧ exec (.codeinv a sel all) s = .next (waiting (if all then s else u) (.codeinv va sel all))
    ∧ (let t := va
      let m := vb
      let z := (s.useS b).useS a
      (t.toNat / 2 ^ 30 = 1 → exec (.zerob a b false) s = .next (waiting z (.zerob false t m none)))
      ∧ (t.toNat / 2 ^ 30 ≠ 1 → exec (.zerob a b false) s = .next (showing z 3 .spRange t))
      ∧ (t.toNat % 4096 = 0 → m ≠ 0 → m.toNat ≤ 2 ^ 20 →
          exec (.zerob a b true) s = .next (staged (waiting z (.zerob true t m none)) 0 (.zerobStart s.ix t m))))
    ∧ (va.toNat < 2 ^ 22 → va.toNat % 256 = 0 → s.scratchOk s.ix s.ic own (va.toNat / 0x10000) = true → (s.lq qn.toNat).tl = true →
        (s.seq s.ix).launches.length < 4 → (∀ j, j < 4 → s.conflict own (va.toNat / 0x10000) (s.gclk + 1 + j) = none) →
        ∃ t, exec (.tlaunch a qn) s = .next t ∧ OnlyBundle s t ∧ t.bundle.starts = s.bundle.starts ++ [.launch s.ix qn s.rankOf]
          ∧ (t.bundle.accs.drop s.bundle.accs.length).map (fun x => (x.at_, x.tile, x.off, x.kind))
            = (List.range 4).map (fun j => (some (s.gclk + 1 + j), own, va.toNat + 64 * j, .tlaunch j)))
    ∧ (let ctx := if s.ic = 0 then c.toNat else if sysPerCtx i.toNat then s.ic else 0
      sysRefuse s.ix i.toNat ctx false clr = false → i ≠ 0x051 → exec (.sysrd i clr c) s
        = .next (landed (staged s 0 (.sysr s.ix ctx i.toNat s.ic clr s.fresh)) [] .queue 0 2 Flags.none))
    ∧ (sysRefuse s.ix i.toNat c.toNat true clr = false → i ≠ 0x051 →
        exec (.syswr ⟨i, clr⟩ a c) s = .next (staged u 1 (.ev (.reg s.ix c.toNat i.toNat va))))
    ∧ (i ≠ 0x010 → exec (.syswr ⟨i, true⟩ a c) s = .next (showing u 3 .sysregBad (i.setWidth 64)))
    ∧ (sysKnown i.toNat = false → exec (.sysrd i clr c) s = .next (showing s 3 .sysregBad (i.setWidth 64))
        ∧ exec (.syswr ⟨i, clr⟩ a c) s = .next (showing u 3 .sysregBad (i.setWidth 64)))

/-- After R277, R285, R288, R290, R293 to R300: a data command whose entry, references and handles pass begins to move
with the descriptors its handles name now; one that fails ends the chain, whose counter gains 1. After R275, R281,
R282: the control commands of a chain. After R287: CPRESUME; a chain that zeroes a revoked destination goes on with that
(log 115). Choices of the model that it rests on: log 50 and 115. -/
def Obligations.CopyCommandsRun : Prop :=
  (
    ∀ (s : State) (ch : Nat) (f : CopyF) (c : Chain), s.chain ch = some c → c.st = .next → c.acks = [] → s.sealedBy c = [] →
      let k := s.ctx c.seq c.ctx
      let u := s.modChain ch (fun _ => c.fresh)
      let l := u.latched c.fresh f
      let begins : Instr → Prop := fun i => ∃ t, exec i s = .next t ∧ t = { s with chains := t.chains } ∧ (∀ j, j ≠ ch → t.chain j = s.chain j)
        ∧ ∃ d, t.chain ch = some d ∧ d.st = .move i ∧ d.ds = k.desc (f.hsrc.toNat / 2 ^ 24) ∧ d.dd = k.desc (f.hdst.toNat / 2 ^ 24)
          ∧ d.pc = c.pc ∧ d.loops = c.loops ∧ d.ctr = c.ctr ∧ d.moved = 0 ∧ d.at_ = 0 ∧ d.begun = false
      let ends : Instr → Prop := fun i => ∃ t, exec i s = .next t ∧ t.chain ch = none ∧ t.pool = s.pool ∧ t.hbm = s.hbm ∧ t.ctxs = s.ctxs ∧ t.seqs = s.seqs
        ∧ t.tiles = s.tiles ∧ (∀ j, j ≠ ch → t.chain j = s.chain j)
        ∧ ∃ r, t.pending = s.pending ++ [(s.gclk, .ctr ⟨c.tile, c.ctr.toNat, none, 1, some r⟩)]
      let src := c.srcField f
      let dst := c.dstField f
      let len := f.len.toNat
      let stray := strayField f
      let w := 2 ^ 32 - 1
      let a := 2 ^ 64 - 1
      let packs := s.handleC c f.hdst = true ∨ f.hdst = 0
      let gcm := 1 ≤ len ∧ len ≤ 4194304
      let elem := if f.aux.getLsbD 0 then 8 else 4
      let cases : Instr → Prop → Prop := fun i ok => (ok → begins i) ∧ (¬ok → ends i)
      cases (.cmov ch f) (stray 0 0 w a a w w = none ∧ s.refBad c src f.hsrc len false = none ∧ s.refBad c dst f.hdst len true = none
        ∧ (s.cmovComp c f = true → packs))
      ∧ cases (.czero ch f) (stray 0 0 w 0 a 0 w = none ∧ s.refBad c dst f.hdst len true = none)
      ∧ cases (.cconv ch f) (stray 0 0x3FFF w a a w w = none ∧ convBad f = none
        ∧ s.refBad c src f.hsrc (convLay (convOf f.aux) len true).total false = none
        ∧ s.refBad c dst f.hdst (convLay (convOf f.aux) len false).total true = none ∧ s.srcMarked c f (convLay (convOf f.aux) len true).total = false)
      ∧ cases (.cexp ch f) (stray 0 0 w a a w w = none ∧ s.refBad c src f.hsrc 32 false = none ∧ s.refBad c dst f.hdst len true = none
        ∧ s.refBad c src f.hsrc (u.expNeed l f) false = none)
      ∧ cases (.ccomp ch f) (stray 0 0 w a a w w = none ∧ 0 < len ∧ len ≤ 65535 * 4096 ∧ s.refBad c src f.hsrc 32 false = none
        ∧ s.refBad c dst f.hdst 0 true = none ∧ packs
        ∧ s.refBad c src f.hsrc (u.compNeed l f).1 false = none ∧ s.refBad c dst f.hdst (u.compNeed l f).2 true = none)
      ∧ cases (.cdec ch f) (stray 0 0x1F w a a w 0 = none ∧ gcm ∧ dst.toNat % 65536 = 0 ∧ dst.toNat < 2 ^ 22 ∧ s.poolRefBad c dst len = none
        ∧ s.refBad c src f.hsrc (len + 32) false = none ∧ s.srcMarked c f (len + 32) = false)
      ∧ cases (.cenc ch f) (stray 0 0x1F w a a w w = none ∧ gcm ∧ s.refBad c src f.hsrc (len + 16) false = none
        ∧ s.refBad c dst f.hdst (len + 32) true = none ∧ s.srcMarked c f (len + 16) = false)
      ∧ cases (.catom ch f) (stray 3 1 w a a 0 w = none ∧ 1 ≤ len ∧ len ≤ 1024 ∧ src.toNat < 2 ^ 22 ∧ src.toNat % elem = 0 ∧ dst.toNat % elem = 0
        ∧ s.poolRefBad c src (len * elem) = none ∧ s.srcMarked c f (len * elem) = false
        ∧ (f.hdst = 0 → s.atomBad c f (f.aux.getLsbD 0) = none)
        ∧ (f.hdst ≠ 0 → s.handleBad c f.hdst dst (len * elem) true = none ∧ (k.desc (f.hdst.toNat / 2 ^ 24)).loc = 4)))
  ∧ (
    ∀ (s : State) (ch : Nat) (f : CopyF) (c : Chain), s.chain ch = some c → c.acks = [] → s.sealedBy c = [] →
      let moves : Instr → (Chain → Prop) → Prop := fun i P => ∃ t, exec i s = .next t ∧ t = { s with chains := t.chains, pending := t.pending }
        ∧ (∀ j, j ≠ ch → t.chain j = s.chain j) ∧ ∃ d, t.chain ch = some d ∧ d.ctr = c.ctr ∧ P d
      let goesTo : Nat → Chain → Prop := fun n d => d.st = .next ∧ d.pc = (loopNext c.loops n).2 ∧ d.loops = (loopNext c.loops n).1
      let val := s.refVal f
      let target := s.targetBad c f.dst = false
      let w := 2 ^ 32 - 1
      let a := 2 ^ 64 - 1
      let fin := c.pc + 32 * (f.flags.toNat + 1)
      (∀ l ls n, (n ≠ l.fin → loopNext (l :: ls) n = (l :: ls, n))
        ∧ (n = l.fin → l.index + 1 < l.count → loopNext (l :: ls) n = ({ l with index := l.index + 1 } :: ls, l.start))
        ∧ (n = l.fin → l.count ≤ l.index + 1 → loopNext (l :: ls) n = loopNext ls n))
      ∧ (c.st = .next →
        (strayField f 0 0 0 0 0 0 0 = none → c.err = none → ∃ t, exec (.cend ch f) s = .next t ∧ t.chain ch = none
          ∧ (∃ r, t.pending = s.pending ++ [(s.gclk, .ctr ⟨c.tile, c.ctr.toNat, none, 1, some r⟩)])
          ∧ t.pool = s.pool ∧ t.hbm = s.hbm ∧ ∀ j, j ≠ ch → t.chain j = s.chain j)
        ∧ (strayField f 0 0 0 0 a 0 0 = none → target → moves (.clink ch f) (goesTo f.dst.toNat))
        ∧ (strayField { f with src := 0 } 1 0 w 0 a 0 0 = none → strayRef f.src.toNat = none →
          ((f.len.toNat ≤ val ↔ f.flags.getLsbD 0 = false) → target → moves (.cif ch f) (goesTo f.dst.toNat))
          ∧ (¬(f.len.toNat ≤ val ↔ f.flags.getLsbD 0 = false) → target → moves (.cif ch f) (goesTo (c.pc + 32)))
          ∧ (¬target → ∃ t, exec (.cif ch f) s = .next t ∧ t.chain ch = none ∧ t.pool = s.pool))
        ∧ (strayField f 0xFF 0 w a a 0 0 = none → f.flags ≠ 0 → c.loops.length < 6 → (∀ l ∈ c.loops.head?, fin ≤ l.fin) →
          (f.len = 0 → moves (.cloop ch f) (goesTo fin))
          ∧ (f.len ≠ 0 → moves (.cloop ch f) (fun d => d.st = .next ∧ d.pc = c.pc + 32
            ∧ d.loops = ⟨c.pc + 32, fin, f.len.toNat, 0, f.src, f.dst⟩ :: c.loops)))
        ∧ (signalBad f = none → ∀ y b, refOf (f.src.toNat % 2 ^ 32) = some (y, b) →
          let old := (s.tile y).counter b
          let adds := s.pending ++ [(s.gclk, .ctr ⟨y, b, none, f.len, none⟩)]
          (f.len.toNat ≤ old.value.toNat → moves (.ccw ch f) (goesTo (c.pc + 32)))
          ∧ (old.value.toNat < f.len.toNat → moves (.ccw ch f) (fun d => d.st = .ccw y b f.len ∧ d.pc = c.pc ∧ d.loops = c.loops))
          ∧ moves (.csig ch f) (goesTo (c.pc + 32))
          ∧ ∃ t, exec (.csig ch f) s = .next t ∧ t.pending = if c.carried = some c.pc then s.pending else adds))
      ∧ (∀ y b x, c.st = .ccw y b x →
        (x.toNat ≤ ((s.tile y).counter b).value.toNat → moves (.ccwSatisfied ch) (goesTo (c.pc + 32)))
        ∧ (((s.tile y).counter b).value.toNat < x.toNat → exec (.ccwSatisfied ch) s = .next s))
      ∧ (∀ i e va y, c.st = .susp i e va → c.tile = tileKey y →
        moves (.cpresumeRetry y c.ctr) (fun d => d.st = .move i ∧ d.at_ = c.at_)
        ∨ ∃ j, j ≠ ch ∧ ∃ d, s.chain j = some d ∧ d.tile = c.tile ∧ d.ctr = c.ctr)
      ∧ (∀ i e va y, c.st = .susp i e va → c.tile = tileKey y →
        (c.wiping = false → ∃ t, exec (.cpresumeEnd y c.ctr) s = .next t ∧ t.chain ch = none)
        ∧ (c.wiping = true → (∀ d ∈ s.chains, d.id = ch → d = c) → moves (.cpresumeEnd y c.ctr) (fun d => d.st = .move i ∧ d.at_ = c.at_)
          ∨ ∃ j, j ≠ ch ∧ ∃ d, s.chain j = some d ∧ d.tile = c.tile ∧ d.ctr = c.ctr)))

/-- After R276, R288, R289: a chunk of a CMOV or CZERO within the pool moves the bytes up to the next 4 KiB boundary
of its destination and no other; after its last chunk the chain goes on. -/
def Obligations.CopyChunksMoveBytes : Prop :=
  ∀ (s : State) (ch : Nat) (f : CopyF) (c : Chain) (zero : Bool),
    let i : Instr := if zero then .czero ch f else .cmov ch f
    let src := (c.srcField f).toNat
    let dst := (c.dstField f).toNat
    let n := min (4096 - (dst + c.at_) % 4096) (f.len.toNat - c.at_)
    let open_ : Nat → Bool → Prop := fun o write => ∀ b ∈ banksOf (o + c.at_) n, s.bankFree c.tile b = true
      ∧ s.bankMine c c.tile b = true ∧ (write = true → ((s.tile c.tile).bank b).held = false ∧ s.zeroingBank c.tile b = false)
    let at_ : Nat → Nat := fun o => 2 ^ 22 * c.tile + o
    s.chain ch = some c → c.st = .move i → c.revoked = [] → (zero = false → c.begun = true) → f.hsrc = 0 → f.hdst = 0 →
    s.underReset c.tile = false →
    (c.at_ < f.len.toNat → dst + f.len.toNat ≤ 2 ^ 22 → (zero = false → src + f.len.toNat ≤ 2 ^ 22 ∧ open_ src false) → open_ dst true →
      ∃ t, exec (.copyChunk ch) s = .next t
        ∧ (∀ j, j < n → tget 0 t.pool (at_ (dst + c.at_ + j)) = if zero then 0 else tget 0 s.pool (at_ (src + c.at_ + j)))
        ∧ (∀ k, (k < at_ (dst + c.at_) ∨ at_ (dst + c.at_) + n ≤ k) → tget 0 t.pool k = tget 0 s.pool k)
        ∧ t.hbm = s.hbm ∧ t.ctxs = s.ctxs ∧ t.seqs = s.seqs
        ∧ ∃ d, t.chain ch = some d ∧ d.st = c.st ∧ d.at_ = c.at_ + n ∧ d.moved = c.moved + n ∧ d.pc = c.pc)
    ∧ (f.len.toNat ≤ c.at_ → ∃ t, exec (.copyChunk ch) s = .next t ∧ t.pool = s.pool ∧ t.hbm = s.hbm
        ∧ ∃ d, t.chain ch = some d ∧ d.st = .next ∧ d.pc = (loopNext c.loops (c.pc + 32)).2 ∧ d.loops = (loopNext c.loops (c.pc + 32)).1)

/-- After R22, R42 to R47: at the end of an unfrozen cycle of a sequencer every result in flight comes one cycle
nearer and those that are due land: a scalar in the queue and its keep, a vector in the queue or in its register with
its tag, a predicate in its register, flags ORed in; two that land together are pushed in slot order. A frozen
sequencer's results stay where they are. -/
def Obligations.ResultsLand : Prop :=
  ∀ (s : State) (y : SeqId) (c : Nat), let x := seqKey y
    let k := s.ctx x c
    let due := k.flights.filter (fun f => decide (f.remaining ≤ 1))
    let later := (k.flights.filter (fun f => decide (1 < f.remaining))).map (fun f => { f with remaining := f.remaining - 1 })
    (s.clocked x = none → exec (.resultLanding y) s = .next s)
    ∧ (s.clocked x = some c → ∃ t, exec (.resultLanding y) s = .next t ∧ (t.ctx x c).flights = later
      ∧ (∀ x' c', ctxKey x' c' ≠ ctxKey x c → t.ctx x' c' = s.ctx x' c') ∧ t.hbm = s.hbm ∧ t.tasks = s.tasks
      ∧ (∀ z, { t.seq z with seenVg := (s.seq z).seenVg } = s.seq z) ∧ ((∀ f ∈ due, f.obs = none) → t.seqs = s.seqs)
      ∧ (t.ctx x c).loops = k.loops ∧ (t.ctx x c).pos = k.pos
      ∧ (due = [] → (t.ctx x c).q = k.q ∧ (t.ctx x c).vq = k.vq ∧ (t.ctx x c).keeps = k.keeps ∧ (t.ctx x c).flags = k.flags ∧ t.pool = s.pool)
      ∧ (∀ f v, due = [f] → f.vals = [v] → f.vecs = [] → f.vtag = none →
          (t.ctx x c).q = (v :: k.q).take 16 ∧ (t.ctx x c).vq = k.vq ∧ (t.ctx x c).flags = k.flags.or f.flags ∧ t.pool = s.pool
          ∧ ∀ n, tget SVal.zero (t.ctx x c).keeps n = if f.keep.map BitVec.toNat = some n then v else tget SVal.zero k.keeps n)
      ∧ (∀ f v, due = [f] → f.vals = [] → f.vecs = [v] → f.wreg = none → f.vtag = none →
          (t.ctx x c).vq = (v :: k.vq).take 16 ∧ (t.ctx x c).q = k.q ∧ t.pool = s.pool ∧ (t.ctx x c).xb = if f.xb then v else k.xb)
      ∧ (∀ f v n, due = [f] → f.vals = [] → f.vecs = [v] → f.wreg = some n → f.vtag = none → f.pred = none →
          let place := s.regPlace x c n.toNat
          t.wreg x c n.toNat = v ∧ (t.ctx x c).vq = (v :: k.vq).take 16
          ∧ ∀ b, (b < 2 ^ 22 * tileOf x + place ∨ 2 ^ 22 * tileOf x + place + 512 ≤ b) → tget 0 t.pool b = tget 0 s.pool b)
      ∧ (∀ f n p, due = [f] → f.vals = [] → f.vecs = [] → f.pred = some (n, p) → f.vtag = none →
          (∀ m, tget 0 (t.ctx x c).preds m = if m = n.toNat then p else tget 0 k.preds m) ∧ (t.ctx x c).q = k.q ∧ (t.ctx x c).vq = k.vq)
      ∧ (∀ f g v w, due = [f, g] ∨ due = [g, f] → f.vals = [v] → g.vals = [w] → f.vecs = [] → g.vecs = [] →
          Slot.pushRank f.slot < Slot.pushRank g.slot → (t.ctx x c).q = (w :: v :: k.q).take 16))

/-- After R22, R107, R116, R261, R265, R307, R310, R330, R342, R353, R354: a frozen sequencer's waits end when their
conditions hold and not before; the invalidations have then taken place. After R221, R357, R358: the zeroing of banks
and of frames ends with every byte zero, tags VOID, band tables empty and nothing allocated. Choices of the model that
it rests on: log 32 and 35. -/
def Obligations.WaitsAndZeroingEnd : Prop :=
  (
    ∀ (s : State) (y : SeqId),
      let x := seqKey y
      let own := tileOf x
      let c := ((s.seq x).active).getD 0
      let k := s.ctx x c
      let count : BitVec 6 → BitVec 32 := fun r => ((s.tile own).counter r.toNat).value
      let waits : Instr → (Wait → Bool) → Prop := fun i stays => ∃ t, exec i s = .next t ∧ OnlyCtx s t x c
        ∧ (t.ctx x c).waits = k.waits.filter stays ∧ (t.ctx x c).q = k.q ∧ (t.ctx x c).flights = k.flights ∧ (t.ctx x c).pos = k.pos
        ∧ (t.ctx x c).keeps = k.keeps
      let met : Wait → Bool := fun w => match w with
        | .ctr r v => decide (count r < v)
        | .ringF h n => let g := (s.tile own).ring h.toNat; decide ((count g.f - g.c).toInt < n.toNat + 1)
        | .ringE h n => let g := (s.tile own).ring h.toNat; decide ((count g.e + BitVec.ofNat 32 g.n - g.p).toInt < n.toNat + 1)
        | .ckpt n => decide (s.snap.k < n ∧ s.snap.a < n)
        | _ => true
      (∃ t, exec (.waitConditionMet y) s = .next t ∧ t = { s with ctxs := t.ctxs, seqs := t.seqs }
        ∧ (∀ j, j ≠ ctxKey x c → tget Ctx.init t.ctxs j = tget Ctx.init s.ctxs j)
        ∧ (∀ z, { t.seq z with seenVg := (s.seq z).seenVg } = s.seq z) ∧ t.ctx x c = { k with waits := k.waits.filter met })
      ∧ waits (.fenceComplete y) (fun w => match w with
        | .fence _ _ _ ids gth => s.accs.any (fun a => decide (a.id ∈ ids)) || s.tiles.any (fun e => match e.2.vg with
            | some v => decide (v.id ∈ gth)
            | none => false)
        | _ => true)
      ∧ waits (.realnEnd y) (fun w => match w with | .realn _ t => decide (s.gclk < t) | _ => true)
      ∧ waits (.scWheelSlot y) (fun w => decide (w ≠ .wheel
          ∨ s.gclk % 512 ≠ (128 * (own / 65) + 2 * (own % 65) + x % 2) % 512))
      ∧ waits (.crossDieDataArrival y) (fun w => match w with
        | .late id => k.flights.any (fun f => decide (f.id = id) && !f.ready)
        | _ => true)
      ∧ (∀ a sc kd, k.waits = [.tlbinv a sc kd] → ∃ t, exec (.tlbinvComplete y) s = .next t ∧ (t.ctx x c).waits = []
          ∧ (∀ e, e ∈ t.tlb ↔ e ∈ s.tlb ∧ tlbHit x a sc kd e = false) ∧ t.pool = s.pool ∧ t.hbm = s.hbm)
      ∧ (∀ a sc all, k.waits = [.codeinv a sc all] → ∃ t, exec (.codeinvComplete y) s = .next t ∧ (t.ctx x c).waits = []
          ∧ t.pool = s.pool ∧ t.hbm = s.hbm
          ∧ ∀ z, inInvScope x sc z = true → ∀ p ∈ (t.seq z).pages, (all = true ∨ p.page = pageOf a) → p.stale = true)
      ∧ (∀ sel t', k.waits = [.remdata sel t'] →
          (s.gclk < t' → exec (.remdataReturn y) s = .next s)
          ∧ (t' ≤ s.gclk → ∃ t f, exec (.remdataReturn y) s = .next t ∧ (t.ctx x c).waits = [] ∧ (t.ctx x c).flights = k.flights ++ [f]
            ∧ f.remaining = 2 ∧ f.vals = [⟨s.sysRead (remSeq (dieOf own) sel) 0 (remIndex sel), .clean⟩]))
      ∧ exec (.remdataRead y) s = .next { s with free := s.free + 1, tails := s.tails ++
          [.wait x c [.remdata (s.seq x).remsel (s.gclk + 1 + (Config.freeWord s.free).toNat % 64)]] })
  ∧ (
    ∀ (s : State) (y : SeqId) (z : TileId) (a m : Word),
      let x := seqKey y
      let c := ((s.seq x).active).getD 0
      let k := s.ctx x c
      let t := 65 * (a.toNat / 2 ^ 28 % 4) + a.toNat / 2 ^ 22 % 64
      (k.waits = [.zerob false a m none] →
        ((∃ b, b < 64 ∧ m.getLsbD b = true ∧ (((s.tile t).bank b).held = true ∨ s.reservedBy t b s.gclk ≠ none)) →
          exec (.zerobComplete y) s = .next s)
        ∧ ((∀ b, b < 64 → m.getLsbD b = true → ((s.tile t).bank b).held = false ∧ s.reservedBy t b s.gclk = none) →
          ∃ u, exec (.zerobComplete y) s = .next u ∧ (u.ctx x c).waits = [.zerob false a m (some (s.gclk + 64))] ∧ u.hbm = s.hbm
            ∧ ∀ b, b < 64 → m.getLsbD b = true → ((u.tile t).bank b).zeroTo = some (s.gclk + 63)
              ∧ ∀ o, o < 0x10000 → tget 0 u.pool (2 ^ 22 * t + 0x10000 * b + o) = 0))
      ∧ (∀ e, k.waits = [.zerob false a m (some e)] →
        (s.gclk < e → exec (.zerobComplete y) s = .next s)
        ∧ (e ≤ s.gclk → ∃ u, exec (.zerobComplete y) s = .next u ∧ (u.ctx x c).waits = []
          ∧ (∀ b, b < 64 → m.getLsbD b = true →
            ((u.tile t).bank b).zeroTo = none ∧ ((u.tile t).bank b).alloc = false ∧ ((u.tile t).bank b).sealed = none
            ∧ (∀ o, o < 0x10000 → tget 0 u.pool (2 ^ 22 * t + 0x10000 * b + o) = 0)
            ∧ ∀ j, j < 4 → tget 0 (u.tile t).slotTags (4 * b + j) = tVOID)
          ∧ ∀ p, (∀ b, b < 64 → m.getLsbD b = true → p < 2 ^ 22 * t + 0x10000 * b ∨ 2 ^ 22 * t + 0x10000 * (b + 1) ≤ p) →
              tget 0 u.pool p = tget 0 s.pool p))
      ∧ (k.waits = [.zerob true a m none] → ∃ u, exec (.zerobComplete y) s = .next u ∧ (u.ctx x c).waits = []
          ∧ ∀ r, r ∈ u.zeroing ↔ r ∈ s.zeroing ∧ r ≠ (a.toNat, 4096 * m.toNat))
      ∧ ∃ u, exec (.acfreeZeroed z) s = .next u ∧ OnlyTile s u (tileKey z) ∧ ∀ b,
          let old := (s.tile (tileKey z)).bank b
          ((u.tile (tileKey z)).bank b).zeroTo = if old.alloc = false ∧ ∃ e, old.zeroTo = some e ∧ e < s.gclk then none else old.zeroTo)

/-- After R213, R216, R219, R227, R240 to R242: steps of a nest land where n = 8 + (s + 1) × cpk, a nest is complete
with its last step, a known-answer run leaves its hash, a grouped operation counts its counter up and leaves a tile
VOID where it stopped or failed. After R253, R256, R264: stores that a hold delayed and accesses that cross a die
perform in the first cycle in which their banks are free, and not before; none that crosses a die boundary while one is
under repair (R394). After R205 to R209, R216, R217: what a step adds: element (m, n) of the tile that the step names takes
the exact sum of its kf products, of the row of A that m or its index names and row n of B, each factor scaled by its
block's entry, in one rounding, or wrapping; a scale entry of 0xFF makes it NaN with INVALID; nothing else changes, no tag
of a tile either. Choices of the model that it rests on: log 25, 26, 29, 37 and 89 (UNDERFLOW of a rounded sum). -/
def Obligations.EnginesAndDelayedAccessesComplete : Prop :=
  (
    ∀ (s : State) (y : SeqId) (w : TileId) (x : Nat), x = seqKey y →
      (∀ z, s.nest x = some z →
        (z.landed < z.steps → z.n = 8 + (z.landed + 1) * z.cfg.fmt.cpk → ∃ t, exec (.nestStepLanding y) s = .next t
          ∧ (∃ z', t.nest x = some z' ∧ z'.landed = z.landed + 1 ∧ z'.n = z.n ∧ z'.steps = z.steps)
          ∧ t.pool = (s.nestStep z z.landed).1.pool ∧ t.hbm = s.hbm ∧ t.ctxs = s.ctxs)
        ∧ (z.landed = z.steps → ∃ t, exec (.nestCompletion y) s = .next t ∧ t.nest x = none ∧ t.flagsDue = s.flagsDue ++ [(z.seq, z.ctx, z.flags)]
          ∧ t.pool = s.pool)
        ∧ (z.landed < z.steps → z.n ≠ 8 + (z.landed + 1) * z.cfg.fmt.cpk → exec (.nestStepLanding y) s = .next s
          ∧ exec (.nestCompletion y) s = .next s))
      ∧ (∀ z, s.kat x = some z →
        let last := 8 + 16 * ((mxFmt z.fmt).map MxFmt.cpk).getD 1
        (z.n < last → exec (.katCompletion y) s = .next s)
        ∧ (last ≤ z.n → ∃ t, exec (.katCompletion y) s = .next t ∧ t.kat x = none ∧ (t.ctx x z.ctx).katHash = katHash z.fmt z.seed
          ∧ (t.ctx x z.ctx).q = (s.ctx x z.ctx).q ∧ t.pool = s.pool))
      ∧ (∀ v, (s.tile (tileKey w)).vg = some v →
        (v.fault.isSome = true → v.ended = none → ∃ t, exec (.vgFault w) s = .next t ∧ OnlyTile s t (tileKey w)
          ∧ ∃ u, (t.tile (tileKey w)).vg = some u ∧ u.ended = some v.cycle ∧ u.fault = v.fault)
        ∧ (∀ e, v.ended = some e → e + 8 ≤ v.cycle → v.completed = false → ∃ t, exec (.vgCompletion w) s = .next t
          ∧ (∃ r, t.pending = s.pending ++ [(s.gclk, .ctr ⟨tileKey w, v.ctr.toNat, none, 1, some r⟩)]
            ∧ (r.1.getLsbD 63 = true ↔ v.fault.isSome = true) ∧ (r.1.getLsbD 55 = true ↔ v.stopped = true))
          ∧ t.flagsDue = s.flagsDue ++ [(v.seq, v.ctx, v.flags)]
          ∧ (v.fault = none → v.stopped = false → t.pool = s.pool)
          ∧ (v.fault ≠ none ∨ v.stopped = true → (∀ o, o < 0x4000 → tget 0 t.pool (2 ^ 22 * tileKey w + v.c / 0x4000 * 0x4000 + o) = 0)
            ∧ tget 0 (t.tile (tileKey w)).slotTags (v.c / 0x4000) = tVOID)
          ∧ ∀ u, (t.tile (tileKey w)).vg = some u → u.completed = true)))
  ∧ (
    ∀ (s : State) (y : SeqId) (a : Acc),
      let x := seqKey y
      let idle := ∀ b ∈ a.banks, s.booked a.tile b s.gclk = none ∧ s.reservedBy a.tile b s.gclk = none
      let held := ∃ b ∈ a.banks, ((s.tile a.tile).bank b).held = true
      let delayed := s.accs.filter (fun b => decide (b.seq = x ∧ b.at_ = none) && !b.cross)
      (delayed = [] → exec (.heldStorePerform y) s = .next s)
      ∧ (delayed = [a] → held ∨ (∃ b ∈ a.banks, s.booked a.tile b s.gclk ≠ none) → exec (.heldStorePerform y) s = .next s)
      ∧ (¬held → (∀ b ∈ a.banks, s.booked a.tile b s.gclk = none) →
        (delayed = [a] ∨ (∃ b, delayed = [a, b] ∧ b.tile = a.tile ∧ ∃ n ∈ a.banks, n ∈ b.banks)) →
        ∃ t, exec (.heldStorePerform y) s = .next t ∧ t.pool = (s.performAcc a).pool ∧ (∀ b ∈ t.accs, b.id ≠ a.id)
          ∧ t.books = s.books ++ a.banks.map (fun b => ⟨a.tile, b, s.gclk, a.seq, false⟩))
      ∧ (let c := ((s.seq x).active).getD 0
        OnlyCtx s (s.heldOver x) x c ∧ ((s.heldOver x).ctx x c).waits = (s.ctx x c).waits.filter (fun w => match w with
          | .held id => s.accs.any (fun b => decide (b.id = id))
          | _ => true))
      ∧ (s.accs.find? (fun b => decide (b.id = a.id) && b.cross) = some a →
        ((∃ n, a.at_ = some n ∧ s.gclk < n) ∨ ¬idle ∨ (a.kind.writes = true ∧ held) → exec (.crossDieAccess a.id) s = .next s)
        ∧ ((∃ e ∈ s.laneUntil, s.gclk < e.2) → exec (.crossDieAccess a.id) s = .next s)
        ∧ ((∀ n, a.at_ = some n → n ≤ s.gclk) → idle → (a.kind.writes = true → ¬held) → (∀ e ∈ s.laneUntil, e.2 ≤ s.gclk) → ∃ t, exec (.crossDieAccess a.id) s = .next t
          ∧ t.pool = (s.performAcc a).pool ∧ (∀ b ∈ t.accs, b.id ≠ a.id)
          ∧ t.books = s.books ++ a.banks.map (fun b => ⟨a.tile, b, s.gclk, a.seq, true⟩))))
  ∧ (
    ∀ (s : State) (z : Nest) (k m n : Nat), m < 64 → n < 64 →
      let lv : Nat → NestLevel := fun i => z.levels.getD i { bound := 1, role := 0, sa := 0, sb := 0, sc := 0 }
      let idx : Nat → Int := fun i =>
        ((k / ((z.levels.take i).map (fun l => l.bound.toNat)).prod % (lv i).bound.toNat : Nat) : Int)
      let total : (NestLevel → Int) → Int := fun f => ∑ i ∈ Finset.range z.levels.length, idx i * f (lv i)
      let block : NestLevel → Bool := fun l => z.cfg.g && decide (l.role = 1)
      let own := tileOf z.seq
      let f := z.cfg.fmt
      let w := esz f.acc
      let x := elemAt 16 z.x (64 * (total (fun l => if block l then l.sa.toInt else 0)).toNat + m)
      let zeroRow : Bool := z.cfg.g && decide (x = 0xFFFF)
      let rowA : Int := z.a + ((if z.cfg.g then x else m) * z.cfg.pa.toNat * 32 : Nat) + 2 * total (fun l => if block l then 0 else l.sa.toInt)
      let rowB : Int := z.b + (n * z.cfg.pb.toNat * 32 : Nat) + 2 * total (fun l => l.sb.toInt)
      let code : Tag → Int → Nat → Nat := fun e at_ j =>
        s.rdPool own (at_.toNat + esz e * j / 8) ((esz e + 7) / 8) / 2 ^ (esz e * j % 8) % 2 ^ esz e
      let scale : Nat → Nat → Tag → Int → Nat → Nat := fun region base e at_ j =>
        let b := ((at_ - base) * 8 + (esz e * j : Nat)) / (32 * (esz e : Int))
        (tget 0x7F z.scl (s.rdPool own ((region : Int) + b / 2).toNat 1 / 2 ^ (4 * (b % 2).toNat) % 16)).toNat
      let value : Tag → Int → Nat → Nat → Option ℚ := fun e at_ j sc =>
        if f.scaled = true ∧ sc = 0xFF then none
        else (ratOf (elemVal e (code e at_ j))).map (fun r => if f.scaled then r * 2 ^ ((sc : Int) - 127) else r)
      let scaleA : Nat → Nat := scale z.sa z.a f.elem rowA
      let scaleB : Nat → Nat := scale z.sb z.b z.cfg.elemB rowB
      let a : Nat → Option ℚ := fun j => if zeroRow then some 0 else value f.elem rowA j (scaleA j)
      let b : Nat → Option ℚ := fun j => value z.cfg.elemB rowB j (scaleB j)
      let slot := ((z.c / 0x4000 : Nat) + total (fun l => l.sc.toInt)).toNat * 0x4000
      let t := (s.nestStep z k).1
      let old := s.rdPool own (slot + m * (8 * w) + n * (w / 8)) (w / 8)
      let new := t.rdPool own (slot + m * (8 * w) + n * (w / 8)) (w / 8)
      (∀ qa qb : Nat → ℚ, (∀ j, j < f.kf → a j = some (qa j) ∧ b j = some (qb j)) →
        let sum := ∑ j ∈ Finset.range f.kf, qa j * qb j
        (∀ g r, fmtOf f.acc = some g → ratOf (g.decode old) = some r → ∃ fl, RoundsTo g (r + sum) new fl)
        ∧ (f.acc = tS32 → ∃ i : Int, (i : ℚ) = sum ∧ (new : Int) = (old + i) % 2 ^ 32))
      ∧ (f.scaled = true → (∃ j, j < f.kf ∧ ((zeroRow = false ∧ scaleA j = 0xFF) ∨ scaleB j = 0xFF)) →
          new = fmtF32.nan ∧ (s.nestStep z k).2.invalid = true)
      ∧ (∀ p, (p < 2 ^ 22 * own + slot ∨ 2 ^ 22 * own + slot + 64 * (8 * w) ≤ p) → tget 0 t.pool p = tget 0 s.pool p)
      ∧ t.hbm = s.hbm ∧ t.tiles = s.tiles)

/-- After R134, R135, R137, R138: launch queues. After R130, R131, R137, R139, R140, R153, R249, R250: placement binds
a ready record to a gang that fits it; what the members then hold. Choices of the model that it rests on: log 4
(preparation ends within 2^16 cycles, and the time to acceptance), 40, 47, 48, 53 and 88. -/
def Obligations.RecordsAreConsumedAndBound : Prop :=
  (
    ∀ (s : State) (q : BitVec 6) (v : Word) (i : Nat) (y : SeqId),
      let l := s.lq q.toNat
      let a := l.base.toNat / 2 ^ 12 % 2 ^ 40 * 4096 + 256 * (l.next.toNat % 2 ^ (l.sz + 4))
      let found := (tget 0 s.hbm a).toNat + 256 * (tget 0 s.hbm (a + 1)).toNat
      let gap := (found + 2 ^ 16 - l.next.toNat) % 2 ^ 16
      let bytes := (List.range 256).map (fun j => tget 0 s.hbm (a + j))
      let looks : Instr → Prop := fun i =>
        (l.en = false ∨ l.stop ≠ 0 ∨ l.window.length = 8 → exec i s = .next s)
        ∧ (l.en = true → l.stop = 0 → l.window.length < 8 → ∃ t, exec i s = .next t ∧ t.hbm = s.hbm ∧ t.pool = s.pool ∧ t.ctxs = s.ctxs
          ∧ (gap = 0 → recordValid bytes l.job = true →
            t.lq q.toNat = { l with next := l.next + 1, window := l.window ++ [⟨q, l.next, l.job, bytes, false⟩] } ∧ t.seqs = s.seqs)
          ∧ (gap = 0 → recordValid bytes l.job = false → (t.lq q.toNat).stop = 2 ∧ (t.lq q.toNat).next = l.next
            ∧ (t.seq (serviceOf 0)).pend = (s.seq (serviceOf 0)).pend ++ [⟨.a, .launchBad, BitVec.ofNat 64 (q.toNat * 2 ^ 16 + found), 0, 0, false, false, 0⟩])
          ∧ (0 < gap → gap < 0x8000 → gap % 2 ^ (l.sz + 4) = 0 → (t.lq q.toNat).stop = 1
            ∧ (t.seq (serviceOf 0)).pend = (s.seq (serviceOf 0)).pend ++ [⟨.a, .launchqOverrun, BitVec.ofNat 64 (q.toNat * 2 ^ 16 + found), 0, 0, false, false, 0⟩])
          ∧ (0x8000 ≤ gap → t = s))
      looks (.lqdb q) ∧ looks (.launchQueuePoll q)
      ∧ (let on : Bool := v.getLsbD 31 && decide (v.toNat % 16 ≤ 10)
        ∃ t, exec (.lqctl q v) s = .next t ∧ t.lq q.toNat = { l with en := on, tl := v.getLsbD 30, ur := v.getLsbD 29, sz := v.toNat % 16, stop := if on then (if l.en then l.stop else 0) else 3 }
          ∧ t.seqs = s.seqs ∧ t.hbm = s.hbm ∧ t.tasks = s.tasks ∧ ∀ p, p ≠ q.toNat → t.lq p = s.lq p)
      ∧ (∀ r, l.window[i]? = some r →
        let met := ∀ j, j < 4 → ∀ z, refOf (recField r.bytes (0x20 + 8 * j) 4) = some z →
          recField r.bytes (0x24 + 8 * j) 4 ≤ ((s.tile z.1).counter z.2).value.toNat
        (¬met → exec (.recordReady q i) s = .next s)
        ∧ (met → ∃ t, exec (.recordReady q i) s = .next t ∧ (t.lq q.toNat).window = l.window.set i { r with ready := true } ∧ t.tasks = s.tasks
            ∧ t.seqs = s.seqs))
      ∧ (let x := seqKey y
        ∀ r rest, (s.seq x).launches = r :: rest →
        let m := s.lq r.queue.toNat
        let used := (m.tail.toNat + 2 ^ 16 - m.next.toNat) % 2 ^ 16
        let at_ := m.base.toNat / 2 ^ 12 % 2 ^ 40 * 4096 + 256 * (m.tail.toNat % 2 ^ (m.sz + 4))
        (r.full = false → exec (.tlaunchAccept y) s = .next s)
        ∧ (r.full = true → r.bad = false → recordValid r.bytes m.job = true → 2 ^ (m.sz + 4) ≤ used → exec (.tlaunchAccept y) s = .next s)
        ∧ (r.full = true → r.bad = true ∨ recordValid r.bytes m.job = false → ∃ t, exec (.tlaunchAccept y) s = .next t
          ∧ (t.seq x).launches = rest ∧ t.lqs = s.lqs ∧ t.hbm = s.hbm)
        ∧ (r.full = true → r.bad = false → recordValid r.bytes m.job = true → used < 2 ^ (m.sz + 4) → at_ + 256 ≤ hbmBytes → s.zeroing = [] →
          ∃ t, exec (.tlaunchAccept y) s = .next t ∧ (t.seq x).launches = rest ∧ (t.lq r.queue.toNat).tail = m.tail + 1
            ∧ tget 0 t.hbm at_ = BitVec.ofNat 8 m.tail.toNat ∧ tget 0 t.hbm (at_ + 1) = BitVec.ofNat 8 (m.tail.toNat / 256)
            ∧ (tget 0 t.hbm (at_ + 3)).toNat = min (recField r.bytes 3 1) r.rank % 256
            ∧ (∀ j, 2 ≤ j → j < 256 → j ≠ 3 → tget 0 t.hbm (at_ + j) = r.bytes.getD j 0)
            ∧ ∀ k, (k < at_ ∨ at_ + 256 ≤ k) → tget 0 t.hbm k = tget 0 s.hbm k)))
  ∧ (
    ∀ (s : State) (q : BitVec 6) (i : Nat) (g : List SeqId) (r : Record), (s.lq q.toNat).window[i]? = some r → r.queue = q →
      let xs := g.map seqKey
      let id := s.fresh
      let bound : State → Prop := fun t => (∃ k, t.task id = some k ∧ k.rec_ = r ∧ k.members.map Prod.fst = xs ∧ k.st = .bound ∧ k.boundTick = s.gclk
          ∧ s.gclk ≤ k.readyAt ∧ k.readyAt < s.gclk + 2 ^ 16
          ∧ (∀ m ∈ k.members, (s.ctx m.1 m.2).task = none ∧ 1 ≤ m.2 ∧ m.2 ≤ 3 ∧ (t.ctx m.1 m.2).task = some id
            ∧ (t.ctx m.1 m.2).entry = some (BitVec.ofNat 64 (recField r.bytes 8 8), 2) ∧ (t.ctx m.1 m.2).partw = BitVec.ofNat 64 (recField r.bytes 0x10 8)
            ∧ (t.ctx m.1 m.2).jobid = r.job ∧ (t.ctx m.1 m.2).q = [] ∧ (t.ctx m.1 m.2).loops = []
            ∧ (t.ctx m.1 m.2).ptbase = (s.ctx m.1 m.2).ptbase
            ∧ ∀ b, b < 64 → partRole (BitVec.ofNat 64 (recField r.bytes 0x10 8)) b ≠ .free →
              ((t.tile (tileOf m.1)).bank b).owner = some id
              ∧ ((t.tile (tileOf m.1)).bank b).role = partRole (BitVec.ofNat 64 (recField r.bytes 0x10 8)) b
              ∧ ((t.tile (tileOf m.1)).bank b).alloc = false))
        ∧ (t.lq q.toNat).window = (s.lq q.toNat).window.eraseIdx i ∧ t.hbm = s.hbm
      let fits := r.ready = true ∧ s.canBind r xs = true
      (∀ t0, s.task id = some t0 → False) →
      (fits → s.urgentRec r = false → ∃ t, exec (.placementBind q i g) s = .next t ∧ bound t ∧ t.tasks.length = s.tasks.length + 1)
      ∧ (¬fits ∨ s.urgentRec r = true → exec (.placementBind q i g) s = .next s)
      ∧ (fits → s.urgentRec r = true → ∃ t, exec (.urgentLaunch q i g) s = .next t ∧ bound t
        ∧ (∀ x ∈ xs, s.idleSeq x = true → (s.seq x).hold = none → (t.seq x).hold = some id)
        ∧ (∀ k ∈ s.tasks, k.runs = true → s.eff k < r.rank → ∀ m ∈ k.members, m.1 ∈ xs → (t.seq m.1).hold = some id)
        ∧ ∀ k ∈ s.tasks, k.st = .running → k.preempt = none → k.killed = false → s.eff k < r.rank → (∃ m ∈ k.members, m.1 ∈ xs) →
          ∀ k', t.task k.id = some k' → k'.preempt.isSome = true)
      ∧ (¬fits ∨ s.urgentRec r = false → exec (.urgentLaunch q i g) s = .next s))

/-- After R141, R148 to R150, R152, R154: gangs start and resume on ticks, forced pre-emption is asked for, and an ended
task is released, once none of its banks is HELD and no cut or rollback holds it (log 118). A member that resumes fetches
the segments again that its chambers held (log 123). Choices of the model that it rests on: log 4, 46, 118 and 123. -/
def Obligations.GangsStartAndEnd : Prop :=
  ∀ (s : State) (id : Nat) (k : Task) (v : Word) (host : Bool), s.task id = some k → (k.members.map Prod.fst).Nodup →
    let due := k.resumeAt.elim False (fun r => r ≤ s.gclk)
    let runs : State → Prop := fun t => (∃ u, t.task id = some u ∧ u.st = .running ∧ u.lastStart = some s.gclk ∧ u.resumeAt = none ∧ u.members = k.members)
      ∧ (∀ m ∈ k.members, (t.seq m.1).active = some m.2 ∧ (t.seq m.1).hold = none) ∧ t.pool = s.pool
      ∧ ((k.st = .bound ∨ ∀ m ∈ k.members, (s.ctx m.1 m.2).back = []) → t.hbm = s.hbm)
    let may := s.isTick s.gclk = true ∧ s.allHeld k = true
    (may → k.st = .bound → k.readyAt ≤ s.gclk → ∃ t, exec (.gangStart id) s = .next t ∧ runs t ∧ t.ctxs = s.ctxs)
    ∧ (¬may ∨ k.st ≠ .bound ∨ s.gclk < k.readyAt → exec (.gangStart id) s = .next s)
    ∧ (may → k.st = .waiting → due → ∃ t, exec (.gangResume id) s = .next t ∧ runs t
      ∧ ∀ m ∈ k.members, (t.ctx m.1 m.2).q = (s.ctx m.1 m.2).q ∧ (t.ctx m.1 m.2).flights = (s.ctx m.1 m.2).flights ∧ (t.ctx m.1 m.2).pos = (s.ctx m.1 m.2).pos
        ∧ (t.ctx m.1 m.2).back = [])
    ∧ (¬may ∨ k.st ≠ .waiting ∨ ¬due → exec (.gangResume id) s = .next s)
    ∧ (let stays := k.st = .cut ∨ k.st = .rolled ∨ ∃ m ∈ k.members, ∃ e ∈ (s.tile (tileOf m.1)).banks, e.2.owner = some id
          ∧ ((s.tile (tileOf m.1)).bank e.1).held = true
      (s.stays k = true ↔ stays) ∧ (s.allDone k = false ∨ stays → exec (.taskEnd id) s = .next s))
    ∧ (s.allDone k = true → s.stays k = false → s.busyTask k = true → ∃ t u, exec (.taskEnd id) s = .next t ∧ t.task id = some u ∧ u.ending = true ∧ t.ctxs = s.ctxs)
    ∧ (s.allDone k = true → s.stays k = false → s.busyTask k = false → k.id = id → ∃ t, exec (.taskEnd id) s = .next t ∧ t.task id = none
      ∧ (∀ m ∈ k.members, (t.ctx m.1 m.2).task = none ∧ (t.seq m.1).active ≠ some m.2
        ∧ ∀ b, ((t.tile (tileOf m.1)).bank b).owner ≠ some id
          ∧ (((s.tile (tileOf m.1)).bank b).owner = some id → ∀ o, o < 0x10000 →
            tget 0 t.pool (2 ^ 22 * tileOf m.1 + 0x10000 * b + o) = 0))
      ∧ (∀ p, (∀ m ∈ k.members, ∀ b ∈ s.banksOfTask (tileOf m.1) id,
          p < 2 ^ 22 * tileOf m.1 + 0x10000 * b ∨ 2 ^ 22 * tileOf m.1 + 0x10000 * (b + 1) ≤ p) → tget 0 t.pool p = tget 0 s.pool p)
      ∧ (k.killed = false → ∀ o ∈ [0x18, 0x1C], ∀ y b, refOf (recField k.rec_.bytes o 4) = some (y, b) →
        (s.gclk, .ctr ⟨y, b, none, 1, none⟩) ∈ t.pending))
    ∧ (v.getLsbD 63 = false → ∃ t, exec (.preq v host) s = .next t ∧ t.tasks = s.tasks ∧ t.preq.getLsbD 63 = s.preqPends)
    ∧ (v.getLsbD 63 = true → s.tasks.find? (fun t => t.runs && decide (t.rec_.queue.toNat = field v.toNat 21 16)
          && decide (t.rec_.seqno.toNat = v.toNat % 2 ^ 16)) = some k → k.preempt = none →
        ∃ t h, exec (.preq v host) s = .next t ∧ s.gclk ≤ h ∧ h < s.gclk + 112 ∧ t.preq.getLsbD 63 = true
          ∧ (∃ u, t.task id = some u ∧ u.preempt = some (h, v.getLsbD 62, if host then 2 else 1))
          ∧ (k.st ≠ .cut → (h, .halt id) ∈ t.env))

/-- After R117, R118, R141, R142, R144 to R146: decisions at a rendezvous and on idle sequencers take place on ticks;
the pick is the first in the order of R144, and what the pick and the rest become. A decision completes: at every
rendezvous each task's age, misses and overrun mark become what R144 says; on idle sequencers the pick's members hold for
it, and it may start at once, or resume after 128 cycles (log 46). A gang some of whose sequencers hold for another task
already, an urgent one, stays suspended at its yield (R153). An overrun completes: the task's mark is set, which costs it
one rank, and nothing else changes. Choices of the model that it rests on: log 41 to 46. -/
def Obligations.ArbitrationFollowsTheOrder : Prop :=
  ∀ (s : State) (g : List SeqId) (y : Task) (id : Nat),
    (∀ l, (l = [] ↔ s.firstTask l = none) ∧ ∀ w, s.firstTask l = some w → w ∈ l ∧ ∀ v ∈ l, s.taskBefore v w = false)
    ∧ (∀ a b : Task, s.taskBefore a b = true → s.eff b ≤ s.eff a)
    ∧ (∀ t : Task, s.eff t ≤ 15 ∧ (t.rank = 0 → s.eff t = 0) ∧ (t.rank ≠ 0 → t.rank ≤ 15 → t.ovr = false → t.rank ≤ s.eff t))
    ∧ (s.isTick s.gclk = false → exec (.arbitrationDecision g) s = .next s)
    ∧ (s.isTick s.gclk = true → s.tasks.find? (fun t => s.rendezvous t && decide (t.seqs = g.map seqKey)) = some y → s.task y.id = some y →
      (∀ x ∈ y.seqs, ∀ u, (s.seq x).hold.bind s.task = some u → u.id = y.id) →
      let run := (y.members.map s.yieldRun).foldl max 0
      let c := { y with run := run } :: (s.candidates y.seqs).filter (fun t => t.meets y.seqs)
      let left := y.rem - (s.gclk : Int)
      s.absent y.seqs = [] →
      ∃ w renew t, s.pickTask c (some left) = some (w, renew) ∧ exec (.arbitrationDecision g) s = .next t
        ∧ (w.id = y.id → (∃ u, t.task y.id = some u ∧ u.st = .running ∧ u.age = 0 ∧ u.miss = 0 ∧ u.run = run
            ∧ u.rem = if renew then (s.gclk : Int) + 16 * y.slice else y.rem)
          ∧ ∀ m ∈ y.members, ∀ r, Wait.yield r ∉ (t.ctx m.1 m.2).waits)
        ∧ (w.id ≠ y.id → (∃ u, t.task y.id = some u ∧ u.st = .waiting) ∧ (∀ m ∈ y.members, (t.seq m.1).active ≠ some m.2)
          ∧ (∀ x ∈ w.seqs, (t.seq x).hold = some w.id)
          ∧ ∀ u, t.task w.id = some u → u.resumeAt = some (if w.st = .bound then s.gclk else s.gclk + 128) ∧ u.age = 0 ∧ u.miss = 0))
    ∧ (s.isTick s.gclk = true → s.tasks.find? (fun t => s.rendezvous t && decide (t.seqs = g.map seqKey)) = some y → s.task y.id = some y →
      (∃ x ∈ y.seqs, ∃ u, (s.seq x).hold.bind s.task = some u ∧ u.id ≠ y.id) →
      ∃ t, exec (.arbitrationDecision g) s = .next t ∧ (∃ u, t.task y.id = some u ∧ u.st = .waiting ∧ u.resumeAt = y.resumeAt)
        ∧ (∀ m ∈ y.members, (t.seq m.1).active ≠ some m.2 ∧ ∀ r, Wait.yield r ∉ (t.ctx m.1 m.2).waits) ∧ ∀ x, (t.seq x).hold = (s.seq x).hold)
    ∧ (∀ k, s.task id = some k →
      let over_ := ∃ m ∈ k.members, (s.ctx m.1 m.2).task = some id ∧ ∃ r, (s.ctx m.1 m.2).stated = some r ∧ r < (s.ctx m.1 m.2).ran
      (¬over_ → exec (.runOverrun id) s = .next s)
      ∧ (over_ → exec (.runOverrun id) s
          = .next { s with tasks := s.tasks.map (fun u => if u.id = id then { u with ovr := true } else u) }
        ∧ (k.rank ≠ 0 → s.eff { k with ovr := true } + 1 = s.eff { k with ovr := false })))
    ∧ (s.isTick s.gclk = true → (s.tasks.map (fun t => t.id)).Nodup →
      (s.tasks.find? (fun t => s.rendezvous t && decide (t.seqs = g.map seqKey)) = some y →
        (∀ x ∈ y.seqs, ∀ u, (s.seq x).hold.bind s.task = some u → u.id = y.id) →
        let c := { y with run := (y.members.map s.yieldRun).foldl max 0 } :: (s.candidates y.seqs).filter (fun t => t.meets y.seqs)
        let away := s.absent y.seqs
        ∃ w renew t, s.pickTask (c ++ away) (some (y.rem - (s.gclk : Int))) = some (w, renew) ∧ exec (.arbitrationDecision g) s = .next t
          ∧ t = { s with ctxs := t.ctxs, seqs := t.seqs, tasks := t.tasks } ∧ t.tasks.map (fun u => u.id) = s.tasks.map (fun u => u.id)
          ∧ ∀ v u, s.task v.id = some v → t.task v.id = some u →
            (v.id = w.id → w.id ∉ away.map (fun a => a.id) → u.age = 0 ∧ u.miss = 0 ∧ u.ovr = false
              ∧ u.rem = if renew then (s.gclk : Int) + 16 * v.slice else y.rem)
            ∧ (v.id ≠ w.id → u.miss = v.miss + (if renew = true ∧ v.meets y.seqs = true then 1 else 0)
              ∧ (v.id ∈ c.map (fun a => a.id) → u.age = v.age + (if v.rank = 0 then 0 else 1) ∧ u.ovr = false)
              ∧ (v.id ∉ c.map (fun a => a.id) → u.age = v.age ∧ u.ovr = v.ovr)))
      ∧ (s.tasks.find? (fun t => s.rendezvous t && decide (t.seqs = g.map seqKey)) = none →
        let G := (g.map seqKey).filter (fun x => s.idleSeq x && decide ((s.seq x).hold = none))
        let all := (s.candidates []).filter (fun t => t.meets G)
        let away := (s.absent G).filter (fun t => t.members.any (fun m => decide (m.1 ∈ G) && s.freeFor t m.1 && decide ((s.seq m.1).hold = none)))
        (s.pickTask (all ++ away) none = none → exec (.arbitrationDecision g) s = .next s)
        ∧ ∀ w renew, s.pickTask (all ++ away) none = some (w, renew) →
          ∃ t, exec (.arbitrationDecision g) s = .next t ∧ t = { s with seqs := t.seqs, tasks := t.tasks } ∧ renew = true
            ∧ (w.id ∉ away.map (fun a => a.id) → (∀ x ∈ w.seqs, (t.seq x).hold = some w.id)
              ∧ ∃ u, t.task w.id = some u ∧ u.age = 0 ∧ u.miss = 0 ∧ u.ovr = false ∧ u.rem = (s.gclk : Int) + 16 * w.slice
                ∧ u.resumeAt = some (if w.st = .bound then s.gclk else s.gclk + 128) ∧ u.members = w.members)
            ∧ (w.id ∈ away.map (fun a => a.id) → ∀ x ∈ G, x ∈ w.seqs → s.freeFor w x = true → (t.seq x).hold = some w.id)))

/-- After R339, R344 to R346, R361: taking a trap. The interrupted context stays as it stands, the registers of the
delivery take the cause, and context 0 begins at TVEC's landing after a delay of less than 64 cycles. An enabled
breakpoint takes BREAK so, before issue. After R345: of the causes pending at a boundary the one taken is first in the
order, and the rest stay. Choices of the model that it rests on: log 4 and 72. -/
def Obligations.TrapsAreTakenInOrder : Prop :=
  (
    ∀ (s : State) (y : SeqId) (c : Nat) (p : Pend),
      let x := seqKey y
      let q := s.seq x
      let k := s.ctx x c
      let taken : State → Pend → State → Prop := fun s0 p t =>
        let r := t.seq x
        r.active = some 0 ∧ r.serving = true ∧ r.inter = some c ∧ r.halt = .run ∧ r.tcause.toNat = p.kind.code * 2 ^ 7 + p.cause.code ∧ r.tval = p.tval
        ∧ r.tbundle = k.pos ∧ r.tstat.toNat / 2 ^ 16 = min (k.flights.map resultsOf).sum 255 ∧ r.tstat.toNat / 2 ^ 6 % 4 = c % 4 ∧ r.tstat.getLsbD 5 = p.re
        ∧ r.tstat.toNat / 2 ^ 12 % 8 = p.slot % 8 ∧ r.tstat.toNat / 2 ^ 8 % 16 = p.ms % 16 ∧ r.tstat.getLsbD 15 = (p.bpx || k.bpx)
        ∧ r.pend = (s0.seq x).pend ∧ r.tvec = q.tvec
        ∧ (t.ctx x 0).entry = some (q.tvec, 2) ∧ (t.ctx x 0).flights = [] ∧ (t.ctx x 0).keeps = (s.ctx x 0).keeps
        ∧ (∃ d, d < 64 ∧ (t.ctx x 0).waits = [.delay (s.gclk + 1 + d)])
        ∧ (∀ x' c', ctxKey x' c' ≠ ctxKey x 0 → t.ctx x' c' = s.ctx x' c') ∧ t.pool = s.pool ∧ t.hbm = s.hbm
      q.active = some c → 1 ≤ c → c ≤ 3 → (q.halt = .run ∨ q.halt = .texit) → q.serving = false → q.dbgctl.getLsbD 8 = false →
      taken s p (s.deliver x p)
      ∧ (∀ rest, takeFirst (s.deliverable x) = some (p, rest) → ∃ t, exec (.trapDelivery y) s = .next t
          ∧ taken (s.modSeq x (fun q => { q with pend := q.pend.erase p })) p t)
      ∧ (s.deliverable x = [] → exec (.trapDelivery y) s = .next s)
      ∧ (∀ i, i < 4 → (∀ j, j < i → ¬(q.dbgctl.getLsbD j = true ∧ tget 0 q.bph j = k.pos)) → q.dbgctl.getLsbD i = true → tget 0 q.bph i = k.pos →
          (k.bpx = false → ∃ t, exec (.breakpoint y) s = .next t
            ∧ taken s ⟨.s, .brk, BitVec.ofNat 64 (2 ^ 63 + i), 0, 0, true, true, 0⟩ { t with bundle := s.bundle } ∧ t.bundle = Bundle.idle)
          ∧ (k.bpx = true → exec (.breakpoint y) s = .next s))
      ∧ ((∀ j, j < 4 → ¬(q.dbgctl.getLsbD j = true ∧ tget 0 q.bph j = k.pos)) → exec (.breakpoint y) s = .next s))
  ∧ (
    ∀ l : List Pend, (l = [] ↔ takeFirst l = none) ∧ ∀ p r, takeFirst l = some (p, r) →
      p ∈ l ∧ (p :: r).Perm l ∧ (∀ q ∈ l, p.order ≤ q.order) ∧ (∀ q ∈ l, q.kind = .s → p.kind = .s)
      ∧ ((∃ q ∈ l, q.kind = .p) → p.kind ≠ .a))

/-- After R342, R344, R347: a cause that a bundle of context 0 raises halts the sequencer, and SUPFAULT goes to die
0's service tile; context 0 of a sequencer that waits for bring-up begins at TVEC with a write of START. After R336,
R347: ERET. With a cause pending context 0 begins again at TVEC and the interrupted context stays interrupted; else
the interrupted context goes on where its task runs. TEND ends the interrupted context's task by force. Choices of the
model that it rests on: log 22 and 73. -/
def Obligations.SupervisorFaultsStartsAndReturns : Prop :=
  (
    ∀ (s : State) (y : SeqId) (p : Pend) (v : Word),
      let x := seqKey y
      let q := s.seq x
      let home := serviceOf 0
      (q.active = some 0 → q.halt = .run → p.kind ≠ .a → x ≠ home →
        let t := s.deliver x p
        (t.seq x).active = none ∧ (t.seq x).halt = .supfault ∧ (t.seq x).serving = false ∧ t.ctxs = s.ctxs ∧ t.pool = s.pool ∧ t.hbm = s.hbm
        ∧ (t.seq home).pend = (s.seq home).pend ++
          [⟨.a, .supfault, BitVec.ofNat 64 (x / 130 * 2 ^ 16 + x / 2 % 65 * 2 ^ 8 + x % 2), 0, 0, false, false, 0⟩])
      ∧ (q.serving = true → (q.halt = .run ∨ q.halt = .texit) → p.kind = .a → (s.deliver x p).seq x = { q with pend := q.pend ++ [p] })
      ∧ (q.halt = .bringup ∨ q.halt = .supfault → s.deliver x p = s.modSeq x (fun q => { q with pend := q.pend ++ [p] }))
      ∧ (v.getLsbD 0 = false ∨ q.halt ≠ .bringup → exec (.start y v) s = .next s)
      ∧ (v.getLsbD 0 = true → q.halt = .bringup → q.active = none → q.inter = none → q.serving = false → q.dbgctl.getLsbD 8 = false →
        ∃ t, exec (.start y v) s = .next t ∧ (t.seq x).halt = .run ∧ (t.seq x).active = some 0 ∧ (t.seq x).serving = true ∧ (t.seq x).inter = none
          ∧ (t.seq x).tbundle = 0 ∧ (t.seq x).tcause.toNat = Kind.a.code * 2 ^ 7 + Cause.start.code ∧ (t.ctx x 0).entry = some (q.tvec, 2) ∧ t.pool = s.pool))
  ∧ (
    ∀ (s : State) (y : SeqId) (c : Nat) (v : Word),
      let x := seqKey y
      let q := s.seq x
      let as := q.pend.filter (fun p => decide (p.kind = .a) && !s.cutHeld x)
      q.serving = true → q.dbgctl.getLsbD 8 = false →
      (∀ p rest, takeFirst as = some (p, rest) →
        let t := s.eret x
        (t.seq x).pend = q.pend.erase p ∧ (t.seq x).tcause.toNat = p.kind.code * 2 ^ 7 + p.cause.code ∧ (t.seq x).tval = p.tval
        ∧ (t.seq x).inter = q.inter ∧ (t.seq x).serving = true ∧ (t.seq x).active = q.active ∧ (t.seq x).tbundle = q.tbundle
        ∧ (∀ j, j < 64 → (t.seq x).tstat.getLsbD j
            = if 8 ≤ j ∧ j < 12 then p.ms.testBit (j - 8) else if 12 ≤ j ∧ j < 15 then p.slot.testBit (j - 12) else q.tstat.getLsbD j)
        ∧ (t.ctx x 0).entry = some (q.tvec, 2) ∧ ∀ x' c', ctxKey x' c' ≠ ctxKey x 0 → t.ctx x' c' = s.ctx x' c')
      ∧ (as = [] → q.inter = some c → 1 ≤ c → c ≤ 3 → ∀ k, (s.ctx x c).task.bind s.task = some k →
        let t := s.eret x
        (t.seq x).halt = .texit ∧ (k.rolled = true → (t.seq x).hold = some k.id) ∧ (k.rolled = false → (t.seq x).hold = q.hold)
        ∧ (t.seq x).serving = false ∧ (t.seq x).inter = none ∧ (t.seq x).active = (if k.st = .running then some c else none)
        ∧ (t.ctx x c).bpx = q.tstat.getLsbD 15 ∧ (t.ctx x c).flights = (s.ctx x c).flights ∧ (t.ctx x c).q = (s.ctx x c).q ∧ (t.ctx x c).pos = (s.ctx x c).pos
        ∧ (t.ctx x c).keeps = (s.ctx x c).keeps ∧ t.pool = s.pool ∧ t.hbm = s.hbm)
      ∧ (as = [] → q.inter = none → ((s.eret x).seq x).active = none ∧ ((s.eret x).seq x).halt = .texit ∧ ((s.eret x).seq x).serving = false)
      ∧ (v.getLsbD 0 = false → exec (.tend y v) s = .next s)
      ∧ (v.getLsbD 0 = true → q.inter = some c → ∀ k, (s.ctx x c).task.bind s.task = some k → ∃ t, exec (.tend y v) s = .next t
        ∧ (t.ctx x c).done = true ∧ (t.ctx x c).loops = [] ∧ (t.seq x).inter = none
        ∧ (∃ u, t.task k.id = some u ∧ u.killed = true ∧ u.ending = true) ∧ ∃ h, s.gclk ≤ h ∧ h < s.gclk + 112 ∧ (h, .halt k.id) ∈ t.env))

/-- After R134, R286, R313, R337 to R342, R357, R359, R361, R362, R384, R395, R401: what a write of a register leaves,
with reserved bits dropped, and that it changes nothing else: registers of a context, a sequencer, the die and the package,
the launch queues also through BAR 0, SNAPLIST while no snapshot is under way, TELCFG by BAR 0 and by PLDM, and RESETCTL,
whose GO reads 1 until the reset it asks for is done. Choices of the model that it rests on: log 36, 54, 55 and 120. -/
def Obligations.RegistersAreWritten : Prop :=
  ∀ (s : State) (y : SeqId) (c : BitVec 2) (v : Word),
    let x := seqKey y
    let d := dieOf (tileOf x)
    let q := s.seq x
    let k := s.ctx x c.toNat
    let writes : BitVec 12 → (State → Prop) → Prop := fun i P => ∃ t, exec (.registerWrite (.sys y c i) v) s = .next t ∧ t.pool = s.pool ∧ t.hbm = s.hbm
      ∧ t.tiles = s.tiles ∧ t.tasks = s.tasks ∧ P t
    let seq : BitVec 12 → Seq → Prop := fun i r => writes i (fun t => t.seq x = r ∧ OnlySeq s t x)
    let ctx : BitVec 12 → Ctx → Prop := fun i r => writes i (fun t => t.ctx x c.toNat = r ∧ OnlyCtx s t x c.toNat)
    seq 0x004 { q with tvec := v }
    ∧ seq 0x006 { q with dbgctl := v &&& 0x10F }
    ∧ seq 0x050 { q with remsel := v &&& 0x3FE0FFF }
    ∧ (∀ j : BitVec 2, ∃ b, seq (0x008 + j.setWidth 12) { q with bph := b } ∧ ∀ n, tget 0 b n = if n = j.toNat then v else tget 0 q.bph n)
    ∧ ctx 0x010 { k with flags := ⟨v.getLsbD 5, v.getLsbD 4, v.getLsbD 3, v.getLsbD 2, v.getLsbD 1, v.getLsbD 0⟩ }
    ∧ (c ≠ 0 → (v.setWidth 16 : BitVec 16) ≠ 0 → (v.setWidth 16 : BitVec 16) ≠ 0xFFFF → ctx 0x013 { k with jobid := v.setWidth 16 })
    ∧ (c = 0 ∨ (v.setWidth 16 : BitVec 16) = 0 ∨ (v.setWidth 16 : BitVec 16) = 0xFFFF → ctx 0x013 k)
    ∧ ctx 0x014 { k with ctrmask := v } ∧ ctx 0x015 { k with ptbase := v &&& 0x000FFFFFFFFF8001 } ∧ ctx 0x016 { k with conf := v &&& 0x800000000000001F }
    ∧ ctx 0x017 { k with hdsel := v &&& 0x3FF } ∧ ctx 0x019 { k with dbgsel := v &&& 0x80000000000FFFFF }
    ∧ writes 0x030 (fun t => t = { s with schedcfg := t.schedcfg } ∧ ∀ e, (tget 4 t.schedcfg e).toNat = if e = d then max 1 (v.toNat % 256) else (tget 4 s.schedcfg e).toNat)
    ∧ writes 0x042 (fun t => t = { s with health := t.health } ∧ ∀ j, j < 64 → t.health.getLsbD j
        = (s.health.getLsbD j && !(v.getLsbD j && (decide (j < 16) || decide (32 ≤ j ∧ j < 40) || decide (j = 62)))))
    ∧ writes 0x045 (fun t => t = { s with snap := { s.snap with store := v, used := 0 } })
    ∧ writes 0x046 (fun t => t = { s with tickstop := v })
    ∧ writes 0x047 (fun t => t = { s with trcctl := v &&& 0xFFFFFFFFFFFF001F, trcPos := 0 })
    ∧ writes 0x048 (fun t => t = { s with ftbase := v &&& 0x000FFFFFFFF00000 })
    ∧ (s.snap.busy = false → writes 0x049 (fun t => t = { s with snap := { s.snap with list_ := v &&& 0x000FFFFFFFFFFFF0 } }))
    ∧ (s.snap.busy = true → writes 0x049 (fun t => t = s))
    ∧ (∀ r ∈ [RegRef.bar 0x12000, RegRef.pldm], ∃ t, exec (.registerWrite r v) s = .next t ∧ t = { s with telcfg := t.telcfg }
      ∧ ∀ j, j < 64 → t.telcfg.getLsbD j = if 58 ≤ j ∧ j < 63 ∧ ¬(12 ≤ v.toNat / 2 ^ 58 % 32 ∧ v.toNat / 2 ^ 58 % 32 ≤ 26)
          then s.telcfg.getLsbD j else v.getLsbD j && decide (15 ≤ j ∧ j ≠ 52 ∧ j ≠ 53))
    ∧ (let go : Bool := v.getLsbD 63 && decide (v.toNat / 2 ^ 60 % 8 ≤ 2)
      let kept : Nat → Bool := fun j => v.getLsbD j && (decide (58 ≤ j) || decide (11 ≤ j ∧ j < 20))
      ∃ t w, exec (.registerWrite (.bar 0x13000) v) s = .next t ∧ t = { s with resetctl := t.resetctl, agenda := t.agenda }
        ∧ (∀ j, j < 64 → w.getLsbD j = kept j) ∧ t.agenda = (if go then s.agenda ++ [.resetAsked w] else s.agenda)
        ∧ (∀ j, j < 63 → t.resetctl.getLsbD j = kept j) ∧ t.resetctl.getLsbD 63 = (go || decide (s.resetWaits ≠ [])))
    ∧ (∀ n : BitVec 6, let i : BitVec 12 := 0x100 + 4 * n.setWidth 12
      let only : LQueue → State → Prop := fun l t => t.lq n.toNat = l ∧ t = { s with lqs := t.lqs } ∧ ∀ p, p ≠ n.toNat → t.lq p = s.lq p
      let bar : Nat → (State → Prop) → Prop := fun o P => ∃ t, exec (.registerWrite (.bar (BitVec.ofNat _ (0x10000 + 0x40 * n.toNat + o))) v) s = .next t ∧ P t
      let based := only { s.lq n.toNat with base := v &&& 0x000FFFFFFFFFF000 }
      let set := only { s.lq n.toNat with tail := v.extractLsb' 32 16, next := v.extractLsb' 16 16 }
      writes i based ∧ bar 0 based
      ∧ ((s.lq n.toNat).en = false → writes (i + 2) set ∧ bar 0x10 set)
      ∧ ((s.lq n.toNat).en = true → writes (i + 2) (fun t => t = s) ∧ bar 0x10 (fun t => t = s))
      ∧ ((v.setWidth 16 : BitVec 16) ≠ 0xFFFF → writes (0x200 + n.setWidth 12) (only { s.lq n.toNat with job := v.setWidth 16 }))
      ∧ ((v.setWidth 16 : BitVec 16) = 0xFFFF → writes (0x200 + n.setWidth 12) (fun t => t = s)))
    ∧ (let slot := k.hdsel.toNat % 256
      let w := k.hdsel.toNat / 2 ^ 8 % 4
      let kept : Nat → Bool := fun j => decide (w < 2) || (decide (w = 2) && (decide (j < 24) || decide (32 ≤ j ∧ j < 43) || decide (48 ≤ j)))
      ∃ t word, exec (.hddata y c v) s = .next t ∧ (∀ j, j < 64 → word.getLsbD j = (v.getLsbD j && kept j))
        ∧ ((t.ctx x c.toNat).handles = tset 0 k.handles (4 * slot + w) word ∨ w = 2)
        ∧ (s.chains = [] → t = { s with ctxs := t.ctxs } ∧ ∀ n, tget 0 (t.ctx x c.toNat).handles n = if n = 4 * slot + w then word else tget 0 k.handles n))
    ∧ (∀ e rest, q.remq = e :: rest → e.2 = v → remIndex e.1 = 0x004 → ∃ t, exec (.remdataWrite y v) s = .next t
        ∧ (t.seq (remSeq d e.1)).tvec = v ∧ t.ctxs = s.ctxs ∧ t.pool = s.pool)

/-- After R21, R340, R362, R363, R395, R396: the tick grid, the stop of the clocks, telemetry and trace samples.
Choices of the model that it rests on: log 34. -/
def Obligations.ClocksAndRecords : Prop :=
  ∀ (s : State) (y : SeqId) (v : Word),
    let x := seqKey y
    let k := v.toNat % 32
    (4 ≤ k ∧ k ≤ 16 → ∃ t, exec (.tickcfg v) s = .next t ∧ t.tickNext.toNat = k ∧ t = { s with tickNext := t.tickNext })
    ∧ (k < 4 ∨ 16 < k → exec (.tickcfg v) s = .next s)
    ∧ (s.gclk % 2 ^ 16 ≠ 0 ∨ s.tickNext = s.tickK → exec .tickPeriodSwitch s = .next s)
    ∧ (s.gclk % 2 ^ 16 = 0 → s.tickNext ≠ s.tickK → ∃ t, exec .tickPeriodSwitch s = .next t ∧ t.tickK = s.tickNext ∧ t.pool = s.pool ∧ t.seqs = s.seqs
      ∧ ∀ n, (tget Ctx.init t.ctxs n).q = (tget Ctx.init s.ctxs n).q
        ∧ (tget Ctx.init t.ctxs n).waits = (tget Ctx.init s.ctxs n).waits.map (fun w => w.underK s.gclk s.tickK.toNat s.tickNext.toNat))
    ∧ (∀ t, s.isTick t = true ↔ 2 ^ s.tickK.toNat ∣ t)
    ∧ (let stops := s.tickstop.getLsbD 63 = true ∧ 2 ^ s.tickK.toNat ∣ s.gclk + 1 ∧ s.tickstop.toNat % 2 ^ 63 ≤ s.gclk + 1
      (stops → ∃ t, exec .tickstop s = .next t ∧ t.stopped = true ∧ t.tickstop.getLsbD 63 = false ∧ t.tickstop.toNat % 2 ^ 63 = s.tickstop.toNat % 2 ^ 63
        ∧ t = { s with stopped := t.stopped, tickstop := t.tickstop })
      ∧ (¬stops → exec .tickstop s = .next s))
    ∧ (s.stopped = true → ∃ t, exec .tickstopRelease s = .next t ∧ t.stopped = false ∧ (t.seq (serviceOf 0)).pend
        = (s.seq (serviceOf 0)).pend ++ [⟨.a, .tickstop, BitVec.ofNat 64 s.gclk, 0, 0, false, false, 0⟩])
    ∧ (s.stopped = false → exec .tickstopRelease s = .next s)
    ∧ (let m := max (s.telcfg.toNat / 2 ^ 58 % 32) s.tickK.toNat
      (s.gclk % 2 ^ m ≠ 0 → exec .telemetryLatch s = .next s)
      ∧ (s.gclk % 2 ^ m = 0 → ∃ t, exec .telemetryLatch s = .next t ∧ t.seqs = s.seqs ∧ t.tiles = s.tiles ∧ t.links = s.links
        ∧ t.pcieIn = s.pcieIn ∧ t.pcieOut = s.pcieOut
        ∧ ∀ i, tget 0 s.hbmRead i ≤ tget 0 t.hbmRead i ∧ tget 0 s.hbmWritten i ≤ tget 0 t.hbmWritten i
          ∧ tget 0 s.ucieRetries i ≤ tget 0 t.ucieRetries i)
      ∧ (s.gclk % 2 ^ m = 0 → s.telcfg.getLsbD 63 = false → ∃ t, exec .telemetryLatch s = .next t ∧ t.hbm = s.hbm ∧ t.pool = s.pool ∧ t.ctxs = s.ctxs)
      ∧ (s.gclk % 2 ^ m = 0 → s.telcfg.getLsbD 63 = true → ∃ t, exec .telemetryLatch s = .next t ∧ t.pool = s.pool ∧ t.ctxs = s.ctxs
        ∧ (t.telDropped = true → t.hbm = s.hbm)
        ∧ (t.telDropped = false →
          let at_ := s.telcfg.toNat / 2 ^ 15 % 2 ^ 37 * 2 ^ 15 + 2 ^ 15 * (s.gclk / 2 ^ m % 2 ^ (s.telcfg.toNat / 2 ^ 54 % 16))
          at_ + 2 ^ 15 ≤ hbmBytes → s.zeroing = [] → (∀ j, j < 8 → tget 0 t.hbm (at_ + j) = BitVec.ofNat 8 (s.gclk / 256 ^ j))
            ∧ ∀ p, (p < at_ ∨ at_ + 2 ^ 15 ≤ p) → tget 0 t.hbm p = tget 0 s.hbm p)))
    ∧ (let sh := s.trcctl.toNat % 32
      (sh = 0 ∨ s.gclk % 2 ^ (s.tickK.toNat + sh) ≠ 0 → exec (.traceSample y) s = .next s)
      ∧ (sh ≠ 0 → s.gclk % 2 ^ (s.tickK.toNat + sh) = 0 → (s.seq x).dbgctl.getLsbD 8 = true →
        let size := 2 ^ (s.trcctl.toNat / 2 ^ 16 % 16 + 12)
        let base := s.trcctl.toNat / 2 ^ 20 * 256
        let at_ := base + 32 * s.trcPos
        at_ + 32 ≤ hbmBytes → s.trcPos < size → s.zeroing = [] → ∃ t, exec (.traceSample y) s = .next t
        ∧ t.trcPos = (s.trcPos + 1) % size ∧ t.ctxs = s.ctxs ∧ t.pool = s.pool
        ∧ (∀ j, j < 8 → tget 0 t.hbm (at_ + j) = BitVec.ofNat 8 (s.gclk / 256 ^ j))
        ∧ (∀ p, (p < at_ ∨ at_ + 32 ≤ p) → tget 0 t.hbm p = tget 0 s.hbm p)))

/-- After R349 to R353, R357: a walk finds only legal leaves, at the address whose entry it is; PAGE_WALK ends in a
cached translation of exactly the leaf it found, or in nothing where the table has none or forbids the access. The index
that each level takes of the address, which entries are leaves and pointers, and what a leaf permits are stated bit by bit.
A write walk makes a CLEAN leaf DIRTY, in its entry and, of a job page of this package's, in the dirty log. Choices of the
model that it rests on: log 39 and 119. -/
def Obligations.TranslationFollowsTheTables : Prop :=
  (∀ (m : Table Byte) (va n level base : Nat) (l : Leaf), walkFrom m va n level base = .ok l →
    l.pte = rdBytes m l.at_ 8 ∧ pteV l.pte = true ∧ pteL l.pte = true ∧ l.size ∈ [2 ^ 12, 2 ^ 16, 2 ^ 21, 2 ^ 25, 2 ^ 29]
    ∧ pteFrame l.pte % l.size = 0 ∧ field l.pte 63 52 = 0 ∧ pteSN l.pte ≠ 3)
  ∧ (∀ (m : Table Byte) (va n level base : Nat), level < 4 →
    let at_ := base + 8 * (match level with
      | 0 => va / 2 ^ 45 % 2 ^ 12
      | 1 => va / 2 ^ 33 % 2 ^ 12
      | 2 => va / 2 ^ 21 % 2 ^ 12
      | _ => va / 2 ^ 12 % 2 ^ 9)
    let e := rdBytes m at_ 8
    let bits : Nat → Nat → Nat := fun i k => e / 2 ^ i % 2 ^ k
    let frame := bits 12 40 * 4096
    let leaf : Nat → Prop := fun size => walkFrom m va (n + 1) level base
      = if bits 52 12 = 0 ∧ bits 9 2 ≠ 3 ∧ frame % size = 0 then .ok ⟨e, size, at_⟩ else .error .pfRsvd
    (bits 0 1 = 0 → walkFrom m va (n + 1) level base = .error .pfAbsent)
    ∧ (bits 0 1 = 1 → bits 6 1 = 1 →
      (level < 2 ∨ (level = 2 ∧ bits 7 2 = 3) ∨ (level = 3 ∧ 2 ≤ bits 7 2) → walkFrom m va (n + 1) level base = .error .pfRsvd)
      ∧ (level = 3 → (bits 7 2 = 0 → leaf (2 ^ 12)) ∧ (bits 7 2 = 1 → leaf (2 ^ 16)))
      ∧ (level = 2 → (bits 7 2 = 0 → leaf (2 ^ 21)) ∧ (bits 7 2 = 1 → leaf (2 ^ 25)) ∧ (bits 7 2 = 2 → leaf (2 ^ 29))))
    ∧ (bits 0 1 = 1 → bits 6 1 = 0 → walkFrom m va (n + 1) level base
      = if level < 3 ∧ bits 52 12 = 0 ∧ bits 1 11 = 0 ∧ (level < 2 → bits 12 3 = 0) then walkFrom m va n (level + 1) frame else .error .pfRsvd))
  ∧ (∀ (w : Walker) (kd : WalkKind) (e : Nat),
    leafPermit w kd e =
      if (w.task = true ∧ e.testBit 4 = false) ∨ (kd = .read ∧ e.testBit 1 = false) ∨ (e.testBit 11 = true ∧ w.conf.getLsbD 63 = false) then some .pfPriv
      else if kd = .write ∧ e.testBit 2 = false then some .pfWrite
      else if kd = .fetch ∧ e.testBit 3 = false then some .pfExec
      else none)
  ∧ ∀ (s : State) (y : SeqId) (ctx : BitVec 2) (va : Word) (kd : WalkKind),
    let w := s.walker (seqKey y) ctx.toNat
    let a := va.toNat % 2 ^ 57
    let found := walkFrom s.hbm a 4 0 (w.ptbase.toNat / 2 ^ 15 % 2 ^ 37 * 2 ^ 15)
    (w.ptbase.getLsbD 0 = false → exec (.pageWalk y ctx va kd) s = .next s)
    ∧ (∀ e, found = .error e → exec (.pageWalk y ctx va kd) s = .next s)
    ∧ (∀ l e, found = .ok l → leafPermit w kd l.pte = some e → exec (.pageWalk y ctx va kd) s = .next s)
    ∧ (∀ l, w.ptbase.getLsbD 0 = true → found = .ok l → leafPermit w kd l.pte = none →
      ∃ t e, exec (.pageWalk y ctx va kd) s = .next t ∧ e ∈ t.tlb
        ∧ e.die = w.die ∧ e.root = w.ptbase.toNat ∧ e.size = l.size ∧ e.va = a / l.size * l.size ∧ e.frame = pteFrame l.pte ∧ e.job = w.job
        ∧ e.pte = BitVec.ofNat 64 (if kd = .write ∧ pteSN l.pte = 0 then l.pte + 2 ^ 9 else l.pte)
        ∧ t.pool = s.pool ∧ t.ctxs = s.ctxs ∧ t.seqs = s.seqs ∧ t.tiles = s.tiles ∧ t.tasks = s.tasks
        ∧ ((∀ i, i < l.size / 4096 → s.owner (pteFrame l.pte + 4096 * i) = w.job.toNat ∨ s.owner (pteFrame l.pte + 4096 * i) = 0xFFFF) →
          (kd ≠ .write ∨ pteSN l.pte ≠ 0 → t.hbm = s.hbm ∧ t.snap = { s.snap with tables := t.snap.tables })
          ∧ (s.jobWalk w = false → t.snap = s.snap)
          ∧ (kd = .write → pteSN l.pte = 0 → l.at_ + 8 ≤ hbmBytes → s.zeroing = [] →
            (∀ j, j < 8 → tget 0 t.hbm (l.at_ + j) = BitVec.ofNat 8 ((l.pte + 2 ^ 9) / 256 ^ j))
            ∧ (∀ p, (p < l.at_ ∨ l.at_ + 8 ≤ p) → tget 0 t.hbm p = tget 0 s.hbm p)
            ∧ (s.jobWalk w = true → l.at_ ∈ t.snap.dirty ∨ t.snap.full = true))))

/-- After R59 to R61, R106, R107, R124, R125: code comes from pages. A handle resolves only through the header, the
tag and the landing table of its page, and its segment is then resident; a fetch or prefetch expands the segment that
the chain names, and memory stays as it is. -/
def Obligations.CodeIsFetched : Prop :=
  (∀ (s u : State) (x c : Nat) (h pos : Word) (need : BitVec 2), s.resolve x c h need = (.ok pos, u) →
    handleOk h = true ∧ ∃ base pte v p e g,
      s.translate (s.walker x c) ((mkHandle (pageOf h) 0).toNat % 2 ^ 57) .fetch = (.ok (base, pte), v)
      ∧ readPage (v.codeView (v.walker x c) base pte) (pageOf h) base = some p ∧ pageTag (v.codeView (v.walker x c) base pte) base = 0x300
      ∧ p.landings[(wordOf h).toNat]? = some e ∧ p.usable e = true ∧ kindOk need (e / 2 ^ 16 % 4) = true
      ∧ pos = mkHandle (pageOf h) (BitVec.ofNat 12 (e % 2 ^ 16 / 4)) ∧ p.segOf (wordOf pos) = some g ∧ g.bad = false
      ∧ (u.seq x).resident (pageOf h) g.off = true ∧ u.hbm = v.hbm ∧ u.ctxs = s.ctxs)
  ∧ ∀ (s : State) (y : SeqId),
    let x := seqKey y
    let c := s.cur x
    let k := s.ctx x c
    let q := s.seq x
    (∀ h need pos u, k.waits = [.resolve h need] → s.resolve x c h need = (.ok pos, u) →
      ∃ t, exec (.pageResolution y) s = .next t ∧ t.seqs = u.seqs ∧ t.hbm = u.hbm ∧ (t.ctx x c).waits = []
        ∧ (k.entry = some (h, need) → (t.ctx x c).pos = pos ∧ (t.ctx x c).entry = none)
        ∧ (k.entry ≠ some (h, need) → (t.ctx x c).pos = k.pos ∧ (t.ctx x c).entry = k.entry)
        ∧ ∀ x' c', ctxKey x' c' ≠ ctxKey x c → t.ctx x' c' = s.ctx x' c')
    ∧ ((∀ w ∈ k.waits, ∀ h need, w ≠ .resolve h need) → exec (.pageResolution y) s = .next s)
    ∧ ((∀ w ∈ k.waits, ∀ a b, w ≠ .fetch a b) → exec (.segmentFetch y) s = .next s)
    ∧ (∀ a b p g, k.waits = [.fetch a b] → q.page (pageOf k.pos) = some p → p.stale = false → p.segOf (wordOf k.pos) = some g → g.bad = false →
      Chamber.lingers q.chamA c (pageOf k.pos) = false → Chamber.lingers q.chamB c (pageOf k.pos) = false →
      (q.resident (pageOf k.pos) g.off = true → ∃ t, exec (.segmentFetch y) s = .next t ∧ OnlyCtx s t x c ∧ (t.ctx x c).waits = [])
      ∧ (∀ e, q.resident (pageOf k.pos) g.off = false →
        s.tlbHit (s.walker x c) ((mkHandle (pageOf k.pos) 0).toNat % 2 ^ 57) .fetch = some e →
        let base := e.frame + ((mkHandle (pageOf k.pos) 0).toNat % 2 ^ 57 - e.va)
        ∃ t ch, exec (.segmentFetch y) s = .next t ∧ (t.ctx x c).waits = [] ∧ ((t.seq x).chamA = some ch ∨ (t.seq x).chamB = some ch)
          ∧ ch.ctx = c ∧ ch.page = pageOf k.pos ∧ ch.seg = g.off
          ∧ (let m := s.codeView (s.walker x c) base e.pte.toNat
            ch.words = (List.range (rdBytes m (base + g.off) 2 / 4)).map (fun i => rd32 m (base + g.off + 8 + 4 * i)))
          ∧ t.hbm = s.hbm ∧ t.pool = s.pool))
    ∧ (∀ p cur g h, q.page (pageOf k.pos) = some p → (if q.inB then q.chamB else q.chamA) = some cur → cur.page = p.page → cur.ctx = c →
      q.standsIn k.pos (some cur) = true → q.standsIn k.pos (if q.inB then q.chamA else q.chamB) = false →
      p.segs.find? (fun g => decide (g.off = cur.seg)) = some g → g.next ≠ 0 →
      p.segs.find? (fun h => decide (h.off = g.next)) = some h →
      ((h.bad = true ∨ p.stale = true ∨ q.resident p.page h.off = true ∨ chamberPinned k p (if q.inB then q.chamA else q.chamB) = true) →
        exec (.segmentPrefetch y) s = .next s)
      ∧ (∀ e, h.bad = false → p.stale = false → q.resident p.page h.off = false →
        chamberPinned k p (if q.inB then q.chamA else q.chamB) = false →
        s.tlbHit (s.walker x c) ((mkHandle p.page 0).toNat % 2 ^ 57) .fetch = some e →
        ∃ t ch, exec (.segmentPrefetch y) s = .next t ∧ (if q.inB then (t.seq x).chamB else (t.seq x).chamA) = some cur
          ∧ (if q.inB then (t.seq x).chamA else (t.seq x).chamB) = some ch ∧ ch.ctx = c ∧ ch.page = p.page ∧ ch.seg = h.off
          ∧ OnlySeq s t x))

/-- After R313 to R318: the snapshot's configuration, its cut and the end of its settle. At the cut every task of the
job halts and the coordinator's limit begins; at the end of settle the pages of the log are HELD, what the package
captures in one cycle is captured, and the dirty log starts anew, unless a page is lost, a captured entry cannot be
read or the store has no room; the states of the halted members go to the store, one entry each. On a tick at least 600
cycles after the cut gangs go on: a gang that was running runs again, its members' results and waits as they stood, its
engines' windows moved by the length of its halt; one whose pre-emption was asked for meanwhile halts within 112 cycles.
Choices of the model that it rests on: log 4, 57, 75 and 123. -/
def Obligations.SnapshotsAreCut : Prop :=
  ∀ (s : State) (v : Word),
    (s.snap.busy = true → exec (.snapcfg v) s = .next s)
    ∧ (s.snap.busy = false → ∃ t, exec (.snapcfg v) s = .next t ∧ t = { s with snap := t.snap } ∧ t.snap.cfg = v &&& 0x8FFFFFFFFF00FFFF
      ∧ t.snap.inc = s.snap.inc ∧ t.snap.store = s.snap.store ∧ t.snap.list_ = s.snap.list_
      ∧ ((v.setWidth 16 : BitVec 16) = s.snapJobNo → t.snap = { s.snap with cfg := t.snap.cfg })
      ∧ ((v.setWidth 16 : BitVec 16) ≠ s.snapJobNo → t.snap.b = 0 ∧ t.snap.k = 0 ∧ t.snap.a = 0 ∧ t.snap.ckpts = [] ∧ t.snap.dirty = []))
    ∧ (s.snap.phase ≠ 1 ∨ s.isTick s.gclk = false ∨ (∀ c, s.snap.cut = some c → s.gclk < c) → exec .snapshotCut s = .next s)
    ∧ (∀ c, s.snap.phase = 1 → s.isTick s.gclk = true → s.snap.cut = some c → c ≤ s.gclk → (s.tasks.map (fun k => k.id)).Nodup →
      ∃ t, exec .snapshotCut s = .next t ∧ t.snap.phase = 2 ∧ t.snap.cut = some s.gclk ∧ t.snap.halted = some s.gclk ∧ t.snap.limits
          = (if s.coordinator = s.pkg then s.snap.limits ++ [(s.snap.now, s.gclk + 2 ^ (s.snap.cfg.toNat / 2 ^ 56 % 16 + 20))]
            else s.snap.limits)
        ∧ (s.snap.waiting = [] → t.snap.log = [])
        ∧ t.tasks = s.tasks.map (fun k => if s.ofJob k = true ∧ k.st ≠ .cut
            then { k with was := k.st, st := .cut, haltedAt := if k.st = .running then some s.gclk else k.haltedAt } else k)
        ∧ t.pool = s.pool ∧ t.hbm = s.hbm ∧ t.ctxs = s.ctxs ∧ t.accs = s.accs
        ∧ ∀ k ∈ s.tasks, s.ofJob k = true → k.st = .running → ∀ m ∈ k.members, (t.seq m.1).active ≠ some m.2)
    ∧ (s.snap.phase ≠ 2 ∨ s.settled = false → exec .settleEnd s = .next s)
    ∧ (s.snap.phase = 2 → s.settled = true → ∃ t, exec .settleEnd s = .next t ∧ t.pool = s.pool ∧ t.ctxs = s.ctxs ∧ t.tasks = s.tasks
        ∧ t.accs = s.accs ∧ t.chains = s.chains
        ∧ (s.logLost = true ∨ s.capture.hasUe = true → t.snap.phase = 6 ∧ (t.snap.reason = 3 ∨ t.snap.reason = 2))
        ∧ (s.logLost = false → s.capture.hasUe = false → t.snap.phase = 3 ∨ (t.snap.phase = 6 ∧ t.snap.reason = 2))
        ∧ (s.logLost = false → s.jobTasks = [] → t.snap.phase = 3)
        ∧ (t.snap.phase = 3 → t.snap.heldPages = s.cutPages.map (fun p => p.at_)
          ∧ t.snap.dirty = [] ∧ t.snap.full = false ∧ t.snap.log = s.snap.log
          ∧ (∀ b ∈ t.snap.heldBanks, ((t.tile (b / 64)).bank (b % 64)).held = true)
          ∧ (∃ p, t.snap.part = some p ∧ p.num = s.snap.cur ∧ p.tasks = s.jobTasks
            ∧ p.ctxs = s.jobTasks.flatMap (fun k => k.members.map (fun m => (ctxKey m.1 m.2,
              { s.ctx m.1 m.2 with back := (s.ctx m.1 m.2).back ++ (s.seq m.1).heldSegs m.2 })))
            ∧ p.chains = s.chains.filter (fun c => s.jobTasks.any (fun k => decide (c.task = some k.id))))
          ∧ ∀ p, s.cutPages = [p] → s.snap.store.extractLsb' 48 16 ≠ s.pkg →
              rdBytes t.hbm p.at_ 8 = (p.pte - pteSN p.pte * 2 ^ 9 + 2 * 2 ^ 9) % 2 ^ 64))
    ∧ (s.snap.halted = none → exec .snapshotResume s = .next s)
    ∧ (∀ c, s.snap.halted = some c → s.isTick s.gclk = false ∨ s.gclk < c + 600 ∨ s.snap.phase = 2 → exec .snapshotResume s = .next s)
    ∧ (∀ c k, s.snap.halted = some c → s.isTick s.gclk = true → c + 600 ≤ s.gclk → s.snap.phase ≠ 2 →
      s.tasks = [k] → k.st = .cut → k.was ≠ .running → k.preempt = none → (∀ b ∈ s.engineBanks k, b ∉ s.snap.heldBanks) →
      ∃ t, exec .snapshotResume s = .next t ∧ t = { s with tasks := [{ k with st := k.was }] })
    ∧ (∀ c k, s.snap.halted = some c → s.isTick s.gclk = true → c + 600 ≤ s.gclk → s.snap.phase ≠ 2 →
      s.tasks = [k] → k.st = .cut → k.was = .running → (∀ b ∈ s.engineBanks k, b ∉ s.snap.heldBanks) → (k.members.map Prod.fst).Nodup →
      ∃ t, exec .snapshotResume s = .next t ∧ t.pool = s.pool
        ∧ (k.preempt = none → t.tasks = [{ k with st := .running, haltedAt := none }] ∧ t.env = s.env)
        ∧ (∀ h sup b, k.preempt = some (h, sup, b) → ∃ h', s.gclk < h' ∧ h' ≤ s.gclk + 112 ∧ t.env = s.env ++ [(h', .halt k.id)]
          ∧ t.tasks = [{ k with st := .running, haltedAt := none, preempt := some (h', sup, b) }])
        ∧ ((∀ m ∈ k.members, (s.ctx m.1 m.2).back = []) → t.hbm = s.hbm ∧ t.snap = s.snap ∧ t.tlb = s.tlb)
        ∧ (∀ m ∈ k.members, (t.ctx m.1 m.2).q = (s.ctx m.1 m.2).q ∧ (t.ctx m.1 m.2).flights = (s.ctx m.1 m.2).flights
          ∧ (t.ctx m.1 m.2).pos = (s.ctx m.1 m.2).pos
          ∧ ((s.seq m.1).serving = false → (t.seq m.1).active = some m.2 ∧ (t.seq m.1).hold = none
            ∧ (t.ctx m.1 m.2).waits = (s.ctx m.1 m.2).waits.map (fun w => w.resumed s.gclk))
          ∧ ((s.seq m.1).serving = true → t.seq m.1 = { s.seq m.1 with hold := if (s.seq m.1).hold = some k.id then none else (s.seq m.1).hold }))
        ∧ (∀ x, x ∉ k.seqs → t.seq x = s.seq x)
        ∧ ∀ x ∈ k.seqs, ∀ h, k.haltedAt = some h → t.tile (tileOf x)
          = if 1 ≤ partAcount k.rec_.partw then { s.tile (tileOf x) with origin := (s.tile (tileOf x)).origin + (s.gclk - h) } else s.tile (tileOf x))
    ∧ (∀ p, s.snap.part = some p → s.snap.open_ = true → let t := s.storeStates
      t.snap.states = true ∧ t.ctxs = s.ctxs ∧ t.pool = s.pool
        ∧ ((t.snap.phase = 6 ∧ t.snap.reason = 2) ∨ (t.snap.phase = s.snap.phase ∧ ∃ q m, t.snap.part = some q ∧ q.manifest = p.manifest ++ m
          ∧ m.length = (s.jobTasks.flatMap (fun k => k.members)).dedup.length ∧ ∀ e ∈ m, e.kind = 2 ∧ e.snap = s.snap.cur)))

/-- After R319, R321, R322, R327, R348: capture. The bytes and the tags of a HELD bank go into the part and the bank comes free;
those of a HELD page likewise, which becomes CLEAN in the background and DIRTY under a write; a store without room
ends the snapshot. Choices of the model that it rests on: where in the store the bytes go (log 28) and how a bank's tags
stand there as bytes (log 98). -/
def Obligations.HeldDataIsCaptured : Prop :=
  ∀ (s : State) (bank : Nat) (va : Word),
    let bytes := rdList s.pool (poolKey (bank / 64) (bank % 64 * bankSize)) bankSize ++ (s.tile (bank / 64)).tagBytes (bank % 64)
    (s.snap.heldBanks.head? ≠ some bank → exec (.bankStreamOut bank) s = .next s)
    ∧ (∀ rest p, s.snap.heldBanks = bank :: rest → s.snap.part = some p → s.snap.room bytes.length = true → anyUe (s.bankGrans bank) = false →
      ∃ t q e, exec (.bankStreamOut bank) s = .next t ∧ t.snap.heldBanks = rest ∧ t.snap.part = some q ∧ q.banks = p.banks ++ [bank]
        ∧ q.pool = p.pool ++ s.bankBytes bank ∧ q.grans = p.grans ++ s.bankGrans bank ∧ q.manifest = p.manifest ++ [e]
        ∧ e.size = bytes.length ∧ e.kind = 1 ∧ e.hash = hashOf bytes ∧ t.snap.used = s.snap.used + bytes.length ∧ ((t.tile (bank / 64)).bank (bank % 64)).held = false ∧ t.pool = s.pool ∧ t.ctxs = s.ctxs)
    ∧ (∀ rest, s.snap.heldBanks = bank :: rest → s.snap.open_ = true → s.snap.room bytes.length = false →
      ∃ t, exec (.bankStreamOut bank) s = .next t ∧ t.snap.phase = 6 ∧ t.snap.reason = 2 ∧ t.pool = s.pool)
    ∧ ((∀ p, s.jobPage (va.toNat % 2 ^ 57) = some p → pteSN p.pte ≠ 2 ∨ p.at_ ∉ s.snap.heldPages) →
      exec (.backgroundCapture va) s = .next s ∧ exec (.heldPageCopy va) s = .next s)
    ∧ (∀ p k, s.jobPage (va.toNat % 2 ^ 57) = some p → pteSN p.pte = 2 → p.at_ ∈ s.snap.heldPages → s.snap.part = some k →
      s.snap.room p.size = true → anyUe (s.pageCopy p).grans = false →
      let keeps : State → Prop := fun t => p.at_ ∉ t.snap.heldPages ∧ t.pool = s.pool ∧ t.ctxs = s.ctxs ∧ t.snap.phase = s.snap.phase
        ∧ ∃ q e, t.snap.part = some q ∧ q.pages = k.pages ++ [s.pageCopy p]
          ∧ (s.pageCopy p).bytes = tslice s.hbm p.frame (p.frame + p.size) ∧ (s.pageCopy p).snap = s.snap.now
          ∧ q.manifest = k.manifest ++ [e] ∧ e.kind = 0 ∧ e.place = BitVec.ofNat 64 p.va ∧ e.size = p.size ∧ e.leaf = p.at_
          ∧ e.hash = hashOf (rdList s.hbm p.frame p.size)
      (∃ t, exec (.backgroundCapture va) s = .next t ∧ keeps t ∧ rdBytes t.hbm p.at_ 8 = (p.pte - 2 ^ 10) % 2 ^ 64 ∧ t.snap.dirty = s.snap.dirty)
      ∧ (∃ t, exec (.heldPageCopy va) s = .next t ∧ keeps t ∧ rdBytes t.hbm p.at_ 8 = (p.pte - 2 ^ 9) % 2 ^ 64
        ∧ t.snap.dirty = (s.snap.logDirty p.at_).dirty))

/-- After R315, R323 to R329: markers, local completion, DONE, COMMIT and aborts. Local completion takes effect only
where everything R326 asks for has come: nothing is HELD, every sequencer state is written, and a marker has come on each
of the 96 channels from every other package; the coordinator writes the root record and commits with every DONE; an abort
gives up everything that was held and raises SNAP_ABORT, for reason 6 where a flit brings it, or 1 where the flit says that its sender was reset; a control
flit of a newer incarnation waits for the rollback. Choices of the model that it rests on: log 4, 27, 57, 76, 98, 100
and 122. -/
def Obligations.SnapshotsCommitOrAbort : Prop :=
  ∀ (s : State) (f : Flit) (r : BitVec 8),
    let n := f.addr.toNat % 2 ^ 32
    let ch : Chan := ⟨f.src, f.plane, f.vc⟩
    let kept : State := { s with snap := { s.snap with early := s.snap.early ++ [f] } }
    let given : State → Nat → Nat → Prop := fun t n r => t.snap.a = BitVec.ofNat 32 n ∧ t.snap.reason = BitVec.ofNat 4 r
      ∧ (∀ k ∈ t.snap.ckpts, k.num ≠ n) ∧ (∀ l ∈ t.snap.limits, l.1 ≠ n) ∧ (∀ b ∈ t.snap.begin_, b.1 ≠ n)
      ∧ t.pool = s.pool ∧ t.ctxs = s.ctxs ∧ t.tasks = s.tasks
      ∧ (⟨.a, .snapAbort, BitVec.ofNat 64 (n * 2 ^ 8 + r), 0, 0, false, false, 0⟩ : Pend) ∈ (t.seq (serviceOf 0)).pend
    let gone : State → Nat → Prop := fun t r => given t s.snap.now r ∧ t.snap.phase = 6 ∧ t.snap.part = none
      ∧ t.snap.heldBanks = [] ∧ t.snap.heldPages = [] ∧ t.snap.log = []
    (s.snap.open_ = false → exec (.snapshotAbort r) s = .next s)
    ∧ (s.snap.open_ = true → ∃ t, exec (.snapshotAbort r) s = .next t ∧ gone t (r.toNat % 16))
    ∧ ((∀ l ∈ s.snap.limits, s.gclk < l.2) → exec .snapshotTimeLimit s = .next s)
    ∧ (∀ c, s.snap.limits = [(s.snap.now, c)] → c ≤ s.gclk → s.snap.open_ = true → ∃ t, exec .snapshotTimeLimit s = .next t ∧ gone t 5)
    ∧ (s.snapJob f.job = false ∨ f.inc.toNat < s.snap.inc.toNat →
      exec (.abortFlit f) s = .next s ∧ exec (.marker f) s = .next s ∧ exec (.done f) s = .next s ∧ exec (.commit f) s = .next s)
    ∧ (s.snapJob f.job = true → s.snap.inc.toNat < f.inc.toNat →
      exec (.abortFlit f) s = .next kept ∧ exec (.marker f) s = .next kept ∧ exec (.done f) s = .next kept ∧ exec (.commit f) s = .next kept)
    ∧ (s.snapJob f.job = true → f.inc = s.snap.inc →
      (n ≤ s.snap.k.toNat ∨ n = s.snap.a.toNat → exec (.abortFlit f) s = .next s)
      ∧ (s.snap.k.toNat < n → n ≠ s.snap.a.toNat → ∃ t, exec (.abortFlit f) s = .next t ∧ given t n (if f.payload = [1] then 1 else 6)
        ∧ (n = s.snap.now → s.snap.open_ = true → gone t (if f.payload = [1] then 1 else 6)))
      ∧ (n ≠ s.snap.b.toNat + 1 ∨ n = s.snap.a.toNat →
        (s.snap.ahead n = false → n ≠ s.snap.now → exec (.marker f) s = .next s)
        ∧ (s.snap.ahead n = false → n = s.snap.now → s.snap.phase = 2 ∨ s.snap.phase = 3 →
          exec (.marker f) s = .next { s with snap := { s.snap with marked := s.snap.marked ++ [(n, ch)] } })
        ∧ (s.snap.ahead n = true → ∃ t, exec (.marker f) s = .next t ∧ t.snap = { s.snap with marked := s.snap.marked ++ [(n, ch)] }
          ∧ (t.link f.plane.toNat).stopped.getLsbD f.vc.toNat = true ∧ t.pool = s.pool ∧ t.hbm = s.hbm))
      ∧ (n = s.snap.b.toNat + 1 → n ≠ s.snap.a.toNat → s.snap.cfg.getLsbD 63 = true → s.listOk s.readList = true → s.snap.begin_ = [] →
        s.snap.phase = 0 ∨ 4 ≤ s.snap.phase.toNat → s.snap.store.toNat % 2 ^ 16 ≠ 0 →
        ∃ t, exec (.marker f) s = .next t ∧ t.snap.b.toNat = n ∧ t.snap.now = n ∧ t.snap.phase = 1 ∧ t.snap.cut = some (s.gclk + 64)
          ∧ t.snap.members = s.readList ∧ t.snap.marked = s.snap.marked ++ [(n, ch)] ∧ t.pool = s.pool ∧ t.hbm = s.hbm)
      ∧ (∃ t, exec (.commit f) s = .next t ∧ t = { s with snap := t.snap } ∧ t.snap.k.toNat = n ∧ (∀ l ∈ t.snap.limits, l.1 ≠ n)
        ∧ (n = s.snap.now → t.snap.phase = 5) ∧ (n ≠ s.snap.now → t.snap.phase = s.snap.phase))
      ∧ (s.coordinator ≠ s.pkg ∨ n ∉ s.snap.pending → exec (.done f) s = .next s)
      ∧ (s.coordinator = s.pkg → n ∈ s.snap.pending →
        ((∀ q ∈ s.packages, q = f.src ∨ ∃ d ∈ s.snap.done, d.1 = n ∧ d.2.1 = q) → s.snap.room (44 + 42 * s.packages.length) = true →
          ∃ t root, exec (.done f) s = .next t ∧ t.snap.k.toNat = n ∧ (n = s.snap.now → t.snap.phase = 5) ∧ (∀ l ∈ t.snap.limits, l.1 ≠ n)
            ∧ t.snap.roots = s.snap.roots ++ [root] ∧ root.num = n ∧ root.prev = s.snap.k.toNat ∧ root.parts.map Prod.fst = s.packages
            ∧ root.hash = hashOf (rootBytes n s.snapJobNo.toNat s.packages.length s.snap.k.toNat root.parts)
            ∧ t.pool = s.pool ∧ t.ctxs = s.ctxs ∧ (s.snap.store.extractLsb' 48 16 ≠ s.pkg → t.hbm = s.hbm))
        ∧ (∀ q ∈ s.packages, q ≠ f.src → (∀ d ∈ s.snap.done, d.1 = n → d.2.1 ≠ q) →
          ∃ t d, exec (.done f) s = .next t ∧ t = { s with snap := t.snap } ∧ t.snap.phase = s.snap.phase ∧ t.snap.k = s.snap.k
            ∧ d ∈ t.snap.done ∧ d.1 = n ∧ d.2.1 = f.src)))
    ∧ (s.complete = true ↔ s.snap.phase = 3 ∧ s.snap.heldBanks = [] ∧ s.snap.heldPages = [] ∧ s.snap.states = true ∧ s.snap.part.isSome = true
      ∧ ∀ q ∈ s.packages, q ≠ s.pkg → ∀ plane vc, plane < 24 → vc < 4 → (s.snap.cur, ⟨q, BitVec.ofNat 5 plane, BitVec.ofNat 2 vc⟩) ∈ s.snap.marked)
    ∧ (s.complete = false → exec .locallyComplete s = .next s)
    ∧ (∀ p, s.snap.part = some p → s.complete = true → s.snap.begin_ = [] → s.coordinator ≠ s.pkg →
      s.canSend (portTo 0 s.coordinator.toNat) 3 = true → (s.link (portTo 0 s.coordinator.toNat)).queue = [] →
      ∃ t, exec .locallyComplete s = .next t ∧ (t.snap.phase = 4 ∨ (t.snap.phase = 6 ∧ t.snap.reason = 2)) ∧ t.pool = s.pool ∧ t.ctxs = s.ctxs
        ∧ (t.snap.phase = 4 → t.snap.part = none ∧ t.snap.log = [] ∧ ∃ k e m, t.snap.ckpts = s.snap.ckpts ++ [k]
          ∧ k.num = p.num ∧ k.ctxs = p.ctxs ∧ k.tasks = p.tasks ∧ k.pages = p.pages ∧ k.log = s.snap.log ∧ k.manifest = p.manifest ++ m
          ∧ k.hash = hashOf (k.manifest.flatMap ManEntry.bytes) ∧ t.outbox = s.outbox ++ [e] ∧ e.kind = 4 ∧ e.vc = 3
          ∧ e.dst = s.coordinator ∧ e.addr = BitVec.ofNat 64 s.snap.now ∧ e.payload = doneBytes k))

/-- After R331 to R333: rollback. Only a flit of a newer incarnation begins one: the package list is read, and the
gangs halt within 112 cycles. At the halt the job's members and engines stop, its chains end with no trace, its accesses are
undone, and what is pending for its members is discarded, but not what another job's task is to take. A checkpoint that is
not there, or fails a hash, or is blocked, ends it with ROLLBACK_ENTRY and the job's tasks set aside. One that is there is
restored: contexts, banks with their bytes, counters, engines, chains, tasks, and every page that is not CLEAN or is on the
log; its log is applied once, in order; and each member that was running takes ROLLBACK_ENTRY as the interruption of its
restored context. A gang goes on, on a tick, once every member has returned: its members run again with their waits
taken up, or, where another job's task runs on one of its sequencers, it waits as one that was pre-empted. Choices of the
model that it rests on: log 27, 58 and 123. -/
def Obligations.RollbacksRestore : Prop :=
  ∀ (s : State) (f : Flit) (intact : Bool) (id : Nat),
    let n := f.addr.toNat % 2 ^ 32
    let entry : Nat → Pend := fun v => ⟨.a, .rollbackEntry, BitVec.ofNat 64 v, 0, 0, false, false, 0⟩
    (s.snapJob f.job = false ∨ s.rolledTo f.inc = true → exec (.rollbackFlit f intact) s = .next s)
    ∧ (f.inc.toNat ≤ s.snap.inc.toNat → s.rolledTo f.inc = true)
    ∧ (s.snapJob f.job = true → s.rolledTo f.inc = false → ∃ t h, exec (.rollbackFlit f intact) s = .next t
        ∧ s.gclk < h ∧ h ≤ s.gclk + 112 ∧ t.env = s.env ++ [(h, .rollHalt n)] ∧ t.snap.asked = some (n, f.inc, intact) ∧ t.snap.members = s.readList
        ∧ t.rolledTo f.inc = true ∧ t = { s with snap := t.snap, env := t.env, free := t.free })
    ∧ (s.snap.asked = none → ∀ m, s.rollNow m = s)
    -- the halt
    ∧ (let t := s.rollHalt
      let ms := s.jobTasks.flatMap (fun k => k.members)
      t.ctxs = s.ctxs ∧ t.tasks = s.tasks ∧ t.hbm = s.hbm ∧ t.outbox = s.outbox ∧ t.snap = s.snap
        ∧ (∀ c, c ∈ t.chains ↔ c ∈ s.chains ∧ ∀ k ∈ s.jobTasks, c.task ≠ some k.id)
        ∧ (∀ a, a ∈ t.accs ↔ a ∈ s.accs ∧ (a.seq, a.ctx) ∉ ms)
        ∧ (∀ m ∈ ms, (t.seq m.1).active ≠ some m.2 ∧ (t.seq m.1).inter ≠ some m.2
          ∧ (∀ p, p ∈ (t.seq m.1).pend ↔ p ∈ (s.seq m.1).pend
            ∧ (p.kind = .s ∨ (p.kind = .p ∧ (m.1, p.ctx) ∉ ms) ∨ (p.kind = .a ∧ s.runsOther m.1 ms = true)))
          ∧ (∀ z, (t.tile (tileOf m.1)).nestA = some z ∨ (t.tile (tileOf m.1)).nestB = some z → ∀ k ∈ s.jobTasks, z.task ≠ k.id)
          ∧ ∀ v, (t.tile (tileOf m.1)).vg = some v → ∀ k ∈ s.jobTasks, v.task ≠ k.id)
        ∧ ∀ x, x ∉ ms.map Prod.fst → t.seq x = s.seq x)
    -- the failure
    ∧ (∀ m inc, s.snap.asked = some (m, inc, intact) → s.snap.pending = [] → s.chains = [] →
      (s.ckpt m = none ∨ ∃ k, s.ckpt m = some k ∧ (s.listOk s.packages = false ∨ s.storeIntact k = false ∨ (intact = false ∧ s.peers ≠ [])
        ∨ (s.jobTasks = [] ∧ s.rollBlocked k = true))) →
      let t := s.rollNow m
      t.snap.inc = inc ∧ t.snap.asked = none ∧ t.snap.rolling = none ∧ t.pool = s.pool ∧ t.hbm = s.hbm ∧ t.ctxs = s.ctxs
        ∧ (∀ k ∈ t.tasks, s.ofJob k = true → k.st = .rolled) ∧ entry (2 ^ 63 + m % 2 ^ 32) ∈ (t.seq (serviceOf 0)).pend)
    -- the restoration goes on from the halted state
    ∧ (∀ m inc k, s.snap.asked = some (m, inc, intact) → s.snap.pending = [] → s.ckpt m = some k → s.listOk s.packages = true →
      intact = true ∨ s.peers = [] →
      let h : State := { s.rollHalt with snap := { s.snap with inc := inc, asked := none, rolling := some m, entered := [], halted := none } }
      h.storeIntact k = true → (h.jobTasks.foldl State.releaseTask h).rollBlocked k = false → s.rollNow m = h.rollTo k)
    ∧ (∀ k : Ckpt,
      let ids := k.tasks.map (fun t => t.id)
      let ms := k.tasks.flatMap (fun t => t.members)
      let run := (k.tasks.filter Task.wasRun).flatMap (fun t => t.members)
      let regs := k.tiles.flatMap (fun e => (e.2.banks.filter (fun b => b.2.owner.any (fun t => decide (t ∈ ids ∧ b.2.role = .regs)))).map (fun b => 64 * e.1 + b.1))
      let r := s.restore k
      let w := (k.log.map (fun l => l.msg)).foldl State.applyMsg r
      let t := w.rollEntry k
      -- contexts, tasks and chains
      ((k.ctxs.map Prod.fst).Nodup → ∀ e ∈ k.ctxs, tget Ctx.init r.ctxs e.1 = e.2)
      ∧ r.tasks = s.tasks.filter (fun v => s.jobTasks.all (fun j => decide (v.id ≠ j.id)))
        ++ k.tasks.map (fun v => { v with st := if v.was = .running ∨ v.was = .rolled then .rolled else v.was, preempt := none, resumeAt := none })
      ∧ r.chains = s.chains ++ k.chains.map s.keepSlot ∧ (∀ c, s.keepSlot c = c ∨ s.keepSlot c = { c with slot := none })
      ∧ (∀ c, c.slot = none → s.keepSlot c = c)
      ∧ r.snap.dirty = [] ∧ r.snap.full = false ∧ r.snap.heldPages = [] ∧ r.snap.heldBanks = [] ∧ r.snap.inc = s.snap.inc
      -- banks, their bytes and what the tiles hold
      ∧ ((k.pool.map Prod.fst).Nodup → ∀ e ∈ k.pool, tget 0 r.pool e.1 = e.2)
      ∧ (∀ b ∈ k.banks ++ regs, ∀ j, j < bankSize → (∀ e ∈ k.pool, e.1 ≠ poolKey (b / 64) (b % 64 * bankSize) + j) →
          tget 0 r.pool (poolKey (b / 64) (b % 64 * bankSize) + j) = 0)
      ∧ (s.jobTasks = [] → ∀ p, (∀ e ∈ k.pool, e.1 ≠ p) →
        (∀ b ∈ k.banks ++ regs, p < poolKey (b / 64) (b % 64 * bankSize) ∨ poolKey (b / 64) (b % 64 * bankSize) + bankSize ≤ p) →
        tget 0 r.pool p = tget 0 s.pool p)
      ∧ ((k.tiles.map Prod.fst).Nodup → ∀ e ∈ k.tiles,
        (∀ i, i < 64 → (r.tile e.1).counter i = if (k.ctrMask e.1).testBit i then e.2.counter i else (s.tile e.1).counter i)
        ∧ ((e.2.banks.map Prod.fst).Nodup → ∀ b ∈ e.2.banks, ∀ o ∈ ids, b.2.owner = some o → (r.tile e.1).bank b.1 = { b.2 with held := false })
        ∧ (∀ z, e.2.nestA = some z → z.task ∈ ids → (r.tile e.1).nestA = some z)
        ∧ (∀ z, e.2.nestB = some z → z.task ∈ ids → (r.tile e.1).nestB = some z)
        ∧ ∀ v, e.2.vg = some v → v.task ∈ ids → (r.tile e.1).vg = some v)
      -- pages
      ∧ (k.images = [] →
        let freed := s.jobTasks.foldl State.releaseTask s
        let u : State := { freed with ctxs := k.ctxs.foldl (fun m (e : Nat × Ctx) => tput m e.1 e.2) freed.ctxs }
        let pages := (u.jobPages u.snapJobNo).filter (fun (p : PageRef) => decide (pteSN p.pte ≠ 0 ∨ p.at_ ∈ u.snap.dirty))
        r.hbm = (pages.foldl (fun (v : State) (p : PageRef) => v.restorePage k.num p) u).hbm)
      ∧ (∀ p : PageRef, let v := s.restorePage k.num p
        rdBytes v.hbm p.at_ 8 = (p.pte - pteSN p.pte * 2 ^ 9) % 2 ^ 64
        ∧ (s.pageAsOf k.num p.at_ = none → ∀ a, (a < p.at_ ∨ p.at_ + 8 ≤ a) → tget 0 v.hbm a = tget 0 s.hbm a)
        ∧ (∀ c, s.pageAsOf k.num p.at_ = some c → c.frame = p.frame → Memory.wf c.bytes = true →
          (∀ e ∈ c.bytes, p.frame ≤ e.1 ∧ e.1 < p.frame + p.size) →
          ∀ a, (a < p.at_ ∨ p.at_ + 8 ≤ a) →
            tget 0 v.hbm a = if p.frame ≤ a ∧ a < p.frame + p.size then tget 0 c.bytes a else tget 0 s.hbm a))
      -- the log, the entries and what is left to wait for
      ∧ s.rollTo k = { t with snap := { t.snap with rolling := if k.tasks.any Task.wasRun then some k.num else none } }
      ∧ t.pool = w.pool ∧ t.tiles = w.tiles ∧ t.tasks = w.tasks ∧ t.chains = w.chains
      ∧ ((run.map Prod.fst).Nodup → (∀ m ∈ ms, 1 ≤ m.2 ∧ m.2 ≤ 3) → ∀ m ∈ run,
        (w.runsOther m.1 ms = true → t.seq m.1 = { w.seq m.1 with pend := (w.seq m.1).pend ++ [entry k.num] })
        ∧ (w.runsOther m.1 ms = false → (w.seq m.1).serving = true →
          t.seq m.1 = { w.seq m.1 with pend := (w.seq m.1).pend ++ [entry k.num], inter := some m.2 })
        ∧ (w.runsOther m.1 ms = false → (w.seq m.1).serving = false → (w.seq m.1).halt ≠ .bringup → (w.seq m.1).halt ≠ .supfault →
          let q := t.seq m.1
          q.active = some 0 ∧ q.serving = true ∧ q.inter = some m.2 ∧ q.tval = BitVec.ofNat 64 k.num
            ∧ q.tcause = BitVec.ofNat 64 (2 * 2 ^ 7 + 0x61) ∧ q.tbundle = (w.ctx m.1 m.2).pos ∧ q.pend = (w.seq m.1).pend
            ∧ (t.ctx m.1 0).entry = some (q.tvec, 2) ∧ t.ctx m.1 m.2 = w.ctx m.1 m.2))
      ∧ ∀ m ∈ ms, m.1 ∉ run.map Prod.fst → t.seq m.1 = { w.seq m.1 with pend := (w.seq m.1).pend ++ [entry k.num] })
    -- the returns and the resumption
    ∧ (∀ x, let counts := (s.seq x).serving = true ∧ (s.seq x).tcause = BitVec.ofNat 64 (2 * 2 ^ 7 + 0x61)
          ∧ ∃ k ∈ s.tasks, (k.st = .rolled ∨ (k.st = .cut ∧ k.was = .rolled)) ∧ x ∈ k.seqs
      (counts → (s.eret x).snap.entered = x :: s.snap.entered) ∧ (¬counts → (s.eret x).snap.entered = s.snap.entered))
    ∧ (∀ k, s.task id = some k → (s.isTick s.gclk = false ∨ k.st ≠ .rolled ∨ s.snap.rolling = none
        ∨ ∃ x ∈ k.seqs, x ∉ s.snap.entered ∨ (s.seq x).serving = true) →
      exec (.rollbackResume id) s = .next s)
    ∧ (s.task id = none → exec (.rollbackResume id) s = .next s)
    ∧ (∀ k, s.task id = some k → s.isTick s.gclk = true → k.st = .rolled → s.snap.rolling.isSome = true →
      (∀ x ∈ k.seqs, x ∈ s.snap.entered ∧ (s.seq x).serving = false) →
      let free := ∀ x ∈ k.seqs, (s.seq x).active = none ∨ ((s.seq x).active = some 0 ∧ (s.seq x).inter = none)
      ∃ t, exec (.rollbackResume id) s = .next t ∧ t.pool = s.pool
        ∧ (∀ x, x ∈ t.snap.entered ↔ x ∈ s.snap.entered ∧ x ∉ k.seqs)
        ∧ ((∀ u ∈ s.tasks, u.id ≠ id → u.rolled = false) → t.snap.rolling = none)
        ∧ ((∃ u ∈ s.tasks, u.id ≠ id ∧ u.rolled = true) → t.snap.rolling = s.snap.rolling)
        ∧ (free → t.tasks = s.tasks.map (fun u => if u.id = id then { u with st := .running, haltedAt := none } else u)
          ∧ ((∀ m ∈ k.members, (s.ctx m.1 m.2).back = []) → t.hbm = s.hbm)
          ∧ (∀ h, k.haltedAt = some h → ∀ x ∈ k.seqs, t.tile (tileOf x) = if 1 ≤ partAcount k.rec_.partw
            then { s.tile (tileOf x) with origin := (s.tile (tileOf x)).origin + (s.gclk - h) } else s.tile (tileOf x))
          ∧ (k.seqs.Nodup → ∀ m ∈ k.members, (t.seq m.1).active = some m.2 ∧ (t.seq m.1).hold = none
            ∧ (t.ctx m.1 m.2).q = (s.ctx m.1 m.2).q ∧ (t.ctx m.1 m.2).flights = (s.ctx m.1 m.2).flights ∧ (t.ctx m.1 m.2).pos = (s.ctx m.1 m.2).pos
            ∧ (t.ctx m.1 m.2).waits = (s.ctx m.1 m.2).waits.map (fun v => v.resumed s.gclk)))
        ∧ (¬free → t.tasks = s.tasks.map (fun u => if u.id = id then { u with st := .waiting, run := 0 } else u)
          ∧ t = { s with tasks := t.tasks, seqs := t.seqs, snap := t.snap }
          ∧ ∀ x ∈ k.seqs, t.seq x = { s.seq x with hold := if (s.seq x).hold = some id then none else (s.seq x).hold }))

/-- After R388, R390 to R394: a port takes only a good flit with the number it expects and answers any other with a
NAK; a NAK replays what has not been acknowledged, each flit eight times; a link that goes down discards its retry buffer, and
training starts both directions anew; lanes are repaired while crossings wait. After R323, R325, R332, R388: a message
is applied whole: its bytes, then its counter addition; one that cannot be applied now waits, behind the others of its
channel, with no effect but that its channel's log may take it; one of an older incarnation is discarded. Choices of
the model that it rests on: log 30, 31, 38, 49 (the last clause), 59, 76 (what waits on a closed channel), 81, 82, 96, 97
and 116. -/
def Obligations.FlitsAndMessagesAreApplied : Prop :=
  (
    ∀ (s : State) (port : Fin 24) (f : Flit) (good : Bool) (ack : BitVec 12) (stops : BitVec 4) (v : Word) (bd : Fin 4),
      let p := port.val
      let k := s.link p
      let goes : State → Prop := fun t => t = { s with links := t.links, outbox := t.outbox } ∧ ∀ j, j ≠ p → t.link j = s.link j
      let onlyLink : State → Prop := fun t => t = { s with links := t.links, chains := t.chains } ∧ (∀ j, j ≠ p → t.link j = s.link j)
        ∧ t.chains = s.chains.map (fun c => { c with acks := c.acks.filter (fun a => decide (a.1 ≠ p) || (t.link p).retry.any (fun e => decide (e.lseq = a.2))) })
      let answers : Link → State → Prop := fun l t => t = { s with links := t.links, outbox := t.outbox } ∧ (∀ j, j ≠ p → t.link j = s.link j)
        ∧ ((∃ g ∈ k.queue, g.nak = true) → t.link p = l ∧ t.outbox = s.outbox)
        ∧ (k.queue = [] → ∃ e : Flit, e.nak = true ∧ e.kind = 0
          ∧ (k.retry.length < 512 → t.outbox = s.outbox ++ [e] ∧ e.ack = k.rxNext - 1 ∧ e.lseq = k.txSeq
            ∧ t.link p = { l with txSeq := k.txSeq + 1, retry := k.retry ++ [e], tries := k.tries ++ [0], sent := k.sent + 1 })
          ∧ (512 ≤ k.retry.length → t.outbox = s.outbox ∧ t.link p = { l with queue := [e] }))
      (k.up = false → exec (.flitReceive port f good) s = .next s ∧ exec (.nak port ack) s = .next s ∧ exec (.linkDown port) s = .next s)
      ∧ (k.up = true → (good = false ∨ f.lseq ≠ k.rxNext) → ∃ t, exec (.flitReceive port f good) s = .next t ∧ answers k t)
      ∧ (k.up = true → f.lseq = k.rxNext → (f.bad = true ∨ 9 < f.kind.toNat) → ∃ t, exec (.flitReceive port f true) s = .next t
        ∧ answers { k with replays := k.replays + 1 } t)
      ∧ (k.up = true → f.lseq = k.rxNext → f.bad = false → f.nak = false → f.kind.toNat ≤ 9 → k.queue = [] →
        let g : Flit := { f with plane := BitVec.ofNat 5 p }
        let part := s.partials.filter (fun e => decide (e.1 = (⟨f.src, BitVec.ofNat 5 p, f.vc⟩ : Chan)))
        let rest := s.partials.filter (fun e => decide (e.1 ≠ (⟨f.src, BitVec.ofNat 5 p, f.vc⟩ : Chan)))
        ∃ u, onlyLink u ∧ (u.link p).rxNext = k.rxNext + 1 ∧ (u.link p).received = k.received + 1 ∧ (u.link p).lastGood = s.gclk
          ∧ (u.link p).txSeq = k.txSeq ∧ (u.link p).up = true ∧ (∀ e, e ∈ (u.link p).retry ↔ e ∈ k.retry ∧ 2048 ≤ (f.ack - e.lseq).toNat)
          ∧ (f.kind = 0 ∨ (1 ≤ f.kind.toNat ∧ f.kind.toNat ≤ 7 ∧ f.dst ≠ s.pkg) → exec (.flitReceive port f true) s = .next u)
          ∧ (f.kind = 1 → f.dst = s.pkg → exec (.flitReceive port f true) s
              = .next { u with partials := rest ++ [(⟨f.src, BitVec.ofNat 5 p, f.vc⟩, part.flatMap (fun e => e.2) ++ [g])] })
          ∧ (f.kind = 2 → f.dst = s.pkg → part = [] → exec (.flitReceive port f true) s
              = exec (.fabricMessage ⟨f.src, BitVec.ofNat 5 p, f.vc, f.job, f.inc,
                  (if f.payload = [] ∨ (f.vc = 1 ∧ f.atom = none) then []
                    else [⟨f.addr, f.payload, (List.range f.payload.length).map (fun i => f.dirty.getD i false)⟩]),
                  f.ctr, f.add, if f.vc = 1 then f.atom else none⟩) { u with partials := rest })
          ∧ (f.dst = s.pkg → (f.kind = 3 → exec (.flitReceive port f true) s = exec (.marker g) u)
            ∧ (f.kind = 4 → exec (.flitReceive port f true) s = exec (.done g) u) ∧ (f.kind = 5 → exec (.flitReceive port f true) s = exec (.commit g) u)
            ∧ (f.kind = 6 → exec (.flitReceive port f true) s = exec (.abortFlit g) u)
            ∧ (f.kind = 7 → ∃ b, exec (.flitReceive port f true) s = exec (.rollbackFlit g b) { u with free := u.free + 1 }))
          ∧ (f.kind = 8 → exec (.flitReceive port f true) s = exec (.timeFlit port f.addr) u)
          ∧ (f.kind = 9 → exec (.flitReceive port f true) s = exec (.stopGo port (f.addr.setWidth 4)) u))
      ∧ (k.up = true → ∃ t, exec (.nak port ack) s = .next t ∧
        let left := k.retry.filter (fun e => decide (2048 ≤ (ack - e.lseq).toNat))
        let tries := k.tries.drop (k.retry.length - left.length)
        (left = [] → k.queue = [] → onlyLink t ∧ (t.link p).retry = [] ∧ (t.link p).up = true)
        ∧ (left ≠ [] → (∀ n ∈ tries, n < 8) → k.queue = [] → (t.link p).up = true ∧ (t.link p).retry = left
          ∧ t.outbox = s.outbox ++ left ∧ (t.link p).tries = tries.map (fun n => n + 1) ∧ (t.link p).replays = k.replays + left.length)
        ∧ (left ≠ [] → (∃ n ∈ tries, 8 ≤ n) → (t.link p).up = false))
      ∧ (k.up = true → ∃ t, exec (.linkDown port) s = .next t ∧ (t.link p).up = false ∧ (s.snap.pending = [] → (t.link p).retry = []) ∧ t.pool = s.pool
        ∧ (∃ e ∈ (t.seq (serviceOf (p / 6))).pend, e.kind = .a ∧ e.cause = .linkDown ∧ e.tval = BitVec.ofNat 64 p)
        ∧ (∀ e ∈ t.partials, e ∈ s.partials ∧ e.1.plane.toNat ≠ p) ∧ (s.snap.open_ = true → s.snapWaits p s.snap.now = true → t.snap.phase = 6 ∧ t.snap.reason = 1)
        ∧ (s.snap.pending = [] → t.snap = s.snap))
      ∧ (k.up = true → exec (.linkTraining port) s = .next s)
      ∧ (k.up = false → ∃ t, exec (.linkTraining port) s = .next t ∧ goes t ∧ (t.link p).up = true ∧ (t.link p).rxNext = 0
        ∧ (t.link p).lastGood = s.gclk ∧ (k.queue = [] → (t.link p).txSeq = 0 ∧ (t.link p).retry = [] ∧ t.outbox = s.outbox))
      ∧ (∃ t, exec (.stopGo port stops) s = .next t ∧ goes t ∧ (t.link p).stops = stops ∧ (k.queue = [] → t.link p = { k with stops := stops })
        ∧ (∀ g, k.queue = [g] →
          let leaves := k.up = true ∧ if g.kind = 0 ∨ g.kind = 8 ∨ g.kind = 9 then k.retry.length < 512
            else stops.getLsbD g.vc.toNat = false ∧ k.retry.length + 1 < 512 ∧ ¬(s.snap.phase = 2 ∧ s.snapJob g.job = true)
          (¬leaves → t.link p = { k with stops := stops } ∧ t.outbox = s.outbox)
          ∧ (leaves → (t.link p).queue = []
            ∧ t.outbox = s.outbox ++ [{ g with lseq := k.txSeq, ack := k.rxNext - 1, plane := BitVec.ofNat 5 p }])))
      ∧ (p ≠ 0 ∨ k.up = false → exec (.timeFlit port v) s = .next s)
      ∧ (p = 0 → k.up = true → ∃ t, exec (.timeFlit port v) s = .next t ∧ t = { s with trim := t.trim, free := t.free }
        ∧ -100 ≤ t.trim ∧ t.trim ≤ 100 ∧ (v = s.clock → t.trim = 0)
        ∧ ((v - s.clock).msb = true → t.trim ≤ 0) ∧ ((v - s.clock).msb = false → 0 ≤ t.trim))
      ∧ (p = 0 → s.gclk % 2 ^ 20 = 0 → k.up = true → k.queue = [] → k.retry.length < 512 →
        ∃ e, s.sendTime.outbox = s.outbox ++ [e] ∧ e.kind = 8 ∧ e.addr = s.clock)
      ∧ (∀ i, i < 4 → (((s.flowPort p).link p).full.getLsbD i = true
        ↔ Config.highMark < s.buffered p i ∨ (k.full.getLsbD i = true ∧ Config.lowMark ≤ s.buffered p i)))
      ∧ (∃ t h, exec (.laneRepair bd) s = .next t ∧ s.gclk < h ∧ h ≤ s.gclk + 28000 ∧ tget 0 t.laneUntil bd.val = h ∧ t.crossWait = true
        ∧ ((tget 0 s.lanes bd.val).toNat < 16 → (tget 0 t.lanes bd.val).toNat = (tget 0 s.lanes bd.val).toNat + 1
          ∧ t.health = healthMore s.health 40)
        ∧ (16 ≤ (tget 0 s.lanes bd.val).toNat → t.lanes = s.lanes ∧ t.health = s.health ∧ bd.val ∈ t.half) ∧ t.pool = s.pool ∧ t.ctxs = s.ctxs))
  ∧ (
    ∀ (s : State) (m : Msg),
      let logs : Bool := s.snapJob m.job && decide (m.inc = s.snap.inc) && s.snap.logs (chanOf m)
      let log : List Logged := if logs = true then s.snap.log ++ [⟨m.src, m.plane, m.vc, m⟩] else s.snap.log
      let holds : Prop := ∃ t, exec (.fabricMessage m) s = .next t ∧ t = { s with snap := t.snap, agenda := t.agenda }
        ∧ t.snap = { s.snap with log := log, waiting := s.snap.waiting ++ [(m, s.snap.heard (chanOf m))] }
      let free : Prop := s.staleMsg m = false ∧ s.snap.waiting.all (fun w => decide (chanOf w.1 ≠ chanOf m)) = true
        ∧ (s.snapJob m.job = true → s.snap.blocks = false ∧ m.inc.toNat ≤ s.snap.inc.toNat)
        ∧ s.snap.closed (chanOf m) = false ∧ s.msgWaits m = false
      (s.staleMsg m = true → exec (.fabricMessage m) s = .next s)
      ∧ (s.staleMsg m = false → (∃ w ∈ s.snap.waiting, chanOf w.1 = chanOf m) → holds)
      ∧ (s.staleMsg m = false → s.snapJob m.job = true → s.snap.blocks = true ∨ s.snap.inc.toNat < m.inc.toNat → holds)
      ∧ (s.staleMsg m = false → s.snap.closed (chanOf m) = true ∨ s.msgWaits m = true → holds)
      ∧ (free → m.runs = [] → m.atom = none → ∀ r, refOf m.ctr.toNat = some r → refOk m.ctr.toNat = true →
        exec (.fabricMessage m) s = .next { s with
          snap := { s.snap with log := log }, pending := s.pending ++ [(s.gclk, .ctr ⟨r.1, r.2, none, m.add, none⟩)] })
      ∧ (∀ r, free → m.runs = [r] → m.atom = none → canalForm r.addr = true →
        let n := r.data.length
        let y := canalTile r.addr
        let off := r.addr.toNat % 2 ^ 22
        off + n ≤ 2 ^ 22 → s.underReset y = false → (∀ b, s.zeroingBank y b = false) → (∀ b, ((s.tile y).bank b).sealed = none) →
          ∃ t, exec (.fabricMessage m) s = .next t
          ∧ (∀ j, j < n → tget 0 t.pool (poolKey y (off + j)) = r.data.getD j 0)
          ∧ (∀ a, (∀ j, j < n → a ≠ poolKey y (off + j)) → tget 0 t.pool a = tget 0 s.pool a) ∧ t.hbm = s.hbm ∧ t.ctxs = s.ctxs ∧ t.snap.log = log)
      ∧ (∀ r, free → m.runs = [r] → m.atom = none → canalForm r.addr = false → r.addr.toNat + r.data.length ≤ hbmBytes → s.zeroing = [] →
        s.snap.cfg.getLsbD 63 = false →
        ∃ t, exec (.fabricMessage m) s = .next t ∧ (∀ j, j < r.data.length → tget 0 t.hbm (r.addr.toNat + j) = r.data.getD j 0)
          ∧ (∀ a, (a < r.addr.toNat ∨ r.addr.toNat + r.data.length ≤ a) → tget 0 t.hbm a = tget 0 s.hbm a) ∧ t.pool = s.pool ∧ t.ctxs = s.ctxs)
      ∧ (∀ r a e, free → m.runs = [r] → m.atom = some a → a.back = false →
        s.remoteBad m.job (canalTile r.addr) (r.addr.toNat % 2 ^ 22) r.data.length a.wide = some e →
        ∃ t, exec (.fabricMessage m) s = .next t ∧ t.pool = s.pool ∧ t.hbm = s.hbm ∧ t.tiles = s.tiles ∧ t.ctxs = s.ctxs ∧ t.chains = s.chains))

/-- After R260, R289, R384, R385: the host reaches registers, HBM and pools through BARs 0, 2 and 4, in order: an access
that cannot take place waits, and so does every access behind it. An access to HBM is refused where a frame that it
touches belongs to the job of a TDI in RUN, unless it has the T bit and comes by that TDI's stream. Choices of the model
that it rests on: log 97 and 106. -/
def Obligations.HostAccessesFollowTheMap : Prop :=
  ∀ (s : State) (h : HostAcc) (data : List (BitVec 8)) (v : Word) (n : Nat),
    let z := data.length
    let u : State := { s with pcieIn := s.pcieIn + 8 }
    let word : List (BitVec 8) := (List.range 8).map (fun i => v.extractLsb' (8 * i) 8)
    let waits : HostOp → Snap := fun o => { s.snap with hostWaiting := s.snap.hostWaiting ++ [o] }
    let reads : Reply → Prop := fun r => exec (.hostRead h n) s = .next { s with pcieOut := s.pcieOut + n, replies := s.replies ++ [r] }
    (∀ k, s.hostRefused h k = true ↔ ∃ j, j < k ∧ 4096 * ((h.off + j) / 4096) < hbmBytes
      ∧ ∃ e, s.guard (4096 * ((h.off + j) / 4096)) = some e ∧ ¬(h.t = true ∧ h.stream = e.2.stream))
    ∧ (∀ a e, s.guard a = some e → e ∈ s.tdis ∧ e.2.state = 2 ∧ e.2.job.toNat = s.owner a)
    ∧ (∀ a, s.guard a = none → ∀ e ∈ s.tdis, e.2.state = 2 → e.2.job.toNat ≠ s.owner a)
    ∧ (s.snap.hostWaiting ≠ [] → exec (.hostRead h n) s = .next { s with pcieOut := s.pcieOut + n, snap := waits (.read h n) }
      ∧ exec (.hostWrite h data) s = .next { s with pcieIn := s.pcieIn + z, snap := waits (.write h data) })
    ∧ (s.snap.hostWaiting = [] →
      (h.bar ≠ 0 → h.bar ≠ 2 → h.bar ≠ 4 → reads .unsupported
        ∧ exec (.hostWrite h data) s = .next { s with pcieIn := s.pcieIn + z, replies := s.replies ++ [.unsupported] })
      ∧ (h.bar = 0 → (∀ q : BitVec 6, h.off = 0x10018 + 0x40 * q.toNat → exec (.hostWrite h word) s = exec (.lqdb q) u)
        ∧ (∀ q : BitVec 6, h.off = 0x10008 + 0x40 * q.toNat → exec (.hostWrite h word) s = exec (.lqctl q v) u)
        ∧ (h.off = 0x11000 → exec (.hostWrite h word) s = exec (.preq v true) u)
        ∧ (h.off = 0x12000 ∨ h.off = 0x13000 → exec (.hostWrite h word) s = exec (.registerWrite (.bar (BitVec.ofNat 20 h.off)) v) u)
        ∧ (h.off = 0x12000 → n = 8 → reads (.read ((List.range 8).map (fun i => s.telcfg.extractLsb' (8 * i) 8)) false))
        ∧ (0x14000 ≤ h.off → reads (.read (List.replicate n 0) false)))
      ∧ (h.bar = 2 → s.hostRefused h z = true →
        exec (.hostWrite h data) s = .next { s with pcieIn := s.pcieIn + z, replies := s.replies ++ [.unsupported] })
      ∧ (h.bar = 2 → s.hostRefused h n = true → reads .unsupported)
      ∧ (h.bar = 2 → s.hostRefused h z = false → s.snap.cfg.getLsbD 63 = false → h.off + z ≤ hbmBytes → s.zeroing = [] →
        ∃ t, exec (.hostWrite h data) s = .next t ∧ (∀ j, j < z → tget 0 t.hbm (h.off + j) = data.getD j 0)
          ∧ (∀ a, (a < h.off ∨ h.off + z ≤ a) → tget 0 t.hbm a = tget 0 s.hbm a) ∧ t.pool = s.pool ∧ t.replies = s.replies)
      ∧ (∀ va, h.bar = 2 → s.hostRefused h z = false → s.heldAt h.off z = some va → ∃ t, exec (.hostWrite h data) s = .next t
        ∧ t.snap.hostWaiting = [.write h data] ∧ t.agenda = s.agenda ++ [.held (BitVec.ofNat 64 va)] ∧ t.hbm = s.hbm ∧ t.pool = s.pool)
      ∧ (h.bar = 2 → s.hostRefused h n = false → h.off + n ≤ hbmBytes → s.zeroing = [] → (∀ q, tget 0 s.hbmTag q = 0) →
        (∀ a, (s.hgran a).mark = .clean) → reads (.read ((List.range n).map (fun j => tget 0 s.hbm (h.off + j))) false))
      ∧ (h.bar = 4 →
        let y := canalTile (BitVec.ofNat 64 h.off)
        let off := h.off % 2 ^ 22
        (h.off < 2 ^ 30 → y % 65 < 64 → data ≠ [] → off + z ≤ 2 ^ 22 → s.hostPoolWaits h.off z = false → s.underReset y = false →
            (∀ b, s.zeroingBank y b = false) → (∀ b, ((s.tile y).bank b).sealed = none) → ∃ t, exec (.hostWrite h data) s = .next t
            ∧ (∀ j, j < z → tget 0 t.pool (poolKey y (off + j)) = data.getD j 0)
            ∧ (∀ a, (∀ j, j < z → a ≠ poolKey y (off + j)) → tget 0 t.pool a = tget 0 s.pool a) ∧ t.hbm = s.hbm)
        ∧ (h.off < 2 ^ 30 → data ≠ [] → y % 65 < 64 → s.hostPoolWaits h.off z = true → ∃ t, exec (.hostWrite h data) s = .next t
            ∧ t.snap.hostWaiting = [.write h data] ∧ t.pool = s.pool ∧ t.hbm = s.hbm)
        ∧ (h.off < 2 ^ 30 → off + n ≤ 2 ^ 22 → (∀ b, ((s.tile y).bank b).sealed = none) → (∀ j, j < n → (s.gran y (off + j)).mark = .clean) →
            reads (.read ((List.range n).map (fun j => tget 0 s.pool (poolKey y (off + j)))) false))
        ∧ (s.hostSealed h.off n = true → reads .unsupported)))

/-- After R385 to R387, R395, R397, R398: interfaces, keys, measurements, sensors and firmware. A slot that comes free takes
the key from the CDECs and CENCs that use it; an update is written before it is verified, and a bank that is refused is
not activated. Choices of the model that it rests on: log 21, 66, 67, 68, 71 and 120. -/
def Obligations.ManagementRequestsAreAnswered : Prop :=
  ∀ (s : State) (n : Nat) (job : BitVec 16) (st : BitVec 2) (stream : Nat) (b : BindF) (i : BitVec 8) (sensor : BitVec 16) (f : FwBank) (die : Fin 4),
    let d := s.tdi n
    let said : Reply → State := fun r => { s with replies := s.replies ++ [r] }
    let moves : Prop := ∃ t, exec (.tdispRequest n job st stream) s = .next t ∧ (t.tdi n).state = st ∧ t.replies = s.replies ++ [.accepted]
      ∧ t.pool = s.pool ∧ t.hbm = s.hbm ∧ t.ctxs = s.ctxs
    let empty : State → Prop := fun t => (∀ e ∈ t.gcm, e.2.tdi ≠ some n) ∧ (∀ e ∈ t.xts, e.2.tdi ≠ some n)
    (d.state = 0 → st = 1 → (∀ e ∈ s.tdis, e.1 ≠ n → e.2.job = job → e.2.state = 0) → job ≠ 0 → job ≠ 0xFFFF → stream < 5 → moves
      ∧ ∃ t, exec (.tdispRequest n job st stream) s = .next t ∧ (t.tdi n).job = job ∧ (t.tdi n).stream = stream)
    ∧ (d.state = 1 → st = 2 → moves) ∧ (st = 0 → moves) ∧ (st = 3 → d.state ≠ 0 → moves)
    ∧ (d.state = 2 → st = 0 ∨ st = 3 → ∃ t, exec (.tdispRequest n job st stream) s = .next t ∧ empty t)
    ∧ ((d.state ≠ 1 ∧ st = 2) ∨ (d.state ≠ 0 ∧ st = 1) ∨ (d.state = 0 ∧ st = 3) →
      exec (.tdispRequest n job st stream) s = .next (said .refusedReq))
    ∧ (d.state ≠ 2 → exec (.tdiLeaveRun n) s = .next s)
    ∧ (d.state = 2 → ∃ t, exec (.tdiLeaveRun n) s = .next t ∧ t.tdi n = { d with state := 0 } ∧ empty t ∧ t.ctxs = s.ctxs
      ∧ t.chains = s.chains.map (fun c => if c.crypt.any (fun g => decide ((tget ⟨0, 0, 0, none, 0⟩ s.gcm (g.aux.toNat % 32)).tdi = some n))
          then { c with slot := none } else c))
    ∧ (let o := s.tdi b.tdi
      let gs := (tget ⟨0, 0, 0, none, 0⟩ s.gcm b.slot.toNat).tdi
      let xs := (tget ⟨0, none, 0⟩ s.xts b.slot.toNat).tdi
      (o.state = 0 ∨ o.state = 3 → exec (.bindKey b) s = .next (said .refusedReq))
      ∧ (∀ e, e ≠ b.tdi → (b.xts = true ∧ xs = some e) ∨ (b.xts = false ∧ gs = some e) → exec (.bindKey b) s = .next (said .refusedReq))
      ∧ (o.state = 1 ∨ o.state = 2 → b.xts = true → xs = none ∨ xs = some b.tdi → ∃ t, exec (.bindKey b) s = .next t
        ∧ t = { s with xts := t.xts, replies := s.replies ++ [.accepted] }
        ∧ ∀ e, tget ⟨0, none, 0⟩ t.xts e = if e = b.slot.toNat then ⟨b.key, some b.tdi, o.job⟩ else tget ⟨0, none, 0⟩ s.xts e)
      ∧ (o.state = 1 ∨ o.state = 2 → b.xts = false → gs = none ∨ gs = some b.tdi → ∃ t, exec (.bindKey b) s = .next t
        ∧ t = { s with gcm := t.gcm, replies := s.replies ++ [.accepted] }
        ∧ ∀ e, tget ⟨0, 0, 0, none, 0⟩ t.gcm e = if e = b.slot.toNat then ⟨b.key, b.nonce, 0, some b.tdi, o.job⟩
            else tget ⟨0, 0, 0, none, 0⟩ s.gcm e))
    ∧ (1 ≤ i.toNat ∧ i.toNat ≤ 5 → ∃ l bad, exec (.spdmRequest i) s = .next (said (.read l bad)) ∧ (bad = true ↔ i = 3 ∧ s.cfg.good = false)
      ∧ (i = 1 → l = Config.digest 0 s.fwActive.content) ∧ (i = 2 → l = Config.digest 0 s.fwInactive.content)
      ∧ (i = 3 → s.cfg.good = true → l = Config.digest 1 s.cfg.content))
    ∧ (i.toNat = 0 ∨ 5 < i.toNat → exec (.spdmRequest i) s = .next (said .refusedReq))
    ∧ (sensor = 0x0100 → exec (.pldmRequest sensor) s = .next (said (.words [s.health])))
    ∧ (0x0200 ≤ sensor.toNat ∧ sensor.toNat ≤ 0x0203 → ∃ l, exec (.pldmRequest sensor) s = .next (said (.words l)) ∧ l.length = 8)
    ∧ ((1 ≤ sensor.toNat ∧ sensor.toNat ≤ 4) ∨ sensor = 0x10 ∨ (0x20 ≤ sensor.toNat ∧ sensor.toNat ≤ 0x27) →
      ∃ w, exec (.pldmRequest sensor) s = .next { said (.words [w]) with free := s.free + 1 })
    ∧ (let known := (1 ≤ sensor.toNat ∧ sensor.toNat ≤ 4) ∨ sensor = 0x10 ∨ (0x20 ≤ sensor.toNat ∧ sensor.toNat ≤ 0x27) ∨ sensor = 0x0100
          ∨ (0x0200 ≤ sensor.toNat ∧ sensor.toNat ≤ 0x0203)
      ¬known → exec (.pldmRequest sensor) s = .next (said (if sensor = Config.pldmTelcfg then .words [s.telcfg] else .refusedReq)))
    ∧ (f.signed = true → s.fwActive.version ≤ f.version → exec (.firmwareUpdate f) s = .next { said .accepted with fwInactive := f })
    ∧ (f.signed = false ∨ f.version < s.fwActive.version → exec (.firmwareUpdate f) s = .next { said .refusedReq with fwInactive := f })
    ∧ (let fits := s.fwInactive.signed = true ∧ s.fwActive.version ≤ s.fwInactive.version
      (¬fits → exec .activateFirmware s = .next { said .refusedReq with fwPending := false })
      ∧ (fits → s.snap.busy = true → exec .activateFirmware s = .next { s with fwPending := true })
      ∧ (fits → s.snap.busy = false → exec .activateFirmware s
        = .next { s with fwActive := s.fwInactive, fwInactive := s.fwActive, fwSwitch := [0, 1, 2, 3], fwPending := false }))
    ∧ (die.val ∉ s.fwSwitch ∨ s.atBoundary die.val = false → exec (.serviceBankSwitch die) s = .next s)
    ∧ (die.val ∈ s.fwSwitch → s.atBoundary die.val = true → ∃ t, exec (.serviceBankSwitch die) s = .next t
      ∧ (∀ x, x = serviceOf die.val ∨ x = serviceOf die.val + 1 → (t.ctx x 0).entry = some (s.fwActive.entry, 2) ∧ (t.ctx x 0).ptbase = s.fwActive.ptbase
        ∧ ((s.seq x).halt ≠ .supfault → (t.seq x).tvec = s.fwActive.tvec ∧ (t.seq x).active = some 0 ∧ (t.seq x).halt = .run))
      ∧ (∀ e, e ∈ t.fwSwitch ↔ e ∈ s.fwSwitch ∧ e ≠ die.val) ∧ t.pool = s.pool ∧ t.hbm = s.hbm
      ∧ (t.fwSwitch = [] → t.errata = s.fwActive.errata) ∧ (t.fwSwitch ≠ [] → t.errata = s.errata))

/-- After R365 to R381: what a Lockkeeper answers to the requests of its ring: it takes op back to 0, writes the status
of the reply and counts it done, with a record that says neither error nor stop. A cached image is installed, and else one that keeps what its source does: the leaf of
its page names the image with W cleared, and the old code is dropped; an image that does not keep it completes nothing.
A page is refused with status 4 or 5 only where the source, or what an image of it comes to, bears that out (log 105 and
103). A page goes back to its source once it is quiescent, and a second image waits for that too. Choices of the model
that it rests on: log 62, 63, 83, 103, 105 and 121. -/
def Obligations.PagesAreTranslatedAndReverted : Prop :=
  ∀ (s : State) (die : Fin 4) (slot : BitVec 7) (img : Image) (va : Word),
    let r := s.lkRequest die.val slot.toNat
    let z := imageFrames img
    let apart : Prop := s.zeroing = [] ∧ r.at_ + 8 ≤ hbmBytes ∧ r.reply + 16 ≤ hbmBytes ∧ (r.at_ + 8 ≤ r.reply ∨ r.reply + 16 ≤ r.at_)
    let counted : State → Prop := fun t => ∀ c, refOf r.done = some c → ∃ w : Word × Word × Word, (s.gclk, .ctr ⟨c.1, c.2, none, 1, some w⟩) ∈ t.pending
      ∧ w.1.toNat / 2 ^ 54 = 0
    let answered : Host.Outcome State Fault Refusal → Nat → Prop := fun o status => ∃ t, o = .next t ∧ rdBytes t.hbm r.at_ 1 = 0
      ∧ rdBytes t.hbm r.reply 1 = status ∧ t.pool = s.pool ∧ t.ctxs = s.ctxs ∧ t.seqs = s.seqs ∧ t.installs = s.installs ∧ t.tlb = s.tlb
      ∧ counted t
    let gone : State → Word → Prop := fun t page => (∀ e ∈ t.tlb, ∀ i, i < e.size / 4096 → BitVec.ofNat 45 (e.va / 4096 + i) ≠ pageOf page)
      ∧ ∀ x p, (t.seq x).page (pageOf page) = some p → p.stale = true
    (r.op = 0 ∨ (r.op = 2 ∧ r.good = true) → exec (.translate die slot img) s = .next s)
    ∧ (r.op ≠ 2 ∨ r.good = false → exec (.revert die slot) s = .next s)
    ∧ (apart → r.op ≠ 0 → (r.op ≠ 1 ∧ r.op ≠ 2 ∨ r.good = false) → answered (exec (.translate die slot img) s) 8)
    ∧ (apart → r.op = 1 → r.good = true → s.lkLeaf r.ptbase r.page = none → answered (exec (.translate die slot img) s) 7)
    ∧ (apart → r.op = 2 → r.good = true → s.lkLeaf r.ptbase r.page = none → answered (exec (.revert die slot) s) 7)
    ∧ (∀ l, apart → r.op = 1 → r.good = true → s.lkLeaf r.ptbase r.page = some l →
      let src := pteFrame l.pte
      let m := s.pageView src 0x4000 (if pteC l.pte then some (s.xkey (r.conf % 32) r.job) else none)
      let hash : BitVec 128 := (srcHash m src).setWidth 128
      let clear : Prop := l.at_ + 8 ≤ hbmBytes ∧ (l.at_ + 8 ≤ r.reply ∨ r.reply + 16 ≤ l.at_) ∧ (l.at_ + 8 ≤ r.at_ ∨ r.at_ + 8 ≤ l.at_)
      let maps : Nat → State → Prop := fun frame t => rdBytes t.hbm r.reply 1 = 0
        ∧ rdBytes t.hbm l.at_ 8 = (l.pte - src + frame - (if pteW l.pte then 4 else 0)) % 2 ^ 64
        ∧ t.pool = s.pool ∧ t.ctxs = s.ctxs ∧ gone t r.page ∧ counted t
      (∀ i, s.installs.find? (fun i => decide (i.leaf = l.at_ ∧ i.frame = pteFrame l.pte)) = some i → answered (exec (.translate die slot img) s) 1)
      ∧ (s.installs.find? (fun i => decide (i.leaf = l.at_ ∧ i.frame = pteFrame l.pte)) = none →
        (CodePage.read m src = none → answered (exec (.translate die slot img) s) 3)
        ∧ ∀ page, CodePage.read m src = some page →
          (page.tag = 0x300 → answered (exec (.translate die slot img) s) 1)
          ∧ (page.tag ≠ 0x100 → page.tag ≠ 0x200 → page.tag ≠ 0x300 → answered (exec (.translate die slot img) s) 6)
          ∧ (page.tag = 0x100 ∨ page.tag = 0x200 →
            (rdBytes m (src + 0x20) 16 ≠ hash.toNat ∨ page.valid = false → answered (exec (.translate die slot img) s) 3)
            ∧ (rdBytes m (src + 0x20) 16 = hash.toNat → page.valid = true →
              (∀ e, pteC l.pte = false → s.cacheHit hash page.tag = some e → clear → ∃ t i, exec (.translate die slot img) s = .next t
                ∧ t.installs = s.installs ++ [i] ∧ i.va = r.page ∧ i.leaf = l.at_ ∧ i.source = src ∧ i.frame = e.frame ∧ i.frames = e.frames
                ∧ i.pass = e.pass ∧ i.cached = true ∧ rdBytes t.hbm r.at_ 1 = 0 ∧ maps e.frame t)
              ∧ (pteC l.pte = true ∨ s.cacheHit hash page.tag = none →
                (img.status = 4 → page.mayLoseTiming = true → answered (exec (.translate die slot img) s) 4)
                ∧ (img.status = 5 → tooLarge page img = true → answered (exec (.translate die slot img) s) 5)
                ∧ ((img.status = 4 ∧ page.mayLoseTiming = false) ∨ (img.status = 5 ∧ tooLarge page img = false)
                    ∨ (img.status = 0 ∧ imageOk page img s.errata hash = false) → exec (.translate die slot img) s = .next s)
                ∧ (img.status = 0 → imageOk page img s.errata hash = true →
                  (State.makeRoom (s.cache.length + 1) (s.lkAccept r) img.frame z = none → ∃ t, exec (.translate die slot img) s = .next t
                    ∧ rdBytes t.hbm r.reply 1 = 2 ∧ t.installs = s.installs ∧ t.tlb = s.tlb ∧ t.pool = s.pool ∧ t.ctxs = s.ctxs ∧ counted t
                    ∧ (⟨.a, .codeHeap, r.page, 0, 0, false, false, 0⟩ : Pend) ∈ (t.seq (serviceOf 0)).pend)
                  ∧ (pteC l.pte = false → s.runFree img.frame z = true → clear → ∃ t i, exec (.translate die slot img) s = .next t
                    ∧ t.installs = s.installs ++ [i] ∧ i.va = r.page ∧ i.leaf = l.at_ ∧ i.source = src ∧ i.frame = img.frame ∧ i.frames = z
                    ∧ i.errata = s.errata ∧ i.pass = 1 ∧ i.cached = true ∧ maps img.frame t
                    ∧ ∃ e, t.cache = s.cache ++ [e] ∧ e.frame = img.frame ∧ e.frames = z ∧ e.hash = hash ∧ e.tag.toNat = page.tag)))))))
    ∧ (∀ l i, apart → r.op = 2 → r.good = true → s.lkLeaf r.ptbase r.page = some l → s.installs = [i] → i.leaf = l.at_ → i.frame = pteFrame l.pte →
      let j : Install := { i with revert := true, asked := i.asked ++ [(r.reply, r.done)] }
      let t0 := s.wrHbm r.at_ 1 0
      let t1 : State := { t0 with installs := [j] }
      (t1.quiescent j = false → exec (.revert die slot) s = .next t1)
      ∧ (t1.quiescent j = true → i.asked = [] → l.at_ + 8 ≤ hbmBytes → (l.at_ + 8 ≤ r.reply ∨ r.reply + 16 ≤ l.at_) → (l.at_ + 8 ≤ r.at_ ∨ r.at_ + 8 ≤ l.at_) →
        ∃ t, exec (.revert die slot) s = .next t ∧ t.installs = [] ∧ rdBytes t.hbm l.at_ 8 = (l.pte - i.frame + i.source) % 2 ^ 64
          ∧ rdBytes t.hbm r.at_ 1 = 0 ∧ rdBytes t.hbm r.reply 1 = 0 ∧ gone t i.va ∧ t.pool = s.pool ∧ t.ctxs = s.ctxs ∧ counted t))
    ∧ ((∀ i ∈ s.installs, i.va = va → i.revert = true ∨ s.secondOk i img = false) → exec (.profileGuidedInstall va img) s = .next s)
    ∧ (∀ i, s.installs = [i] → i.va = va → i.revert = false → s.secondOk i img = true →
      exec (.profileGuidedInstall va img) s = .next { s with installs := [{ i with next := some img }] })
    ∧ (∀ i, s.installs = [i] → i.revert = false → s.quiescent i = false → i.conf = false → s.quiesce = s)
    ∧ (∀ i, s.installs = [i] → i.revert = false → i.next = some img → s.quiescent i = true → i.conf = false → s.mapsImage i = true →
      s.runFree img.frame z = true → img.words.length = 1024 * z → s.zeroing = [] → i.leaf + 8 ≤ hbmBytes →
      (i.leaf + 8 ≤ img.frame ∨ img.frame + 4096 * z ≤ i.leaf) →
      (∀ k, k < z → let o := s.ftbase.toNat / 2 ^ 20 % 2 ^ 32 * 2 ^ 20 + 2 * ((img.frame + 4096 * k) / 4096)
        i.leaf + 8 ≤ o ∨ o + 2 ≤ i.leaf) →
      s.quiesce.installs = [{ i with frame := img.frame, frames := z, errata := imageErrata img, pass := 2, cached := false, next := none }]
        ∧ rdBytes s.quiesce.hbm i.leaf 8 = (rdBytes s.hbm i.leaf 8 - i.frame + img.frame - (if pteW (rdBytes s.hbm i.leaf 8) then 4 else 0)) % 2 ^ 64
        ∧ s.quiesce.pool = s.pool ∧ s.quiesce.ctxs = s.ctxs ∧ gone s.quiesce i.va)

/-- After R274, R275, R347, R359, R401, R402: the resets. Each ends what its level holds and leaves the rest; a reset
inside one in progress is absorbed. Choices of the model that it rests on: log 33 and 64. -/
def Obligations.ResetsEndTheirLevel : Prop :=
  ∀ (s : State) (y : TileId) (x : SeqId) (die : Fin 4) (tile : Fin 64) (d : Fin 4),
    let k := tileKey y
    let z := seqKey x
    (s.underReset k = true → exec (.copyEngineReset y) s = .next s ∧ exec (.mxeReset y) s = .next s ∧ exec (.groupedUnitReset y) s = .next s
      ∧ exec (.tileReset y) s = .next s)
    ∧ (s.underReset (tileOf z) = true → exec (.sequencerReset x) s = .next s)
    ∧ (s.underReset k = false →
      (s.chains.all (fun c => decide (c.tile ≠ k)) = true → exec (.copyEngineReset y) s = .next s)
      ∧ (∃ t, exec (.copyEngineReset y) s = .next t ∧ t.ctxs = s.ctxs ∧ t.seqs = s.seqs ∧ t.tasks = s.tasks
        ∧ ((∀ c ∈ s.chains, c.tile = k → ∀ c' ∈ s.chains, c'.id = c.id → c' = c) →
          ∀ c ∈ t.chains, c.tile ≠ k ∨ ∃ a v b, c.st = .ending a v b))
      ∧ (∃ t, exec (.mxeReset y) s = .next t ∧ t.ctxs = s.ctxs ∧ t.seqs = s.seqs ∧ t.nest (2 * k) = none ∧ t.nest (2 * k + 1) = none
        ∧ (t.tile k).katA = none ∧ (t.tile k).katB = none ∧ (∀ j, j ≠ k → t.tile j = s.tile j)
        ∧ (∀ n, s.nest (2 * k) = some n → ∀ i ∈ nestSlots n, 0 ≤ i → i < 256 → tget tVOID (t.tile k).slotTags i.toNat = tVOID))
      ∧ ((s.tile k).vg = none → exec (.groupedUnitReset y) s = .next s)
      ∧ (∀ v, (s.tile k).vg = some v → v.completed = false → ∃ t, exec (.groupedUnitReset y) s = .next t ∧ OnlyTile s t k
        ∧ t.tile k = { s.tile k with vg := some { v with stopAsked := true } })
      ∧ (∃ t, exec (.tileReset y) s = .next t ∧ (t.tile k).counters = [] ∧ (t.tile k).rings = [] ∧ (∀ v, (t.tile k).vg = some v → v.completed = true ∨ v.stopAsked = true)
        ∧ t.nest (2 * k) = none ∧ t.nest (2 * k + 1) = none ∧ t.underReset k = true ∧ (∃ h, (k, h) ∈ t.resets ∧ s.gclk ≤ h ∧ h < s.gclk + 2 ^ 16)
        ∧ (isService k = false → ∀ e, e = 2 * k ∨ e = 2 * k + 1 → (t.seq e).halt = .bringup ∧ (t.seq e).pend = [])
        ∧ ∀ b, (∃ o, ((s.tile k).bank b).owner = some o) → (∀ v, (s.tile k).vg = some v → False) → s.chains = [] → s.tasks = [] →
            s.nest (2 * k) = none → s.nest (2 * k + 1) = none → ∀ j, j < bankSize → tget 0 t.pool (poolKey k (b * bankSize + j)) = 0))
    ∧ (s.underReset (tileOf z) = false → ∃ t, exec (.sequencerReset x) s = .next t ∧ (∀ j, j ≠ z → t.seq j = s.seq j ∨ ∃ u ∈ s.tasks, z ∈ u.seqs)
      ∧ (t.seq z).bundles = (s.seq z).bundles ∧ (t.seq z).issueCycles = (s.seq z).issueCycles ∧ (t.seq z).frozenCycles = (s.seq z).frozenCycles
      ∧ (isService (tileOf z) = false → (t.seq z).halt = .bringup ∧ (t.seq z).active = none ∧ (t.seq z).pend = [] ∧ (t.seq z).tvec = 0)
      ∧ (isService (tileOf z) = true → (t.seq z).tvec = s.fwActive.tvec ∧ (t.ctx z 0).ptbase = s.fwActive.ptbase
        ∧ ∀ p, p ∈ (t.seq z).pend ↔ p ∈ (s.seq z).pend ∧ p.cause.device = true)
      ∧ (∀ u ∈ s.tasks, z ∈ u.seqs → u.killed = false → ∀ v, t.task u.id = some v → v.killed = true))
    ∧ (s.snap.open_ = false → ∃ t, exec (.dieReset d) s = .next t ∧ (∀ e ∈ t.tlb, e.die ≠ d.val)
      ∧ (∀ j, 65 * d.val ≤ j ∧ j < 65 * d.val + 65 → t.underReset j = true
        ∧ (s.chains = [] → s.tasks = [] → (t.tile j).counters = [] ∧ (t.tile j).rings = []))
      ∧ (∃ h, s.gclk < h ∧ h ≤ s.gclk + 28000 ∧ tget 0 t.laneUntil d.val = h ∧ tget 0 t.laneUntil ((d.val + 3) % 4) = h))
    ∧ (s.underReset (65 * die.val + tile.val) = true →
      (∃ t, exec (.tileRetirement die tile true) s = .next t ∧ t.health = healthMore s.health 48 ∧ t.tiles = s.tiles)
      ∧ (∃ t, exec (.tileRetirement die tile false) s = .next t ∧ t.health = s.health ||| 0x8000000000000000
        ∧ (t.tile (65 * die.val + tile.val)).gone = true ∧ ∀ j, j ≠ 65 * die.val + tile.val → t.tile j = s.tile j))
    ∧ (s.underReset (65 * die.val + tile.val) = false → ∃ t, exec (.tileRetirement die tile false) s = .next t
        ∧ (t.tile (65 * die.val + tile.val)).gone = true ∧ (t.tile (65 * die.val + tile.val)).counters = []
        ∧ t.underReset (65 * die.val + tile.val) = true)

/-- After R377, R382, R399, R400, R402: the resets of the package. A function-level reset ends every task, clears pools,
queues, handles and keys, frees the confidential images of the jobs that it ends, and gives up a snapshot in progress here
and, by its abort flit, at every peer with reason 1; a cold reset leaves what State.reset and the configuration record
say, with the active firmware bank's entry; with its power off the device holds nothing but its flash. A record is good
where its signature holds and its reserved bytes are 0, and a byte 0xFF of its tile map leaves that tile unavailable.
Choices of the model that it rests on: pool and HBM that nothing has written read 0 (log 5 and 6), log 12, 65, what the
configuration is after a cold reset (log 101), and log 122. -/
def Obligations.ThePackageIsReset : Prop :=
  ∀ (s : State) (c : CfgRec),
    (s.tasks = [] → s.snap.pending = [] → s.accs = [] → s.installs = [] → ∃ t, exec .functionLevelReset s = .next t ∧ t.lqs = [] ∧ t.gcm = [] ∧ t.xts = [] ∧ t.tdis = [] ∧ t.pool = [] ∧ t.poolGran = []
      ∧ (∀ k, (tget Ctx.init t.ctxs k).handles = []) ∧ (∀ j, (t.tile j).slotTags = [] ∧ (t.tile j).regTags = [] ∧ (t.tile j).bands = [])
      ∧ t.hbm = s.hbm ∧ t.seqs = s.seqs ∧ t.fwActive = s.fwActive)
    ∧ (∃ t, exec .functionLevelReset s = .next t ∧ t.tasks = [] ∧ t.pool = [] ∧ t.lqs = [] ∧ t.gcm = [] ∧ t.xts = []
      ∧ (∀ d ∈ t.chains, d.slot = none) ∧ (∀ i ∈ t.installs, i.conf = false) ∧ (s.tasks ≠ [] → t.preq.getLsbD 63 = false)
      ∧ (s.snap.pending = [s.snap.now] → s.snap.open_ = true → t.snap.phase = 6 ∧ t.snap.reason = 1
        ∧ ∀ q, s.peers = [q] → (∀ l ∈ s.links, l.2.stopped = 0) → s.canSend (portTo 0 q.toNat) 3 = true → (s.link (portTo 0 q.toNat)).queue = [] →
          ∃ e ∈ t.outbox, e.kind = 6 ∧ e.dst = q ∧ e.addr.toNat % 2 ^ 32 = s.snap.now % 2 ^ 32 ∧ e.payload = [1]))
    ∧ (c.good = true ↔ c.signed = true ∧ ∀ b ∈ c.reserved, b = 0)
    ∧ (∀ i, i ∈ c.gone ↔ i < 256 ∧ c.tileMap.getD i (BitVec.ofNat 8 (i % 64)) = 0xFF)
    ∧ (∃ t, exec (.coldReset c) s = .next t ∧ t.pool = [] ∧ t.hbm = [] ∧ t.tasks = [] ∧ t.chains = [] ∧ t.gclk = State.reset.gclk ∧ t.cfg = heapAsNamed c ∧ t.pkg = s.pkg
      ∧ t.fwActive = s.fwActive ∧ t.fwInactive = s.fwInactive ∧ t.errata = s.fwActive.errata ∧ t.power = true
      ∧ t.health = (if c.good then c.health &&& 0x00FFFF00FFFF0000 else 0)
      ∧ (∀ dd : Fin 4, ∀ j, j = serviceOf dd.val ∨ j = serviceOf dd.val + 1 → (t.seq j).tvec = s.fwActive.tvec ∧ (t.seq j).active = some 0
        ∧ (t.ctx j 0).entry = some (s.fwActive.entry, 2) ∧ (t.ctx j 0).ptbase = s.fwActive.ptbase)
      ∧ (∀ dd : Fin 4, ∀ n : Fin 64, (t.tile (65 * dd.val + n.val)).gone = (!c.good || decide (64 * dd.val + n.val ∈ c.gone))
        ∧ (t.seq (2 * (65 * dd.val + n.val))).halt = .bringup ∧ (t.seq (2 * (65 * dd.val + n.val) + 1)).halt = .bringup))
    ∧ (∃ t, exec .powerOff s = .next t ∧ t.power = false ∧ t.pool = [] ∧ t.hbm = [] ∧ t.tasks = [] ∧ t.fwActive = s.fwActive ∧ t.fwInactive = s.fwInactive)

/-- After R57 to R84, R266, R277, R306: encoding and decoding agree. Every well-formed instruction that has an
encoding decodes, in its slot, to itself. -/
def Obligations.EncodedInstructionsDecode : Prop :=
  (∀ (i : Instr) (w : Nat), i.wf = true →
    (encS i = some w → w < 2 ^ 32 ∧ decS w = .ok i) ∧ (encC i = some w → w < 2 ^ 32 ∧ decC w = .ok i)
    ∧ (encB i = some w → w < 2 ^ 32 ∧ decB w = .ok i) ∧ (encM i = some w → w < 2 ^ 32 ∧ decM w = .ok i)
    ∧ (encX i = some w → w < 2 ^ 32 ∧ decX w = .ok [i]) ∧ (encE i = some w → w < 2 ^ 64 ∧ decE w = .ok i))
  ∧ (∀ (a b c : Instr), vslotWf a b c = true → ∃ w, encV a b c = some w ∧ w < 2 ^ 64 ∧ decV w = .ok (a, b, c))
  ∧ ∀ (ch : Nat) (f : CopyF), [Instr.cmov ch f, .czero ch f, .cconv ch f, .cexp ch f, .ccomp ch f, .cdec ch f, .cenc ch f, .catom ch f, .cloop ch f,
      .cif ch f, .csig ch f, .clink ch f, .ccw ch f, .cend ch f].all (fun i => match encCopy i with
        | some w => decide (w < 2 ^ 256 ∧ decCopy ch w = some i)
        | none => false) = true

/-- After R57 to R84: the other direction. A word that decodes in a slot is the encoding of what it decodes to, which
is well formed: no bit is dropped, and a word with a reserved field does not decode. -/
def Obligations.DecodedWordsEncode : Prop :=
  ∀ (w : Nat) (i : Instr),
    (w < 2 ^ 32 → (decS w = .ok i → encS i = some w ∧ i.wf = true) ∧ (decC w = .ok i → encC i = some w ∧ i.wf = true)
      ∧ (decB w = .ok i → encB i = some w ∧ i.wf = true) ∧ (decM w = .ok i → encM i = some w ∧ i.wf = true)
      ∧ (decX w = .ok [i] → encX i = some w ∧ i.wf = true)
      ∧ (∀ j, decX w = .ok [i, j] → ∃ a b, encXs i = some a ∧ encXv j = some b ∧ a + b = w ∧ i.wf = true ∧ j.wf = true))
    ∧ (w < 2 ^ 64 → (decE w = .ok i → encE i = some w ∧ i.wf = true)
      ∧ ∀ b c, decV w = .ok (i, b, c) → encV i b c = some w ∧ vslotWf i b c = true)

/-- After R49 to R55: a few words, one for each kind of slot, with the instructions they stand for. -/
def Obligations.WordsStandForTheirInstructions : Prop :=
  decodeTableWord 32 (0x02 * 2 ^ 26 + 0x12 * 2 ^ 20 + 0x03 * 2 ^ 14 + 0x15 * 2 ^ 9) = some (.sub (.k 2) (.q 3) (.keep 5) 0)
  ∧ decB (0x01 * 2 ^ 27 + 0x05 * 2 ^ 21 + 0x7FE * 2 ^ 9) = .ok (.brz (.q 5) 0x7FE)
  ∧ decC (0x01 * 2 ^ 26 + 0xABCDEF) = .ok (.lith 0xABCDEF)
  ∧ decM (0x06 * 2 ^ 26 + 0x11 * 2 ^ 20 + 0x1F * 2 ^ 12 + 0x123) = .ok (.ldd (.k 1) (.keep 15) 0x123)
  ∧ decV (0x01 * 2 ^ 58 + 0x08 * 2 ^ 52 + 0x01 * 2 ^ 38 + 0x12 * 2 ^ 30 + 0xFF * 2 ^ 6)
    = .ok (.vadd ⟨.a, .vq 1, .queue, 0⟩ (.w 2), .vneg ⟨.b, .vq 1, .queue, 0⟩, .pass ⟨.c, .vq 1, .queue, 0⟩)
  ∧ decX (0x2 * 2 ^ 28 + 0x12 * 2 ^ 22 + 0x09 * 2 ^ 16 + 0x4 * 2 ^ 12 + 0x03 * 2 ^ 4 + 0x1) = .ok [.xins (.k 2) 9, .xmsk (.vq 3) true]
  ∧ decE (0x10 * 2 ^ 58 + 0x05 * 2 ^ 52 + 2 ^ 45 + 7 * 2 ^ 13) = .ok (.cwait 5 (.imm 7))

/-- After R58, R267, R335, R337, R339, R344: a bundle that shows a decode cause does not issue: an undefined opcode, a
reserved field, a privileged operation of a task context, a vector register outside the task's file; one with an SC
operation waits for its position of the wheel first. Each privileged operation shows PRIV in a task context, with every
operand, and nothing else does; context 0 may issue every one. -/
def Obligations.DecodeCausesStopTheBundle : Prop :=
  (∀ (s : State) (x c : Nat) (p : PageInfo) (ws : List (BitVec 32)) (inB : Bool),
    let q := s.seq x
    let k := s.ctx x c
    let faults := bundleFaults x c (s.regCount x c) (decHead (ws.headD 0).toNat) (decBundle ws)
    q.active = some c → q.page (pageOf k.pos) = some p → q.bundleAt k.pos = some (ws, inB) →
    -- an SC operation waits for its sequencer's position of the wheel first (R267)
    (scBundle ws = true → isService (tileOf x) = false → s.ownsWheel x = true) →
    (faults ≠ [] → (s.begin_ x).bundle.active = false ∧ (s.begin_ x).pool = s.pool ∧ (s.begin_ x).tiles = s.tiles ∧ (s.begin_ x).chains = s.chains)
    ∧ (∀ e, 1 ≤ c → q.halt = .run → q.serving = false → (k.bpx = true ∨ q.dbgctl = 0) → faults = [e] →
      ((s.begin_ x).seq x).tcause.toNat = Kind.s.code * 2 ^ 7 + e.2.code
      ∧ (e.2 ≠ .spRange ∨ e.1 = .v → ((s.begin_ x).seq x).tval = BitVec.ofNat 64 (slotBit e.1))
      ∧ ((s.begin_ x).seq x).tval ∈ [BitVec.ofNat 64 (slotBit e.1), BitVec.ofNat 64 (slotBit e.1 + slotBit .v)]
      ∧ ((s.begin_ x).seq x).inter = some c ∧ ((s.begin_ x).seq x).tbundle = k.pos))
  ∧ (∀ (x c regs : Nat) (y : Bool) (i : Instr), Cause.priv ∈ instrFaults x c regs y i ↔ c ≠ 0 ∧ (i = .eret
    ∨ (∃ r a n, i = .syswr r a n) ∨ (∃ a b n, i = .tlbinv a b n) ∨ (∃ a b n, i = .codeinv a b n) ∨ (∃ a b n, i = .zerob a b n)
    ∨ (∃ a b, i = .snap a b) ∨ (∃ a b, i = .rollbk a b)
    ∨ ∃ r f n, i = .sysrd r f n ∧ (n ≠ 0 ∨ (sysKnown r.toNat = true ∧ svRead r.toNat = true))))
  ∧ ∀ n : Nat, svRead n = true ↔ n ∉ [0x010, 0x011, 0x012, 0x013, 0x040, 0x041, 0x042]

/-- After R7, R22: every operation of a slot answers with a next state that differs in the issuing bundle alone:
registers, memories, tiles, tasks, chains, counters and every other sequencer are as before until the bundle commits. -/
def Obligations.SlotOperationsStageOnly : Prop :=
  ∀ (i : Instr) (s : State), (encode i).isSome = true → encCopy i = none → ∃ t, exec i s = .next t ∧ OnlyBundle s t

/-- Every instruction answers a next state, in every state: none ends in a fault or a refusal. Every step of the
package answers a next state, in every state; so every run goes on. -/
def Obligations.EveryStepAnswers : Prop :=
  (
    ∀ (i : Instr) (s : State), Completes (exec i s))
  ∧ (
    (∀ s : State, Completes (step s)) ∧ ∀ (k : Nat) (s : State), SafeFor k s)

/-- After R7, R22, R58, R101: a step runs the decoded operation. With a bundle issuing, the next step is exec of its
next operation, with that slot in focus; a bundle issues exactly the operations that its words decode to; a
sequencer's turn, which closes the bundle before and tests what this one waits for, runs the first of them. -/
def Obligations.AStepRunsTheDecodedOperation : Prop :=
  ∀ (s : State), s.power = true → s.stopped = false →
    (∀ k i rest, s.bundle.active = true → s.bundle.todo = (k, i) :: rest → step s = exec i { s with bundle := { s.bundle with focus := k, todo := rest } })
    ∧ (s.bundle.active = true → s.bundle.todo = [] → step s = exec .idleBundle s)
    ∧ (∀ x l k i rest, s.bundle.active = false → s.agenda = [] → s.phase = .issue (x :: l) →
      let r := State.turn { s with phase := .issue l } x
      let t := r.1.begin_ x
      r.2 = true → t.bundle.active = true → t.bundle.todo = (k, i) :: rest →
      step s = exec i { t with bundle := { t.bundle with focus := k, todo := rest } })
    ∧ (∀ x, s.bundle.active = false → (s.begin_ x).bundle.active = true → ∃ c ws inB, (s.seq x).active = some c
      ∧ (s.seq x).bundleAt (s.ctx x c).pos = some (ws, inB) ∧ bundleFaults x c (s.regCount x c) (decHead (ws.headD 0).toNat) (decBundle ws) = []
      ∧ (s.begin_ x).bundle.todo = (decBundle ws).flatMap (fun a => match a.2 with
          | .ok is => is.map (fun i => (a.1, i))
          | _ => []) ∧ (s.begin_ x).bundle.seq = x ∧ (s.begin_ x).bundle.ctx = c ∧ (s.begin_ x).bundle.pos = (s.ctx x c).pos)

/-- After R12, R20, R46, R340, R342, R402: what a cold reset leaves, and FLAGS as a word. Both memories are in their
canonical form at reset: addresses rise strictly, and no entry equals what an unlisted address reads as. Choices of
the model that it rests on: log 5, 6, 12 and 13. -/
def Obligations.ResetLeaves : Prop :=
  (
    State.reset.gclk = 0 ∧ State.reset.tasks = [] ∧ State.reset.chains = [] ∧ State.reset.power = true ∧ State.reset.stopped = false
    ∧ (∀ d : Fin 4, ∀ n : Fin 64, ∀ b : Bool, (State.reset.seq (seqKey ⟨⟨d, n.castLE (by decide)⟩, b⟩)).halt = .bringup
        ∧ (State.reset.seq (seqKey ⟨⟨d, n.castLE (by decide)⟩, b⟩)).active = none)
    ∧ (∀ d : Fin 4, (State.reset.seq (serviceOf d.val)).active = some 0 ∧ (State.reset.seq (serviceOf d.val)).halt = .run
        ∧ (State.reset.seq (serviceOf d.val + 1)).active = some 0)
    ∧ (∀ x c, (State.reset.ctx x c).flags.toWord = 0 ∧ (State.reset.ctx x c).loops = [] ∧ (State.reset.ctx x c).flights = [])
    ∧ (∀ n, tget 0 State.reset.pool n = 0 ∧ tget 0 State.reset.hbm n = 0)
    ∧ ∀ v : Word, (Flags.ofWord v).toWord = v &&& 0x3F)
  ∧ (
    Memory.wf State.reset.pool = true ∧ Memory.wf State.reset.hbm = true)

/-- The canonical form of both memories is an invariant: every step from a state that has it leads to a state that has
it. -/
def Obligations.StepsKeepMemoryCanonical : Prop :=
  ∀ s t : State, Memory.wf s.pool = true → Memory.wf s.hbm = true → step s = .next t → Memory.wf t.pool = true ∧ Memory.wf t.hbm = true
end

