-- ==== Sys2Proof/Laws/Exec.lean ====
section
/-! SUPPORT. What exec does with each instruction: the meaning that its arm calls. -/

namespace Sys2Proof.Machine

@[simp] theorem exec_mov {a : _} {d : _} {imm : _} (s : State) : exec (.mov a d imm) s = execMov a d imm s := rfl
@[simp] theorem exec_add {a : _} {b : _} {d : _} {imm : _} (s : State) : exec (.add a b d imm) s = execAdd a b d imm s := rfl
@[simp] theorem exec_sub {a : _} {b : _} {d : _} {imm : _} (s : State) : exec (.sub a b d imm) s = execSub a b d imm s := rfl
@[simp] theorem exec_addsh {a : _} {b : _} {d : _} {sh : _} (s : State) : exec (.addsh a b d sh) s = execAddsh a b d sh s := rfl
@[simp] theorem exec_mul {a : _} {b : _} {d : _} {imm : _} (s : State) : exec (.mul a b d imm) s = execMul a b d imm s := rfl
@[simp] theorem exec_mulh {a : _} {b : _} {d : _} {imm : _} (s : State) : exec (.mulh a b d imm) s = execMulh a b d imm s := rfl
@[simp] theorem exec_mulhn {a : _} {b : _} {d : _} {imm : _} (s : State) : exec (.mulhn a b d imm) s = execMulhn a b d imm s := rfl
@[simp] theorem exec_div {a : _} {b : _} {d : _} {imm : _} (s : State) : exec (.div a b d imm) s = execDiv a b d imm s := rfl
@[simp] theorem exec_divn {a : _} {b : _} {d : _} {imm : _} (s : State) : exec (.divn a b d imm) s = execDivn a b d imm s := rfl
@[simp] theorem exec_rem {a : _} {b : _} {d : _} {imm : _} (s : State) : exec (.rem a b d imm) s = execRem a b d imm s := rfl
@[simp] theorem exec_remn {a : _} {b : _} {d : _} {imm : _} (s : State) : exec (.remn a b d imm) s = execRemn a b d imm s := rfl
@[simp] theorem exec_and {a : _} {b : _} {d : _} {imm : _} (s : State) : exec (.and a b d imm) s = execAnd a b d imm s := rfl
@[simp] theorem exec_or {a : _} {b : _} {d : _} {imm : _} (s : State) : exec (.or a b d imm) s = execOr a b d imm s := rfl
@[simp] theorem exec_xor {a : _} {b : _} {d : _} {imm : _} (s : State) : exec (.xor a b d imm) s = execXor a b d imm s := rfl
@[simp] theorem exec_andn {a : _} {b : _} {d : _} {imm : _} (s : State) : exec (.andn a b d imm) s = execAndn a b d imm s := rfl
@[simp] theorem exec_shl {a : _} {b : _} {d : _} {imm : _} (s : State) : exec (.shl a b d imm) s = execShl a b d imm s := rfl
@[simp] theorem exec_shr {a : _} {b : _} {d : _} {imm : _} (s : State) : exec (.shr a b d imm) s = execShr a b d imm s := rfl
@[simp] theorem exec_sar {a : _} {b : _} {d : _} {imm : _} (s : State) : exec (.sar a b d imm) s = execSar a b d imm s := rfl
@[simp] theorem exec_rol {a : _} {b : _} {d : _} {imm : _} (s : State) : exec (.rol a b d imm) s = execRol a b d imm s := rfl
@[simp] theorem exec_min {a : _} {b : _} {d : _} {imm : _} (s : State) : exec (.min a b d imm) s = execMin a b d imm s := rfl
@[simp] theorem exec_max {a : _} {b : _} {d : _} {imm : _} (s : State) : exec (.max a b d imm) s = execMax a b d imm s := rfl
@[simp] theorem exec_minn {a : _} {b : _} {d : _} {imm : _} (s : State) : exec (.minn a b d imm) s = execMinn a b d imm s := rfl
@[simp] theorem exec_maxn {a : _} {b : _} {d : _} {imm : _} (s : State) : exec (.maxn a b d imm) s = execMaxn a b d imm s := rfl
@[simp] theorem exec_seq {a : _} {b : _} {d : _} {imm : _} (s : State) : exec (.seq a b d imm) s = execSeq a b d imm s := rfl
@[simp] theorem exec_sne {a : _} {b : _} {d : _} {imm : _} (s : State) : exec (.sne a b d imm) s = execSne a b d imm s := rfl
@[simp] theorem exec_slt {a : _} {b : _} {d : _} {imm : _} (s : State) : exec (.slt a b d imm) s = execSlt a b d imm s := rfl
@[simp] theorem exec_sltn {a : _} {b : _} {d : _} {imm : _} (s : State) : exec (.sltn a b d imm) s = execSltn a b d imm s := rfl
@[simp] theorem exec_sle {a : _} {b : _} {d : _} {imm : _} (s : State) : exec (.sle a b d imm) s = execSle a b d imm s := rfl
@[simp] theorem exec_slen {a : _} {b : _} {d : _} {imm : _} (s : State) : exec (.slen a b d imm) s = execSlen a b d imm s := rfl
@[simp] theorem exec_sel {a : _} {b : _} {d : _} {c : _} (s : State) : exec (.sel a b d c) s = execSel a b d c s := rfl
@[simp] theorem exec_clz {a : _} {d : _} (s : State) : exec (.clz a d) s = execClz a d s := rfl
@[simp] theorem exec_ctz {a : _} {d : _} (s : State) : exec (.ctz a d) s = execCtz a d s := rfl
@[simp] theorem exec_popc {a : _} {d : _} (s : State) : exec (.popc a d) s = execPopc a d s := rfl
@[simp] theorem exec_ext {a : _} {b : _} {d : _} {imm : _} (s : State) : exec (.ext a b d imm) s = execExt a b d imm s := rfl
@[simp] theorem exec_extn {a : _} {b : _} {d : _} {imm : _} (s : State) : exec (.extn a b d imm) s = execExtn a b d imm s := rfl
@[simp] theorem exec_dep {a : _} {b : _} {d : _} {imm : _} (s : State) : exec (.dep a b d imm) s = execDep a b d imm s := rfl
@[simp] theorem exec_bswap {a : _} {d : _} (s : State) : exec (.bswap a d) s = execBswap a d s := rfl
@[simp] theorem exec_fadd {a : _} {b : _} {d : _} {w : _} (s : State) : exec (.fadd a b d w) s = execFadd a b d w s := rfl
@[simp] theorem exec_fsub {a : _} {b : _} {d : _} {w : _} (s : State) : exec (.fsub a b d w) s = execFsub a b d w s := rfl
@[simp] theorem exec_fmul {a : _} {b : _} {d : _} {w : _} (s : State) : exec (.fmul a b d w) s = execFmul a b d w s := rfl
@[simp] theorem exec_fdiv {a : _} {b : _} {d : _} {w : _} (s : State) : exec (.fdiv a b d w) s = execFdiv a b d w s := rfl
@[simp] theorem exec_fmin {a : _} {b : _} {d : _} {w : _} (s : State) : exec (.fmin a b d w) s = execFmin a b d w s := rfl
@[simp] theorem exec_fmax {a : _} {b : _} {d : _} {w : _} (s : State) : exec (.fmax a b d w) s = execFmax a b d w s := rfl
@[simp] theorem exec_fcmp {a : _} {b : _} {d : _} {w : _} {c : _} (s : State) : exec (.fcmp a b d w c) s = execFcmp a b d w c s := rfl
@[simp] theorem exec_fcvt {a : _} {d : _} {w : _} {kd : _} (s : State) : exec (.fcvt a d w kd) s = execFcvt a d w kd s := rfl
@[simp] theorem exec_fsqrt {a : _} {d : _} {w : _} (s : State) : exec (.fsqrt a d w) s = execFsqrt a d w s := rfl
@[simp] theorem exec_chdl {a : _} {d : _} {o : _} (s : State) : exec (.chdl a d o) s = execChdl a d o s := rfl
@[simp] theorem exec_madd {a : _} {b : _} {d : _} {c : _} (s : State) : exec (.madd a b d c) s = execMadd a b d c s := rfl
@[simp] theorem exec_lit {l : _} (s : State) : exec (.lit l) s = execLit l s := rfl
@[simp] theorem exec_lith {l : _} (s : State) : exec (.lith l) s = execLith l s := rfl
@[simp] theorem exec_sclset {e : _} {code : _} (s : State) : exec (.sclset e code) s = execSclset e code s := rfl
@[simp] theorem exec_sclsetSource {e : _} {src : _} (s : State) : exec (.sclsetSource e src) s = execSclsetSource e src s := rfl
@[simp] theorem exec_nset {level : _} {fld : _} {v : _} (s : State) : exec (.nset level fld v) s = execNset level fld v s := rfl
@[simp] theorem exec_nsetSource {level : _} {fld : _} {src : _} (s : State) : exec (.nsetSource level fld src) s = execNsetSource level fld src s := rfl
@[simp] theorem exec_mxcfgFmt {fa : _} {fb : _} {g : _} (s : State) : exec (.mxcfgFmt fa fb g) s = execMxcfgFmt fa fb g s := rfl
@[simp] theorem exec_mxcfgPa {p : _} (s : State) : exec (.mxcfgPa p) s = execMxcfgPa p s := rfl
@[simp] theorem exec_mxcfgPb {p : _} (s : State) : exec (.mxcfgPb p) s = execMxcfgPb p s := rfl
@[simp] theorem exec_vtag {r : _} {t : _} (s : State) : exec (.vtag r t) s = execVtag r t s := rfl
@[simp] theorem exec_tmode {m : _} (s : State) : exec (.tmode m) s = execTmode m s := rfl
@[simp] theorem exec_katk {v : _} (s : State) : exec (.katk v) s = execKatk v s := rfl
@[simp] theorem exec_pset {d : _} {m : _} {pa : _} {pb : _} {n : _} (s : State) : exec (.pset d m pa pb n) s = execPset d m pa pb n s := rfl
@[simp] theorem exec_br {o : _} (s : State) : exec (.br o) s = execBr o s := rfl
@[simp] theorem exec_brz {src : _} {o : _} (s : State) : exec (.brz src o) s = execBrz src o s := rfl
@[simp] theorem exec_brnz {src : _} {o : _} (s : State) : exec (.brnz src o) s = execBrnz src o s := rfl
@[simp] theorem exec_brx {src : _} (s : State) : exec (.brx src) s = execBrx src s := rfl
@[simp] theorem exec_call {o : _} (s : State) : exec (.call o) s = execCall o s := rfl
@[simp] theorem exec_callx {src : _} (s : State) : exec (.callx src) s = execCallx src s := rfl
@[simp] theorem exec_ret {src : _} (s : State) : exec (.ret src) s = execRet src s := rfl
@[simp] theorem exec_loop {src : _} {e : _} (s : State) : exec (.loop src e) s = execLoop src e s := rfl
@[simp] theorem exec_loopi {n : _} {e : _} (s : State) : exec (.loopi n e) s = execLoopi n e s := rfl
@[simp] theorem exec_leave {src : _} {o : _} {n : _} (s : State) : exec (.leave src o n) s = execLeave src o n s := rfl
@[simp] theorem exec_realn {m : _} (s : State) : exec (.realn m) s = execRealn m s := rfl
@[simp] theorem exec_trap {src : _} {code : _} (s : State) : exec (.trap src code) s = execTrap src code s := rfl
@[simp] theorem exec_eret (s : State) : exec .eret s = execEret s := rfl
@[simp] theorem exec_texit (s : State) : exec .texit s = execTexit s := rfl
@[simp] theorem exec_brk {code : _} (s : State) : exec (.brk code) s = execBrk code s := rfl
@[simp] theorem exec_ldb {a : _} {d : _} {o : _} (s : State) : exec (.ldb a d o) s = execLdb a d o s := rfl
@[simp] theorem exec_ldbn {a : _} {d : _} {o : _} (s : State) : exec (.ldbn a d o) s = execLdbn a d o s := rfl
@[simp] theorem exec_ldh {a : _} {d : _} {o : _} (s : State) : exec (.ldh a d o) s = execLdh a d o s := rfl
@[simp] theorem exec_ldhn {a : _} {d : _} {o : _} (s : State) : exec (.ldhn a d o) s = execLdhn a d o s := rfl
@[simp] theorem exec_ldw {a : _} {d : _} {o : _} (s : State) : exec (.ldw a d o) s = execLdw a d o s := rfl
@[simp] theorem exec_ldwn {a : _} {d : _} {o : _} (s : State) : exec (.ldwn a d o) s = execLdwn a d o s := rfl
@[simp] theorem exec_ldd {a : _} {d : _} {o : _} (s : State) : exec (.ldd a d o) s = execLdd a d o s := rfl
@[simp] theorem exec_stb {a : _} {src : _} {o : _} (s : State) : exec (.stb a src o) s = execStb a src o s := rfl
@[simp] theorem exec_sth {a : _} {src : _} {o : _} (s : State) : exec (.sth a src o) s = execSth a src o s := rfl
@[simp] theorem exec_stw {a : _} {src : _} {o : _} (s : State) : exec (.stw a src o) s = execStw a src o s := rfl
@[simp] theorem exec_std {a : _} {src : _} {o : _} (s : State) : exec (.std a src o) s = execStd a src o s := rfl
@[simp] theorem exec_ldv {a : _} {d : _} {t : _} {o : _} (s : State) : exec (.ldv a d t o) s = execLdv a d t o s := rfl
@[simp] theorem exec_stv {a : _} {v : _} {o : _} (s : State) : exec (.stv a v o) s = execStv a v o s := rfl
@[simp] theorem exec_stvm {a : _} {v : _} {p : _} {o : _} (s : State) : exec (.stvm a v p o) s = execStvm a v p o s := rfl
@[simp] theorem exec_ldvs {a : _} {d : _} {t : _} {k : _} (s : State) : exec (.ldvs a d t k) s = execLdvs a d t k s := rfl
@[simp] theorem exec_stvs {a : _} {v : _} {k : _} (s : State) : exec (.stvs a v k) s = execStvs a v k s := rfl
@[simp] theorem exec_lda {a : _} {d : _} {o : _} (s : State) : exec (.lda a d o) s = execLda a d o s := rfl
@[simp] theorem exec_sta {a : _} {v : _} {o : _} (s : State) : exec (.sta a v o) s = execSta a v o s := rfl
@[simp] theorem exec_staa {a : _} {v : _} {o : _} (s : State) : exec (.staa a v o) s = execStaa a v o s := rfl
@[simp] theorem exec_ldpair {a : _} {o : _} (s : State) : exec (.ldpair a o) s = execLdpair a o s := rfl
@[simp] theorem exec_stpair {a : _} {src : _} {o : _} (s : State) : exec (.stpair a src o) s = execStpair a src o s := rfl
@[simp] theorem exec_xbc {a : _} {t : _} (s : State) : exec (.xbc a t) s = execXbc a t s := rfl
@[simp] theorem exec_xins {a : _} {g : _} (s : State) : exec (.xins a g) s = execXins a g s := rfl
@[simp] theorem exec_xext {v : _} {e : _} (s : State) : exec (.xext v e) s = execXext v e s := rfl
@[simp] theorem exec_xsum {v : _} (s : State) : exec (.xsum v) s = execXsum v s := rfl
@[simp] theorem exec_xmax {v : _} (s : State) : exec (.xmax v) s = execXmax v s := rfl
@[simp] theorem exec_xmsk {v : _} {h : _} (s : State) : exec (.xmsk v h) s = execXmsk v h s := rfl
@[simp] theorem exec_pass {u : _} (s : State) : exec (.pass u) s = execPass u s := rfl
@[simp] theorem exec_vadd {u : _} {y : _} (s : State) : exec (.vadd u y) s = execVadd u y s := rfl
@[simp] theorem exec_vsub {u : _} {y : _} (s : State) : exec (.vsub u y) s = execVsub u y s := rfl
@[simp] theorem exec_vrsub {u : _} {y : _} (s : State) : exec (.vrsub u y) s = execVrsub u y s := rfl
@[simp] theorem exec_vmul {u : _} {y : _} (s : State) : exec (.vmul u y) s = execVmul u y s := rfl
@[simp] theorem exec_vmin {u : _} {y : _} (s : State) : exec (.vmin u y) s = execVmin u y s := rfl
@[simp] theorem exec_vmax {u : _} {y : _} (s : State) : exec (.vmax u y) s = execVmax u y s := rfl
@[simp] theorem exec_vabs {u : _} (s : State) : exec (.vabs u) s = execVabs u s := rfl
@[simp] theorem exec_vneg {u : _} (s : State) : exec (.vneg u) s = execVneg u s := rfl
@[simp] theorem exec_vand {u : _} {y : _} (s : State) : exec (.vand u y) s = execVand u y s := rfl
@[simp] theorem exec_vor {u : _} {y : _} (s : State) : exec (.vor u y) s = execVor u y s := rfl
@[simp] theorem exec_vxor {u : _} {y : _} (s : State) : exec (.vxor u y) s = execVxor u y s := rfl
@[simp] theorem exec_vshl {u : _} {y : _} (s : State) : exec (.vshl u y) s = execVshl u y s := rfl
@[simp] theorem exec_vshr {u : _} {y : _} (s : State) : exec (.vshr u y) s = execVshr u y s := rfl
@[simp] theorem exec_vsar {u : _} {y : _} (s : State) : exec (.vsar u y) s = execVsar u y s := rfl
@[simp] theorem exec_vceq {u : _} {y : _} (s : State) : exec (.vceq u y) s = execVceq u y s := rfl
@[simp] theorem exec_vclt {u : _} {y : _} (s : State) : exec (.vclt u y) s = execVclt u y s := rfl
@[simp] theorem exec_vcle {u : _} {y : _} (s : State) : exec (.vcle u y) s = execVcle u y s := rfl
@[simp] theorem exec_vsel {u : _} {y : _} (s : State) : exec (.vsel u y) s = execVsel u y s := rfl
@[simp] theorem exec_vcvt {u : _} {t : _} (s : State) : exec (.vcvt u t) s = execVcvt u t s := rfl
@[simp] theorem exec_vwid {u : _} {t : _} (s : State) : exec (.vwid u t) s = execVwid u t s := rfl
@[simp] theorem exec_vnar {u : _} {t : _} {p : _} (s : State) : exec (.vnar u t p) s = execVnar u t p s := rfl
@[simp] theorem exec_vperm {u : _} {y : _} (s : State) : exec (.vperm u y) s = execVperm u y s := rfl
@[simp] theorem exec_vrot {u : _} {y : _} (s : State) : exec (.vrot u y) s = execVrot u y s := rfl
@[simp] theorem exec_vbcast {u : _} {y : _} (s : State) : exec (.vbcast u y) s = execVbcast u y s := rfl
@[simp] theorem exec_vradd {u : _} (s : State) : exec (.vradd u) s = execVradd u s := rfl
@[simp] theorem exec_vrmax {u : _} (s : State) : exec (.vrmax u) s = execVrmax u s := rfl
@[simp] theorem exec_vrmin {u : _} (s : State) : exec (.vrmin u) s = execVrmin u s := rfl
@[simp] theorem exec_vscan {u : _} (s : State) : exec (.vscan u) s = execVscan u s := rfl
@[simp] theorem exec_vidx {u : _} {y : _} (s : State) : exec (.vidx u y) s = execVidx u y s := rfl
@[simp] theorem exec_vrcp {u : _} (s : State) : exec (.vrcp u) s = execVrcp u s := rfl
@[simp] theorem exec_vrsq {u : _} (s : State) : exec (.vrsq u) s = execVrsq u s := rfl
@[simp] theorem exec_vexp2 {u : _} (s : State) : exec (.vexp2 u) s = execVexp2 u s := rfl
@[simp] theorem exec_vlog2 {u : _} (s : State) : exec (.vlog2 u) s = execVlog2 u s := rfl
@[simp] theorem exec_vtanh {u : _} (s : State) : exec (.vtanh u) s = execVtanh u s := rfl
@[simp] theorem exec_vsigm {u : _} (s : State) : exec (.vsigm u) s = execVsigm u s := rfl
@[simp] theorem exec_vsqrt {u : _} (s : State) : exec (.vsqrt u) s = execVsqrt u s := rfl
@[simp] theorem exec_vscale {u : _} {y : _} (s : State) : exec (.vscale u y) s = execVscale u y s := rfl
@[simp] theorem exec_vscidx {u : _} {y : _} (s : State) : exec (.vscidx u y) s = execVscidx u y s := rfl
@[simp] theorem exec_vadds {u : _} {y : _} (s : State) : exec (.vadds u y) s = execVadds u y s := rfl
@[simp] theorem exec_vsubs {u : _} {y : _} (s : State) : exec (.vsubs u y) s = execVsubs u y s := rfl
@[simp] theorem exec_vmulh {u : _} {y : _} (s : State) : exec (.vmulh u y) s = execVmulh u y s := rfl
@[simp] theorem exec_vmulhn {u : _} {y : _} (s : State) : exec (.vmulhn u y) s = execVmulhn u y s := rfl
@[simp] theorem exec_mxgo {f : _} (s : State) : exec (.mxgo f) s = execMxgo f s := rfl
@[simp] theorem exec_mxstop (s : State) : exec .mxstop s = execMxstop s := rfl
@[simp] theorem exec_acalloc {n : _} {src : _} (s : State) : exec (.acalloc n src) s = execAcalloc n src s := rfl
@[simp] theorem exec_acfree {src : _} (s : State) : exec (.acfree src) s = execAcfree src s := rfl
@[simp] theorem exec_acband {f : _} (s : State) : exec (.acband f) s = execAcband f s := rfl
@[simp] theorem exec_aczero {a : _} {fmt : _} {n : _} (s : State) : exec (.aczero a fmt n) s = execAczero a fmt n s := rfl
@[simp] theorem exec_vgtab {a : _} (s : State) : exec (.vgtab a) s = execVgtab a s := rfl
@[simp] theorem exec_vggo {f : _} (s : State) : exec (.vggo f) s = execVggo f s := rfl
@[simp] theorem exec_vgstop (s : State) : exec .vgstop s = execVgstop s := rfl
@[simp] theorem exec_cpgo {h : _} {ctr : _} (s : State) : exec (.cpgo h ctr) s = execCpgo h ctr s := rfl
@[simp] theorem exec_cpstop {ctr : _} (s : State) : exec (.cpstop ctr) s = execCpstop ctr s := rfl
@[simp] theorem exec_cwait {ctr : _} {x : _} (s : State) : exec (.cwait ctr x) s = execCwait ctr x s := rfl
@[simp] theorem exec_cadd {ctr : _} {x : _} (s : State) : exec (.cadd ctr x) s = execCadd ctr x s := rfl
@[simp] theorem exec_cset {ctr : _} {x : _} {empty : _} (s : State) : exec (.cset ctr x empty) s = execCset ctr x empty s := rfl
@[simp] theorem exec_crd {ctr : _} {sel : _} (s : State) : exec (.crd ctr sel) s = execCrd ctr sel s := rfl
@[simp] theorem exec_rbind {h : _} {f : _} {e : _} {base : _} {n : _} (s : State) : exec (.rbind h f e base n) s = execRbind h f e base n s := rfl
@[simp] theorem exec_rwaitf {h : _} {k : _} (s : State) : exec (.rwaitf h k) s = execRwaitf h k s := rfl
@[simp] theorem exec_rwaite {h : _} {k : _} (s : State) : exec (.rwaite h k) s = execRwaite h k s := rfl
@[simp] theorem exec_radvp {h : _} {k : _} (s : State) : exec (.radvp h k) s = execRadvp h k s := rfl
@[simp] theorem exec_radvc {h : _} {k : _} (s : State) : exec (.radvc h k) s = execRadvc h k s := rfl
@[simp] theorem exec_fence {p : _} {q : _} {scope : _} (s : State) : exec (.fence p q scope) s = execFence p q scope s := rfl
@[simp] theorem exec_scld {f : _} (s : State) : exec (.scld f) s = execScld f s := rfl
@[simp] theorem exec_scst {f : _} (s : State) : exec (.scst f) s = execScst f s := rfl
@[simp] theorem exec_scswp {f : _} (s : State) : exec (.scswp f) s = execScswp f s := rfl
@[simp] theorem exec_scadd {f : _} (s : State) : exec (.scadd f) s = execScadd f s := rfl
@[simp] theorem exec_sccas {f : _} (s : State) : exec (.sccas f) s = execSccas f s := rfl
@[simp] theorem exec_snap {num : _} {job : _} (s : State) : exec (.snap num job) s = execSnap num job s := rfl
@[simp] theorem exec_snapq {sel : _} (s : State) : exec (.snapq sel) s = execSnapq sel s := rfl
@[simp] theorem exec_ckwait {num : _} (s : State) : exec (.ckwait num) s = execCkwait num s := rfl
@[simp] theorem exec_rollbk {num : _} {job : _} (s : State) : exec (.rollbk num job) s = execRollbk num job s := rfl
@[simp] theorem exec_katgo {fmt : _} {seed : _} (s : State) : exec (.katgo fmt seed) s = execKatgo fmt seed s := rfl
@[simp] theorem exec_katcmp (s : State) : exec .katcmp s = execKatcmp s := rfl
@[simp] theorem exec_tlaunch {a : _} {q : _} (s : State) : exec (.tlaunch a q) s = execTlaunch a q s := rfl
@[simp] theorem exec_sysrd {index : _} {clr : _} {ctx : _} (s : State) : exec (.sysrd index clr ctx) s = execSysrd index clr ctx s := rfl
@[simp] theorem exec_syswr {index : _} {src : _} {ctx : _} (s : State) : exec (.syswr index src ctx) s = execSyswr index src ctx s := rfl
@[simp] theorem exec_tlbinv {a : _} {scope : _} {kind : _} (s : State) : exec (.tlbinv a scope kind) s = execTlbinv a scope kind s := rfl
@[simp] theorem exec_codeinv {a : _} {scope : _} {all : _} (s : State) : exec (.codeinv a scope all) s = execCodeinv a scope all s := rfl
@[simp] theorem exec_zerob {target : _} {mask : _} {hbm : _} (s : State) : exec (.zerob target mask hbm) s = execZerob target mask hbm s := rfl
@[simp] theorem exec_capq {src : _} (s : State) : exec (.capq src) s = execCapq src s := rfl
@[simp] theorem exec_cmov {ch : _} {f : _} (s : State) : exec (.cmov ch f) s = execCmov ch f s := rfl
@[simp] theorem exec_czero {ch : _} {f : _} (s : State) : exec (.czero ch f) s = execCzero ch f s := rfl
@[simp] theorem exec_cconv {ch : _} {f : _} (s : State) : exec (.cconv ch f) s = execCconv ch f s := rfl
@[simp] theorem exec_cexp {ch : _} {f : _} (s : State) : exec (.cexp ch f) s = execCexp ch f s := rfl
@[simp] theorem exec_ccomp {ch : _} {f : _} (s : State) : exec (.ccomp ch f) s = execCcomp ch f s := rfl
@[simp] theorem exec_cdec {ch : _} {f : _} (s : State) : exec (.cdec ch f) s = execCdec ch f s := rfl
@[simp] theorem exec_cenc {ch : _} {f : _} (s : State) : exec (.cenc ch f) s = execCenc ch f s := rfl
@[simp] theorem exec_catom {ch : _} {f : _} (s : State) : exec (.catom ch f) s = execCatom ch f s := rfl
@[simp] theorem exec_cloop {ch : _} {f : _} (s : State) : exec (.cloop ch f) s = execCloop ch f s := rfl
@[simp] theorem exec_cif {ch : _} {f : _} (s : State) : exec (.cif ch f) s = execCif ch f s := rfl
@[simp] theorem exec_ccw {ch : _} {f : _} (s : State) : exec (.ccw ch f) s = execCcw ch f s := rfl
@[simp] theorem exec_ccwSatisfied {ch : _} (s : State) : exec (.ccwSatisfied ch) s = execCcwSatisfied ch s := rfl
@[simp] theorem exec_csig {ch : _} {f : _} (s : State) : exec (.csig ch f) s = execCsig ch f s := rfl
@[simp] theorem exec_clink {ch : _} {f : _} (s : State) : exec (.clink ch f) s = execClink ch f s := rfl
@[simp] theorem exec_cend {ch : _} {f : _} (s : State) : exec (.cend ch f) s = execCend ch f s := rfl
@[simp] theorem exec_copyChunk {ch : _} (s : State) : exec (.copyChunk ch) s = execCopyChunk ch s := rfl
@[simp] theorem exec_resultLanding {x : _} (s : State) : exec (.resultLanding x) s = execResultLanding x s := rfl
@[simp] theorem exec_segmentFetch {x : _} (s : State) : exec (.segmentFetch x) s = execSegmentFetch x s := rfl
@[simp] theorem exec_segmentPrefetch {x : _} (s : State) : exec (.segmentPrefetch x) s = execSegmentPrefetch x s := rfl
@[simp] theorem exec_pageResolution {x : _} (s : State) : exec (.pageResolution x) s = execPageResolution x s := rfl
@[simp] theorem exec_waitConditionMet {x : _} (s : State) : exec (.waitConditionMet x) s = execWaitConditionMet x s := rfl
@[simp] theorem exec_fenceComplete {x : _} (s : State) : exec (.fenceComplete x) s = execFenceComplete x s := rfl
@[simp] theorem exec_realnEnd {x : _} (s : State) : exec (.realnEnd x) s = execRealnEnd x s := rfl
@[simp] theorem exec_scWheelSlot {x : _} (s : State) : exec (.scWheelSlot x) s = execScWheelSlot x s := rfl
@[simp] theorem exec_heldStorePerform {x : _} (s : State) : exec (.heldStorePerform x) s = execHeldStorePerform x s := rfl
@[simp] theorem exec_crossDieAccess {id : _} (s : State) : exec (.crossDieAccess id) s = execCrossDieAccess id s := rfl
@[simp] theorem exec_crossDieDataArrival {x : _} (s : State) : exec (.crossDieDataArrival x) s = execCrossDieDataArrival x s := rfl
@[simp] theorem exec_tlbinvComplete {x : _} (s : State) : exec (.tlbinvComplete x) s = execTlbinvComplete x s := rfl
@[simp] theorem exec_codeinvComplete {x : _} (s : State) : exec (.codeinvComplete x) s = execCodeinvComplete x s := rfl
@[simp] theorem exec_zerobComplete {x : _} (s : State) : exec (.zerobComplete x) s = execZerobComplete x s := rfl
@[simp] theorem exec_remdataReturn {x : _} (s : State) : exec (.remdataReturn x) s = execRemdataReturn x s := rfl
@[simp] theorem exec_nestStepLanding {x : _} (s : State) : exec (.nestStepLanding x) s = execNestStepLanding x s := rfl
@[simp] theorem exec_nestCompletion {x : _} (s : State) : exec (.nestCompletion x) s = execNestCompletion x s := rfl
@[simp] theorem exec_katCompletion {x : _} (s : State) : exec (.katCompletion x) s = execKatCompletion x s := rfl
@[simp] theorem exec_acfreeZeroed {t : _} (s : State) : exec (.acfreeZeroed t) s = execAcfreeZeroed t s := rfl
@[simp] theorem exec_vgCompletion {t : _} (s : State) : exec (.vgCompletion t) s = execVgCompletion t s := rfl
@[simp] theorem exec_vgFault {t : _} (s : State) : exec (.vgFault t) s = execVgFault t s := rfl
@[simp] theorem exec_arbitrationDecision {g : _} (s : State) : exec (.arbitrationDecision g) s = execArbitrationDecision g s := rfl
@[simp] theorem exec_runOverrun {task : _} (s : State) : exec (.runOverrun task) s = execRunOverrun task s := rfl
@[simp] theorem exec_lqdb {q : _} (s : State) : exec (.lqdb q) s = execLqdb q s := rfl
@[simp] theorem exec_launchQueuePoll {q : _} (s : State) : exec (.launchQueuePoll q) s = execLaunchQueuePoll q s := rfl
@[simp] theorem exec_lqctl {q : _} {v : _} (s : State) : exec (.lqctl q v) s = execLqctl q v s := rfl
@[simp] theorem exec_tlaunchAccept {x : _} (s : State) : exec (.tlaunchAccept x) s = execTlaunchAccept x s := rfl
@[simp] theorem exec_recordReady {q : _} {j : _} (s : State) : exec (.recordReady q j) s = execRecordReady q j s := rfl
@[simp] theorem exec_placementBind {q : _} {j : _} {g : _} (s : State) : exec (.placementBind q j g) s = execPlacementBind q j g s := rfl
@[simp] theorem exec_urgentLaunch {q : _} {j : _} {g : _} (s : State) : exec (.urgentLaunch q j g) s = execUrgentLaunch q j g s := rfl
@[simp] theorem exec_gangStart {task : _} (s : State) : exec (.gangStart task) s = execGangStart task s := rfl
@[simp] theorem exec_taskEnd {task : _} (s : State) : exec (.taskEnd task) s = execTaskEnd task s := rfl
@[simp] theorem exec_preq {v : _} {host : _} (s : State) : exec (.preq v host) s = execPreq v host s := rfl
@[simp] theorem exec_gangResume {task : _} (s : State) : exec (.gangResume task) s = execGangResume task s := rfl
@[simp] theorem exec_trapDelivery {x : _} (s : State) : exec (.trapDelivery x) s = execTrapDelivery x s := rfl
@[simp] theorem exec_breakpoint {x : _} (s : State) : exec (.breakpoint x) s = execBreakpoint x s := rfl
@[simp] theorem exec_tend {x : _} {v : _} (s : State) : exec (.tend x v) s = execTend x v s := rfl
@[simp] theorem exec_start {x : _} {v : _} (s : State) : exec (.start x v) s = execStart x v s := rfl
@[simp] theorem exec_remdataWrite {x : _} {v : _} (s : State) : exec (.remdataWrite x v) s = execRemdataWrite x v s := rfl
@[simp] theorem exec_remdataRead {x : _} (s : State) : exec (.remdataRead x) s = execRemdataRead x s := rfl
@[simp] theorem exec_cpresumeRetry {t : _} {ctr : _} (s : State) : exec (.cpresumeRetry t ctr) s = execCpresumeRetry t ctr s := rfl
@[simp] theorem exec_cpresumeEnd {t : _} {ctr : _} (s : State) : exec (.cpresumeEnd t ctr) s = execCpresumeEnd t ctr s := rfl
@[simp] theorem exec_hddata {x : _} {ctx : _} {v : _} (s : State) : exec (.hddata x ctx v) s = execHddata x ctx v s := rfl
@[simp] theorem exec_tickcfg {v : _} (s : State) : exec (.tickcfg v) s = execTickcfg v s := rfl
@[simp] theorem exec_tickPeriodSwitch (s : State) : exec .tickPeriodSwitch s = execTickPeriodSwitch s := rfl
@[simp] theorem exec_snapcfg {v : _} (s : State) : exec (.snapcfg v) s = execSnapcfg v s := rfl
@[simp] theorem exec_registerWrite {r : _} {v : _} (s : State) : exec (.registerWrite r v) s = execRegisterWrite r v s := rfl
@[simp] theorem exec_tickstop (s : State) : exec .tickstop s = execTickstop s := rfl
@[simp] theorem exec_tickstopRelease (s : State) : exec .tickstopRelease s = execTickstopRelease s := rfl
@[simp] theorem exec_telemetryLatch (s : State) : exec .telemetryLatch s = execTelemetryLatch s := rfl
@[simp] theorem exec_traceSample {x : _} (s : State) : exec (.traceSample x) s = execTraceSample x s := rfl
@[simp] theorem exec_pageWalk {x : _} {ctx : _} {va : _} {kd : _} (s : State) : exec (.pageWalk x ctx va kd) s = execPageWalk x ctx va kd s := rfl
@[simp] theorem exec_snapshotCut (s : State) : exec .snapshotCut s = execSnapshotCut s := rfl
@[simp] theorem exec_settleEnd (s : State) : exec .settleEnd s = execSettleEnd s := rfl
@[simp] theorem exec_snapshotResume (s : State) : exec .snapshotResume s = execSnapshotResume s := rfl
@[simp] theorem exec_bankStreamOut {bank : _} (s : State) : exec (.bankStreamOut bank) s = execBankStreamOut bank s := rfl
@[simp] theorem exec_heldPageCopy {va : _} (s : State) : exec (.heldPageCopy va) s = execHeldPageCopy va s := rfl
@[simp] theorem exec_marker {f : _} (s : State) : exec (.marker f) s = execMarker f s := rfl
@[simp] theorem exec_locallyComplete (s : State) : exec .locallyComplete s = execLocallyComplete s := rfl
@[simp] theorem exec_done {f : _} (s : State) : exec (.done f) s = execDone f s := rfl
@[simp] theorem exec_commit {f : _} (s : State) : exec (.commit f) s = execCommit f s := rfl
@[simp] theorem exec_snapshotAbort {reason : _} (s : State) : exec (.snapshotAbort reason) s = execSnapshotAbort reason s := rfl
@[simp] theorem exec_snapshotTimeLimit (s : State) : exec .snapshotTimeLimit s = execSnapshotTimeLimit s := rfl
@[simp] theorem exec_abortFlit {f : _} (s : State) : exec (.abortFlit f) s = execAbortFlit f s := rfl
@[simp] theorem exec_rollbackFlit {f : _} {intact : _} (s : State) : exec (.rollbackFlit f intact) s = execRollbackFlit f intact s := rfl
@[simp] theorem exec_rollbackResume {task : _} (s : State) : exec (.rollbackResume task) s = execRollbackResume task s := rfl
@[simp] theorem exec_fabricMessage {m : _} (s : State) : exec (.fabricMessage m) s = execFabricMessage m s := rfl
@[simp] theorem exec_flitReceive {port : _} {f : _} {crcGood : _} (s : State) : exec (.flitReceive port f crcGood) s = execFlitReceive port f crcGood s := rfl
@[simp] theorem exec_nak {port : _} {ack : _} (s : State) : exec (.nak port ack) s = execNak port ack s := rfl
@[simp] theorem exec_linkDown {port : _} (s : State) : exec (.linkDown port) s = execLinkDown port s := rfl
@[simp] theorem exec_stopGo {port : _} {stops : _} (s : State) : exec (.stopGo port stops) s = execStopGo port stops s := rfl
@[simp] theorem exec_timeFlit {port : _} {grandMaster : _} (s : State) : exec (.timeFlit port grandMaster) s = execTimeFlit port grandMaster s := rfl
@[simp] theorem exec_laneRepair {boundary : _} (s : State) : exec (.laneRepair boundary) s = execLaneRepair boundary s := rfl
@[simp] theorem exec_hostWrite {h : _} {data : _} (s : State) : exec (.hostWrite h data) s = execHostWrite h data s := rfl
@[simp] theorem exec_hostRead {h : _} {n : _} (s : State) : exec (.hostRead h n) s = execHostRead h n s := rfl
@[simp] theorem exec_bindKey {f : _} (s : State) : exec (.bindKey f) s = execBindKey f s := rfl
@[simp] theorem exec_tdiLeaveRun {tdi : _} (s : State) : exec (.tdiLeaveRun tdi) s = execTdiLeaveRun tdi s := rfl
@[simp] theorem exec_spdmRequest {index : _} (s : State) : exec (.spdmRequest index) s = execSpdmRequest index s := rfl
@[simp] theorem exec_pldmRequest {sensor : _} (s : State) : exec (.pldmRequest sensor) s = execPldmRequest sensor s := rfl
@[simp] theorem exec_firmwareUpdate {f : _} (s : State) : exec (.firmwareUpdate f) s = execFirmwareUpdate f s := rfl
@[simp] theorem exec_activateFirmware (s : State) : exec .activateFirmware s = execActivateFirmware s := rfl
@[simp] theorem exec_serviceBankSwitch {die : _} (s : State) : exec (.serviceBankSwitch die) s = execServiceBankSwitch die s := rfl
@[simp] theorem exec_translate {die : _} {slot : _} {img : _} (s : State) : exec (.translate die slot img) s = execTranslate die slot img s := rfl
@[simp] theorem exec_revert {die : _} {slot : _} (s : State) : exec (.revert die slot) s = execRevert die slot s := rfl
@[simp] theorem exec_profileGuidedInstall {va : _} {img : _} (s : State) : exec (.profileGuidedInstall va img) s = execProfileGuidedInstall va img s := rfl
@[simp] theorem exec_tileRetirement {die : _} {tile : _} {spare : _} (s : State) : exec (.tileRetirement die tile spare) s = execTileRetirement die tile spare s := rfl
@[simp] theorem exec_copyEngineReset {t : _} (s : State) : exec (.copyEngineReset t) s = execCopyEngineReset t s := rfl
@[simp] theorem exec_mxeReset {t : _} (s : State) : exec (.mxeReset t) s = execMxeReset t s := rfl
@[simp] theorem exec_groupedUnitReset {t : _} (s : State) : exec (.groupedUnitReset t) s = execGroupedUnitReset t s := rfl
@[simp] theorem exec_sequencerReset {x : _} (s : State) : exec (.sequencerReset x) s = execSequencerReset x s := rfl
@[simp] theorem exec_tileReset {t : _} (s : State) : exec (.tileReset t) s = execTileReset t s := rfl
@[simp] theorem exec_dieReset {d : _} (s : State) : exec (.dieReset d) s = execDieReset d s := rfl
@[simp] theorem exec_functionLevelReset (s : State) : exec .functionLevelReset s = execFunctionLevelReset s := rfl
@[simp] theorem exec_coldReset {c : _} (s : State) : exec (.coldReset c) s = execColdReset c s := rfl
@[simp] theorem exec_powerOff (s : State) : exec .powerOff s = execPowerOff s := rfl
@[simp] theorem exec_idleBundle (s : State) : exec .idleBundle s = execIdleBundle s := rfl
@[simp] theorem exec_backgroundCapture {va : _} (s : State) : exec (.backgroundCapture va) s = execBackgroundCapture va s := rfl
@[simp] theorem exec_linkTraining {port : _} (s : State) : exec (.linkTraining port) s = execLinkTraining port s := rfl
@[simp] theorem exec_tdispRequest {tdi : _} {job : _} {state : _} {stream : _} (s : State) : exec (.tdispRequest tdi job state stream) s = execTdispRequest tdi job state stream s := rfl

end Sys2Proof.Machine
end

