-- ==== Sys2Proof/Laws/State.lean ====
section
/-! SUPPORT. What each update of the state leaves in each of its fields: one lemma for each. -/

namespace Sys2Proof.Machine

/-! ### Replacing a sequencer -/

@[simp] theorem State.setSeq_gclk (s : State) (x : Nat) (q : Seq) : (s.setSeq x q).gclk = s.gclk := rfl
@[simp] theorem State.setSeq_phase (s : State) (x : Nat) (q : Seq) : (s.setSeq x q).phase = s.phase := rfl
@[simp] theorem State.setSeq_agenda (s : State) (x : Nat) (q : Seq) : (s.setSeq x q).agenda = s.agenda := rfl
@[simp] theorem State.setSeq_env (s : State) (x : Nat) (q : Seq) : (s.setSeq x q).env = s.env := rfl
@[simp] theorem State.setSeq_free (s : State) (x : Nat) (q : Seq) : (s.setSeq x q).free = s.free := rfl
@[simp] theorem State.setSeq_fresh (s : State) (x : Nat) (q : Seq) : (s.setSeq x q).fresh = s.fresh := rfl
@[simp] theorem State.setSeq_bundle (s : State) (x : Nat) (q : Seq) : (s.setSeq x q).bundle = s.bundle := rfl
@[simp] theorem State.setSeq_seqs (s : State) (x : Nat) (q : Seq) : (s.setSeq x q).seqs = tput s.seqs x q := rfl
@[simp] theorem State.setSeq_ctxs (s : State) (x : Nat) (q : Seq) : (s.setSeq x q).ctxs = s.ctxs := rfl
@[simp] theorem State.setSeq_tiles (s : State) (x : Nat) (q : Seq) : (s.setSeq x q).tiles = s.tiles := rfl
@[simp] theorem State.setSeq_ttiles (s : State) (x : Nat) (q : Seq) : (s.setSeq x q).ttiles = s.ttiles := rfl
@[simp] theorem State.setSeq_pool (s : State) (x : Nat) (q : Seq) : (s.setSeq x q).pool = s.pool := rfl
@[simp] theorem State.setSeq_poolGran (s : State) (x : Nat) (q : Seq) : (s.setSeq x q).poolGran = s.poolGran := rfl
@[simp] theorem State.setSeq_hbm (s : State) (x : Nat) (q : Seq) : (s.setSeq x q).hbm = s.hbm := rfl
@[simp] theorem State.setSeq_hbmGran (s : State) (x : Nat) (q : Seq) : (s.setSeq x q).hbmGran = s.hbmGran := rfl
@[simp] theorem State.setSeq_hbmTag (s : State) (x : Nat) (q : Seq) : (s.setSeq x q).hbmTag = s.hbmTag := rfl
@[simp] theorem State.setSeq_zeroing (s : State) (x : Nat) (q : Seq) : (s.setSeq x q).zeroing = s.zeroing := rfl
@[simp] theorem State.setSeq_accs (s : State) (x : Nat) (q : Seq) : (s.setSeq x q).accs = s.accs := rfl
@[simp] theorem State.setSeq_books (s : State) (x : Nat) (q : Seq) : (s.setSeq x q).books = s.books := rfl
@[simp] theorem State.setSeq_parked (s : State) (x : Nat) (q : Seq) : (s.setSeq x q).parked = s.parked := rfl
@[simp] theorem State.setSeq_pending (s : State) (x : Nat) (q : Seq) : (s.setSeq x q).pending = s.pending := rfl
@[simp] theorem State.setSeq_flagsDue (s : State) (x : Nat) (q : Seq) : (s.setSeq x q).flagsDue = s.flagsDue := rfl
@[simp] theorem State.setSeq_tails (s : State) (x : Nat) (q : Seq) : (s.setSeq x q).tails = s.tails := rfl
@[simp] theorem State.setSeq_chains (s : State) (x : Nat) (q : Seq) : (s.setSeq x q).chains = s.chains := rfl
@[simp] theorem State.setSeq_tasks (s : State) (x : Nat) (q : Seq) : (s.setSeq x q).tasks = s.tasks := rfl
@[simp] theorem State.setSeq_lqs (s : State) (x : Nat) (q : Seq) : (s.setSeq x q).lqs = s.lqs := rfl
@[simp] theorem State.setSeq_schedcfg (s : State) (x : Nat) (q : Seq) : (s.setSeq x q).schedcfg = s.schedcfg := rfl
@[simp] theorem State.setSeq_tickK (s : State) (x : Nat) (q : Seq) : (s.setSeq x q).tickK = s.tickK := rfl
@[simp] theorem State.setSeq_tickNext (s : State) (x : Nat) (q : Seq) : (s.setSeq x q).tickNext = s.tickNext := rfl
@[simp] theorem State.setSeq_health (s : State) (x : Nat) (q : Seq) : (s.setSeq x q).health = s.health := rfl
@[simp] theorem State.setSeq_preq (s : State) (x : Nat) (q : Seq) : (s.setSeq x q).preq = s.preq := rfl
@[simp] theorem State.setSeq_tickstop (s : State) (x : Nat) (q : Seq) : (s.setSeq x q).tickstop = s.tickstop := rfl
@[simp] theorem State.setSeq_stopped (s : State) (x : Nat) (q : Seq) : (s.setSeq x q).stopped = s.stopped := rfl
@[simp] theorem State.setSeq_power (s : State) (x : Nat) (q : Seq) : (s.setSeq x q).power = s.power := rfl
@[simp] theorem State.setSeq_trcctl (s : State) (x : Nat) (q : Seq) : (s.setSeq x q).trcctl = s.trcctl := rfl
@[simp] theorem State.setSeq_trcPos (s : State) (x : Nat) (q : Seq) : (s.setSeq x q).trcPos = s.trcPos := rfl
@[simp] theorem State.setSeq_ftbase (s : State) (x : Nat) (q : Seq) : (s.setSeq x q).ftbase = s.ftbase := rfl
@[simp] theorem State.setSeq_tlb (s : State) (x : Nat) (q : Seq) : (s.setSeq x q).tlb = s.tlb := rfl
@[simp] theorem State.setSeq_lanes (s : State) (x : Nat) (q : Seq) : (s.setSeq x q).lanes = s.lanes := rfl
@[simp] theorem State.setSeq_half (s : State) (x : Nat) (q : Seq) : (s.setSeq x q).half = s.half := rfl
@[simp] theorem State.setSeq_snap (s : State) (x : Nat) (q : Seq) : (s.setSeq x q).snap = s.snap := rfl
@[simp] theorem State.setSeq_pkg (s : State) (x : Nat) (q : Seq) : (s.setSeq x q).pkg = s.pkg := rfl
@[simp] theorem State.setSeq_links (s : State) (x : Nat) (q : Seq) : (s.setSeq x q).links = s.links := rfl
@[simp] theorem State.setSeq_outbox (s : State) (x : Nat) (q : Seq) : (s.setSeq x q).outbox = s.outbox := rfl
@[simp] theorem State.setSeq_partials (s : State) (x : Nat) (q : Seq) : (s.setSeq x q).partials = s.partials := rfl
@[simp] theorem State.setSeq_telcfg (s : State) (x : Nat) (q : Seq) : (s.setSeq x q).telcfg = s.telcfg := rfl
@[simp] theorem State.setSeq_telDropped (s : State) (x : Nat) (q : Seq) : (s.setSeq x q).telDropped = s.telDropped := rfl
@[simp] theorem State.setSeq_telLast (s : State) (x : Nat) (q : Seq) : (s.setSeq x q).telLast = s.telLast := rfl
@[simp] theorem State.setSeq_resetctl (s : State) (x : Nat) (q : Seq) : (s.setSeq x q).resetctl = s.resetctl := rfl
@[simp] theorem State.setSeq_resetWaits (s : State) (x : Nat) (q : Seq) : (s.setSeq x q).resetWaits = s.resetWaits := rfl
@[simp] theorem State.setSeq_gcm (s : State) (x : Nat) (q : Seq) : (s.setSeq x q).gcm = s.gcm := rfl
@[simp] theorem State.setSeq_xts (s : State) (x : Nat) (q : Seq) : (s.setSeq x q).xts = s.xts := rfl
@[simp] theorem State.setSeq_tdis (s : State) (x : Nat) (q : Seq) : (s.setSeq x q).tdis = s.tdis := rfl
@[simp] theorem State.setSeq_fwActive (s : State) (x : Nat) (q : Seq) : (s.setSeq x q).fwActive = s.fwActive := rfl
@[simp] theorem State.setSeq_fwInactive (s : State) (x : Nat) (q : Seq) : (s.setSeq x q).fwInactive = s.fwInactive := rfl
@[simp] theorem State.setSeq_fwSwitch (s : State) (x : Nat) (q : Seq) : (s.setSeq x q).fwSwitch = s.fwSwitch := rfl
@[simp] theorem State.setSeq_fwPending (s : State) (x : Nat) (q : Seq) : (s.setSeq x q).fwPending = s.fwPending := rfl
@[simp] theorem State.setSeq_resets (s : State) (x : Nat) (q : Seq) : (s.setSeq x q).resets = s.resets := rfl
@[simp] theorem State.setSeq_laneUntil (s : State) (x : Nat) (q : Seq) : (s.setSeq x q).laneUntil = s.laneUntil := rfl
@[simp] theorem State.setSeq_errata (s : State) (x : Nat) (q : Seq) : (s.setSeq x q).errata = s.errata := rfl
@[simp] theorem State.setSeq_cfg (s : State) (x : Nat) (q : Seq) : (s.setSeq x q).cfg = s.cfg := rfl
@[simp] theorem State.setSeq_cache (s : State) (x : Nat) (q : Seq) : (s.setSeq x q).cache = s.cache := rfl
@[simp] theorem State.setSeq_installs (s : State) (x : Nat) (q : Seq) : (s.setSeq x q).installs = s.installs := rfl
@[simp] theorem State.setSeq_replies (s : State) (x : Nat) (q : Seq) : (s.setSeq x q).replies = s.replies := rfl
@[simp] theorem State.setSeq_tlps (s : State) (x : Nat) (q : Seq) : (s.setSeq x q).tlps = s.tlps := rfl
@[simp] theorem State.setSeq_pcieIn (s : State) (x : Nat) (q : Seq) : (s.setSeq x q).pcieIn = s.pcieIn := rfl
@[simp] theorem State.setSeq_pcieOut (s : State) (x : Nat) (q : Seq) : (s.setSeq x q).pcieOut = s.pcieOut := rfl
@[simp] theorem State.setSeq_hbmRead (s : State) (x : Nat) (q : Seq) : (s.setSeq x q).hbmRead = s.hbmRead := rfl
@[simp] theorem State.setSeq_hbmWritten (s : State) (x : Nat) (q : Seq) : (s.setSeq x q).hbmWritten = s.hbmWritten := rfl
@[simp] theorem State.setSeq_ucieRetries (s : State) (x : Nat) (q : Seq) : (s.setSeq x q).ucieRetries = s.ucieRetries := rfl
@[simp] theorem State.setSeq_trim (s : State) (x : Nat) (q : Seq) : (s.setSeq x q).trim = s.trim := rfl

/-! ### Changing a sequencer -/

@[simp] theorem State.modSeq_gclk (s : State) (x : Nat) (f : Seq → Seq) : (s.modSeq x f).gclk = s.gclk := rfl
@[simp] theorem State.modSeq_phase (s : State) (x : Nat) (f : Seq → Seq) : (s.modSeq x f).phase = s.phase := rfl
@[simp] theorem State.modSeq_agenda (s : State) (x : Nat) (f : Seq → Seq) : (s.modSeq x f).agenda = s.agenda := rfl
@[simp] theorem State.modSeq_env (s : State) (x : Nat) (f : Seq → Seq) : (s.modSeq x f).env = s.env := rfl
@[simp] theorem State.modSeq_free (s : State) (x : Nat) (f : Seq → Seq) : (s.modSeq x f).free = s.free := rfl
@[simp] theorem State.modSeq_fresh (s : State) (x : Nat) (f : Seq → Seq) : (s.modSeq x f).fresh = s.fresh := rfl
@[simp] theorem State.modSeq_bundle (s : State) (x : Nat) (f : Seq → Seq) : (s.modSeq x f).bundle = s.bundle := rfl
@[simp] theorem State.modSeq_seqs (s : State) (x : Nat) (f : Seq → Seq) : (s.modSeq x f).seqs = tput s.seqs x (f (s.seq x)) := rfl
@[simp] theorem State.modSeq_ctxs (s : State) (x : Nat) (f : Seq → Seq) : (s.modSeq x f).ctxs = s.ctxs := rfl
@[simp] theorem State.modSeq_tiles (s : State) (x : Nat) (f : Seq → Seq) : (s.modSeq x f).tiles = s.tiles := rfl
@[simp] theorem State.modSeq_ttiles (s : State) (x : Nat) (f : Seq → Seq) : (s.modSeq x f).ttiles = s.ttiles := rfl
@[simp] theorem State.modSeq_pool (s : State) (x : Nat) (f : Seq → Seq) : (s.modSeq x f).pool = s.pool := rfl
@[simp] theorem State.modSeq_poolGran (s : State) (x : Nat) (f : Seq → Seq) : (s.modSeq x f).poolGran = s.poolGran := rfl
@[simp] theorem State.modSeq_hbm (s : State) (x : Nat) (f : Seq → Seq) : (s.modSeq x f).hbm = s.hbm := rfl
@[simp] theorem State.modSeq_hbmGran (s : State) (x : Nat) (f : Seq → Seq) : (s.modSeq x f).hbmGran = s.hbmGran := rfl
@[simp] theorem State.modSeq_hbmTag (s : State) (x : Nat) (f : Seq → Seq) : (s.modSeq x f).hbmTag = s.hbmTag := rfl
@[simp] theorem State.modSeq_zeroing (s : State) (x : Nat) (f : Seq → Seq) : (s.modSeq x f).zeroing = s.zeroing := rfl
@[simp] theorem State.modSeq_accs (s : State) (x : Nat) (f : Seq → Seq) : (s.modSeq x f).accs = s.accs := rfl
@[simp] theorem State.modSeq_books (s : State) (x : Nat) (f : Seq → Seq) : (s.modSeq x f).books = s.books := rfl
@[simp] theorem State.modSeq_parked (s : State) (x : Nat) (f : Seq → Seq) : (s.modSeq x f).parked = s.parked := rfl
@[simp] theorem State.modSeq_pending (s : State) (x : Nat) (f : Seq → Seq) : (s.modSeq x f).pending = s.pending := rfl
@[simp] theorem State.modSeq_flagsDue (s : State) (x : Nat) (f : Seq → Seq) : (s.modSeq x f).flagsDue = s.flagsDue := rfl
@[simp] theorem State.modSeq_tails (s : State) (x : Nat) (f : Seq → Seq) : (s.modSeq x f).tails = s.tails := rfl
@[simp] theorem State.modSeq_chains (s : State) (x : Nat) (f : Seq → Seq) : (s.modSeq x f).chains = s.chains := rfl
@[simp] theorem State.modSeq_tasks (s : State) (x : Nat) (f : Seq → Seq) : (s.modSeq x f).tasks = s.tasks := rfl
@[simp] theorem State.modSeq_lqs (s : State) (x : Nat) (f : Seq → Seq) : (s.modSeq x f).lqs = s.lqs := rfl
@[simp] theorem State.modSeq_schedcfg (s : State) (x : Nat) (f : Seq → Seq) : (s.modSeq x f).schedcfg = s.schedcfg := rfl
@[simp] theorem State.modSeq_tickK (s : State) (x : Nat) (f : Seq → Seq) : (s.modSeq x f).tickK = s.tickK := rfl
@[simp] theorem State.modSeq_tickNext (s : State) (x : Nat) (f : Seq → Seq) : (s.modSeq x f).tickNext = s.tickNext := rfl
@[simp] theorem State.modSeq_health (s : State) (x : Nat) (f : Seq → Seq) : (s.modSeq x f).health = s.health := rfl
@[simp] theorem State.modSeq_preq (s : State) (x : Nat) (f : Seq → Seq) : (s.modSeq x f).preq = s.preq := rfl
@[simp] theorem State.modSeq_tickstop (s : State) (x : Nat) (f : Seq → Seq) : (s.modSeq x f).tickstop = s.tickstop := rfl
@[simp] theorem State.modSeq_stopped (s : State) (x : Nat) (f : Seq → Seq) : (s.modSeq x f).stopped = s.stopped := rfl
@[simp] theorem State.modSeq_power (s : State) (x : Nat) (f : Seq → Seq) : (s.modSeq x f).power = s.power := rfl
@[simp] theorem State.modSeq_trcctl (s : State) (x : Nat) (f : Seq → Seq) : (s.modSeq x f).trcctl = s.trcctl := rfl
@[simp] theorem State.modSeq_trcPos (s : State) (x : Nat) (f : Seq → Seq) : (s.modSeq x f).trcPos = s.trcPos := rfl
@[simp] theorem State.modSeq_ftbase (s : State) (x : Nat) (f : Seq → Seq) : (s.modSeq x f).ftbase = s.ftbase := rfl
@[simp] theorem State.modSeq_tlb (s : State) (x : Nat) (f : Seq → Seq) : (s.modSeq x f).tlb = s.tlb := rfl
@[simp] theorem State.modSeq_lanes (s : State) (x : Nat) (f : Seq → Seq) : (s.modSeq x f).lanes = s.lanes := rfl
@[simp] theorem State.modSeq_half (s : State) (x : Nat) (f : Seq → Seq) : (s.modSeq x f).half = s.half := rfl
@[simp] theorem State.modSeq_snap (s : State) (x : Nat) (f : Seq → Seq) : (s.modSeq x f).snap = s.snap := rfl
@[simp] theorem State.modSeq_pkg (s : State) (x : Nat) (f : Seq → Seq) : (s.modSeq x f).pkg = s.pkg := rfl
@[simp] theorem State.modSeq_links (s : State) (x : Nat) (f : Seq → Seq) : (s.modSeq x f).links = s.links := rfl
@[simp] theorem State.modSeq_outbox (s : State) (x : Nat) (f : Seq → Seq) : (s.modSeq x f).outbox = s.outbox := rfl
@[simp] theorem State.modSeq_partials (s : State) (x : Nat) (f : Seq → Seq) : (s.modSeq x f).partials = s.partials := rfl
@[simp] theorem State.modSeq_telcfg (s : State) (x : Nat) (f : Seq → Seq) : (s.modSeq x f).telcfg = s.telcfg := rfl
@[simp] theorem State.modSeq_telDropped (s : State) (x : Nat) (f : Seq → Seq) : (s.modSeq x f).telDropped = s.telDropped := rfl
@[simp] theorem State.modSeq_telLast (s : State) (x : Nat) (f : Seq → Seq) : (s.modSeq x f).telLast = s.telLast := rfl
@[simp] theorem State.modSeq_resetctl (s : State) (x : Nat) (f : Seq → Seq) : (s.modSeq x f).resetctl = s.resetctl := rfl
@[simp] theorem State.modSeq_resetWaits (s : State) (x : Nat) (f : Seq → Seq) : (s.modSeq x f).resetWaits = s.resetWaits := rfl
@[simp] theorem State.modSeq_gcm (s : State) (x : Nat) (f : Seq → Seq) : (s.modSeq x f).gcm = s.gcm := rfl
@[simp] theorem State.modSeq_xts (s : State) (x : Nat) (f : Seq → Seq) : (s.modSeq x f).xts = s.xts := rfl
@[simp] theorem State.modSeq_tdis (s : State) (x : Nat) (f : Seq → Seq) : (s.modSeq x f).tdis = s.tdis := rfl
@[simp] theorem State.modSeq_fwActive (s : State) (x : Nat) (f : Seq → Seq) : (s.modSeq x f).fwActive = s.fwActive := rfl
@[simp] theorem State.modSeq_fwInactive (s : State) (x : Nat) (f : Seq → Seq) : (s.modSeq x f).fwInactive = s.fwInactive := rfl
@[simp] theorem State.modSeq_fwSwitch (s : State) (x : Nat) (f : Seq → Seq) : (s.modSeq x f).fwSwitch = s.fwSwitch := rfl
@[simp] theorem State.modSeq_fwPending (s : State) (x : Nat) (f : Seq → Seq) : (s.modSeq x f).fwPending = s.fwPending := rfl
@[simp] theorem State.modSeq_resets (s : State) (x : Nat) (f : Seq → Seq) : (s.modSeq x f).resets = s.resets := rfl
@[simp] theorem State.modSeq_laneUntil (s : State) (x : Nat) (f : Seq → Seq) : (s.modSeq x f).laneUntil = s.laneUntil := rfl
@[simp] theorem State.modSeq_errata (s : State) (x : Nat) (f : Seq → Seq) : (s.modSeq x f).errata = s.errata := rfl
@[simp] theorem State.modSeq_cfg (s : State) (x : Nat) (f : Seq → Seq) : (s.modSeq x f).cfg = s.cfg := rfl
@[simp] theorem State.modSeq_cache (s : State) (x : Nat) (f : Seq → Seq) : (s.modSeq x f).cache = s.cache := rfl
@[simp] theorem State.modSeq_installs (s : State) (x : Nat) (f : Seq → Seq) : (s.modSeq x f).installs = s.installs := rfl
@[simp] theorem State.modSeq_replies (s : State) (x : Nat) (f : Seq → Seq) : (s.modSeq x f).replies = s.replies := rfl
@[simp] theorem State.modSeq_tlps (s : State) (x : Nat) (f : Seq → Seq) : (s.modSeq x f).tlps = s.tlps := rfl
@[simp] theorem State.modSeq_pcieIn (s : State) (x : Nat) (f : Seq → Seq) : (s.modSeq x f).pcieIn = s.pcieIn := rfl
@[simp] theorem State.modSeq_pcieOut (s : State) (x : Nat) (f : Seq → Seq) : (s.modSeq x f).pcieOut = s.pcieOut := rfl
@[simp] theorem State.modSeq_hbmRead (s : State) (x : Nat) (f : Seq → Seq) : (s.modSeq x f).hbmRead = s.hbmRead := rfl
@[simp] theorem State.modSeq_hbmWritten (s : State) (x : Nat) (f : Seq → Seq) : (s.modSeq x f).hbmWritten = s.hbmWritten := rfl
@[simp] theorem State.modSeq_ucieRetries (s : State) (x : Nat) (f : Seq → Seq) : (s.modSeq x f).ucieRetries = s.ucieRetries := rfl
@[simp] theorem State.modSeq_trim (s : State) (x : Nat) (f : Seq → Seq) : (s.modSeq x f).trim = s.trim := rfl

/-! ### Replacing a context -/

@[simp] theorem State.setCtx_gclk (s : State) (x c : Nat) (k : Ctx) : (s.setCtx x c k).gclk = s.gclk := rfl
@[simp] theorem State.setCtx_phase (s : State) (x c : Nat) (k : Ctx) : (s.setCtx x c k).phase = s.phase := rfl
@[simp] theorem State.setCtx_agenda (s : State) (x c : Nat) (k : Ctx) : (s.setCtx x c k).agenda = s.agenda := rfl
@[simp] theorem State.setCtx_env (s : State) (x c : Nat) (k : Ctx) : (s.setCtx x c k).env = s.env := rfl
@[simp] theorem State.setCtx_free (s : State) (x c : Nat) (k : Ctx) : (s.setCtx x c k).free = s.free := rfl
@[simp] theorem State.setCtx_fresh (s : State) (x c : Nat) (k : Ctx) : (s.setCtx x c k).fresh = s.fresh := rfl
@[simp] theorem State.setCtx_bundle (s : State) (x c : Nat) (k : Ctx) : (s.setCtx x c k).bundle = s.bundle := rfl
@[simp] theorem State.setCtx_seqs (s : State) (x c : Nat) (k : Ctx) : (s.setCtx x c k).seqs = s.seqs := rfl
@[simp] theorem State.setCtx_ctxs (s : State) (x c : Nat) (k : Ctx) : (s.setCtx x c k).ctxs = tput s.ctxs (ctxKey x c) k := rfl
@[simp] theorem State.setCtx_tiles (s : State) (x c : Nat) (k : Ctx) : (s.setCtx x c k).tiles = s.tiles := rfl
@[simp] theorem State.setCtx_ttiles (s : State) (x c : Nat) (k : Ctx) : (s.setCtx x c k).ttiles = s.ttiles := rfl
@[simp] theorem State.setCtx_pool (s : State) (x c : Nat) (k : Ctx) : (s.setCtx x c k).pool = s.pool := rfl
@[simp] theorem State.setCtx_poolGran (s : State) (x c : Nat) (k : Ctx) : (s.setCtx x c k).poolGran = s.poolGran := rfl
@[simp] theorem State.setCtx_hbm (s : State) (x c : Nat) (k : Ctx) : (s.setCtx x c k).hbm = s.hbm := rfl
@[simp] theorem State.setCtx_hbmGran (s : State) (x c : Nat) (k : Ctx) : (s.setCtx x c k).hbmGran = s.hbmGran := rfl
@[simp] theorem State.setCtx_hbmTag (s : State) (x c : Nat) (k : Ctx) : (s.setCtx x c k).hbmTag = s.hbmTag := rfl
@[simp] theorem State.setCtx_zeroing (s : State) (x c : Nat) (k : Ctx) : (s.setCtx x c k).zeroing = s.zeroing := rfl
@[simp] theorem State.setCtx_accs (s : State) (x c : Nat) (k : Ctx) : (s.setCtx x c k).accs = s.accs := rfl
@[simp] theorem State.setCtx_books (s : State) (x c : Nat) (k : Ctx) : (s.setCtx x c k).books = s.books := rfl
@[simp] theorem State.setCtx_parked (s : State) (x c : Nat) (k : Ctx) : (s.setCtx x c k).parked = s.parked := rfl
@[simp] theorem State.setCtx_pending (s : State) (x c : Nat) (k : Ctx) : (s.setCtx x c k).pending = s.pending := rfl
@[simp] theorem State.setCtx_flagsDue (s : State) (x c : Nat) (k : Ctx) : (s.setCtx x c k).flagsDue = s.flagsDue := rfl
@[simp] theorem State.setCtx_tails (s : State) (x c : Nat) (k : Ctx) : (s.setCtx x c k).tails = s.tails := rfl
@[simp] theorem State.setCtx_chains (s : State) (x c : Nat) (k : Ctx) : (s.setCtx x c k).chains = s.chains := rfl
@[simp] theorem State.setCtx_tasks (s : State) (x c : Nat) (k : Ctx) : (s.setCtx x c k).tasks = s.tasks := rfl
@[simp] theorem State.setCtx_lqs (s : State) (x c : Nat) (k : Ctx) : (s.setCtx x c k).lqs = s.lqs := rfl
@[simp] theorem State.setCtx_schedcfg (s : State) (x c : Nat) (k : Ctx) : (s.setCtx x c k).schedcfg = s.schedcfg := rfl
@[simp] theorem State.setCtx_tickK (s : State) (x c : Nat) (k : Ctx) : (s.setCtx x c k).tickK = s.tickK := rfl
@[simp] theorem State.setCtx_tickNext (s : State) (x c : Nat) (k : Ctx) : (s.setCtx x c k).tickNext = s.tickNext := rfl
@[simp] theorem State.setCtx_health (s : State) (x c : Nat) (k : Ctx) : (s.setCtx x c k).health = s.health := rfl
@[simp] theorem State.setCtx_preq (s : State) (x c : Nat) (k : Ctx) : (s.setCtx x c k).preq = s.preq := rfl
@[simp] theorem State.setCtx_tickstop (s : State) (x c : Nat) (k : Ctx) : (s.setCtx x c k).tickstop = s.tickstop := rfl
@[simp] theorem State.setCtx_stopped (s : State) (x c : Nat) (k : Ctx) : (s.setCtx x c k).stopped = s.stopped := rfl
@[simp] theorem State.setCtx_power (s : State) (x c : Nat) (k : Ctx) : (s.setCtx x c k).power = s.power := rfl
@[simp] theorem State.setCtx_trcctl (s : State) (x c : Nat) (k : Ctx) : (s.setCtx x c k).trcctl = s.trcctl := rfl
@[simp] theorem State.setCtx_trcPos (s : State) (x c : Nat) (k : Ctx) : (s.setCtx x c k).trcPos = s.trcPos := rfl
@[simp] theorem State.setCtx_ftbase (s : State) (x c : Nat) (k : Ctx) : (s.setCtx x c k).ftbase = s.ftbase := rfl
@[simp] theorem State.setCtx_tlb (s : State) (x c : Nat) (k : Ctx) : (s.setCtx x c k).tlb = s.tlb := rfl
@[simp] theorem State.setCtx_lanes (s : State) (x c : Nat) (k : Ctx) : (s.setCtx x c k).lanes = s.lanes := rfl
@[simp] theorem State.setCtx_half (s : State) (x c : Nat) (k : Ctx) : (s.setCtx x c k).half = s.half := rfl
@[simp] theorem State.setCtx_snap (s : State) (x c : Nat) (k : Ctx) : (s.setCtx x c k).snap = s.snap := rfl
@[simp] theorem State.setCtx_pkg (s : State) (x c : Nat) (k : Ctx) : (s.setCtx x c k).pkg = s.pkg := rfl
@[simp] theorem State.setCtx_links (s : State) (x c : Nat) (k : Ctx) : (s.setCtx x c k).links = s.links := rfl
@[simp] theorem State.setCtx_outbox (s : State) (x c : Nat) (k : Ctx) : (s.setCtx x c k).outbox = s.outbox := rfl
@[simp] theorem State.setCtx_partials (s : State) (x c : Nat) (k : Ctx) : (s.setCtx x c k).partials = s.partials := rfl
@[simp] theorem State.setCtx_telcfg (s : State) (x c : Nat) (k : Ctx) : (s.setCtx x c k).telcfg = s.telcfg := rfl
@[simp] theorem State.setCtx_telDropped (s : State) (x c : Nat) (k : Ctx) : (s.setCtx x c k).telDropped = s.telDropped := rfl
@[simp] theorem State.setCtx_telLast (s : State) (x c : Nat) (k : Ctx) : (s.setCtx x c k).telLast = s.telLast := rfl
@[simp] theorem State.setCtx_resetctl (s : State) (x c : Nat) (k : Ctx) : (s.setCtx x c k).resetctl = s.resetctl := rfl
@[simp] theorem State.setCtx_resetWaits (s : State) (x c : Nat) (k : Ctx) : (s.setCtx x c k).resetWaits = s.resetWaits := rfl
@[simp] theorem State.setCtx_gcm (s : State) (x c : Nat) (k : Ctx) : (s.setCtx x c k).gcm = s.gcm := rfl
@[simp] theorem State.setCtx_xts (s : State) (x c : Nat) (k : Ctx) : (s.setCtx x c k).xts = s.xts := rfl
@[simp] theorem State.setCtx_tdis (s : State) (x c : Nat) (k : Ctx) : (s.setCtx x c k).tdis = s.tdis := rfl
@[simp] theorem State.setCtx_fwActive (s : State) (x c : Nat) (k : Ctx) : (s.setCtx x c k).fwActive = s.fwActive := rfl
@[simp] theorem State.setCtx_fwInactive (s : State) (x c : Nat) (k : Ctx) : (s.setCtx x c k).fwInactive = s.fwInactive := rfl
@[simp] theorem State.setCtx_fwSwitch (s : State) (x c : Nat) (k : Ctx) : (s.setCtx x c k).fwSwitch = s.fwSwitch := rfl
@[simp] theorem State.setCtx_fwPending (s : State) (x c : Nat) (k : Ctx) : (s.setCtx x c k).fwPending = s.fwPending := rfl
@[simp] theorem State.setCtx_resets (s : State) (x c : Nat) (k : Ctx) : (s.setCtx x c k).resets = s.resets := rfl
@[simp] theorem State.setCtx_laneUntil (s : State) (x c : Nat) (k : Ctx) : (s.setCtx x c k).laneUntil = s.laneUntil := rfl
@[simp] theorem State.setCtx_errata (s : State) (x c : Nat) (k : Ctx) : (s.setCtx x c k).errata = s.errata := rfl
@[simp] theorem State.setCtx_cfg (s : State) (x c : Nat) (k : Ctx) : (s.setCtx x c k).cfg = s.cfg := rfl
@[simp] theorem State.setCtx_cache (s : State) (x c : Nat) (k : Ctx) : (s.setCtx x c k).cache = s.cache := rfl
@[simp] theorem State.setCtx_installs (s : State) (x c : Nat) (k : Ctx) : (s.setCtx x c k).installs = s.installs := rfl
@[simp] theorem State.setCtx_replies (s : State) (x c : Nat) (k : Ctx) : (s.setCtx x c k).replies = s.replies := rfl
@[simp] theorem State.setCtx_tlps (s : State) (x c : Nat) (k : Ctx) : (s.setCtx x c k).tlps = s.tlps := rfl
@[simp] theorem State.setCtx_pcieIn (s : State) (x c : Nat) (k : Ctx) : (s.setCtx x c k).pcieIn = s.pcieIn := rfl
@[simp] theorem State.setCtx_pcieOut (s : State) (x c : Nat) (k : Ctx) : (s.setCtx x c k).pcieOut = s.pcieOut := rfl
@[simp] theorem State.setCtx_hbmRead (s : State) (x c : Nat) (k : Ctx) : (s.setCtx x c k).hbmRead = s.hbmRead := rfl
@[simp] theorem State.setCtx_hbmWritten (s : State) (x c : Nat) (k : Ctx) : (s.setCtx x c k).hbmWritten = s.hbmWritten := rfl
@[simp] theorem State.setCtx_ucieRetries (s : State) (x c : Nat) (k : Ctx) : (s.setCtx x c k).ucieRetries = s.ucieRetries := rfl
@[simp] theorem State.setCtx_trim (s : State) (x c : Nat) (k : Ctx) : (s.setCtx x c k).trim = s.trim := rfl

/-! ### Changing a context -/

@[simp] theorem State.modCtx_gclk (s : State) (x c : Nat) (f : Ctx → Ctx) : (s.modCtx x c f).gclk = s.gclk := rfl
@[simp] theorem State.modCtx_phase (s : State) (x c : Nat) (f : Ctx → Ctx) : (s.modCtx x c f).phase = s.phase := rfl
@[simp] theorem State.modCtx_agenda (s : State) (x c : Nat) (f : Ctx → Ctx) : (s.modCtx x c f).agenda = s.agenda := rfl
@[simp] theorem State.modCtx_env (s : State) (x c : Nat) (f : Ctx → Ctx) : (s.modCtx x c f).env = s.env := rfl
@[simp] theorem State.modCtx_free (s : State) (x c : Nat) (f : Ctx → Ctx) : (s.modCtx x c f).free = s.free := rfl
@[simp] theorem State.modCtx_fresh (s : State) (x c : Nat) (f : Ctx → Ctx) : (s.modCtx x c f).fresh = s.fresh := rfl
@[simp] theorem State.modCtx_bundle (s : State) (x c : Nat) (f : Ctx → Ctx) : (s.modCtx x c f).bundle = s.bundle := rfl
@[simp] theorem State.modCtx_seqs (s : State) (x c : Nat) (f : Ctx → Ctx) : (s.modCtx x c f).seqs = s.seqs := rfl
@[simp] theorem State.modCtx_ctxs (s : State) (x c : Nat) (f : Ctx → Ctx) : (s.modCtx x c f).ctxs = tput s.ctxs (ctxKey x c) (f (s.ctx x c)) := rfl
@[simp] theorem State.modCtx_tiles (s : State) (x c : Nat) (f : Ctx → Ctx) : (s.modCtx x c f).tiles = s.tiles := rfl
@[simp] theorem State.modCtx_ttiles (s : State) (x c : Nat) (f : Ctx → Ctx) : (s.modCtx x c f).ttiles = s.ttiles := rfl
@[simp] theorem State.modCtx_pool (s : State) (x c : Nat) (f : Ctx → Ctx) : (s.modCtx x c f).pool = s.pool := rfl
@[simp] theorem State.modCtx_poolGran (s : State) (x c : Nat) (f : Ctx → Ctx) : (s.modCtx x c f).poolGran = s.poolGran := rfl
@[simp] theorem State.modCtx_hbm (s : State) (x c : Nat) (f : Ctx → Ctx) : (s.modCtx x c f).hbm = s.hbm := rfl
@[simp] theorem State.modCtx_hbmGran (s : State) (x c : Nat) (f : Ctx → Ctx) : (s.modCtx x c f).hbmGran = s.hbmGran := rfl
@[simp] theorem State.modCtx_hbmTag (s : State) (x c : Nat) (f : Ctx → Ctx) : (s.modCtx x c f).hbmTag = s.hbmTag := rfl
@[simp] theorem State.modCtx_zeroing (s : State) (x c : Nat) (f : Ctx → Ctx) : (s.modCtx x c f).zeroing = s.zeroing := rfl
@[simp] theorem State.modCtx_accs (s : State) (x c : Nat) (f : Ctx → Ctx) : (s.modCtx x c f).accs = s.accs := rfl
@[simp] theorem State.modCtx_books (s : State) (x c : Nat) (f : Ctx → Ctx) : (s.modCtx x c f).books = s.books := rfl
@[simp] theorem State.modCtx_parked (s : State) (x c : Nat) (f : Ctx → Ctx) : (s.modCtx x c f).parked = s.parked := rfl
@[simp] theorem State.modCtx_pending (s : State) (x c : Nat) (f : Ctx → Ctx) : (s.modCtx x c f).pending = s.pending := rfl
@[simp] theorem State.modCtx_flagsDue (s : State) (x c : Nat) (f : Ctx → Ctx) : (s.modCtx x c f).flagsDue = s.flagsDue := rfl
@[simp] theorem State.modCtx_tails (s : State) (x c : Nat) (f : Ctx → Ctx) : (s.modCtx x c f).tails = s.tails := rfl
@[simp] theorem State.modCtx_chains (s : State) (x c : Nat) (f : Ctx → Ctx) : (s.modCtx x c f).chains = s.chains := rfl
@[simp] theorem State.modCtx_tasks (s : State) (x c : Nat) (f : Ctx → Ctx) : (s.modCtx x c f).tasks = s.tasks := rfl
@[simp] theorem State.modCtx_lqs (s : State) (x c : Nat) (f : Ctx → Ctx) : (s.modCtx x c f).lqs = s.lqs := rfl
@[simp] theorem State.modCtx_schedcfg (s : State) (x c : Nat) (f : Ctx → Ctx) : (s.modCtx x c f).schedcfg = s.schedcfg := rfl
@[simp] theorem State.modCtx_tickK (s : State) (x c : Nat) (f : Ctx → Ctx) : (s.modCtx x c f).tickK = s.tickK := rfl
@[simp] theorem State.modCtx_tickNext (s : State) (x c : Nat) (f : Ctx → Ctx) : (s.modCtx x c f).tickNext = s.tickNext := rfl
@[simp] theorem State.modCtx_health (s : State) (x c : Nat) (f : Ctx → Ctx) : (s.modCtx x c f).health = s.health := rfl
@[simp] theorem State.modCtx_preq (s : State) (x c : Nat) (f : Ctx → Ctx) : (s.modCtx x c f).preq = s.preq := rfl
@[simp] theorem State.modCtx_tickstop (s : State) (x c : Nat) (f : Ctx → Ctx) : (s.modCtx x c f).tickstop = s.tickstop := rfl
@[simp] theorem State.modCtx_stopped (s : State) (x c : Nat) (f : Ctx → Ctx) : (s.modCtx x c f).stopped = s.stopped := rfl
@[simp] theorem State.modCtx_power (s : State) (x c : Nat) (f : Ctx → Ctx) : (s.modCtx x c f).power = s.power := rfl
@[simp] theorem State.modCtx_trcctl (s : State) (x c : Nat) (f : Ctx → Ctx) : (s.modCtx x c f).trcctl = s.trcctl := rfl
@[simp] theorem State.modCtx_trcPos (s : State) (x c : Nat) (f : Ctx → Ctx) : (s.modCtx x c f).trcPos = s.trcPos := rfl
@[simp] theorem State.modCtx_ftbase (s : State) (x c : Nat) (f : Ctx → Ctx) : (s.modCtx x c f).ftbase = s.ftbase := rfl
@[simp] theorem State.modCtx_tlb (s : State) (x c : Nat) (f : Ctx → Ctx) : (s.modCtx x c f).tlb = s.tlb := rfl
@[simp] theorem State.modCtx_lanes (s : State) (x c : Nat) (f : Ctx → Ctx) : (s.modCtx x c f).lanes = s.lanes := rfl
@[simp] theorem State.modCtx_half (s : State) (x c : Nat) (f : Ctx → Ctx) : (s.modCtx x c f).half = s.half := rfl
@[simp] theorem State.modCtx_snap (s : State) (x c : Nat) (f : Ctx → Ctx) : (s.modCtx x c f).snap = s.snap := rfl
@[simp] theorem State.modCtx_pkg (s : State) (x c : Nat) (f : Ctx → Ctx) : (s.modCtx x c f).pkg = s.pkg := rfl
@[simp] theorem State.modCtx_links (s : State) (x c : Nat) (f : Ctx → Ctx) : (s.modCtx x c f).links = s.links := rfl
@[simp] theorem State.modCtx_outbox (s : State) (x c : Nat) (f : Ctx → Ctx) : (s.modCtx x c f).outbox = s.outbox := rfl
@[simp] theorem State.modCtx_partials (s : State) (x c : Nat) (f : Ctx → Ctx) : (s.modCtx x c f).partials = s.partials := rfl
@[simp] theorem State.modCtx_telcfg (s : State) (x c : Nat) (f : Ctx → Ctx) : (s.modCtx x c f).telcfg = s.telcfg := rfl
@[simp] theorem State.modCtx_telDropped (s : State) (x c : Nat) (f : Ctx → Ctx) : (s.modCtx x c f).telDropped = s.telDropped := rfl
@[simp] theorem State.modCtx_telLast (s : State) (x c : Nat) (f : Ctx → Ctx) : (s.modCtx x c f).telLast = s.telLast := rfl
@[simp] theorem State.modCtx_resetctl (s : State) (x c : Nat) (f : Ctx → Ctx) : (s.modCtx x c f).resetctl = s.resetctl := rfl
@[simp] theorem State.modCtx_resetWaits (s : State) (x c : Nat) (f : Ctx → Ctx) : (s.modCtx x c f).resetWaits = s.resetWaits := rfl
@[simp] theorem State.modCtx_gcm (s : State) (x c : Nat) (f : Ctx → Ctx) : (s.modCtx x c f).gcm = s.gcm := rfl
@[simp] theorem State.modCtx_xts (s : State) (x c : Nat) (f : Ctx → Ctx) : (s.modCtx x c f).xts = s.xts := rfl
@[simp] theorem State.modCtx_tdis (s : State) (x c : Nat) (f : Ctx → Ctx) : (s.modCtx x c f).tdis = s.tdis := rfl
@[simp] theorem State.modCtx_fwActive (s : State) (x c : Nat) (f : Ctx → Ctx) : (s.modCtx x c f).fwActive = s.fwActive := rfl
@[simp] theorem State.modCtx_fwInactive (s : State) (x c : Nat) (f : Ctx → Ctx) : (s.modCtx x c f).fwInactive = s.fwInactive := rfl
@[simp] theorem State.modCtx_fwSwitch (s : State) (x c : Nat) (f : Ctx → Ctx) : (s.modCtx x c f).fwSwitch = s.fwSwitch := rfl
@[simp] theorem State.modCtx_fwPending (s : State) (x c : Nat) (f : Ctx → Ctx) : (s.modCtx x c f).fwPending = s.fwPending := rfl
@[simp] theorem State.modCtx_resets (s : State) (x c : Nat) (f : Ctx → Ctx) : (s.modCtx x c f).resets = s.resets := rfl
@[simp] theorem State.modCtx_laneUntil (s : State) (x c : Nat) (f : Ctx → Ctx) : (s.modCtx x c f).laneUntil = s.laneUntil := rfl
@[simp] theorem State.modCtx_errata (s : State) (x c : Nat) (f : Ctx → Ctx) : (s.modCtx x c f).errata = s.errata := rfl
@[simp] theorem State.modCtx_cfg (s : State) (x c : Nat) (f : Ctx → Ctx) : (s.modCtx x c f).cfg = s.cfg := rfl
@[simp] theorem State.modCtx_cache (s : State) (x c : Nat) (f : Ctx → Ctx) : (s.modCtx x c f).cache = s.cache := rfl
@[simp] theorem State.modCtx_installs (s : State) (x c : Nat) (f : Ctx → Ctx) : (s.modCtx x c f).installs = s.installs := rfl
@[simp] theorem State.modCtx_replies (s : State) (x c : Nat) (f : Ctx → Ctx) : (s.modCtx x c f).replies = s.replies := rfl
@[simp] theorem State.modCtx_tlps (s : State) (x c : Nat) (f : Ctx → Ctx) : (s.modCtx x c f).tlps = s.tlps := rfl
@[simp] theorem State.modCtx_pcieIn (s : State) (x c : Nat) (f : Ctx → Ctx) : (s.modCtx x c f).pcieIn = s.pcieIn := rfl
@[simp] theorem State.modCtx_pcieOut (s : State) (x c : Nat) (f : Ctx → Ctx) : (s.modCtx x c f).pcieOut = s.pcieOut := rfl
@[simp] theorem State.modCtx_hbmRead (s : State) (x c : Nat) (f : Ctx → Ctx) : (s.modCtx x c f).hbmRead = s.hbmRead := rfl
@[simp] theorem State.modCtx_hbmWritten (s : State) (x c : Nat) (f : Ctx → Ctx) : (s.modCtx x c f).hbmWritten = s.hbmWritten := rfl
@[simp] theorem State.modCtx_ucieRetries (s : State) (x c : Nat) (f : Ctx → Ctx) : (s.modCtx x c f).ucieRetries = s.ucieRetries := rfl
@[simp] theorem State.modCtx_trim (s : State) (x c : Nat) (f : Ctx → Ctx) : (s.modCtx x c f).trim = s.trim := rfl

/-! ### Replacing a tile -/

@[simp] theorem State.setTile_gclk (s : State) (t : Nat) (r : Tile) : (s.setTile t r).gclk = s.gclk := rfl
@[simp] theorem State.setTile_phase (s : State) (t : Nat) (r : Tile) : (s.setTile t r).phase = s.phase := rfl
@[simp] theorem State.setTile_agenda (s : State) (t : Nat) (r : Tile) : (s.setTile t r).agenda = s.agenda := rfl
@[simp] theorem State.setTile_env (s : State) (t : Nat) (r : Tile) : (s.setTile t r).env = s.env := rfl
@[simp] theorem State.setTile_free (s : State) (t : Nat) (r : Tile) : (s.setTile t r).free = s.free := rfl
@[simp] theorem State.setTile_fresh (s : State) (t : Nat) (r : Tile) : (s.setTile t r).fresh = s.fresh := rfl
@[simp] theorem State.setTile_bundle (s : State) (t : Nat) (r : Tile) : (s.setTile t r).bundle = s.bundle := rfl
@[simp] theorem State.setTile_seqs (s : State) (t : Nat) (r : Tile) : (s.setTile t r).seqs = s.seqs := rfl
@[simp] theorem State.setTile_ctxs (s : State) (t : Nat) (r : Tile) : (s.setTile t r).ctxs = s.ctxs := rfl
@[simp] theorem State.setTile_tiles (s : State) (t : Nat) (r : Tile) : (s.setTile t r).tiles = tput s.tiles t r := rfl
@[simp] theorem State.setTile_ttiles (s : State) (t : Nat) (r : Tile) : (s.setTile t r).ttiles = s.ttiles := rfl
@[simp] theorem State.setTile_pool (s : State) (t : Nat) (r : Tile) : (s.setTile t r).pool = s.pool := rfl
@[simp] theorem State.setTile_poolGran (s : State) (t : Nat) (r : Tile) : (s.setTile t r).poolGran = s.poolGran := rfl
@[simp] theorem State.setTile_hbm (s : State) (t : Nat) (r : Tile) : (s.setTile t r).hbm = s.hbm := rfl
@[simp] theorem State.setTile_hbmGran (s : State) (t : Nat) (r : Tile) : (s.setTile t r).hbmGran = s.hbmGran := rfl
@[simp] theorem State.setTile_hbmTag (s : State) (t : Nat) (r : Tile) : (s.setTile t r).hbmTag = s.hbmTag := rfl
@[simp] theorem State.setTile_zeroing (s : State) (t : Nat) (r : Tile) : (s.setTile t r).zeroing = s.zeroing := rfl
@[simp] theorem State.setTile_accs (s : State) (t : Nat) (r : Tile) : (s.setTile t r).accs = s.accs := rfl
@[simp] theorem State.setTile_books (s : State) (t : Nat) (r : Tile) : (s.setTile t r).books = s.books := rfl
@[simp] theorem State.setTile_parked (s : State) (t : Nat) (r : Tile) : (s.setTile t r).parked = s.parked := rfl
@[simp] theorem State.setTile_pending (s : State) (t : Nat) (r : Tile) : (s.setTile t r).pending = s.pending := rfl
@[simp] theorem State.setTile_flagsDue (s : State) (t : Nat) (r : Tile) : (s.setTile t r).flagsDue = s.flagsDue := rfl
@[simp] theorem State.setTile_tails (s : State) (t : Nat) (r : Tile) : (s.setTile t r).tails = s.tails := rfl
@[simp] theorem State.setTile_chains (s : State) (t : Nat) (r : Tile) : (s.setTile t r).chains = s.chains := rfl
@[simp] theorem State.setTile_tasks (s : State) (t : Nat) (r : Tile) : (s.setTile t r).tasks = s.tasks := rfl
@[simp] theorem State.setTile_lqs (s : State) (t : Nat) (r : Tile) : (s.setTile t r).lqs = s.lqs := rfl
@[simp] theorem State.setTile_schedcfg (s : State) (t : Nat) (r : Tile) : (s.setTile t r).schedcfg = s.schedcfg := rfl
@[simp] theorem State.setTile_tickK (s : State) (t : Nat) (r : Tile) : (s.setTile t r).tickK = s.tickK := rfl
@[simp] theorem State.setTile_tickNext (s : State) (t : Nat) (r : Tile) : (s.setTile t r).tickNext = s.tickNext := rfl
@[simp] theorem State.setTile_health (s : State) (t : Nat) (r : Tile) : (s.setTile t r).health = s.health := rfl
@[simp] theorem State.setTile_preq (s : State) (t : Nat) (r : Tile) : (s.setTile t r).preq = s.preq := rfl
@[simp] theorem State.setTile_tickstop (s : State) (t : Nat) (r : Tile) : (s.setTile t r).tickstop = s.tickstop := rfl
@[simp] theorem State.setTile_stopped (s : State) (t : Nat) (r : Tile) : (s.setTile t r).stopped = s.stopped := rfl
@[simp] theorem State.setTile_power (s : State) (t : Nat) (r : Tile) : (s.setTile t r).power = s.power := rfl
@[simp] theorem State.setTile_trcctl (s : State) (t : Nat) (r : Tile) : (s.setTile t r).trcctl = s.trcctl := rfl
@[simp] theorem State.setTile_trcPos (s : State) (t : Nat) (r : Tile) : (s.setTile t r).trcPos = s.trcPos := rfl
@[simp] theorem State.setTile_ftbase (s : State) (t : Nat) (r : Tile) : (s.setTile t r).ftbase = s.ftbase := rfl
@[simp] theorem State.setTile_tlb (s : State) (t : Nat) (r : Tile) : (s.setTile t r).tlb = s.tlb := rfl
@[simp] theorem State.setTile_lanes (s : State) (t : Nat) (r : Tile) : (s.setTile t r).lanes = s.lanes := rfl
@[simp] theorem State.setTile_half (s : State) (t : Nat) (r : Tile) : (s.setTile t r).half = s.half := rfl
@[simp] theorem State.setTile_snap (s : State) (t : Nat) (r : Tile) : (s.setTile t r).snap = s.snap := rfl
@[simp] theorem State.setTile_pkg (s : State) (t : Nat) (r : Tile) : (s.setTile t r).pkg = s.pkg := rfl
@[simp] theorem State.setTile_links (s : State) (t : Nat) (r : Tile) : (s.setTile t r).links = s.links := rfl
@[simp] theorem State.setTile_outbox (s : State) (t : Nat) (r : Tile) : (s.setTile t r).outbox = s.outbox := rfl
@[simp] theorem State.setTile_partials (s : State) (t : Nat) (r : Tile) : (s.setTile t r).partials = s.partials := rfl
@[simp] theorem State.setTile_telcfg (s : State) (t : Nat) (r : Tile) : (s.setTile t r).telcfg = s.telcfg := rfl
@[simp] theorem State.setTile_telDropped (s : State) (t : Nat) (r : Tile) : (s.setTile t r).telDropped = s.telDropped := rfl
@[simp] theorem State.setTile_telLast (s : State) (t : Nat) (r : Tile) : (s.setTile t r).telLast = s.telLast := rfl
@[simp] theorem State.setTile_resetctl (s : State) (t : Nat) (r : Tile) : (s.setTile t r).resetctl = s.resetctl := rfl
@[simp] theorem State.setTile_resetWaits (s : State) (t : Nat) (r : Tile) : (s.setTile t r).resetWaits = s.resetWaits := rfl
@[simp] theorem State.setTile_gcm (s : State) (t : Nat) (r : Tile) : (s.setTile t r).gcm = s.gcm := rfl
@[simp] theorem State.setTile_xts (s : State) (t : Nat) (r : Tile) : (s.setTile t r).xts = s.xts := rfl
@[simp] theorem State.setTile_tdis (s : State) (t : Nat) (r : Tile) : (s.setTile t r).tdis = s.tdis := rfl
@[simp] theorem State.setTile_fwActive (s : State) (t : Nat) (r : Tile) : (s.setTile t r).fwActive = s.fwActive := rfl
@[simp] theorem State.setTile_fwInactive (s : State) (t : Nat) (r : Tile) : (s.setTile t r).fwInactive = s.fwInactive := rfl
@[simp] theorem State.setTile_fwSwitch (s : State) (t : Nat) (r : Tile) : (s.setTile t r).fwSwitch = s.fwSwitch := rfl
@[simp] theorem State.setTile_fwPending (s : State) (t : Nat) (r : Tile) : (s.setTile t r).fwPending = s.fwPending := rfl
@[simp] theorem State.setTile_resets (s : State) (t : Nat) (r : Tile) : (s.setTile t r).resets = s.resets := rfl
@[simp] theorem State.setTile_laneUntil (s : State) (t : Nat) (r : Tile) : (s.setTile t r).laneUntil = s.laneUntil := rfl
@[simp] theorem State.setTile_errata (s : State) (t : Nat) (r : Tile) : (s.setTile t r).errata = s.errata := rfl
@[simp] theorem State.setTile_cfg (s : State) (t : Nat) (r : Tile) : (s.setTile t r).cfg = s.cfg := rfl
@[simp] theorem State.setTile_cache (s : State) (t : Nat) (r : Tile) : (s.setTile t r).cache = s.cache := rfl
@[simp] theorem State.setTile_installs (s : State) (t : Nat) (r : Tile) : (s.setTile t r).installs = s.installs := rfl
@[simp] theorem State.setTile_replies (s : State) (t : Nat) (r : Tile) : (s.setTile t r).replies = s.replies := rfl
@[simp] theorem State.setTile_tlps (s : State) (t : Nat) (r : Tile) : (s.setTile t r).tlps = s.tlps := rfl
@[simp] theorem State.setTile_pcieIn (s : State) (t : Nat) (r : Tile) : (s.setTile t r).pcieIn = s.pcieIn := rfl
@[simp] theorem State.setTile_pcieOut (s : State) (t : Nat) (r : Tile) : (s.setTile t r).pcieOut = s.pcieOut := rfl
@[simp] theorem State.setTile_hbmRead (s : State) (t : Nat) (r : Tile) : (s.setTile t r).hbmRead = s.hbmRead := rfl
@[simp] theorem State.setTile_hbmWritten (s : State) (t : Nat) (r : Tile) : (s.setTile t r).hbmWritten = s.hbmWritten := rfl
@[simp] theorem State.setTile_ucieRetries (s : State) (t : Nat) (r : Tile) : (s.setTile t r).ucieRetries = s.ucieRetries := rfl
@[simp] theorem State.setTile_trim (s : State) (t : Nat) (r : Tile) : (s.setTile t r).trim = s.trim := rfl

/-! ### Changing a tile -/

@[simp] theorem State.modTile_gclk (s : State) (t : Nat) (f : Tile → Tile) : (s.modTile t f).gclk = s.gclk := rfl
@[simp] theorem State.modTile_phase (s : State) (t : Nat) (f : Tile → Tile) : (s.modTile t f).phase = s.phase := rfl
@[simp] theorem State.modTile_agenda (s : State) (t : Nat) (f : Tile → Tile) : (s.modTile t f).agenda = s.agenda := rfl
@[simp] theorem State.modTile_env (s : State) (t : Nat) (f : Tile → Tile) : (s.modTile t f).env = s.env := rfl
@[simp] theorem State.modTile_free (s : State) (t : Nat) (f : Tile → Tile) : (s.modTile t f).free = s.free := rfl
@[simp] theorem State.modTile_fresh (s : State) (t : Nat) (f : Tile → Tile) : (s.modTile t f).fresh = s.fresh := rfl
@[simp] theorem State.modTile_bundle (s : State) (t : Nat) (f : Tile → Tile) : (s.modTile t f).bundle = s.bundle := rfl
@[simp] theorem State.modTile_seqs (s : State) (t : Nat) (f : Tile → Tile) : (s.modTile t f).seqs = s.seqs := rfl
@[simp] theorem State.modTile_ctxs (s : State) (t : Nat) (f : Tile → Tile) : (s.modTile t f).ctxs = s.ctxs := rfl
@[simp] theorem State.modTile_tiles (s : State) (t : Nat) (f : Tile → Tile) : (s.modTile t f).tiles = tput s.tiles t (f (s.tile t)) := rfl
@[simp] theorem State.modTile_ttiles (s : State) (t : Nat) (f : Tile → Tile) : (s.modTile t f).ttiles = s.ttiles := rfl
@[simp] theorem State.modTile_pool (s : State) (t : Nat) (f : Tile → Tile) : (s.modTile t f).pool = s.pool := rfl
@[simp] theorem State.modTile_poolGran (s : State) (t : Nat) (f : Tile → Tile) : (s.modTile t f).poolGran = s.poolGran := rfl
@[simp] theorem State.modTile_hbm (s : State) (t : Nat) (f : Tile → Tile) : (s.modTile t f).hbm = s.hbm := rfl
@[simp] theorem State.modTile_hbmGran (s : State) (t : Nat) (f : Tile → Tile) : (s.modTile t f).hbmGran = s.hbmGran := rfl
@[simp] theorem State.modTile_hbmTag (s : State) (t : Nat) (f : Tile → Tile) : (s.modTile t f).hbmTag = s.hbmTag := rfl
@[simp] theorem State.modTile_zeroing (s : State) (t : Nat) (f : Tile → Tile) : (s.modTile t f).zeroing = s.zeroing := rfl
@[simp] theorem State.modTile_accs (s : State) (t : Nat) (f : Tile → Tile) : (s.modTile t f).accs = s.accs := rfl
@[simp] theorem State.modTile_books (s : State) (t : Nat) (f : Tile → Tile) : (s.modTile t f).books = s.books := rfl
@[simp] theorem State.modTile_parked (s : State) (t : Nat) (f : Tile → Tile) : (s.modTile t f).parked = s.parked := rfl
@[simp] theorem State.modTile_pending (s : State) (t : Nat) (f : Tile → Tile) : (s.modTile t f).pending = s.pending := rfl
@[simp] theorem State.modTile_flagsDue (s : State) (t : Nat) (f : Tile → Tile) : (s.modTile t f).flagsDue = s.flagsDue := rfl
@[simp] theorem State.modTile_tails (s : State) (t : Nat) (f : Tile → Tile) : (s.modTile t f).tails = s.tails := rfl
@[simp] theorem State.modTile_chains (s : State) (t : Nat) (f : Tile → Tile) : (s.modTile t f).chains = s.chains := rfl
@[simp] theorem State.modTile_tasks (s : State) (t : Nat) (f : Tile → Tile) : (s.modTile t f).tasks = s.tasks := rfl
@[simp] theorem State.modTile_lqs (s : State) (t : Nat) (f : Tile → Tile) : (s.modTile t f).lqs = s.lqs := rfl
@[simp] theorem State.modTile_schedcfg (s : State) (t : Nat) (f : Tile → Tile) : (s.modTile t f).schedcfg = s.schedcfg := rfl
@[simp] theorem State.modTile_tickK (s : State) (t : Nat) (f : Tile → Tile) : (s.modTile t f).tickK = s.tickK := rfl
@[simp] theorem State.modTile_tickNext (s : State) (t : Nat) (f : Tile → Tile) : (s.modTile t f).tickNext = s.tickNext := rfl
@[simp] theorem State.modTile_health (s : State) (t : Nat) (f : Tile → Tile) : (s.modTile t f).health = s.health := rfl
@[simp] theorem State.modTile_preq (s : State) (t : Nat) (f : Tile → Tile) : (s.modTile t f).preq = s.preq := rfl
@[simp] theorem State.modTile_tickstop (s : State) (t : Nat) (f : Tile → Tile) : (s.modTile t f).tickstop = s.tickstop := rfl
@[simp] theorem State.modTile_stopped (s : State) (t : Nat) (f : Tile → Tile) : (s.modTile t f).stopped = s.stopped := rfl
@[simp] theorem State.modTile_power (s : State) (t : Nat) (f : Tile → Tile) : (s.modTile t f).power = s.power := rfl
@[simp] theorem State.modTile_trcctl (s : State) (t : Nat) (f : Tile → Tile) : (s.modTile t f).trcctl = s.trcctl := rfl
@[simp] theorem State.modTile_trcPos (s : State) (t : Nat) (f : Tile → Tile) : (s.modTile t f).trcPos = s.trcPos := rfl
@[simp] theorem State.modTile_ftbase (s : State) (t : Nat) (f : Tile → Tile) : (s.modTile t f).ftbase = s.ftbase := rfl
@[simp] theorem State.modTile_tlb (s : State) (t : Nat) (f : Tile → Tile) : (s.modTile t f).tlb = s.tlb := rfl
@[simp] theorem State.modTile_lanes (s : State) (t : Nat) (f : Tile → Tile) : (s.modTile t f).lanes = s.lanes := rfl
@[simp] theorem State.modTile_half (s : State) (t : Nat) (f : Tile → Tile) : (s.modTile t f).half = s.half := rfl
@[simp] theorem State.modTile_snap (s : State) (t : Nat) (f : Tile → Tile) : (s.modTile t f).snap = s.snap := rfl
@[simp] theorem State.modTile_pkg (s : State) (t : Nat) (f : Tile → Tile) : (s.modTile t f).pkg = s.pkg := rfl
@[simp] theorem State.modTile_links (s : State) (t : Nat) (f : Tile → Tile) : (s.modTile t f).links = s.links := rfl
@[simp] theorem State.modTile_outbox (s : State) (t : Nat) (f : Tile → Tile) : (s.modTile t f).outbox = s.outbox := rfl
@[simp] theorem State.modTile_partials (s : State) (t : Nat) (f : Tile → Tile) : (s.modTile t f).partials = s.partials := rfl
@[simp] theorem State.modTile_telcfg (s : State) (t : Nat) (f : Tile → Tile) : (s.modTile t f).telcfg = s.telcfg := rfl
@[simp] theorem State.modTile_telDropped (s : State) (t : Nat) (f : Tile → Tile) : (s.modTile t f).telDropped = s.telDropped := rfl
@[simp] theorem State.modTile_telLast (s : State) (t : Nat) (f : Tile → Tile) : (s.modTile t f).telLast = s.telLast := rfl
@[simp] theorem State.modTile_resetctl (s : State) (t : Nat) (f : Tile → Tile) : (s.modTile t f).resetctl = s.resetctl := rfl
@[simp] theorem State.modTile_resetWaits (s : State) (t : Nat) (f : Tile → Tile) : (s.modTile t f).resetWaits = s.resetWaits := rfl
@[simp] theorem State.modTile_gcm (s : State) (t : Nat) (f : Tile → Tile) : (s.modTile t f).gcm = s.gcm := rfl
@[simp] theorem State.modTile_xts (s : State) (t : Nat) (f : Tile → Tile) : (s.modTile t f).xts = s.xts := rfl
@[simp] theorem State.modTile_tdis (s : State) (t : Nat) (f : Tile → Tile) : (s.modTile t f).tdis = s.tdis := rfl
@[simp] theorem State.modTile_fwActive (s : State) (t : Nat) (f : Tile → Tile) : (s.modTile t f).fwActive = s.fwActive := rfl
@[simp] theorem State.modTile_fwInactive (s : State) (t : Nat) (f : Tile → Tile) : (s.modTile t f).fwInactive = s.fwInactive := rfl
@[simp] theorem State.modTile_fwSwitch (s : State) (t : Nat) (f : Tile → Tile) : (s.modTile t f).fwSwitch = s.fwSwitch := rfl
@[simp] theorem State.modTile_fwPending (s : State) (t : Nat) (f : Tile → Tile) : (s.modTile t f).fwPending = s.fwPending := rfl
@[simp] theorem State.modTile_resets (s : State) (t : Nat) (f : Tile → Tile) : (s.modTile t f).resets = s.resets := rfl
@[simp] theorem State.modTile_laneUntil (s : State) (t : Nat) (f : Tile → Tile) : (s.modTile t f).laneUntil = s.laneUntil := rfl
@[simp] theorem State.modTile_errata (s : State) (t : Nat) (f : Tile → Tile) : (s.modTile t f).errata = s.errata := rfl
@[simp] theorem State.modTile_cfg (s : State) (t : Nat) (f : Tile → Tile) : (s.modTile t f).cfg = s.cfg := rfl
@[simp] theorem State.modTile_cache (s : State) (t : Nat) (f : Tile → Tile) : (s.modTile t f).cache = s.cache := rfl
@[simp] theorem State.modTile_installs (s : State) (t : Nat) (f : Tile → Tile) : (s.modTile t f).installs = s.installs := rfl
@[simp] theorem State.modTile_replies (s : State) (t : Nat) (f : Tile → Tile) : (s.modTile t f).replies = s.replies := rfl
@[simp] theorem State.modTile_tlps (s : State) (t : Nat) (f : Tile → Tile) : (s.modTile t f).tlps = s.tlps := rfl
@[simp] theorem State.modTile_pcieIn (s : State) (t : Nat) (f : Tile → Tile) : (s.modTile t f).pcieIn = s.pcieIn := rfl
@[simp] theorem State.modTile_pcieOut (s : State) (t : Nat) (f : Tile → Tile) : (s.modTile t f).pcieOut = s.pcieOut := rfl
@[simp] theorem State.modTile_hbmRead (s : State) (t : Nat) (f : Tile → Tile) : (s.modTile t f).hbmRead = s.hbmRead := rfl
@[simp] theorem State.modTile_hbmWritten (s : State) (t : Nat) (f : Tile → Tile) : (s.modTile t f).hbmWritten = s.hbmWritten := rfl
@[simp] theorem State.modTile_ucieRetries (s : State) (t : Nat) (f : Tile → Tile) : (s.modTile t f).ucieRetries = s.ucieRetries := rfl
@[simp] theorem State.modTile_trim (s : State) (t : Nat) (f : Tile → Tile) : (s.modTile t f).trim = s.trim := rfl

/-! ### Changing a task's tile state -/

@[simp] theorem State.modTt_gclk (s : State) (x c : Nat) (f : TaskTile → TaskTile) : (s.modTt x c f).gclk = s.gclk := rfl
@[simp] theorem State.modTt_phase (s : State) (x c : Nat) (f : TaskTile → TaskTile) : (s.modTt x c f).phase = s.phase := rfl
@[simp] theorem State.modTt_agenda (s : State) (x c : Nat) (f : TaskTile → TaskTile) : (s.modTt x c f).agenda = s.agenda := rfl
@[simp] theorem State.modTt_env (s : State) (x c : Nat) (f : TaskTile → TaskTile) : (s.modTt x c f).env = s.env := rfl
@[simp] theorem State.modTt_free (s : State) (x c : Nat) (f : TaskTile → TaskTile) : (s.modTt x c f).free = s.free := rfl
@[simp] theorem State.modTt_fresh (s : State) (x c : Nat) (f : TaskTile → TaskTile) : (s.modTt x c f).fresh = s.fresh := rfl
@[simp] theorem State.modTt_bundle (s : State) (x c : Nat) (f : TaskTile → TaskTile) : (s.modTt x c f).bundle = s.bundle := rfl
@[simp] theorem State.modTt_seqs (s : State) (x c : Nat) (f : TaskTile → TaskTile) : (s.modTt x c f).seqs = s.seqs := rfl
@[simp] theorem State.modTt_ctxs (s : State) (x c : Nat) (f : TaskTile → TaskTile) : (s.modTt x c f).ctxs = s.ctxs := rfl
@[simp] theorem State.modTt_tiles (s : State) (x c : Nat) (f : TaskTile → TaskTile) : (s.modTt x c f).tiles = s.tiles := rfl
@[simp] theorem State.modTt_ttiles (s : State) (x c : Nat) (f : TaskTile → TaskTile) : (s.modTt x c f).ttiles = tput s.ttiles (s.ttKey x c) (f (s.tt x c)) := rfl
@[simp] theorem State.modTt_pool (s : State) (x c : Nat) (f : TaskTile → TaskTile) : (s.modTt x c f).pool = s.pool := rfl
@[simp] theorem State.modTt_poolGran (s : State) (x c : Nat) (f : TaskTile → TaskTile) : (s.modTt x c f).poolGran = s.poolGran := rfl
@[simp] theorem State.modTt_hbm (s : State) (x c : Nat) (f : TaskTile → TaskTile) : (s.modTt x c f).hbm = s.hbm := rfl
@[simp] theorem State.modTt_hbmGran (s : State) (x c : Nat) (f : TaskTile → TaskTile) : (s.modTt x c f).hbmGran = s.hbmGran := rfl
@[simp] theorem State.modTt_hbmTag (s : State) (x c : Nat) (f : TaskTile → TaskTile) : (s.modTt x c f).hbmTag = s.hbmTag := rfl
@[simp] theorem State.modTt_zeroing (s : State) (x c : Nat) (f : TaskTile → TaskTile) : (s.modTt x c f).zeroing = s.zeroing := rfl
@[simp] theorem State.modTt_accs (s : State) (x c : Nat) (f : TaskTile → TaskTile) : (s.modTt x c f).accs = s.accs := rfl
@[simp] theorem State.modTt_books (s : State) (x c : Nat) (f : TaskTile → TaskTile) : (s.modTt x c f).books = s.books := rfl
@[simp] theorem State.modTt_parked (s : State) (x c : Nat) (f : TaskTile → TaskTile) : (s.modTt x c f).parked = s.parked := rfl
@[simp] theorem State.modTt_pending (s : State) (x c : Nat) (f : TaskTile → TaskTile) : (s.modTt x c f).pending = s.pending := rfl
@[simp] theorem State.modTt_flagsDue (s : State) (x c : Nat) (f : TaskTile → TaskTile) : (s.modTt x c f).flagsDue = s.flagsDue := rfl
@[simp] theorem State.modTt_tails (s : State) (x c : Nat) (f : TaskTile → TaskTile) : (s.modTt x c f).tails = s.tails := rfl
@[simp] theorem State.modTt_chains (s : State) (x c : Nat) (f : TaskTile → TaskTile) : (s.modTt x c f).chains = s.chains := rfl
@[simp] theorem State.modTt_tasks (s : State) (x c : Nat) (f : TaskTile → TaskTile) : (s.modTt x c f).tasks = s.tasks := rfl
@[simp] theorem State.modTt_lqs (s : State) (x c : Nat) (f : TaskTile → TaskTile) : (s.modTt x c f).lqs = s.lqs := rfl
@[simp] theorem State.modTt_schedcfg (s : State) (x c : Nat) (f : TaskTile → TaskTile) : (s.modTt x c f).schedcfg = s.schedcfg := rfl
@[simp] theorem State.modTt_tickK (s : State) (x c : Nat) (f : TaskTile → TaskTile) : (s.modTt x c f).tickK = s.tickK := rfl
@[simp] theorem State.modTt_tickNext (s : State) (x c : Nat) (f : TaskTile → TaskTile) : (s.modTt x c f).tickNext = s.tickNext := rfl
@[simp] theorem State.modTt_health (s : State) (x c : Nat) (f : TaskTile → TaskTile) : (s.modTt x c f).health = s.health := rfl
@[simp] theorem State.modTt_preq (s : State) (x c : Nat) (f : TaskTile → TaskTile) : (s.modTt x c f).preq = s.preq := rfl
@[simp] theorem State.modTt_tickstop (s : State) (x c : Nat) (f : TaskTile → TaskTile) : (s.modTt x c f).tickstop = s.tickstop := rfl
@[simp] theorem State.modTt_stopped (s : State) (x c : Nat) (f : TaskTile → TaskTile) : (s.modTt x c f).stopped = s.stopped := rfl
@[simp] theorem State.modTt_power (s : State) (x c : Nat) (f : TaskTile → TaskTile) : (s.modTt x c f).power = s.power := rfl
@[simp] theorem State.modTt_trcctl (s : State) (x c : Nat) (f : TaskTile → TaskTile) : (s.modTt x c f).trcctl = s.trcctl := rfl
@[simp] theorem State.modTt_trcPos (s : State) (x c : Nat) (f : TaskTile → TaskTile) : (s.modTt x c f).trcPos = s.trcPos := rfl
@[simp] theorem State.modTt_ftbase (s : State) (x c : Nat) (f : TaskTile → TaskTile) : (s.modTt x c f).ftbase = s.ftbase := rfl
@[simp] theorem State.modTt_tlb (s : State) (x c : Nat) (f : TaskTile → TaskTile) : (s.modTt x c f).tlb = s.tlb := rfl
@[simp] theorem State.modTt_lanes (s : State) (x c : Nat) (f : TaskTile → TaskTile) : (s.modTt x c f).lanes = s.lanes := rfl
@[simp] theorem State.modTt_half (s : State) (x c : Nat) (f : TaskTile → TaskTile) : (s.modTt x c f).half = s.half := rfl
@[simp] theorem State.modTt_snap (s : State) (x c : Nat) (f : TaskTile → TaskTile) : (s.modTt x c f).snap = s.snap := rfl
@[simp] theorem State.modTt_pkg (s : State) (x c : Nat) (f : TaskTile → TaskTile) : (s.modTt x c f).pkg = s.pkg := rfl
@[simp] theorem State.modTt_links (s : State) (x c : Nat) (f : TaskTile → TaskTile) : (s.modTt x c f).links = s.links := rfl
@[simp] theorem State.modTt_outbox (s : State) (x c : Nat) (f : TaskTile → TaskTile) : (s.modTt x c f).outbox = s.outbox := rfl
@[simp] theorem State.modTt_partials (s : State) (x c : Nat) (f : TaskTile → TaskTile) : (s.modTt x c f).partials = s.partials := rfl
@[simp] theorem State.modTt_telcfg (s : State) (x c : Nat) (f : TaskTile → TaskTile) : (s.modTt x c f).telcfg = s.telcfg := rfl
@[simp] theorem State.modTt_telDropped (s : State) (x c : Nat) (f : TaskTile → TaskTile) : (s.modTt x c f).telDropped = s.telDropped := rfl
@[simp] theorem State.modTt_telLast (s : State) (x c : Nat) (f : TaskTile → TaskTile) : (s.modTt x c f).telLast = s.telLast := rfl
@[simp] theorem State.modTt_resetctl (s : State) (x c : Nat) (f : TaskTile → TaskTile) : (s.modTt x c f).resetctl = s.resetctl := rfl
@[simp] theorem State.modTt_resetWaits (s : State) (x c : Nat) (f : TaskTile → TaskTile) : (s.modTt x c f).resetWaits = s.resetWaits := rfl
@[simp] theorem State.modTt_gcm (s : State) (x c : Nat) (f : TaskTile → TaskTile) : (s.modTt x c f).gcm = s.gcm := rfl
@[simp] theorem State.modTt_xts (s : State) (x c : Nat) (f : TaskTile → TaskTile) : (s.modTt x c f).xts = s.xts := rfl
@[simp] theorem State.modTt_tdis (s : State) (x c : Nat) (f : TaskTile → TaskTile) : (s.modTt x c f).tdis = s.tdis := rfl
@[simp] theorem State.modTt_fwActive (s : State) (x c : Nat) (f : TaskTile → TaskTile) : (s.modTt x c f).fwActive = s.fwActive := rfl
@[simp] theorem State.modTt_fwInactive (s : State) (x c : Nat) (f : TaskTile → TaskTile) : (s.modTt x c f).fwInactive = s.fwInactive := rfl
@[simp] theorem State.modTt_fwSwitch (s : State) (x c : Nat) (f : TaskTile → TaskTile) : (s.modTt x c f).fwSwitch = s.fwSwitch := rfl
@[simp] theorem State.modTt_fwPending (s : State) (x c : Nat) (f : TaskTile → TaskTile) : (s.modTt x c f).fwPending = s.fwPending := rfl
@[simp] theorem State.modTt_resets (s : State) (x c : Nat) (f : TaskTile → TaskTile) : (s.modTt x c f).resets = s.resets := rfl
@[simp] theorem State.modTt_laneUntil (s : State) (x c : Nat) (f : TaskTile → TaskTile) : (s.modTt x c f).laneUntil = s.laneUntil := rfl
@[simp] theorem State.modTt_errata (s : State) (x c : Nat) (f : TaskTile → TaskTile) : (s.modTt x c f).errata = s.errata := rfl
@[simp] theorem State.modTt_cfg (s : State) (x c : Nat) (f : TaskTile → TaskTile) : (s.modTt x c f).cfg = s.cfg := rfl
@[simp] theorem State.modTt_cache (s : State) (x c : Nat) (f : TaskTile → TaskTile) : (s.modTt x c f).cache = s.cache := rfl
@[simp] theorem State.modTt_installs (s : State) (x c : Nat) (f : TaskTile → TaskTile) : (s.modTt x c f).installs = s.installs := rfl
@[simp] theorem State.modTt_replies (s : State) (x c : Nat) (f : TaskTile → TaskTile) : (s.modTt x c f).replies = s.replies := rfl
@[simp] theorem State.modTt_tlps (s : State) (x c : Nat) (f : TaskTile → TaskTile) : (s.modTt x c f).tlps = s.tlps := rfl
@[simp] theorem State.modTt_pcieIn (s : State) (x c : Nat) (f : TaskTile → TaskTile) : (s.modTt x c f).pcieIn = s.pcieIn := rfl
@[simp] theorem State.modTt_pcieOut (s : State) (x c : Nat) (f : TaskTile → TaskTile) : (s.modTt x c f).pcieOut = s.pcieOut := rfl
@[simp] theorem State.modTt_hbmRead (s : State) (x c : Nat) (f : TaskTile → TaskTile) : (s.modTt x c f).hbmRead = s.hbmRead := rfl
@[simp] theorem State.modTt_hbmWritten (s : State) (x c : Nat) (f : TaskTile → TaskTile) : (s.modTt x c f).hbmWritten = s.hbmWritten := rfl
@[simp] theorem State.modTt_ucieRetries (s : State) (x c : Nat) (f : TaskTile → TaskTile) : (s.modTt x c f).ucieRetries = s.ucieRetries := rfl
@[simp] theorem State.modTt_trim (s : State) (x c : Nat) (f : TaskTile → TaskTile) : (s.modTt x c f).trim = s.trim := rfl

/-! ### Taking a number -/

@[simp] theorem State.bump_gclk (s : State) : (s.bump).gclk = s.gclk := rfl
@[simp] theorem State.bump_phase (s : State) : (s.bump).phase = s.phase := rfl
@[simp] theorem State.bump_agenda (s : State) : (s.bump).agenda = s.agenda := rfl
@[simp] theorem State.bump_env (s : State) : (s.bump).env = s.env := rfl
@[simp] theorem State.bump_free (s : State) : (s.bump).free = s.free := rfl
@[simp] theorem State.bump_fresh (s : State) : (s.bump).fresh = s.fresh + 1 := rfl
@[simp] theorem State.bump_bundle (s : State) : (s.bump).bundle = s.bundle := rfl
@[simp] theorem State.bump_seqs (s : State) : (s.bump).seqs = s.seqs := rfl
@[simp] theorem State.bump_ctxs (s : State) : (s.bump).ctxs = s.ctxs := rfl
@[simp] theorem State.bump_tiles (s : State) : (s.bump).tiles = s.tiles := rfl
@[simp] theorem State.bump_ttiles (s : State) : (s.bump).ttiles = s.ttiles := rfl
@[simp] theorem State.bump_pool (s : State) : (s.bump).pool = s.pool := rfl
@[simp] theorem State.bump_poolGran (s : State) : (s.bump).poolGran = s.poolGran := rfl
@[simp] theorem State.bump_hbm (s : State) : (s.bump).hbm = s.hbm := rfl
@[simp] theorem State.bump_hbmGran (s : State) : (s.bump).hbmGran = s.hbmGran := rfl
@[simp] theorem State.bump_hbmTag (s : State) : (s.bump).hbmTag = s.hbmTag := rfl
@[simp] theorem State.bump_zeroing (s : State) : (s.bump).zeroing = s.zeroing := rfl
@[simp] theorem State.bump_accs (s : State) : (s.bump).accs = s.accs := rfl
@[simp] theorem State.bump_books (s : State) : (s.bump).books = s.books := rfl
@[simp] theorem State.bump_parked (s : State) : (s.bump).parked = s.parked := rfl
@[simp] theorem State.bump_pending (s : State) : (s.bump).pending = s.pending := rfl
@[simp] theorem State.bump_flagsDue (s : State) : (s.bump).flagsDue = s.flagsDue := rfl
@[simp] theorem State.bump_tails (s : State) : (s.bump).tails = s.tails := rfl
@[simp] theorem State.bump_chains (s : State) : (s.bump).chains = s.chains := rfl
@[simp] theorem State.bump_tasks (s : State) : (s.bump).tasks = s.tasks := rfl
@[simp] theorem State.bump_lqs (s : State) : (s.bump).lqs = s.lqs := rfl
@[simp] theorem State.bump_schedcfg (s : State) : (s.bump).schedcfg = s.schedcfg := rfl
@[simp] theorem State.bump_tickK (s : State) : (s.bump).tickK = s.tickK := rfl
@[simp] theorem State.bump_tickNext (s : State) : (s.bump).tickNext = s.tickNext := rfl
@[simp] theorem State.bump_health (s : State) : (s.bump).health = s.health := rfl
@[simp] theorem State.bump_preq (s : State) : (s.bump).preq = s.preq := rfl
@[simp] theorem State.bump_tickstop (s : State) : (s.bump).tickstop = s.tickstop := rfl
@[simp] theorem State.bump_stopped (s : State) : (s.bump).stopped = s.stopped := rfl
@[simp] theorem State.bump_power (s : State) : (s.bump).power = s.power := rfl
@[simp] theorem State.bump_trcctl (s : State) : (s.bump).trcctl = s.trcctl := rfl
@[simp] theorem State.bump_trcPos (s : State) : (s.bump).trcPos = s.trcPos := rfl
@[simp] theorem State.bump_ftbase (s : State) : (s.bump).ftbase = s.ftbase := rfl
@[simp] theorem State.bump_tlb (s : State) : (s.bump).tlb = s.tlb := rfl
@[simp] theorem State.bump_lanes (s : State) : (s.bump).lanes = s.lanes := rfl
@[simp] theorem State.bump_half (s : State) : (s.bump).half = s.half := rfl
@[simp] theorem State.bump_snap (s : State) : (s.bump).snap = s.snap := rfl
@[simp] theorem State.bump_pkg (s : State) : (s.bump).pkg = s.pkg := rfl
@[simp] theorem State.bump_links (s : State) : (s.bump).links = s.links := rfl
@[simp] theorem State.bump_outbox (s : State) : (s.bump).outbox = s.outbox := rfl
@[simp] theorem State.bump_partials (s : State) : (s.bump).partials = s.partials := rfl
@[simp] theorem State.bump_telcfg (s : State) : (s.bump).telcfg = s.telcfg := rfl
@[simp] theorem State.bump_telDropped (s : State) : (s.bump).telDropped = s.telDropped := rfl
@[simp] theorem State.bump_telLast (s : State) : (s.bump).telLast = s.telLast := rfl
@[simp] theorem State.bump_resetctl (s : State) : (s.bump).resetctl = s.resetctl := rfl
@[simp] theorem State.bump_resetWaits (s : State) : (s.bump).resetWaits = s.resetWaits := rfl
@[simp] theorem State.bump_gcm (s : State) : (s.bump).gcm = s.gcm := rfl
@[simp] theorem State.bump_xts (s : State) : (s.bump).xts = s.xts := rfl
@[simp] theorem State.bump_tdis (s : State) : (s.bump).tdis = s.tdis := rfl
@[simp] theorem State.bump_fwActive (s : State) : (s.bump).fwActive = s.fwActive := rfl
@[simp] theorem State.bump_fwInactive (s : State) : (s.bump).fwInactive = s.fwInactive := rfl
@[simp] theorem State.bump_fwSwitch (s : State) : (s.bump).fwSwitch = s.fwSwitch := rfl
@[simp] theorem State.bump_fwPending (s : State) : (s.bump).fwPending = s.fwPending := rfl
@[simp] theorem State.bump_resets (s : State) : (s.bump).resets = s.resets := rfl
@[simp] theorem State.bump_laneUntil (s : State) : (s.bump).laneUntil = s.laneUntil := rfl
@[simp] theorem State.bump_errata (s : State) : (s.bump).errata = s.errata := rfl
@[simp] theorem State.bump_cfg (s : State) : (s.bump).cfg = s.cfg := rfl
@[simp] theorem State.bump_cache (s : State) : (s.bump).cache = s.cache := rfl
@[simp] theorem State.bump_installs (s : State) : (s.bump).installs = s.installs := rfl
@[simp] theorem State.bump_replies (s : State) : (s.bump).replies = s.replies := rfl
@[simp] theorem State.bump_tlps (s : State) : (s.bump).tlps = s.tlps := rfl
@[simp] theorem State.bump_pcieIn (s : State) : (s.bump).pcieIn = s.pcieIn := rfl
@[simp] theorem State.bump_pcieOut (s : State) : (s.bump).pcieOut = s.pcieOut := rfl
@[simp] theorem State.bump_hbmRead (s : State) : (s.bump).hbmRead = s.hbmRead := rfl
@[simp] theorem State.bump_hbmWritten (s : State) : (s.bump).hbmWritten = s.hbmWritten := rfl
@[simp] theorem State.bump_ucieRetries (s : State) : (s.bump).ucieRetries = s.ucieRetries := rfl
@[simp] theorem State.bump_trim (s : State) : (s.bump).trim = s.trim := rfl

/-! ### Taking a free value -/

@[simp] theorem State.drawn_gclk (s : State) : (s.drawn).gclk = s.gclk := rfl
@[simp] theorem State.drawn_phase (s : State) : (s.drawn).phase = s.phase := rfl
@[simp] theorem State.drawn_agenda (s : State) : (s.drawn).agenda = s.agenda := rfl
@[simp] theorem State.drawn_env (s : State) : (s.drawn).env = s.env := rfl
@[simp] theorem State.drawn_free (s : State) : (s.drawn).free = s.free + 1 := rfl
@[simp] theorem State.drawn_fresh (s : State) : (s.drawn).fresh = s.fresh := rfl
@[simp] theorem State.drawn_bundle (s : State) : (s.drawn).bundle = s.bundle := rfl
@[simp] theorem State.drawn_seqs (s : State) : (s.drawn).seqs = s.seqs := rfl
@[simp] theorem State.drawn_ctxs (s : State) : (s.drawn).ctxs = s.ctxs := rfl
@[simp] theorem State.drawn_tiles (s : State) : (s.drawn).tiles = s.tiles := rfl
@[simp] theorem State.drawn_ttiles (s : State) : (s.drawn).ttiles = s.ttiles := rfl
@[simp] theorem State.drawn_pool (s : State) : (s.drawn).pool = s.pool := rfl
@[simp] theorem State.drawn_poolGran (s : State) : (s.drawn).poolGran = s.poolGran := rfl
@[simp] theorem State.drawn_hbm (s : State) : (s.drawn).hbm = s.hbm := rfl
@[simp] theorem State.drawn_hbmGran (s : State) : (s.drawn).hbmGran = s.hbmGran := rfl
@[simp] theorem State.drawn_hbmTag (s : State) : (s.drawn).hbmTag = s.hbmTag := rfl
@[simp] theorem State.drawn_zeroing (s : State) : (s.drawn).zeroing = s.zeroing := rfl
@[simp] theorem State.drawn_accs (s : State) : (s.drawn).accs = s.accs := rfl
@[simp] theorem State.drawn_books (s : State) : (s.drawn).books = s.books := rfl
@[simp] theorem State.drawn_parked (s : State) : (s.drawn).parked = s.parked := rfl
@[simp] theorem State.drawn_pending (s : State) : (s.drawn).pending = s.pending := rfl
@[simp] theorem State.drawn_flagsDue (s : State) : (s.drawn).flagsDue = s.flagsDue := rfl
@[simp] theorem State.drawn_tails (s : State) : (s.drawn).tails = s.tails := rfl
@[simp] theorem State.drawn_chains (s : State) : (s.drawn).chains = s.chains := rfl
@[simp] theorem State.drawn_tasks (s : State) : (s.drawn).tasks = s.tasks := rfl
@[simp] theorem State.drawn_lqs (s : State) : (s.drawn).lqs = s.lqs := rfl
@[simp] theorem State.drawn_schedcfg (s : State) : (s.drawn).schedcfg = s.schedcfg := rfl
@[simp] theorem State.drawn_tickK (s : State) : (s.drawn).tickK = s.tickK := rfl
@[simp] theorem State.drawn_tickNext (s : State) : (s.drawn).tickNext = s.tickNext := rfl
@[simp] theorem State.drawn_health (s : State) : (s.drawn).health = s.health := rfl
@[simp] theorem State.drawn_preq (s : State) : (s.drawn).preq = s.preq := rfl
@[simp] theorem State.drawn_tickstop (s : State) : (s.drawn).tickstop = s.tickstop := rfl
@[simp] theorem State.drawn_stopped (s : State) : (s.drawn).stopped = s.stopped := rfl
@[simp] theorem State.drawn_power (s : State) : (s.drawn).power = s.power := rfl
@[simp] theorem State.drawn_trcctl (s : State) : (s.drawn).trcctl = s.trcctl := rfl
@[simp] theorem State.drawn_trcPos (s : State) : (s.drawn).trcPos = s.trcPos := rfl
@[simp] theorem State.drawn_ftbase (s : State) : (s.drawn).ftbase = s.ftbase := rfl
@[simp] theorem State.drawn_tlb (s : State) : (s.drawn).tlb = s.tlb := rfl
@[simp] theorem State.drawn_lanes (s : State) : (s.drawn).lanes = s.lanes := rfl
@[simp] theorem State.drawn_half (s : State) : (s.drawn).half = s.half := rfl
@[simp] theorem State.drawn_snap (s : State) : (s.drawn).snap = s.snap := rfl
@[simp] theorem State.drawn_pkg (s : State) : (s.drawn).pkg = s.pkg := rfl
@[simp] theorem State.drawn_links (s : State) : (s.drawn).links = s.links := rfl
@[simp] theorem State.drawn_outbox (s : State) : (s.drawn).outbox = s.outbox := rfl
@[simp] theorem State.drawn_partials (s : State) : (s.drawn).partials = s.partials := rfl
@[simp] theorem State.drawn_telcfg (s : State) : (s.drawn).telcfg = s.telcfg := rfl
@[simp] theorem State.drawn_telDropped (s : State) : (s.drawn).telDropped = s.telDropped := rfl
@[simp] theorem State.drawn_telLast (s : State) : (s.drawn).telLast = s.telLast := rfl
@[simp] theorem State.drawn_resetctl (s : State) : (s.drawn).resetctl = s.resetctl := rfl
@[simp] theorem State.drawn_resetWaits (s : State) : (s.drawn).resetWaits = s.resetWaits := rfl
@[simp] theorem State.drawn_gcm (s : State) : (s.drawn).gcm = s.gcm := rfl
@[simp] theorem State.drawn_xts (s : State) : (s.drawn).xts = s.xts := rfl
@[simp] theorem State.drawn_tdis (s : State) : (s.drawn).tdis = s.tdis := rfl
@[simp] theorem State.drawn_fwActive (s : State) : (s.drawn).fwActive = s.fwActive := rfl
@[simp] theorem State.drawn_fwInactive (s : State) : (s.drawn).fwInactive = s.fwInactive := rfl
@[simp] theorem State.drawn_fwSwitch (s : State) : (s.drawn).fwSwitch = s.fwSwitch := rfl
@[simp] theorem State.drawn_fwPending (s : State) : (s.drawn).fwPending = s.fwPending := rfl
@[simp] theorem State.drawn_resets (s : State) : (s.drawn).resets = s.resets := rfl
@[simp] theorem State.drawn_laneUntil (s : State) : (s.drawn).laneUntil = s.laneUntil := rfl
@[simp] theorem State.drawn_errata (s : State) : (s.drawn).errata = s.errata := rfl
@[simp] theorem State.drawn_cfg (s : State) : (s.drawn).cfg = s.cfg := rfl
@[simp] theorem State.drawn_cache (s : State) : (s.drawn).cache = s.cache := rfl
@[simp] theorem State.drawn_installs (s : State) : (s.drawn).installs = s.installs := rfl
@[simp] theorem State.drawn_replies (s : State) : (s.drawn).replies = s.replies := rfl
@[simp] theorem State.drawn_tlps (s : State) : (s.drawn).tlps = s.tlps := rfl
@[simp] theorem State.drawn_pcieIn (s : State) : (s.drawn).pcieIn = s.pcieIn := rfl
@[simp] theorem State.drawn_pcieOut (s : State) : (s.drawn).pcieOut = s.pcieOut := rfl
@[simp] theorem State.drawn_hbmRead (s : State) : (s.drawn).hbmRead = s.hbmRead := rfl
@[simp] theorem State.drawn_hbmWritten (s : State) : (s.drawn).hbmWritten = s.hbmWritten := rfl
@[simp] theorem State.drawn_ucieRetries (s : State) : (s.drawn).ucieRetries = s.ucieRetries := rfl
@[simp] theorem State.drawn_trim (s : State) : (s.drawn).trim = s.trim := rfl

/-! ### Staging a result -/

@[simp] theorem State.fly_gclk (s : State) (f : Flight) : (s.fly f).gclk = s.gclk := rfl
@[simp] theorem State.fly_phase (s : State) (f : Flight) : (s.fly f).phase = s.phase := rfl
@[simp] theorem State.fly_agenda (s : State) (f : Flight) : (s.fly f).agenda = s.agenda := rfl
@[simp] theorem State.fly_env (s : State) (f : Flight) : (s.fly f).env = s.env := rfl
@[simp] theorem State.fly_free (s : State) (f : Flight) : (s.fly f).free = s.free := rfl
@[simp] theorem State.fly_fresh (s : State) (f : Flight) : (s.fly f).fresh = s.fresh + 1 := rfl
@[simp] theorem State.fly_bundle (s : State) (f : Flight) : (s.fly f).bundle = { s.bundle with flights := s.bundle.flights ++ [f] } := rfl
@[simp] theorem State.fly_seqs (s : State) (f : Flight) : (s.fly f).seqs = s.seqs := rfl
@[simp] theorem State.fly_ctxs (s : State) (f : Flight) : (s.fly f).ctxs = s.ctxs := rfl
@[simp] theorem State.fly_tiles (s : State) (f : Flight) : (s.fly f).tiles = s.tiles := rfl
@[simp] theorem State.fly_ttiles (s : State) (f : Flight) : (s.fly f).ttiles = s.ttiles := rfl
@[simp] theorem State.fly_pool (s : State) (f : Flight) : (s.fly f).pool = s.pool := rfl
@[simp] theorem State.fly_poolGran (s : State) (f : Flight) : (s.fly f).poolGran = s.poolGran := rfl
@[simp] theorem State.fly_hbm (s : State) (f : Flight) : (s.fly f).hbm = s.hbm := rfl
@[simp] theorem State.fly_hbmGran (s : State) (f : Flight) : (s.fly f).hbmGran = s.hbmGran := rfl
@[simp] theorem State.fly_hbmTag (s : State) (f : Flight) : (s.fly f).hbmTag = s.hbmTag := rfl
@[simp] theorem State.fly_zeroing (s : State) (f : Flight) : (s.fly f).zeroing = s.zeroing := rfl
@[simp] theorem State.fly_accs (s : State) (f : Flight) : (s.fly f).accs = s.accs := rfl
@[simp] theorem State.fly_books (s : State) (f : Flight) : (s.fly f).books = s.books := rfl
@[simp] theorem State.fly_parked (s : State) (f : Flight) : (s.fly f).parked = s.parked := rfl
@[simp] theorem State.fly_pending (s : State) (f : Flight) : (s.fly f).pending = s.pending := rfl
@[simp] theorem State.fly_flagsDue (s : State) (f : Flight) : (s.fly f).flagsDue = s.flagsDue := rfl
@[simp] theorem State.fly_tails (s : State) (f : Flight) : (s.fly f).tails = s.tails := rfl
@[simp] theorem State.fly_chains (s : State) (f : Flight) : (s.fly f).chains = s.chains := rfl
@[simp] theorem State.fly_tasks (s : State) (f : Flight) : (s.fly f).tasks = s.tasks := rfl
@[simp] theorem State.fly_lqs (s : State) (f : Flight) : (s.fly f).lqs = s.lqs := rfl
@[simp] theorem State.fly_schedcfg (s : State) (f : Flight) : (s.fly f).schedcfg = s.schedcfg := rfl
@[simp] theorem State.fly_tickK (s : State) (f : Flight) : (s.fly f).tickK = s.tickK := rfl
@[simp] theorem State.fly_tickNext (s : State) (f : Flight) : (s.fly f).tickNext = s.tickNext := rfl
@[simp] theorem State.fly_health (s : State) (f : Flight) : (s.fly f).health = s.health := rfl
@[simp] theorem State.fly_preq (s : State) (f : Flight) : (s.fly f).preq = s.preq := rfl
@[simp] theorem State.fly_tickstop (s : State) (f : Flight) : (s.fly f).tickstop = s.tickstop := rfl
@[simp] theorem State.fly_stopped (s : State) (f : Flight) : (s.fly f).stopped = s.stopped := rfl
@[simp] theorem State.fly_power (s : State) (f : Flight) : (s.fly f).power = s.power := rfl
@[simp] theorem State.fly_trcctl (s : State) (f : Flight) : (s.fly f).trcctl = s.trcctl := rfl
@[simp] theorem State.fly_trcPos (s : State) (f : Flight) : (s.fly f).trcPos = s.trcPos := rfl
@[simp] theorem State.fly_ftbase (s : State) (f : Flight) : (s.fly f).ftbase = s.ftbase := rfl
@[simp] theorem State.fly_tlb (s : State) (f : Flight) : (s.fly f).tlb = s.tlb := rfl
@[simp] theorem State.fly_lanes (s : State) (f : Flight) : (s.fly f).lanes = s.lanes := rfl
@[simp] theorem State.fly_half (s : State) (f : Flight) : (s.fly f).half = s.half := rfl
@[simp] theorem State.fly_snap (s : State) (f : Flight) : (s.fly f).snap = s.snap := rfl
@[simp] theorem State.fly_pkg (s : State) (f : Flight) : (s.fly f).pkg = s.pkg := rfl
@[simp] theorem State.fly_links (s : State) (f : Flight) : (s.fly f).links = s.links := rfl
@[simp] theorem State.fly_outbox (s : State) (f : Flight) : (s.fly f).outbox = s.outbox := rfl
@[simp] theorem State.fly_partials (s : State) (f : Flight) : (s.fly f).partials = s.partials := rfl
@[simp] theorem State.fly_telcfg (s : State) (f : Flight) : (s.fly f).telcfg = s.telcfg := rfl
@[simp] theorem State.fly_telDropped (s : State) (f : Flight) : (s.fly f).telDropped = s.telDropped := rfl
@[simp] theorem State.fly_telLast (s : State) (f : Flight) : (s.fly f).telLast = s.telLast := rfl
@[simp] theorem State.fly_resetctl (s : State) (f : Flight) : (s.fly f).resetctl = s.resetctl := rfl
@[simp] theorem State.fly_resetWaits (s : State) (f : Flight) : (s.fly f).resetWaits = s.resetWaits := rfl
@[simp] theorem State.fly_gcm (s : State) (f : Flight) : (s.fly f).gcm = s.gcm := rfl
@[simp] theorem State.fly_xts (s : State) (f : Flight) : (s.fly f).xts = s.xts := rfl
@[simp] theorem State.fly_tdis (s : State) (f : Flight) : (s.fly f).tdis = s.tdis := rfl
@[simp] theorem State.fly_fwActive (s : State) (f : Flight) : (s.fly f).fwActive = s.fwActive := rfl
@[simp] theorem State.fly_fwInactive (s : State) (f : Flight) : (s.fly f).fwInactive = s.fwInactive := rfl
@[simp] theorem State.fly_fwSwitch (s : State) (f : Flight) : (s.fly f).fwSwitch = s.fwSwitch := rfl
@[simp] theorem State.fly_fwPending (s : State) (f : Flight) : (s.fly f).fwPending = s.fwPending := rfl
@[simp] theorem State.fly_resets (s : State) (f : Flight) : (s.fly f).resets = s.resets := rfl
@[simp] theorem State.fly_laneUntil (s : State) (f : Flight) : (s.fly f).laneUntil = s.laneUntil := rfl
@[simp] theorem State.fly_errata (s : State) (f : Flight) : (s.fly f).errata = s.errata := rfl
@[simp] theorem State.fly_cfg (s : State) (f : Flight) : (s.fly f).cfg = s.cfg := rfl
@[simp] theorem State.fly_cache (s : State) (f : Flight) : (s.fly f).cache = s.cache := rfl
@[simp] theorem State.fly_installs (s : State) (f : Flight) : (s.fly f).installs = s.installs := rfl
@[simp] theorem State.fly_replies (s : State) (f : Flight) : (s.fly f).replies = s.replies := rfl
@[simp] theorem State.fly_tlps (s : State) (f : Flight) : (s.fly f).tlps = s.tlps := rfl
@[simp] theorem State.fly_pcieIn (s : State) (f : Flight) : (s.fly f).pcieIn = s.pcieIn := rfl
@[simp] theorem State.fly_pcieOut (s : State) (f : Flight) : (s.fly f).pcieOut = s.pcieOut := rfl
@[simp] theorem State.fly_hbmRead (s : State) (f : Flight) : (s.fly f).hbmRead = s.hbmRead := rfl
@[simp] theorem State.fly_hbmWritten (s : State) (f : Flight) : (s.fly f).hbmWritten = s.hbmWritten := rfl
@[simp] theorem State.fly_ucieRetries (s : State) (f : Flight) : (s.fly f).ucieRetries = s.ucieRetries := rfl
@[simp] theorem State.fly_trim (s : State) (f : Flight) : (s.fly f).trim = s.trim := rfl

/-! ### Staging an effect -/

@[simp] theorem State.stage_gclk (s : State) (n : Nat) (e : Eff) : (s.stage n e).gclk = s.gclk := rfl
@[simp] theorem State.stage_phase (s : State) (n : Nat) (e : Eff) : (s.stage n e).phase = s.phase := rfl
@[simp] theorem State.stage_agenda (s : State) (n : Nat) (e : Eff) : (s.stage n e).agenda = s.agenda := rfl
@[simp] theorem State.stage_env (s : State) (n : Nat) (e : Eff) : (s.stage n e).env = s.env := rfl
@[simp] theorem State.stage_free (s : State) (n : Nat) (e : Eff) : (s.stage n e).free = s.free := rfl
@[simp] theorem State.stage_fresh (s : State) (n : Nat) (e : Eff) : (s.stage n e).fresh = s.fresh := rfl
@[simp] theorem State.stage_bundle (s : State) (n : Nat) (e : Eff) : (s.stage n e).bundle = { s.bundle with effs := s.bundle.effs ++ [(n, e)] } := rfl
@[simp] theorem State.stage_seqs (s : State) (n : Nat) (e : Eff) : (s.stage n e).seqs = s.seqs := rfl
@[simp] theorem State.stage_ctxs (s : State) (n : Nat) (e : Eff) : (s.stage n e).ctxs = s.ctxs := rfl
@[simp] theorem State.stage_tiles (s : State) (n : Nat) (e : Eff) : (s.stage n e).tiles = s.tiles := rfl
@[simp] theorem State.stage_ttiles (s : State) (n : Nat) (e : Eff) : (s.stage n e).ttiles = s.ttiles := rfl
@[simp] theorem State.stage_pool (s : State) (n : Nat) (e : Eff) : (s.stage n e).pool = s.pool := rfl
@[simp] theorem State.stage_poolGran (s : State) (n : Nat) (e : Eff) : (s.stage n e).poolGran = s.poolGran := rfl
@[simp] theorem State.stage_hbm (s : State) (n : Nat) (e : Eff) : (s.stage n e).hbm = s.hbm := rfl
@[simp] theorem State.stage_hbmGran (s : State) (n : Nat) (e : Eff) : (s.stage n e).hbmGran = s.hbmGran := rfl
@[simp] theorem State.stage_hbmTag (s : State) (n : Nat) (e : Eff) : (s.stage n e).hbmTag = s.hbmTag := rfl
@[simp] theorem State.stage_zeroing (s : State) (n : Nat) (e : Eff) : (s.stage n e).zeroing = s.zeroing := rfl
@[simp] theorem State.stage_accs (s : State) (n : Nat) (e : Eff) : (s.stage n e).accs = s.accs := rfl
@[simp] theorem State.stage_books (s : State) (n : Nat) (e : Eff) : (s.stage n e).books = s.books := rfl
@[simp] theorem State.stage_parked (s : State) (n : Nat) (e : Eff) : (s.stage n e).parked = s.parked := rfl
@[simp] theorem State.stage_pending (s : State) (n : Nat) (e : Eff) : (s.stage n e).pending = s.pending := rfl
@[simp] theorem State.stage_flagsDue (s : State) (n : Nat) (e : Eff) : (s.stage n e).flagsDue = s.flagsDue := rfl
@[simp] theorem State.stage_tails (s : State) (n : Nat) (e : Eff) : (s.stage n e).tails = s.tails := rfl
@[simp] theorem State.stage_chains (s : State) (n : Nat) (e : Eff) : (s.stage n e).chains = s.chains := rfl
@[simp] theorem State.stage_tasks (s : State) (n : Nat) (e : Eff) : (s.stage n e).tasks = s.tasks := rfl
@[simp] theorem State.stage_lqs (s : State) (n : Nat) (e : Eff) : (s.stage n e).lqs = s.lqs := rfl
@[simp] theorem State.stage_schedcfg (s : State) (n : Nat) (e : Eff) : (s.stage n e).schedcfg = s.schedcfg := rfl
@[simp] theorem State.stage_tickK (s : State) (n : Nat) (e : Eff) : (s.stage n e).tickK = s.tickK := rfl
@[simp] theorem State.stage_tickNext (s : State) (n : Nat) (e : Eff) : (s.stage n e).tickNext = s.tickNext := rfl
@[simp] theorem State.stage_health (s : State) (n : Nat) (e : Eff) : (s.stage n e).health = s.health := rfl
@[simp] theorem State.stage_preq (s : State) (n : Nat) (e : Eff) : (s.stage n e).preq = s.preq := rfl
@[simp] theorem State.stage_tickstop (s : State) (n : Nat) (e : Eff) : (s.stage n e).tickstop = s.tickstop := rfl
@[simp] theorem State.stage_stopped (s : State) (n : Nat) (e : Eff) : (s.stage n e).stopped = s.stopped := rfl
@[simp] theorem State.stage_power (s : State) (n : Nat) (e : Eff) : (s.stage n e).power = s.power := rfl
@[simp] theorem State.stage_trcctl (s : State) (n : Nat) (e : Eff) : (s.stage n e).trcctl = s.trcctl := rfl
@[simp] theorem State.stage_trcPos (s : State) (n : Nat) (e : Eff) : (s.stage n e).trcPos = s.trcPos := rfl
@[simp] theorem State.stage_ftbase (s : State) (n : Nat) (e : Eff) : (s.stage n e).ftbase = s.ftbase := rfl
@[simp] theorem State.stage_tlb (s : State) (n : Nat) (e : Eff) : (s.stage n e).tlb = s.tlb := rfl
@[simp] theorem State.stage_lanes (s : State) (n : Nat) (e : Eff) : (s.stage n e).lanes = s.lanes := rfl
@[simp] theorem State.stage_half (s : State) (n : Nat) (e : Eff) : (s.stage n e).half = s.half := rfl
@[simp] theorem State.stage_snap (s : State) (n : Nat) (e : Eff) : (s.stage n e).snap = s.snap := rfl
@[simp] theorem State.stage_pkg (s : State) (n : Nat) (e : Eff) : (s.stage n e).pkg = s.pkg := rfl
@[simp] theorem State.stage_links (s : State) (n : Nat) (e : Eff) : (s.stage n e).links = s.links := rfl
@[simp] theorem State.stage_outbox (s : State) (n : Nat) (e : Eff) : (s.stage n e).outbox = s.outbox := rfl
@[simp] theorem State.stage_partials (s : State) (n : Nat) (e : Eff) : (s.stage n e).partials = s.partials := rfl
@[simp] theorem State.stage_telcfg (s : State) (n : Nat) (e : Eff) : (s.stage n e).telcfg = s.telcfg := rfl
@[simp] theorem State.stage_telDropped (s : State) (n : Nat) (e : Eff) : (s.stage n e).telDropped = s.telDropped := rfl
@[simp] theorem State.stage_telLast (s : State) (n : Nat) (e : Eff) : (s.stage n e).telLast = s.telLast := rfl
@[simp] theorem State.stage_resetctl (s : State) (n : Nat) (e : Eff) : (s.stage n e).resetctl = s.resetctl := rfl
@[simp] theorem State.stage_resetWaits (s : State) (n : Nat) (e : Eff) : (s.stage n e).resetWaits = s.resetWaits := rfl
@[simp] theorem State.stage_gcm (s : State) (n : Nat) (e : Eff) : (s.stage n e).gcm = s.gcm := rfl
@[simp] theorem State.stage_xts (s : State) (n : Nat) (e : Eff) : (s.stage n e).xts = s.xts := rfl
@[simp] theorem State.stage_tdis (s : State) (n : Nat) (e : Eff) : (s.stage n e).tdis = s.tdis := rfl
@[simp] theorem State.stage_fwActive (s : State) (n : Nat) (e : Eff) : (s.stage n e).fwActive = s.fwActive := rfl
@[simp] theorem State.stage_fwInactive (s : State) (n : Nat) (e : Eff) : (s.stage n e).fwInactive = s.fwInactive := rfl
@[simp] theorem State.stage_fwSwitch (s : State) (n : Nat) (e : Eff) : (s.stage n e).fwSwitch = s.fwSwitch := rfl
@[simp] theorem State.stage_fwPending (s : State) (n : Nat) (e : Eff) : (s.stage n e).fwPending = s.fwPending := rfl
@[simp] theorem State.stage_resets (s : State) (n : Nat) (e : Eff) : (s.stage n e).resets = s.resets := rfl
@[simp] theorem State.stage_laneUntil (s : State) (n : Nat) (e : Eff) : (s.stage n e).laneUntil = s.laneUntil := rfl
@[simp] theorem State.stage_errata (s : State) (n : Nat) (e : Eff) : (s.stage n e).errata = s.errata := rfl
@[simp] theorem State.stage_cfg (s : State) (n : Nat) (e : Eff) : (s.stage n e).cfg = s.cfg := rfl
@[simp] theorem State.stage_cache (s : State) (n : Nat) (e : Eff) : (s.stage n e).cache = s.cache := rfl
@[simp] theorem State.stage_installs (s : State) (n : Nat) (e : Eff) : (s.stage n e).installs = s.installs := rfl
@[simp] theorem State.stage_replies (s : State) (n : Nat) (e : Eff) : (s.stage n e).replies = s.replies := rfl
@[simp] theorem State.stage_tlps (s : State) (n : Nat) (e : Eff) : (s.stage n e).tlps = s.tlps := rfl
@[simp] theorem State.stage_pcieIn (s : State) (n : Nat) (e : Eff) : (s.stage n e).pcieIn = s.pcieIn := rfl
@[simp] theorem State.stage_pcieOut (s : State) (n : Nat) (e : Eff) : (s.stage n e).pcieOut = s.pcieOut := rfl
@[simp] theorem State.stage_hbmRead (s : State) (n : Nat) (e : Eff) : (s.stage n e).hbmRead = s.hbmRead := rfl
@[simp] theorem State.stage_hbmWritten (s : State) (n : Nat) (e : Eff) : (s.stage n e).hbmWritten = s.hbmWritten := rfl
@[simp] theorem State.stage_ucieRetries (s : State) (n : Nat) (e : Eff) : (s.stage n e).ucieRetries = s.ucieRetries := rfl
@[simp] theorem State.stage_trim (s : State) (n : Nat) (e : Eff) : (s.stage n e).trim = s.trim := rfl

/-! ### Staging an access -/

@[simp] theorem State.access_gclk (s : State) (a : Acc) : (s.access a).gclk = s.gclk := rfl
@[simp] theorem State.access_phase (s : State) (a : Acc) : (s.access a).phase = s.phase := rfl
@[simp] theorem State.access_agenda (s : State) (a : Acc) : (s.access a).agenda = s.agenda := rfl
@[simp] theorem State.access_env (s : State) (a : Acc) : (s.access a).env = s.env := rfl
@[simp] theorem State.access_free (s : State) (a : Acc) : (s.access a).free = s.free := rfl
@[simp] theorem State.access_fresh (s : State) (a : Acc) : (s.access a).fresh = s.fresh + 1 := rfl
@[simp] theorem State.access_bundle (s : State) (a : Acc) : (s.access a).bundle = { s.bundle with accs := s.bundle.accs ++ [a] } := rfl
@[simp] theorem State.access_seqs (s : State) (a : Acc) : (s.access a).seqs = s.seqs := rfl
@[simp] theorem State.access_ctxs (s : State) (a : Acc) : (s.access a).ctxs = s.ctxs := rfl
@[simp] theorem State.access_tiles (s : State) (a : Acc) : (s.access a).tiles = s.tiles := rfl
@[simp] theorem State.access_ttiles (s : State) (a : Acc) : (s.access a).ttiles = s.ttiles := rfl
@[simp] theorem State.access_pool (s : State) (a : Acc) : (s.access a).pool = s.pool := rfl
@[simp] theorem State.access_poolGran (s : State) (a : Acc) : (s.access a).poolGran = s.poolGran := rfl
@[simp] theorem State.access_hbm (s : State) (a : Acc) : (s.access a).hbm = s.hbm := rfl
@[simp] theorem State.access_hbmGran (s : State) (a : Acc) : (s.access a).hbmGran = s.hbmGran := rfl
@[simp] theorem State.access_hbmTag (s : State) (a : Acc) : (s.access a).hbmTag = s.hbmTag := rfl
@[simp] theorem State.access_zeroing (s : State) (a : Acc) : (s.access a).zeroing = s.zeroing := rfl
@[simp] theorem State.access_accs (s : State) (a : Acc) : (s.access a).accs = s.accs := rfl
@[simp] theorem State.access_books (s : State) (a : Acc) : (s.access a).books = s.books := rfl
@[simp] theorem State.access_parked (s : State) (a : Acc) : (s.access a).parked = s.parked := rfl
@[simp] theorem State.access_pending (s : State) (a : Acc) : (s.access a).pending = s.pending := rfl
@[simp] theorem State.access_flagsDue (s : State) (a : Acc) : (s.access a).flagsDue = s.flagsDue := rfl
@[simp] theorem State.access_tails (s : State) (a : Acc) : (s.access a).tails = s.tails := rfl
@[simp] theorem State.access_chains (s : State) (a : Acc) : (s.access a).chains = s.chains := rfl
@[simp] theorem State.access_tasks (s : State) (a : Acc) : (s.access a).tasks = s.tasks := rfl
@[simp] theorem State.access_lqs (s : State) (a : Acc) : (s.access a).lqs = s.lqs := rfl
@[simp] theorem State.access_schedcfg (s : State) (a : Acc) : (s.access a).schedcfg = s.schedcfg := rfl
@[simp] theorem State.access_tickK (s : State) (a : Acc) : (s.access a).tickK = s.tickK := rfl
@[simp] theorem State.access_tickNext (s : State) (a : Acc) : (s.access a).tickNext = s.tickNext := rfl
@[simp] theorem State.access_health (s : State) (a : Acc) : (s.access a).health = s.health := rfl
@[simp] theorem State.access_preq (s : State) (a : Acc) : (s.access a).preq = s.preq := rfl
@[simp] theorem State.access_tickstop (s : State) (a : Acc) : (s.access a).tickstop = s.tickstop := rfl
@[simp] theorem State.access_stopped (s : State) (a : Acc) : (s.access a).stopped = s.stopped := rfl
@[simp] theorem State.access_power (s : State) (a : Acc) : (s.access a).power = s.power := rfl
@[simp] theorem State.access_trcctl (s : State) (a : Acc) : (s.access a).trcctl = s.trcctl := rfl
@[simp] theorem State.access_trcPos (s : State) (a : Acc) : (s.access a).trcPos = s.trcPos := rfl
@[simp] theorem State.access_ftbase (s : State) (a : Acc) : (s.access a).ftbase = s.ftbase := rfl
@[simp] theorem State.access_tlb (s : State) (a : Acc) : (s.access a).tlb = s.tlb := rfl
@[simp] theorem State.access_lanes (s : State) (a : Acc) : (s.access a).lanes = s.lanes := rfl
@[simp] theorem State.access_half (s : State) (a : Acc) : (s.access a).half = s.half := rfl
@[simp] theorem State.access_snap (s : State) (a : Acc) : (s.access a).snap = s.snap := rfl
@[simp] theorem State.access_pkg (s : State) (a : Acc) : (s.access a).pkg = s.pkg := rfl
@[simp] theorem State.access_links (s : State) (a : Acc) : (s.access a).links = s.links := rfl
@[simp] theorem State.access_outbox (s : State) (a : Acc) : (s.access a).outbox = s.outbox := rfl
@[simp] theorem State.access_partials (s : State) (a : Acc) : (s.access a).partials = s.partials := rfl
@[simp] theorem State.access_telcfg (s : State) (a : Acc) : (s.access a).telcfg = s.telcfg := rfl
@[simp] theorem State.access_telDropped (s : State) (a : Acc) : (s.access a).telDropped = s.telDropped := rfl
@[simp] theorem State.access_telLast (s : State) (a : Acc) : (s.access a).telLast = s.telLast := rfl
@[simp] theorem State.access_resetctl (s : State) (a : Acc) : (s.access a).resetctl = s.resetctl := rfl
@[simp] theorem State.access_resetWaits (s : State) (a : Acc) : (s.access a).resetWaits = s.resetWaits := rfl
@[simp] theorem State.access_gcm (s : State) (a : Acc) : (s.access a).gcm = s.gcm := rfl
@[simp] theorem State.access_xts (s : State) (a : Acc) : (s.access a).xts = s.xts := rfl
@[simp] theorem State.access_tdis (s : State) (a : Acc) : (s.access a).tdis = s.tdis := rfl
@[simp] theorem State.access_fwActive (s : State) (a : Acc) : (s.access a).fwActive = s.fwActive := rfl
@[simp] theorem State.access_fwInactive (s : State) (a : Acc) : (s.access a).fwInactive = s.fwInactive := rfl
@[simp] theorem State.access_fwSwitch (s : State) (a : Acc) : (s.access a).fwSwitch = s.fwSwitch := rfl
@[simp] theorem State.access_fwPending (s : State) (a : Acc) : (s.access a).fwPending = s.fwPending := rfl
@[simp] theorem State.access_resets (s : State) (a : Acc) : (s.access a).resets = s.resets := rfl
@[simp] theorem State.access_laneUntil (s : State) (a : Acc) : (s.access a).laneUntil = s.laneUntil := rfl
@[simp] theorem State.access_errata (s : State) (a : Acc) : (s.access a).errata = s.errata := rfl
@[simp] theorem State.access_cfg (s : State) (a : Acc) : (s.access a).cfg = s.cfg := rfl
@[simp] theorem State.access_cache (s : State) (a : Acc) : (s.access a).cache = s.cache := rfl
@[simp] theorem State.access_installs (s : State) (a : Acc) : (s.access a).installs = s.installs := rfl
@[simp] theorem State.access_replies (s : State) (a : Acc) : (s.access a).replies = s.replies := rfl
@[simp] theorem State.access_tlps (s : State) (a : Acc) : (s.access a).tlps = s.tlps := rfl
@[simp] theorem State.access_pcieIn (s : State) (a : Acc) : (s.access a).pcieIn = s.pcieIn := rfl
@[simp] theorem State.access_pcieOut (s : State) (a : Acc) : (s.access a).pcieOut = s.pcieOut := rfl
@[simp] theorem State.access_hbmRead (s : State) (a : Acc) : (s.access a).hbmRead = s.hbmRead := rfl
@[simp] theorem State.access_hbmWritten (s : State) (a : Acc) : (s.access a).hbmWritten = s.hbmWritten := rfl
@[simp] theorem State.access_ucieRetries (s : State) (a : Acc) : (s.access a).ucieRetries = s.ucieRetries := rfl
@[simp] theorem State.access_trim (s : State) (a : Acc) : (s.access a).trim = s.trim := rfl

/-! ### Waiting -/

@[simp] theorem State.waitFor_gclk (s : State) (w : Wait) : (s.waitFor w).gclk = s.gclk := rfl
@[simp] theorem State.waitFor_phase (s : State) (w : Wait) : (s.waitFor w).phase = s.phase := rfl
@[simp] theorem State.waitFor_agenda (s : State) (w : Wait) : (s.waitFor w).agenda = s.agenda := rfl
@[simp] theorem State.waitFor_env (s : State) (w : Wait) : (s.waitFor w).env = s.env := rfl
@[simp] theorem State.waitFor_free (s : State) (w : Wait) : (s.waitFor w).free = s.free := rfl
@[simp] theorem State.waitFor_fresh (s : State) (w : Wait) : (s.waitFor w).fresh = s.fresh := rfl
@[simp] theorem State.waitFor_bundle (s : State) (w : Wait) : (s.waitFor w).bundle = { s.bundle with waits := s.bundle.waits ++ [w] } := rfl
@[simp] theorem State.waitFor_seqs (s : State) (w : Wait) : (s.waitFor w).seqs = s.seqs := rfl
@[simp] theorem State.waitFor_ctxs (s : State) (w : Wait) : (s.waitFor w).ctxs = s.ctxs := rfl
@[simp] theorem State.waitFor_tiles (s : State) (w : Wait) : (s.waitFor w).tiles = s.tiles := rfl
@[simp] theorem State.waitFor_ttiles (s : State) (w : Wait) : (s.waitFor w).ttiles = s.ttiles := rfl
@[simp] theorem State.waitFor_pool (s : State) (w : Wait) : (s.waitFor w).pool = s.pool := rfl
@[simp] theorem State.waitFor_poolGran (s : State) (w : Wait) : (s.waitFor w).poolGran = s.poolGran := rfl
@[simp] theorem State.waitFor_hbm (s : State) (w : Wait) : (s.waitFor w).hbm = s.hbm := rfl
@[simp] theorem State.waitFor_hbmGran (s : State) (w : Wait) : (s.waitFor w).hbmGran = s.hbmGran := rfl
@[simp] theorem State.waitFor_hbmTag (s : State) (w : Wait) : (s.waitFor w).hbmTag = s.hbmTag := rfl
@[simp] theorem State.waitFor_zeroing (s : State) (w : Wait) : (s.waitFor w).zeroing = s.zeroing := rfl
@[simp] theorem State.waitFor_accs (s : State) (w : Wait) : (s.waitFor w).accs = s.accs := rfl
@[simp] theorem State.waitFor_books (s : State) (w : Wait) : (s.waitFor w).books = s.books := rfl
@[simp] theorem State.waitFor_parked (s : State) (w : Wait) : (s.waitFor w).parked = s.parked := rfl
@[simp] theorem State.waitFor_pending (s : State) (w : Wait) : (s.waitFor w).pending = s.pending := rfl
@[simp] theorem State.waitFor_flagsDue (s : State) (w : Wait) : (s.waitFor w).flagsDue = s.flagsDue := rfl
@[simp] theorem State.waitFor_tails (s : State) (w : Wait) : (s.waitFor w).tails = s.tails := rfl
@[simp] theorem State.waitFor_chains (s : State) (w : Wait) : (s.waitFor w).chains = s.chains := rfl
@[simp] theorem State.waitFor_tasks (s : State) (w : Wait) : (s.waitFor w).tasks = s.tasks := rfl
@[simp] theorem State.waitFor_lqs (s : State) (w : Wait) : (s.waitFor w).lqs = s.lqs := rfl
@[simp] theorem State.waitFor_schedcfg (s : State) (w : Wait) : (s.waitFor w).schedcfg = s.schedcfg := rfl
@[simp] theorem State.waitFor_tickK (s : State) (w : Wait) : (s.waitFor w).tickK = s.tickK := rfl
@[simp] theorem State.waitFor_tickNext (s : State) (w : Wait) : (s.waitFor w).tickNext = s.tickNext := rfl
@[simp] theorem State.waitFor_health (s : State) (w : Wait) : (s.waitFor w).health = s.health := rfl
@[simp] theorem State.waitFor_preq (s : State) (w : Wait) : (s.waitFor w).preq = s.preq := rfl
@[simp] theorem State.waitFor_tickstop (s : State) (w : Wait) : (s.waitFor w).tickstop = s.tickstop := rfl
@[simp] theorem State.waitFor_stopped (s : State) (w : Wait) : (s.waitFor w).stopped = s.stopped := rfl
@[simp] theorem State.waitFor_power (s : State) (w : Wait) : (s.waitFor w).power = s.power := rfl
@[simp] theorem State.waitFor_trcctl (s : State) (w : Wait) : (s.waitFor w).trcctl = s.trcctl := rfl
@[simp] theorem State.waitFor_trcPos (s : State) (w : Wait) : (s.waitFor w).trcPos = s.trcPos := rfl
@[simp] theorem State.waitFor_ftbase (s : State) (w : Wait) : (s.waitFor w).ftbase = s.ftbase := rfl
@[simp] theorem State.waitFor_tlb (s : State) (w : Wait) : (s.waitFor w).tlb = s.tlb := rfl
@[simp] theorem State.waitFor_lanes (s : State) (w : Wait) : (s.waitFor w).lanes = s.lanes := rfl
@[simp] theorem State.waitFor_half (s : State) (w : Wait) : (s.waitFor w).half = s.half := rfl
@[simp] theorem State.waitFor_snap (s : State) (w : Wait) : (s.waitFor w).snap = s.snap := rfl
@[simp] theorem State.waitFor_pkg (s : State) (w : Wait) : (s.waitFor w).pkg = s.pkg := rfl
@[simp] theorem State.waitFor_links (s : State) (w : Wait) : (s.waitFor w).links = s.links := rfl
@[simp] theorem State.waitFor_outbox (s : State) (w : Wait) : (s.waitFor w).outbox = s.outbox := rfl
@[simp] theorem State.waitFor_partials (s : State) (w : Wait) : (s.waitFor w).partials = s.partials := rfl
@[simp] theorem State.waitFor_telcfg (s : State) (w : Wait) : (s.waitFor w).telcfg = s.telcfg := rfl
@[simp] theorem State.waitFor_telDropped (s : State) (w : Wait) : (s.waitFor w).telDropped = s.telDropped := rfl
@[simp] theorem State.waitFor_telLast (s : State) (w : Wait) : (s.waitFor w).telLast = s.telLast := rfl
@[simp] theorem State.waitFor_resetctl (s : State) (w : Wait) : (s.waitFor w).resetctl = s.resetctl := rfl
@[simp] theorem State.waitFor_resetWaits (s : State) (w : Wait) : (s.waitFor w).resetWaits = s.resetWaits := rfl
@[simp] theorem State.waitFor_gcm (s : State) (w : Wait) : (s.waitFor w).gcm = s.gcm := rfl
@[simp] theorem State.waitFor_xts (s : State) (w : Wait) : (s.waitFor w).xts = s.xts := rfl
@[simp] theorem State.waitFor_tdis (s : State) (w : Wait) : (s.waitFor w).tdis = s.tdis := rfl
@[simp] theorem State.waitFor_fwActive (s : State) (w : Wait) : (s.waitFor w).fwActive = s.fwActive := rfl
@[simp] theorem State.waitFor_fwInactive (s : State) (w : Wait) : (s.waitFor w).fwInactive = s.fwInactive := rfl
@[simp] theorem State.waitFor_fwSwitch (s : State) (w : Wait) : (s.waitFor w).fwSwitch = s.fwSwitch := rfl
@[simp] theorem State.waitFor_fwPending (s : State) (w : Wait) : (s.waitFor w).fwPending = s.fwPending := rfl
@[simp] theorem State.waitFor_resets (s : State) (w : Wait) : (s.waitFor w).resets = s.resets := rfl
@[simp] theorem State.waitFor_laneUntil (s : State) (w : Wait) : (s.waitFor w).laneUntil = s.laneUntil := rfl
@[simp] theorem State.waitFor_errata (s : State) (w : Wait) : (s.waitFor w).errata = s.errata := rfl
@[simp] theorem State.waitFor_cfg (s : State) (w : Wait) : (s.waitFor w).cfg = s.cfg := rfl
@[simp] theorem State.waitFor_cache (s : State) (w : Wait) : (s.waitFor w).cache = s.cache := rfl
@[simp] theorem State.waitFor_installs (s : State) (w : Wait) : (s.waitFor w).installs = s.installs := rfl
@[simp] theorem State.waitFor_replies (s : State) (w : Wait) : (s.waitFor w).replies = s.replies := rfl
@[simp] theorem State.waitFor_tlps (s : State) (w : Wait) : (s.waitFor w).tlps = s.tlps := rfl
@[simp] theorem State.waitFor_pcieIn (s : State) (w : Wait) : (s.waitFor w).pcieIn = s.pcieIn := rfl
@[simp] theorem State.waitFor_pcieOut (s : State) (w : Wait) : (s.waitFor w).pcieOut = s.pcieOut := rfl
@[simp] theorem State.waitFor_hbmRead (s : State) (w : Wait) : (s.waitFor w).hbmRead = s.hbmRead := rfl
@[simp] theorem State.waitFor_hbmWritten (s : State) (w : Wait) : (s.waitFor w).hbmWritten = s.hbmWritten := rfl
@[simp] theorem State.waitFor_ucieRetries (s : State) (w : Wait) : (s.waitFor w).ucieRetries = s.ucieRetries := rfl
@[simp] theorem State.waitFor_trim (s : State) (w : Wait) : (s.waitFor w).trim = s.trim := rfl

/-! ### Finding a cause -/

@[simp] theorem State.find_gclk (s : State) (n : Nat) (c : Cause) (v : Word) : (s.find n c v).gclk = s.gclk := rfl
@[simp] theorem State.find_phase (s : State) (n : Nat) (c : Cause) (v : Word) : (s.find n c v).phase = s.phase := rfl
@[simp] theorem State.find_agenda (s : State) (n : Nat) (c : Cause) (v : Word) : (s.find n c v).agenda = s.agenda := rfl
@[simp] theorem State.find_env (s : State) (n : Nat) (c : Cause) (v : Word) : (s.find n c v).env = s.env := rfl
@[simp] theorem State.find_free (s : State) (n : Nat) (c : Cause) (v : Word) : (s.find n c v).free = s.free := rfl
@[simp] theorem State.find_fresh (s : State) (n : Nat) (c : Cause) (v : Word) : (s.find n c v).fresh = s.fresh := rfl
@[simp] theorem State.find_bundle (s : State) (n : Nat) (c : Cause) (v : Word) : (s.find n c v).bundle = { s.bundle with found := s.bundle.found ++ [⟨n, s.bundle.focus, s.bundle.found.length, c, v, 0⟩] } := rfl
@[simp] theorem State.find_seqs (s : State) (n : Nat) (c : Cause) (v : Word) : (s.find n c v).seqs = s.seqs := rfl
@[simp] theorem State.find_ctxs (s : State) (n : Nat) (c : Cause) (v : Word) : (s.find n c v).ctxs = s.ctxs := rfl
@[simp] theorem State.find_tiles (s : State) (n : Nat) (c : Cause) (v : Word) : (s.find n c v).tiles = s.tiles := rfl
@[simp] theorem State.find_ttiles (s : State) (n : Nat) (c : Cause) (v : Word) : (s.find n c v).ttiles = s.ttiles := rfl
@[simp] theorem State.find_pool (s : State) (n : Nat) (c : Cause) (v : Word) : (s.find n c v).pool = s.pool := rfl
@[simp] theorem State.find_poolGran (s : State) (n : Nat) (c : Cause) (v : Word) : (s.find n c v).poolGran = s.poolGran := rfl
@[simp] theorem State.find_hbm (s : State) (n : Nat) (c : Cause) (v : Word) : (s.find n c v).hbm = s.hbm := rfl
@[simp] theorem State.find_hbmGran (s : State) (n : Nat) (c : Cause) (v : Word) : (s.find n c v).hbmGran = s.hbmGran := rfl
@[simp] theorem State.find_hbmTag (s : State) (n : Nat) (c : Cause) (v : Word) : (s.find n c v).hbmTag = s.hbmTag := rfl
@[simp] theorem State.find_zeroing (s : State) (n : Nat) (c : Cause) (v : Word) : (s.find n c v).zeroing = s.zeroing := rfl
@[simp] theorem State.find_accs (s : State) (n : Nat) (c : Cause) (v : Word) : (s.find n c v).accs = s.accs := rfl
@[simp] theorem State.find_books (s : State) (n : Nat) (c : Cause) (v : Word) : (s.find n c v).books = s.books := rfl
@[simp] theorem State.find_parked (s : State) (n : Nat) (c : Cause) (v : Word) : (s.find n c v).parked = s.parked := rfl
@[simp] theorem State.find_pending (s : State) (n : Nat) (c : Cause) (v : Word) : (s.find n c v).pending = s.pending := rfl
@[simp] theorem State.find_flagsDue (s : State) (n : Nat) (c : Cause) (v : Word) : (s.find n c v).flagsDue = s.flagsDue := rfl
@[simp] theorem State.find_tails (s : State) (n : Nat) (c : Cause) (v : Word) : (s.find n c v).tails = s.tails := rfl
@[simp] theorem State.find_chains (s : State) (n : Nat) (c : Cause) (v : Word) : (s.find n c v).chains = s.chains := rfl
@[simp] theorem State.find_tasks (s : State) (n : Nat) (c : Cause) (v : Word) : (s.find n c v).tasks = s.tasks := rfl
@[simp] theorem State.find_lqs (s : State) (n : Nat) (c : Cause) (v : Word) : (s.find n c v).lqs = s.lqs := rfl
@[simp] theorem State.find_schedcfg (s : State) (n : Nat) (c : Cause) (v : Word) : (s.find n c v).schedcfg = s.schedcfg := rfl
@[simp] theorem State.find_tickK (s : State) (n : Nat) (c : Cause) (v : Word) : (s.find n c v).tickK = s.tickK := rfl
@[simp] theorem State.find_tickNext (s : State) (n : Nat) (c : Cause) (v : Word) : (s.find n c v).tickNext = s.tickNext := rfl
@[simp] theorem State.find_health (s : State) (n : Nat) (c : Cause) (v : Word) : (s.find n c v).health = s.health := rfl
@[simp] theorem State.find_preq (s : State) (n : Nat) (c : Cause) (v : Word) : (s.find n c v).preq = s.preq := rfl
@[simp] theorem State.find_tickstop (s : State) (n : Nat) (c : Cause) (v : Word) : (s.find n c v).tickstop = s.tickstop := rfl
@[simp] theorem State.find_stopped (s : State) (n : Nat) (c : Cause) (v : Word) : (s.find n c v).stopped = s.stopped := rfl
@[simp] theorem State.find_power (s : State) (n : Nat) (c : Cause) (v : Word) : (s.find n c v).power = s.power := rfl
@[simp] theorem State.find_trcctl (s : State) (n : Nat) (c : Cause) (v : Word) : (s.find n c v).trcctl = s.trcctl := rfl
@[simp] theorem State.find_trcPos (s : State) (n : Nat) (c : Cause) (v : Word) : (s.find n c v).trcPos = s.trcPos := rfl
@[simp] theorem State.find_ftbase (s : State) (n : Nat) (c : Cause) (v : Word) : (s.find n c v).ftbase = s.ftbase := rfl
@[simp] theorem State.find_tlb (s : State) (n : Nat) (c : Cause) (v : Word) : (s.find n c v).tlb = s.tlb := rfl
@[simp] theorem State.find_lanes (s : State) (n : Nat) (c : Cause) (v : Word) : (s.find n c v).lanes = s.lanes := rfl
@[simp] theorem State.find_half (s : State) (n : Nat) (c : Cause) (v : Word) : (s.find n c v).half = s.half := rfl
@[simp] theorem State.find_snap (s : State) (n : Nat) (c : Cause) (v : Word) : (s.find n c v).snap = s.snap := rfl
@[simp] theorem State.find_pkg (s : State) (n : Nat) (c : Cause) (v : Word) : (s.find n c v).pkg = s.pkg := rfl
@[simp] theorem State.find_links (s : State) (n : Nat) (c : Cause) (v : Word) : (s.find n c v).links = s.links := rfl
@[simp] theorem State.find_outbox (s : State) (n : Nat) (c : Cause) (v : Word) : (s.find n c v).outbox = s.outbox := rfl
@[simp] theorem State.find_partials (s : State) (n : Nat) (c : Cause) (v : Word) : (s.find n c v).partials = s.partials := rfl
@[simp] theorem State.find_telcfg (s : State) (n : Nat) (c : Cause) (v : Word) : (s.find n c v).telcfg = s.telcfg := rfl
@[simp] theorem State.find_telDropped (s : State) (n : Nat) (c : Cause) (v : Word) : (s.find n c v).telDropped = s.telDropped := rfl
@[simp] theorem State.find_telLast (s : State) (n : Nat) (c : Cause) (v : Word) : (s.find n c v).telLast = s.telLast := rfl
@[simp] theorem State.find_resetctl (s : State) (n : Nat) (c : Cause) (v : Word) : (s.find n c v).resetctl = s.resetctl := rfl
@[simp] theorem State.find_resetWaits (s : State) (n : Nat) (c : Cause) (v : Word) : (s.find n c v).resetWaits = s.resetWaits := rfl
@[simp] theorem State.find_gcm (s : State) (n : Nat) (c : Cause) (v : Word) : (s.find n c v).gcm = s.gcm := rfl
@[simp] theorem State.find_xts (s : State) (n : Nat) (c : Cause) (v : Word) : (s.find n c v).xts = s.xts := rfl
@[simp] theorem State.find_tdis (s : State) (n : Nat) (c : Cause) (v : Word) : (s.find n c v).tdis = s.tdis := rfl
@[simp] theorem State.find_fwActive (s : State) (n : Nat) (c : Cause) (v : Word) : (s.find n c v).fwActive = s.fwActive := rfl
@[simp] theorem State.find_fwInactive (s : State) (n : Nat) (c : Cause) (v : Word) : (s.find n c v).fwInactive = s.fwInactive := rfl
@[simp] theorem State.find_fwSwitch (s : State) (n : Nat) (c : Cause) (v : Word) : (s.find n c v).fwSwitch = s.fwSwitch := rfl
@[simp] theorem State.find_fwPending (s : State) (n : Nat) (c : Cause) (v : Word) : (s.find n c v).fwPending = s.fwPending := rfl
@[simp] theorem State.find_resets (s : State) (n : Nat) (c : Cause) (v : Word) : (s.find n c v).resets = s.resets := rfl
@[simp] theorem State.find_laneUntil (s : State) (n : Nat) (c : Cause) (v : Word) : (s.find n c v).laneUntil = s.laneUntil := rfl
@[simp] theorem State.find_errata (s : State) (n : Nat) (c : Cause) (v : Word) : (s.find n c v).errata = s.errata := rfl
@[simp] theorem State.find_cfg (s : State) (n : Nat) (c : Cause) (v : Word) : (s.find n c v).cfg = s.cfg := rfl
@[simp] theorem State.find_cache (s : State) (n : Nat) (c : Cause) (v : Word) : (s.find n c v).cache = s.cache := rfl
@[simp] theorem State.find_installs (s : State) (n : Nat) (c : Cause) (v : Word) : (s.find n c v).installs = s.installs := rfl
@[simp] theorem State.find_replies (s : State) (n : Nat) (c : Cause) (v : Word) : (s.find n c v).replies = s.replies := rfl
@[simp] theorem State.find_tlps (s : State) (n : Nat) (c : Cause) (v : Word) : (s.find n c v).tlps = s.tlps := rfl
@[simp] theorem State.find_pcieIn (s : State) (n : Nat) (c : Cause) (v : Word) : (s.find n c v).pcieIn = s.pcieIn := rfl
@[simp] theorem State.find_pcieOut (s : State) (n : Nat) (c : Cause) (v : Word) : (s.find n c v).pcieOut = s.pcieOut := rfl
@[simp] theorem State.find_hbmRead (s : State) (n : Nat) (c : Cause) (v : Word) : (s.find n c v).hbmRead = s.hbmRead := rfl
@[simp] theorem State.find_hbmWritten (s : State) (n : Nat) (c : Cause) (v : Word) : (s.find n c v).hbmWritten = s.hbmWritten := rfl
@[simp] theorem State.find_ucieRetries (s : State) (n : Nat) (c : Cause) (v : Word) : (s.find n c v).ucieRetries = s.ucieRetries := rfl
@[simp] theorem State.find_trim (s : State) (n : Nat) (c : Cause) (v : Word) : (s.find n c v).trim = s.trim := rfl

/-! ### Marking a granule -/

@[simp] theorem State.setGran_gclk (s : State) (t off : Nat) (g : Gran) : (s.setGran t off g).gclk = s.gclk := rfl
@[simp] theorem State.setGran_phase (s : State) (t off : Nat) (g : Gran) : (s.setGran t off g).phase = s.phase := rfl
@[simp] theorem State.setGran_agenda (s : State) (t off : Nat) (g : Gran) : (s.setGran t off g).agenda = s.agenda := rfl
@[simp] theorem State.setGran_env (s : State) (t off : Nat) (g : Gran) : (s.setGran t off g).env = s.env := rfl
@[simp] theorem State.setGran_free (s : State) (t off : Nat) (g : Gran) : (s.setGran t off g).free = s.free := rfl
@[simp] theorem State.setGran_fresh (s : State) (t off : Nat) (g : Gran) : (s.setGran t off g).fresh = s.fresh := rfl
@[simp] theorem State.setGran_bundle (s : State) (t off : Nat) (g : Gran) : (s.setGran t off g).bundle = s.bundle := rfl
@[simp] theorem State.setGran_seqs (s : State) (t off : Nat) (g : Gran) : (s.setGran t off g).seqs = s.seqs := rfl
@[simp] theorem State.setGran_ctxs (s : State) (t off : Nat) (g : Gran) : (s.setGran t off g).ctxs = s.ctxs := rfl
@[simp] theorem State.setGran_tiles (s : State) (t off : Nat) (g : Gran) : (s.setGran t off g).tiles = s.tiles := rfl
@[simp] theorem State.setGran_ttiles (s : State) (t off : Nat) (g : Gran) : (s.setGran t off g).ttiles = s.ttiles := rfl
@[simp] theorem State.setGran_pool (s : State) (t off : Nat) (g : Gran) : (s.setGran t off g).pool = s.pool := rfl
@[simp] theorem State.setGran_poolGran (s : State) (t off : Nat) (g : Gran) : (s.setGran t off g).poolGran = tset Gran.clean s.poolGran (granKey t off) g := rfl
@[simp] theorem State.setGran_hbm (s : State) (t off : Nat) (g : Gran) : (s.setGran t off g).hbm = s.hbm := rfl
@[simp] theorem State.setGran_hbmGran (s : State) (t off : Nat) (g : Gran) : (s.setGran t off g).hbmGran = s.hbmGran := rfl
@[simp] theorem State.setGran_hbmTag (s : State) (t off : Nat) (g : Gran) : (s.setGran t off g).hbmTag = s.hbmTag := rfl
@[simp] theorem State.setGran_zeroing (s : State) (t off : Nat) (g : Gran) : (s.setGran t off g).zeroing = s.zeroing := rfl
@[simp] theorem State.setGran_accs (s : State) (t off : Nat) (g : Gran) : (s.setGran t off g).accs = s.accs := rfl
@[simp] theorem State.setGran_books (s : State) (t off : Nat) (g : Gran) : (s.setGran t off g).books = s.books := rfl
@[simp] theorem State.setGran_parked (s : State) (t off : Nat) (g : Gran) : (s.setGran t off g).parked = s.parked := rfl
@[simp] theorem State.setGran_pending (s : State) (t off : Nat) (g : Gran) : (s.setGran t off g).pending = s.pending := rfl
@[simp] theorem State.setGran_flagsDue (s : State) (t off : Nat) (g : Gran) : (s.setGran t off g).flagsDue = s.flagsDue := rfl
@[simp] theorem State.setGran_tails (s : State) (t off : Nat) (g : Gran) : (s.setGran t off g).tails = s.tails := rfl
@[simp] theorem State.setGran_chains (s : State) (t off : Nat) (g : Gran) : (s.setGran t off g).chains = s.chains := rfl
@[simp] theorem State.setGran_tasks (s : State) (t off : Nat) (g : Gran) : (s.setGran t off g).tasks = s.tasks := rfl
@[simp] theorem State.setGran_lqs (s : State) (t off : Nat) (g : Gran) : (s.setGran t off g).lqs = s.lqs := rfl
@[simp] theorem State.setGran_schedcfg (s : State) (t off : Nat) (g : Gran) : (s.setGran t off g).schedcfg = s.schedcfg := rfl
@[simp] theorem State.setGran_tickK (s : State) (t off : Nat) (g : Gran) : (s.setGran t off g).tickK = s.tickK := rfl
@[simp] theorem State.setGran_tickNext (s : State) (t off : Nat) (g : Gran) : (s.setGran t off g).tickNext = s.tickNext := rfl
@[simp] theorem State.setGran_health (s : State) (t off : Nat) (g : Gran) : (s.setGran t off g).health = s.health := rfl
@[simp] theorem State.setGran_preq (s : State) (t off : Nat) (g : Gran) : (s.setGran t off g).preq = s.preq := rfl
@[simp] theorem State.setGran_tickstop (s : State) (t off : Nat) (g : Gran) : (s.setGran t off g).tickstop = s.tickstop := rfl
@[simp] theorem State.setGran_stopped (s : State) (t off : Nat) (g : Gran) : (s.setGran t off g).stopped = s.stopped := rfl
@[simp] theorem State.setGran_power (s : State) (t off : Nat) (g : Gran) : (s.setGran t off g).power = s.power := rfl
@[simp] theorem State.setGran_trcctl (s : State) (t off : Nat) (g : Gran) : (s.setGran t off g).trcctl = s.trcctl := rfl
@[simp] theorem State.setGran_trcPos (s : State) (t off : Nat) (g : Gran) : (s.setGran t off g).trcPos = s.trcPos := rfl
@[simp] theorem State.setGran_ftbase (s : State) (t off : Nat) (g : Gran) : (s.setGran t off g).ftbase = s.ftbase := rfl
@[simp] theorem State.setGran_tlb (s : State) (t off : Nat) (g : Gran) : (s.setGran t off g).tlb = s.tlb := rfl
@[simp] theorem State.setGran_lanes (s : State) (t off : Nat) (g : Gran) : (s.setGran t off g).lanes = s.lanes := rfl
@[simp] theorem State.setGran_half (s : State) (t off : Nat) (g : Gran) : (s.setGran t off g).half = s.half := rfl
@[simp] theorem State.setGran_snap (s : State) (t off : Nat) (g : Gran) : (s.setGran t off g).snap = s.snap := rfl
@[simp] theorem State.setGran_pkg (s : State) (t off : Nat) (g : Gran) : (s.setGran t off g).pkg = s.pkg := rfl
@[simp] theorem State.setGran_links (s : State) (t off : Nat) (g : Gran) : (s.setGran t off g).links = s.links := rfl
@[simp] theorem State.setGran_outbox (s : State) (t off : Nat) (g : Gran) : (s.setGran t off g).outbox = s.outbox := rfl
@[simp] theorem State.setGran_partials (s : State) (t off : Nat) (g : Gran) : (s.setGran t off g).partials = s.partials := rfl
@[simp] theorem State.setGran_telcfg (s : State) (t off : Nat) (g : Gran) : (s.setGran t off g).telcfg = s.telcfg := rfl
@[simp] theorem State.setGran_telDropped (s : State) (t off : Nat) (g : Gran) : (s.setGran t off g).telDropped = s.telDropped := rfl
@[simp] theorem State.setGran_telLast (s : State) (t off : Nat) (g : Gran) : (s.setGran t off g).telLast = s.telLast := rfl
@[simp] theorem State.setGran_resetctl (s : State) (t off : Nat) (g : Gran) : (s.setGran t off g).resetctl = s.resetctl := rfl
@[simp] theorem State.setGran_resetWaits (s : State) (t off : Nat) (g : Gran) : (s.setGran t off g).resetWaits = s.resetWaits := rfl
@[simp] theorem State.setGran_gcm (s : State) (t off : Nat) (g : Gran) : (s.setGran t off g).gcm = s.gcm := rfl
@[simp] theorem State.setGran_xts (s : State) (t off : Nat) (g : Gran) : (s.setGran t off g).xts = s.xts := rfl
@[simp] theorem State.setGran_tdis (s : State) (t off : Nat) (g : Gran) : (s.setGran t off g).tdis = s.tdis := rfl
@[simp] theorem State.setGran_fwActive (s : State) (t off : Nat) (g : Gran) : (s.setGran t off g).fwActive = s.fwActive := rfl
@[simp] theorem State.setGran_fwInactive (s : State) (t off : Nat) (g : Gran) : (s.setGran t off g).fwInactive = s.fwInactive := rfl
@[simp] theorem State.setGran_fwSwitch (s : State) (t off : Nat) (g : Gran) : (s.setGran t off g).fwSwitch = s.fwSwitch := rfl
@[simp] theorem State.setGran_fwPending (s : State) (t off : Nat) (g : Gran) : (s.setGran t off g).fwPending = s.fwPending := rfl
@[simp] theorem State.setGran_resets (s : State) (t off : Nat) (g : Gran) : (s.setGran t off g).resets = s.resets := rfl
@[simp] theorem State.setGran_laneUntil (s : State) (t off : Nat) (g : Gran) : (s.setGran t off g).laneUntil = s.laneUntil := rfl
@[simp] theorem State.setGran_errata (s : State) (t off : Nat) (g : Gran) : (s.setGran t off g).errata = s.errata := rfl
@[simp] theorem State.setGran_cfg (s : State) (t off : Nat) (g : Gran) : (s.setGran t off g).cfg = s.cfg := rfl
@[simp] theorem State.setGran_cache (s : State) (t off : Nat) (g : Gran) : (s.setGran t off g).cache = s.cache := rfl
@[simp] theorem State.setGran_installs (s : State) (t off : Nat) (g : Gran) : (s.setGran t off g).installs = s.installs := rfl
@[simp] theorem State.setGran_replies (s : State) (t off : Nat) (g : Gran) : (s.setGran t off g).replies = s.replies := rfl
@[simp] theorem State.setGran_tlps (s : State) (t off : Nat) (g : Gran) : (s.setGran t off g).tlps = s.tlps := rfl
@[simp] theorem State.setGran_pcieIn (s : State) (t off : Nat) (g : Gran) : (s.setGran t off g).pcieIn = s.pcieIn := rfl
@[simp] theorem State.setGran_pcieOut (s : State) (t off : Nat) (g : Gran) : (s.setGran t off g).pcieOut = s.pcieOut := rfl
@[simp] theorem State.setGran_hbmRead (s : State) (t off : Nat) (g : Gran) : (s.setGran t off g).hbmRead = s.hbmRead := rfl
@[simp] theorem State.setGran_hbmWritten (s : State) (t off : Nat) (g : Gran) : (s.setGran t off g).hbmWritten = s.hbmWritten := rfl
@[simp] theorem State.setGran_ucieRetries (s : State) (t off : Nat) (g : Gran) : (s.setGran t off g).ucieRetries = s.ucieRetries := rfl
@[simp] theorem State.setGran_trim (s : State) (t off : Nat) (g : Gran) : (s.setGran t off g).trim = s.trim := rfl

/-! ### Writing a pool -/

@[simp] theorem State.wrPool_gclk (s : State) (t off n v : Nat) : (s.wrPool t off n v).gclk = s.gclk := rfl
@[simp] theorem State.wrPool_phase (s : State) (t off n v : Nat) : (s.wrPool t off n v).phase = s.phase := rfl
@[simp] theorem State.wrPool_agenda (s : State) (t off n v : Nat) : (s.wrPool t off n v).agenda = s.agenda := rfl
@[simp] theorem State.wrPool_env (s : State) (t off n v : Nat) : (s.wrPool t off n v).env = s.env := rfl
@[simp] theorem State.wrPool_free (s : State) (t off n v : Nat) : (s.wrPool t off n v).free = s.free := rfl
@[simp] theorem State.wrPool_fresh (s : State) (t off n v : Nat) : (s.wrPool t off n v).fresh = s.fresh := rfl
@[simp] theorem State.wrPool_bundle (s : State) (t off n v : Nat) : (s.wrPool t off n v).bundle = s.bundle := rfl
@[simp] theorem State.wrPool_seqs (s : State) (t off n v : Nat) : (s.wrPool t off n v).seqs = s.seqs := rfl
@[simp] theorem State.wrPool_ctxs (s : State) (t off n v : Nat) : (s.wrPool t off n v).ctxs = s.ctxs := rfl
@[simp] theorem State.wrPool_tiles (s : State) (t off n v : Nat) : (s.wrPool t off n v).tiles = s.tiles := rfl
@[simp] theorem State.wrPool_ttiles (s : State) (t off n v : Nat) : (s.wrPool t off n v).ttiles = s.ttiles := rfl
@[simp] theorem State.wrPool_pool (s : State) (t off n v : Nat) : (s.wrPool t off n v).pool = wrBytes s.pool (poolKey t off) n v := rfl
@[simp] theorem State.wrPool_poolGran (s : State) (t off n v : Nat) : (s.wrPool t off n v).poolGran = s.poolGran := rfl
@[simp] theorem State.wrPool_hbm (s : State) (t off n v : Nat) : (s.wrPool t off n v).hbm = s.hbm := rfl
@[simp] theorem State.wrPool_hbmGran (s : State) (t off n v : Nat) : (s.wrPool t off n v).hbmGran = s.hbmGran := rfl
@[simp] theorem State.wrPool_hbmTag (s : State) (t off n v : Nat) : (s.wrPool t off n v).hbmTag = s.hbmTag := rfl
@[simp] theorem State.wrPool_zeroing (s : State) (t off n v : Nat) : (s.wrPool t off n v).zeroing = s.zeroing := rfl
@[simp] theorem State.wrPool_accs (s : State) (t off n v : Nat) : (s.wrPool t off n v).accs = s.accs := rfl
@[simp] theorem State.wrPool_books (s : State) (t off n v : Nat) : (s.wrPool t off n v).books = s.books := rfl
@[simp] theorem State.wrPool_parked (s : State) (t off n v : Nat) : (s.wrPool t off n v).parked = s.parked := rfl
@[simp] theorem State.wrPool_pending (s : State) (t off n v : Nat) : (s.wrPool t off n v).pending = s.pending := rfl
@[simp] theorem State.wrPool_flagsDue (s : State) (t off n v : Nat) : (s.wrPool t off n v).flagsDue = s.flagsDue := rfl
@[simp] theorem State.wrPool_tails (s : State) (t off n v : Nat) : (s.wrPool t off n v).tails = s.tails := rfl
@[simp] theorem State.wrPool_chains (s : State) (t off n v : Nat) : (s.wrPool t off n v).chains = s.chains := rfl
@[simp] theorem State.wrPool_tasks (s : State) (t off n v : Nat) : (s.wrPool t off n v).tasks = s.tasks := rfl
@[simp] theorem State.wrPool_lqs (s : State) (t off n v : Nat) : (s.wrPool t off n v).lqs = s.lqs := rfl
@[simp] theorem State.wrPool_schedcfg (s : State) (t off n v : Nat) : (s.wrPool t off n v).schedcfg = s.schedcfg := rfl
@[simp] theorem State.wrPool_tickK (s : State) (t off n v : Nat) : (s.wrPool t off n v).tickK = s.tickK := rfl
@[simp] theorem State.wrPool_tickNext (s : State) (t off n v : Nat) : (s.wrPool t off n v).tickNext = s.tickNext := rfl
@[simp] theorem State.wrPool_health (s : State) (t off n v : Nat) : (s.wrPool t off n v).health = s.health := rfl
@[simp] theorem State.wrPool_preq (s : State) (t off n v : Nat) : (s.wrPool t off n v).preq = s.preq := rfl
@[simp] theorem State.wrPool_tickstop (s : State) (t off n v : Nat) : (s.wrPool t off n v).tickstop = s.tickstop := rfl
@[simp] theorem State.wrPool_stopped (s : State) (t off n v : Nat) : (s.wrPool t off n v).stopped = s.stopped := rfl
@[simp] theorem State.wrPool_power (s : State) (t off n v : Nat) : (s.wrPool t off n v).power = s.power := rfl
@[simp] theorem State.wrPool_trcctl (s : State) (t off n v : Nat) : (s.wrPool t off n v).trcctl = s.trcctl := rfl
@[simp] theorem State.wrPool_trcPos (s : State) (t off n v : Nat) : (s.wrPool t off n v).trcPos = s.trcPos := rfl
@[simp] theorem State.wrPool_ftbase (s : State) (t off n v : Nat) : (s.wrPool t off n v).ftbase = s.ftbase := rfl
@[simp] theorem State.wrPool_tlb (s : State) (t off n v : Nat) : (s.wrPool t off n v).tlb = s.tlb := rfl
@[simp] theorem State.wrPool_lanes (s : State) (t off n v : Nat) : (s.wrPool t off n v).lanes = s.lanes := rfl
@[simp] theorem State.wrPool_half (s : State) (t off n v : Nat) : (s.wrPool t off n v).half = s.half := rfl
@[simp] theorem State.wrPool_snap (s : State) (t off n v : Nat) : (s.wrPool t off n v).snap = s.snap := rfl
@[simp] theorem State.wrPool_pkg (s : State) (t off n v : Nat) : (s.wrPool t off n v).pkg = s.pkg := rfl
@[simp] theorem State.wrPool_links (s : State) (t off n v : Nat) : (s.wrPool t off n v).links = s.links := rfl
@[simp] theorem State.wrPool_outbox (s : State) (t off n v : Nat) : (s.wrPool t off n v).outbox = s.outbox := rfl
@[simp] theorem State.wrPool_partials (s : State) (t off n v : Nat) : (s.wrPool t off n v).partials = s.partials := rfl
@[simp] theorem State.wrPool_telcfg (s : State) (t off n v : Nat) : (s.wrPool t off n v).telcfg = s.telcfg := rfl
@[simp] theorem State.wrPool_telDropped (s : State) (t off n v : Nat) : (s.wrPool t off n v).telDropped = s.telDropped := rfl
@[simp] theorem State.wrPool_telLast (s : State) (t off n v : Nat) : (s.wrPool t off n v).telLast = s.telLast := rfl
@[simp] theorem State.wrPool_resetctl (s : State) (t off n v : Nat) : (s.wrPool t off n v).resetctl = s.resetctl := rfl
@[simp] theorem State.wrPool_resetWaits (s : State) (t off n v : Nat) : (s.wrPool t off n v).resetWaits = s.resetWaits := rfl
@[simp] theorem State.wrPool_gcm (s : State) (t off n v : Nat) : (s.wrPool t off n v).gcm = s.gcm := rfl
@[simp] theorem State.wrPool_xts (s : State) (t off n v : Nat) : (s.wrPool t off n v).xts = s.xts := rfl
@[simp] theorem State.wrPool_tdis (s : State) (t off n v : Nat) : (s.wrPool t off n v).tdis = s.tdis := rfl
@[simp] theorem State.wrPool_fwActive (s : State) (t off n v : Nat) : (s.wrPool t off n v).fwActive = s.fwActive := rfl
@[simp] theorem State.wrPool_fwInactive (s : State) (t off n v : Nat) : (s.wrPool t off n v).fwInactive = s.fwInactive := rfl
@[simp] theorem State.wrPool_fwSwitch (s : State) (t off n v : Nat) : (s.wrPool t off n v).fwSwitch = s.fwSwitch := rfl
@[simp] theorem State.wrPool_fwPending (s : State) (t off n v : Nat) : (s.wrPool t off n v).fwPending = s.fwPending := rfl
@[simp] theorem State.wrPool_resets (s : State) (t off n v : Nat) : (s.wrPool t off n v).resets = s.resets := rfl
@[simp] theorem State.wrPool_laneUntil (s : State) (t off n v : Nat) : (s.wrPool t off n v).laneUntil = s.laneUntil := rfl
@[simp] theorem State.wrPool_errata (s : State) (t off n v : Nat) : (s.wrPool t off n v).errata = s.errata := rfl
@[simp] theorem State.wrPool_cfg (s : State) (t off n v : Nat) : (s.wrPool t off n v).cfg = s.cfg := rfl
@[simp] theorem State.wrPool_cache (s : State) (t off n v : Nat) : (s.wrPool t off n v).cache = s.cache := rfl
@[simp] theorem State.wrPool_installs (s : State) (t off n v : Nat) : (s.wrPool t off n v).installs = s.installs := rfl
@[simp] theorem State.wrPool_replies (s : State) (t off n v : Nat) : (s.wrPool t off n v).replies = s.replies := rfl
@[simp] theorem State.wrPool_tlps (s : State) (t off n v : Nat) : (s.wrPool t off n v).tlps = s.tlps := rfl
@[simp] theorem State.wrPool_pcieIn (s : State) (t off n v : Nat) : (s.wrPool t off n v).pcieIn = s.pcieIn := rfl
@[simp] theorem State.wrPool_pcieOut (s : State) (t off n v : Nat) : (s.wrPool t off n v).pcieOut = s.pcieOut := rfl
@[simp] theorem State.wrPool_hbmRead (s : State) (t off n v : Nat) : (s.wrPool t off n v).hbmRead = s.hbmRead := rfl
@[simp] theorem State.wrPool_hbmWritten (s : State) (t off n v : Nat) : (s.wrPool t off n v).hbmWritten = s.hbmWritten := rfl
@[simp] theorem State.wrPool_ucieRetries (s : State) (t off n v : Nat) : (s.wrPool t off n v).ucieRetries = s.ucieRetries := rfl
@[simp] theorem State.wrPool_trim (s : State) (t off n v : Nat) : (s.wrPool t off n v).trim = s.trim := rfl

/-! ### Zeroing a pool range -/

@[simp] theorem State.zeroPool_gclk (s : State) (t off n : Nat) : (s.zeroPool t off n).gclk = s.gclk := rfl
@[simp] theorem State.zeroPool_phase (s : State) (t off n : Nat) : (s.zeroPool t off n).phase = s.phase := rfl
@[simp] theorem State.zeroPool_agenda (s : State) (t off n : Nat) : (s.zeroPool t off n).agenda = s.agenda := rfl
@[simp] theorem State.zeroPool_env (s : State) (t off n : Nat) : (s.zeroPool t off n).env = s.env := rfl
@[simp] theorem State.zeroPool_free (s : State) (t off n : Nat) : (s.zeroPool t off n).free = s.free := rfl
@[simp] theorem State.zeroPool_fresh (s : State) (t off n : Nat) : (s.zeroPool t off n).fresh = s.fresh := rfl
@[simp] theorem State.zeroPool_bundle (s : State) (t off n : Nat) : (s.zeroPool t off n).bundle = s.bundle := rfl
@[simp] theorem State.zeroPool_seqs (s : State) (t off n : Nat) : (s.zeroPool t off n).seqs = s.seqs := rfl
@[simp] theorem State.zeroPool_ctxs (s : State) (t off n : Nat) : (s.zeroPool t off n).ctxs = s.ctxs := rfl
@[simp] theorem State.zeroPool_tiles (s : State) (t off n : Nat) : (s.zeroPool t off n).tiles = s.tiles := rfl
@[simp] theorem State.zeroPool_ttiles (s : State) (t off n : Nat) : (s.zeroPool t off n).ttiles = s.ttiles := rfl
@[simp] theorem State.zeroPool_pool (s : State) (t off n : Nat) : (s.zeroPool t off n).pool = tclear s.pool (poolKey t off) (poolKey t (off + n)) := rfl
@[simp] theorem State.zeroPool_poolGran (s : State) (t off n : Nat) : (s.zeroPool t off n).poolGran = tclear s.poolGran (granKey t off) (granKey t (off + n - 1) + 1) := rfl
@[simp] theorem State.zeroPool_hbm (s : State) (t off n : Nat) : (s.zeroPool t off n).hbm = s.hbm := rfl
@[simp] theorem State.zeroPool_hbmGran (s : State) (t off n : Nat) : (s.zeroPool t off n).hbmGran = s.hbmGran := rfl
@[simp] theorem State.zeroPool_hbmTag (s : State) (t off n : Nat) : (s.zeroPool t off n).hbmTag = s.hbmTag := rfl
@[simp] theorem State.zeroPool_zeroing (s : State) (t off n : Nat) : (s.zeroPool t off n).zeroing = s.zeroing := rfl
@[simp] theorem State.zeroPool_accs (s : State) (t off n : Nat) : (s.zeroPool t off n).accs = s.accs := rfl
@[simp] theorem State.zeroPool_books (s : State) (t off n : Nat) : (s.zeroPool t off n).books = s.books := rfl
@[simp] theorem State.zeroPool_parked (s : State) (t off n : Nat) : (s.zeroPool t off n).parked = s.parked := rfl
@[simp] theorem State.zeroPool_pending (s : State) (t off n : Nat) : (s.zeroPool t off n).pending = s.pending := rfl
@[simp] theorem State.zeroPool_flagsDue (s : State) (t off n : Nat) : (s.zeroPool t off n).flagsDue = s.flagsDue := rfl
@[simp] theorem State.zeroPool_tails (s : State) (t off n : Nat) : (s.zeroPool t off n).tails = s.tails := rfl
@[simp] theorem State.zeroPool_chains (s : State) (t off n : Nat) : (s.zeroPool t off n).chains = s.chains := rfl
@[simp] theorem State.zeroPool_tasks (s : State) (t off n : Nat) : (s.zeroPool t off n).tasks = s.tasks := rfl
@[simp] theorem State.zeroPool_lqs (s : State) (t off n : Nat) : (s.zeroPool t off n).lqs = s.lqs := rfl
@[simp] theorem State.zeroPool_schedcfg (s : State) (t off n : Nat) : (s.zeroPool t off n).schedcfg = s.schedcfg := rfl
@[simp] theorem State.zeroPool_tickK (s : State) (t off n : Nat) : (s.zeroPool t off n).tickK = s.tickK := rfl
@[simp] theorem State.zeroPool_tickNext (s : State) (t off n : Nat) : (s.zeroPool t off n).tickNext = s.tickNext := rfl
@[simp] theorem State.zeroPool_health (s : State) (t off n : Nat) : (s.zeroPool t off n).health = s.health := rfl
@[simp] theorem State.zeroPool_preq (s : State) (t off n : Nat) : (s.zeroPool t off n).preq = s.preq := rfl
@[simp] theorem State.zeroPool_tickstop (s : State) (t off n : Nat) : (s.zeroPool t off n).tickstop = s.tickstop := rfl
@[simp] theorem State.zeroPool_stopped (s : State) (t off n : Nat) : (s.zeroPool t off n).stopped = s.stopped := rfl
@[simp] theorem State.zeroPool_power (s : State) (t off n : Nat) : (s.zeroPool t off n).power = s.power := rfl
@[simp] theorem State.zeroPool_trcctl (s : State) (t off n : Nat) : (s.zeroPool t off n).trcctl = s.trcctl := rfl
@[simp] theorem State.zeroPool_trcPos (s : State) (t off n : Nat) : (s.zeroPool t off n).trcPos = s.trcPos := rfl
@[simp] theorem State.zeroPool_ftbase (s : State) (t off n : Nat) : (s.zeroPool t off n).ftbase = s.ftbase := rfl
@[simp] theorem State.zeroPool_tlb (s : State) (t off n : Nat) : (s.zeroPool t off n).tlb = s.tlb := rfl
@[simp] theorem State.zeroPool_lanes (s : State) (t off n : Nat) : (s.zeroPool t off n).lanes = s.lanes := rfl
@[simp] theorem State.zeroPool_half (s : State) (t off n : Nat) : (s.zeroPool t off n).half = s.half := rfl
@[simp] theorem State.zeroPool_snap (s : State) (t off n : Nat) : (s.zeroPool t off n).snap = s.snap := rfl
@[simp] theorem State.zeroPool_pkg (s : State) (t off n : Nat) : (s.zeroPool t off n).pkg = s.pkg := rfl
@[simp] theorem State.zeroPool_links (s : State) (t off n : Nat) : (s.zeroPool t off n).links = s.links := rfl
@[simp] theorem State.zeroPool_outbox (s : State) (t off n : Nat) : (s.zeroPool t off n).outbox = s.outbox := rfl
@[simp] theorem State.zeroPool_partials (s : State) (t off n : Nat) : (s.zeroPool t off n).partials = s.partials := rfl
@[simp] theorem State.zeroPool_telcfg (s : State) (t off n : Nat) : (s.zeroPool t off n).telcfg = s.telcfg := rfl
@[simp] theorem State.zeroPool_telDropped (s : State) (t off n : Nat) : (s.zeroPool t off n).telDropped = s.telDropped := rfl
@[simp] theorem State.zeroPool_telLast (s : State) (t off n : Nat) : (s.zeroPool t off n).telLast = s.telLast := rfl
@[simp] theorem State.zeroPool_resetctl (s : State) (t off n : Nat) : (s.zeroPool t off n).resetctl = s.resetctl := rfl
@[simp] theorem State.zeroPool_resetWaits (s : State) (t off n : Nat) : (s.zeroPool t off n).resetWaits = s.resetWaits := rfl
@[simp] theorem State.zeroPool_gcm (s : State) (t off n : Nat) : (s.zeroPool t off n).gcm = s.gcm := rfl
@[simp] theorem State.zeroPool_xts (s : State) (t off n : Nat) : (s.zeroPool t off n).xts = s.xts := rfl
@[simp] theorem State.zeroPool_tdis (s : State) (t off n : Nat) : (s.zeroPool t off n).tdis = s.tdis := rfl
@[simp] theorem State.zeroPool_fwActive (s : State) (t off n : Nat) : (s.zeroPool t off n).fwActive = s.fwActive := rfl
@[simp] theorem State.zeroPool_fwInactive (s : State) (t off n : Nat) : (s.zeroPool t off n).fwInactive = s.fwInactive := rfl
@[simp] theorem State.zeroPool_fwSwitch (s : State) (t off n : Nat) : (s.zeroPool t off n).fwSwitch = s.fwSwitch := rfl
@[simp] theorem State.zeroPool_fwPending (s : State) (t off n : Nat) : (s.zeroPool t off n).fwPending = s.fwPending := rfl
@[simp] theorem State.zeroPool_resets (s : State) (t off n : Nat) : (s.zeroPool t off n).resets = s.resets := rfl
@[simp] theorem State.zeroPool_laneUntil (s : State) (t off n : Nat) : (s.zeroPool t off n).laneUntil = s.laneUntil := rfl
@[simp] theorem State.zeroPool_errata (s : State) (t off n : Nat) : (s.zeroPool t off n).errata = s.errata := rfl
@[simp] theorem State.zeroPool_cfg (s : State) (t off n : Nat) : (s.zeroPool t off n).cfg = s.cfg := rfl
@[simp] theorem State.zeroPool_cache (s : State) (t off n : Nat) : (s.zeroPool t off n).cache = s.cache := rfl
@[simp] theorem State.zeroPool_installs (s : State) (t off n : Nat) : (s.zeroPool t off n).installs = s.installs := rfl
@[simp] theorem State.zeroPool_replies (s : State) (t off n : Nat) : (s.zeroPool t off n).replies = s.replies := rfl
@[simp] theorem State.zeroPool_tlps (s : State) (t off n : Nat) : (s.zeroPool t off n).tlps = s.tlps := rfl
@[simp] theorem State.zeroPool_pcieIn (s : State) (t off n : Nat) : (s.zeroPool t off n).pcieIn = s.pcieIn := rfl
@[simp] theorem State.zeroPool_pcieOut (s : State) (t off n : Nat) : (s.zeroPool t off n).pcieOut = s.pcieOut := rfl
@[simp] theorem State.zeroPool_hbmRead (s : State) (t off n : Nat) : (s.zeroPool t off n).hbmRead = s.hbmRead := rfl
@[simp] theorem State.zeroPool_hbmWritten (s : State) (t off n : Nat) : (s.zeroPool t off n).hbmWritten = s.hbmWritten := rfl
@[simp] theorem State.zeroPool_ucieRetries (s : State) (t off n : Nat) : (s.zeroPool t off n).ucieRetries = s.ucieRetries := rfl
@[simp] theorem State.zeroPool_trim (s : State) (t off n : Nat) : (s.zeroPool t off n).trim = s.trim := rfl

/-! ### Zeroing an HBM range -/

@[simp] theorem State.zeroHbm_gclk (s : State) (a n : Nat) : (s.zeroHbm a n).gclk = s.gclk := rfl
@[simp] theorem State.zeroHbm_phase (s : State) (a n : Nat) : (s.zeroHbm a n).phase = s.phase := rfl
@[simp] theorem State.zeroHbm_agenda (s : State) (a n : Nat) : (s.zeroHbm a n).agenda = s.agenda := rfl
@[simp] theorem State.zeroHbm_env (s : State) (a n : Nat) : (s.zeroHbm a n).env = s.env := rfl
@[simp] theorem State.zeroHbm_free (s : State) (a n : Nat) : (s.zeroHbm a n).free = s.free := rfl
@[simp] theorem State.zeroHbm_fresh (s : State) (a n : Nat) : (s.zeroHbm a n).fresh = s.fresh := rfl
@[simp] theorem State.zeroHbm_bundle (s : State) (a n : Nat) : (s.zeroHbm a n).bundle = s.bundle := rfl
@[simp] theorem State.zeroHbm_seqs (s : State) (a n : Nat) : (s.zeroHbm a n).seqs = s.seqs := rfl
@[simp] theorem State.zeroHbm_ctxs (s : State) (a n : Nat) : (s.zeroHbm a n).ctxs = s.ctxs := rfl
@[simp] theorem State.zeroHbm_tiles (s : State) (a n : Nat) : (s.zeroHbm a n).tiles = s.tiles := rfl
@[simp] theorem State.zeroHbm_ttiles (s : State) (a n : Nat) : (s.zeroHbm a n).ttiles = s.ttiles := rfl
@[simp] theorem State.zeroHbm_pool (s : State) (a n : Nat) : (s.zeroHbm a n).pool = s.pool := rfl
@[simp] theorem State.zeroHbm_poolGran (s : State) (a n : Nat) : (s.zeroHbm a n).poolGran = s.poolGran := rfl
@[simp] theorem State.zeroHbm_hbm (s : State) (a n : Nat) : (s.zeroHbm a n).hbm = tclear s.hbm a (a + n) := rfl
@[simp] theorem State.zeroHbm_hbmGran (s : State) (a n : Nat) : (s.zeroHbm a n).hbmGran = tclear s.hbmGran (a / 64) ((a + n + 63) / 64) := rfl
@[simp] theorem State.zeroHbm_hbmTag (s : State) (a n : Nat) : (s.zeroHbm a n).hbmTag = tclear s.hbmTag (a / 64) ((a + n + 63) / 64) := rfl
@[simp] theorem State.zeroHbm_zeroing (s : State) (a n : Nat) : (s.zeroHbm a n).zeroing = s.zeroing := rfl
@[simp] theorem State.zeroHbm_accs (s : State) (a n : Nat) : (s.zeroHbm a n).accs = s.accs := rfl
@[simp] theorem State.zeroHbm_books (s : State) (a n : Nat) : (s.zeroHbm a n).books = s.books := rfl
@[simp] theorem State.zeroHbm_parked (s : State) (a n : Nat) : (s.zeroHbm a n).parked = s.parked := rfl
@[simp] theorem State.zeroHbm_pending (s : State) (a n : Nat) : (s.zeroHbm a n).pending = s.pending := rfl
@[simp] theorem State.zeroHbm_flagsDue (s : State) (a n : Nat) : (s.zeroHbm a n).flagsDue = s.flagsDue := rfl
@[simp] theorem State.zeroHbm_tails (s : State) (a n : Nat) : (s.zeroHbm a n).tails = s.tails := rfl
@[simp] theorem State.zeroHbm_chains (s : State) (a n : Nat) : (s.zeroHbm a n).chains = s.chains := rfl
@[simp] theorem State.zeroHbm_tasks (s : State) (a n : Nat) : (s.zeroHbm a n).tasks = s.tasks := rfl
@[simp] theorem State.zeroHbm_lqs (s : State) (a n : Nat) : (s.zeroHbm a n).lqs = s.lqs := rfl
@[simp] theorem State.zeroHbm_schedcfg (s : State) (a n : Nat) : (s.zeroHbm a n).schedcfg = s.schedcfg := rfl
@[simp] theorem State.zeroHbm_tickK (s : State) (a n : Nat) : (s.zeroHbm a n).tickK = s.tickK := rfl
@[simp] theorem State.zeroHbm_tickNext (s : State) (a n : Nat) : (s.zeroHbm a n).tickNext = s.tickNext := rfl
@[simp] theorem State.zeroHbm_health (s : State) (a n : Nat) : (s.zeroHbm a n).health = s.health := rfl
@[simp] theorem State.zeroHbm_preq (s : State) (a n : Nat) : (s.zeroHbm a n).preq = s.preq := rfl
@[simp] theorem State.zeroHbm_tickstop (s : State) (a n : Nat) : (s.zeroHbm a n).tickstop = s.tickstop := rfl
@[simp] theorem State.zeroHbm_stopped (s : State) (a n : Nat) : (s.zeroHbm a n).stopped = s.stopped := rfl
@[simp] theorem State.zeroHbm_power (s : State) (a n : Nat) : (s.zeroHbm a n).power = s.power := rfl
@[simp] theorem State.zeroHbm_trcctl (s : State) (a n : Nat) : (s.zeroHbm a n).trcctl = s.trcctl := rfl
@[simp] theorem State.zeroHbm_trcPos (s : State) (a n : Nat) : (s.zeroHbm a n).trcPos = s.trcPos := rfl
@[simp] theorem State.zeroHbm_ftbase (s : State) (a n : Nat) : (s.zeroHbm a n).ftbase = s.ftbase := rfl
@[simp] theorem State.zeroHbm_tlb (s : State) (a n : Nat) : (s.zeroHbm a n).tlb = s.tlb := rfl
@[simp] theorem State.zeroHbm_lanes (s : State) (a n : Nat) : (s.zeroHbm a n).lanes = s.lanes := rfl
@[simp] theorem State.zeroHbm_half (s : State) (a n : Nat) : (s.zeroHbm a n).half = s.half := rfl
@[simp] theorem State.zeroHbm_snap (s : State) (a n : Nat) : (s.zeroHbm a n).snap = s.snap := rfl
@[simp] theorem State.zeroHbm_pkg (s : State) (a n : Nat) : (s.zeroHbm a n).pkg = s.pkg := rfl
@[simp] theorem State.zeroHbm_links (s : State) (a n : Nat) : (s.zeroHbm a n).links = s.links := rfl
@[simp] theorem State.zeroHbm_outbox (s : State) (a n : Nat) : (s.zeroHbm a n).outbox = s.outbox := rfl
@[simp] theorem State.zeroHbm_partials (s : State) (a n : Nat) : (s.zeroHbm a n).partials = s.partials := rfl
@[simp] theorem State.zeroHbm_telcfg (s : State) (a n : Nat) : (s.zeroHbm a n).telcfg = s.telcfg := rfl
@[simp] theorem State.zeroHbm_telDropped (s : State) (a n : Nat) : (s.zeroHbm a n).telDropped = s.telDropped := rfl
@[simp] theorem State.zeroHbm_telLast (s : State) (a n : Nat) : (s.zeroHbm a n).telLast = s.telLast := rfl
@[simp] theorem State.zeroHbm_resetctl (s : State) (a n : Nat) : (s.zeroHbm a n).resetctl = s.resetctl := rfl
@[simp] theorem State.zeroHbm_resetWaits (s : State) (a n : Nat) : (s.zeroHbm a n).resetWaits = s.resetWaits := rfl
@[simp] theorem State.zeroHbm_gcm (s : State) (a n : Nat) : (s.zeroHbm a n).gcm = s.gcm := rfl
@[simp] theorem State.zeroHbm_xts (s : State) (a n : Nat) : (s.zeroHbm a n).xts = s.xts := rfl
@[simp] theorem State.zeroHbm_tdis (s : State) (a n : Nat) : (s.zeroHbm a n).tdis = s.tdis := rfl
@[simp] theorem State.zeroHbm_fwActive (s : State) (a n : Nat) : (s.zeroHbm a n).fwActive = s.fwActive := rfl
@[simp] theorem State.zeroHbm_fwInactive (s : State) (a n : Nat) : (s.zeroHbm a n).fwInactive = s.fwInactive := rfl
@[simp] theorem State.zeroHbm_fwSwitch (s : State) (a n : Nat) : (s.zeroHbm a n).fwSwitch = s.fwSwitch := rfl
@[simp] theorem State.zeroHbm_fwPending (s : State) (a n : Nat) : (s.zeroHbm a n).fwPending = s.fwPending := rfl
@[simp] theorem State.zeroHbm_resets (s : State) (a n : Nat) : (s.zeroHbm a n).resets = s.resets := rfl
@[simp] theorem State.zeroHbm_laneUntil (s : State) (a n : Nat) : (s.zeroHbm a n).laneUntil = s.laneUntil := rfl
@[simp] theorem State.zeroHbm_errata (s : State) (a n : Nat) : (s.zeroHbm a n).errata = s.errata := rfl
@[simp] theorem State.zeroHbm_cfg (s : State) (a n : Nat) : (s.zeroHbm a n).cfg = s.cfg := rfl
@[simp] theorem State.zeroHbm_cache (s : State) (a n : Nat) : (s.zeroHbm a n).cache = s.cache := rfl
@[simp] theorem State.zeroHbm_installs (s : State) (a n : Nat) : (s.zeroHbm a n).installs = s.installs := rfl
@[simp] theorem State.zeroHbm_replies (s : State) (a n : Nat) : (s.zeroHbm a n).replies = s.replies := rfl
@[simp] theorem State.zeroHbm_tlps (s : State) (a n : Nat) : (s.zeroHbm a n).tlps = s.tlps := rfl
@[simp] theorem State.zeroHbm_pcieIn (s : State) (a n : Nat) : (s.zeroHbm a n).pcieIn = s.pcieIn := rfl
@[simp] theorem State.zeroHbm_pcieOut (s : State) (a n : Nat) : (s.zeroHbm a n).pcieOut = s.pcieOut := rfl
@[simp] theorem State.zeroHbm_hbmRead (s : State) (a n : Nat) : (s.zeroHbm a n).hbmRead = s.hbmRead := rfl
@[simp] theorem State.zeroHbm_hbmWritten (s : State) (a n : Nat) : (s.zeroHbm a n).hbmWritten = s.hbmWritten := rfl
@[simp] theorem State.zeroHbm_ucieRetries (s : State) (a n : Nat) : (s.zeroHbm a n).ucieRetries = s.ucieRetries := rfl
@[simp] theorem State.zeroHbm_trim (s : State) (a n : Nat) : (s.zeroHbm a n).trim = s.trim := rfl

end Sys2Proof.Machine
end

