-- ==== Sys2Proof/Laws/Table.lean ====
section
/-! SUPPORT. The laws of the sparse tables: reads after writes, and the canonical form that every operation keeps. -/

namespace Sys2Proof

variable {α : Type}

/-! ### Order -/

theorem tsortedFrom_cons {lo k : Nat} {v : α} {t : Table α} :
    tsortedFrom lo ((k, v) :: t) = true ↔ lo ≤ k ∧ tsortedFrom (k + 1) t = true := by
  simp [tsortedFrom]

theorem tsortedFrom_le {lo lo' : Nat} {t : Table α} (h : lo ≤ lo') (w : tsortedFrom lo' t = true) : tsortedFrom lo t = true := by
  cases t with
  | nil => rfl
  | cons e t => obtain ⟨k, v⟩ := e; rw [tsortedFrom_cons] at *; exact ⟨by omega, w.2⟩

/-- A key below every key of a table is not listed. -/
theorem tget_below (d : α) {t : Table α} {lo n : Nat} (w : tsortedFrom lo t = true) (h : n < lo) : tget d t n = d := by
  induction t generalizing lo with
  | nil => rfl
  | cons e t ih =>
    obtain ⟨k, v⟩ := e
    rw [tsortedFrom_cons] at w
    rw [tget, if_neg (by omega)]
    exact ih w.2 (by omega)

/-! ### Writing -/

theorem tput_sorted {t : Table α} {lo n : Nat} (v : α) (h : lo ≤ n) (w : tsortedFrom lo t = true) :
    tsortedFrom lo (tput t n v) = true := by
  induction t generalizing lo with
  | nil => simp [tput, tsortedFrom, h]
  | cons e t ih =>
    obtain ⟨k, u⟩ := e
    rw [tsortedFrom_cons] at w
    unfold tput
    split
    · simp [tsortedFrom, h, w.2]; omega
    · split
      · next h2 => subst h2; simp [tsortedFrom, h, w.2]
      · rw [tsortedFrom_cons]; exact ⟨w.1, ih (by omega) w.2⟩

theorem terase_sorted {t : Table α} {lo n : Nat} (w : tsortedFrom lo t = true) : tsortedFrom lo (terase t n) = true := by
  induction t generalizing lo with
  | nil => rfl
  | cons e t ih =>
    obtain ⟨k, u⟩ := e
    rw [tsortedFrom_cons] at w
    unfold terase
    split
    · exact tsortedFrom_le (by omega) (ih w.2)
    · rw [tsortedFrom_cons]; exact ⟨w.1, ih w.2⟩

theorem tclear_sorted {t : Table α} {lo a b : Nat} (w : tsortedFrom lo t = true) : tsortedFrom lo (tclear t a b) = true := by
  induction t generalizing lo with
  | nil => rfl
  | cons e t ih =>
    obtain ⟨k, u⟩ := e
    rw [tsortedFrom_cons] at w
    unfold tclear
    split
    · exact tsortedFrom_le (by omega) (ih w.2)
    · rw [tsortedFrom_cons]; exact ⟨w.1, ih w.2⟩

theorem mem_tput {t : Table α} {n : Nat} {v : α} {e : Nat × α} (h : e ∈ tput t n v) : e = (n, v) ∨ e ∈ t := by
  induction t with
  | nil => simpa [tput] using h
  | cons f t ih =>
    obtain ⟨k, u⟩ := f
    unfold tput at h
    split at h
    · simpa using h
    · split at h
      · simp only [List.mem_cons] at h ⊢; tauto
      · simp only [List.mem_cons] at h ⊢; rcases h with h | h
        · tauto
        · rcases ih h with h | h <;> tauto

theorem mem_terase {t : Table α} {n : Nat} {e : Nat × α} (h : e ∈ terase t n) : e ∈ t := by
  induction t with
  | nil => simp [terase] at h
  | cons f t ih =>
    obtain ⟨k, u⟩ := f
    unfold terase at h
    split at h
    · exact List.mem_cons_of_mem _ (ih h)
    · simp only [List.mem_cons] at h ⊢; rcases h with h | h
      · tauto
      · exact .inr (ih h)

theorem mem_tclear {t : Table α} {a b : Nat} {e : Nat × α} (h : e ∈ tclear t a b) : e ∈ t := by
  induction t with
  | nil => simp [tclear] at h
  | cons f t ih =>
    obtain ⟨k, u⟩ := f
    unfold tclear at h
    split at h
    · exact List.mem_cons_of_mem _ (ih h)
    · simp only [List.mem_cons] at h ⊢; rcases h with h | h
      · tauto
      · exact .inr (ih h)

/-! ### The canonical form -/

variable [DecidableEq α]

theorem twf_iff {d : α} {t : Table α} : twf d t = true ↔ tsortedFrom 0 t = true ∧ ∀ e ∈ t, e.2 ≠ d := by
  simp [twf, List.all_eq_true]

/-- Writing one entry keeps the canonical form. -/
theorem twf_tset {d : α} {t : Table α} (w : twf d t = true) (n : Nat) (v : α) : twf d (tset d t n v) = true := by
  rw [twf_iff] at *
  unfold tset
  split
  · exact ⟨terase_sorted w.1, fun e h => w.2 e (mem_terase h)⟩
  · next hv =>
    refine ⟨tput_sorted v (Nat.zero_le _) w.1, fun e h => ?_⟩
    rcases mem_tput h with rfl | h
    · exact hv
    · exact w.2 e h

/-- Clearing a range keeps the canonical form. -/
theorem twf_tclear {d : α} {t : Table α} (w : twf d t = true) (a b : Nat) : twf d (tclear t a b) = true := by
  rw [twf_iff] at *
  exact ⟨tclear_sorted w.1, fun e h => w.2 e (mem_tclear h)⟩

/-- A fold whose steps keep the canonical form keeps it. -/
theorem twf_foldl {β : Type} {d : α} {f : Table α → β → Table α} (hf : ∀ m b, twf d m = true → twf d (f m b) = true)
    (l : List β) {t : Table α} (w : twf d t = true) : twf d (l.foldl f t) = true := by
  induction l generalizing t with
  | nil => exact w
  | cons b l ih => exact ih (hf t b w)

/-- Writing a list of entries keeps the canonical form. -/
theorem twf_tputAll {d : α} {t : Table α} (w : twf d t = true) (es : Table α) : twf d (tputAll d t es) = true :=
  twf_foldl (fun _ _ h => twf_tset h _ _) es w

/-! ### Reads after writes -/

omit [DecidableEq α] in
theorem tget_tput (d : α) (t : Table α) (n m : Nat) (v : α) :
    tget d (tput t n v) m = if n = m then v else tget d t m := by
  induction t with
  | nil => simp [tput, tget]
  | cons e t ih =>
    obtain ⟨k, u⟩ := e
    unfold tput
    split
    · rw [tget]
    · split
      · next h1 h2 =>
        subst h2
        by_cases h : n = m <;> simp [tget, h]
      · next h1 h2 =>
        rw [tget, ih, tget]
        by_cases hk : k = m
        · rw [if_pos hk, if_neg (by omega), if_pos hk]
        · rw [if_neg hk, if_neg hk]

omit [DecidableEq α] in
@[simp] theorem tget_tput_same (d : α) (t : Table α) (n : Nat) (v : α) : tget d (tput t n v) n = v := by
  rw [tget_tput, if_pos rfl]

omit [DecidableEq α] in
theorem tget_tput_other (d : α) (t : Table α) {n m : Nat} (v : α) (h : n ≠ m) : tget d (tput t n v) m = tget d t m := by
  rw [tget_tput, if_neg h]

omit [DecidableEq α] in
theorem tget_terase (d : α) (t : Table α) (n m : Nat) : tget d (terase t n) m = if n = m then d else tget d t m := by
  induction t with
  | nil => simp [terase, tget]
  | cons e t ih =>
    obtain ⟨k, u⟩ := e
    unfold terase
    split
    · next h =>
      subst h; rw [ih, tget]
      by_cases hm : k = m <;> simp [hm]
    · next h =>
      rw [tget, ih, tget]
      by_cases hk : k = m
      · rw [if_pos hk, if_pos hk, if_neg (by omega)]
      · rw [if_neg hk, if_neg hk]

/-- A read after a write gives what was written at its key, and what stood there before elsewhere. -/
theorem tget_tset (d : α) (t : Table α) (n m : Nat) (v : α) :
    tget d (tset d t n v) m = if n = m then v else tget d t m := by
  unfold tset
  split
  · next h => subst h; exact tget_terase v t n m
  · exact tget_tput d t n m v

@[simp] theorem tget_tset_same (d : α) (t : Table α) (n : Nat) (v : α) : tget d (tset d t n v) n = v := by
  rw [tget_tset, if_pos rfl]

theorem tget_tset_other (d : α) (t : Table α) {n m : Nat} (v : α) (h : n ≠ m) :
    tget d (tset d t n v) m = tget d t m := by
  rw [tget_tset, if_neg h]

omit [DecidableEq α] in
/-- After a range is cleared, its keys read the default and every other key reads as before. -/
theorem tget_tclear (d : α) (t : Table α) (a b m : Nat) :
    tget d (tclear t a b) m = if a ≤ m ∧ m < b then d else tget d t m := by
  induction t with
  | nil => simp [tclear, tget]
  | cons e t ih =>
    obtain ⟨k, u⟩ := e
    unfold tclear
    split
    · next h =>
      rw [ih, tget]
      by_cases hk : k = m
      · subst hk; simp [h]
      · rw [if_neg hk]
    · next h =>
      rw [tget, ih, tget]
      by_cases hk : k = m
      · subst hk; rw [if_pos rfl, if_pos rfl, if_neg h]
      · rw [if_neg hk, if_neg hk]

end Sys2Proof
end

