-- ==== Sys2Proof/Laws/Memory.lean ====
section
/-! SUPPORT. The memories: a read after a write gives what was written, a write leaves every other byte alone, and every memory
operation keeps the canonical form. -/

namespace Sys2Proof.Machine

/-! ### Bytes of one memory -/

/-- Byte i of a number. -/
def byteAt (v i : Nat) : Byte := BitVec.ofNat 8 (v / 256 ^ i)

/-- Every byte after a write of n bytes. -/
theorem tget_wrBytes (m : Table Byte) (a n v k : Nat) :
    tget 0 (wrBytes m a n v) k = if a ≤ k ∧ k < a + n then byteAt v (k - a) else tget 0 m k := by
  induction n generalizing m a v with
  | zero => rw [wrBytes, if_neg (by omega)]
  | succ n ih =>
    rw [wrBytes, ih, tget_tset]
    by_cases h : a = k
    · subst h; simp [byteAt]
    · by_cases h1 : a + 1 ≤ k ∧ k < a + 1 + n
      · rw [if_pos h1, if_pos (by omega), byteAt, byteAt, Nat.div_div_eq_div_mul,
          show k - a = k - (a + 1) + 1 by omega, Nat.pow_succ']
      · rw [if_neg h1, if_neg h, if_neg (by omega)]

/-- A write leaves the bytes outside its range alone. -/
theorem tget_wrBytes_other (m : Table Byte) {a n k : Nat} (v : Nat) (h : ¬(a ≤ k ∧ k < a + n)) :
    tget 0 (wrBytes m a n v) k = tget 0 m k := by rw [tget_wrBytes, if_neg h]

/-- A read depends on the bytes of its range alone. -/
theorem rdBytes_congr {m m' : Table Byte} {a n : Nat} (h : ∀ k, a ≤ k → k < a + n → tget 0 m' k = tget 0 m k) :
    rdBytes m' a n = rdBytes m a n := by
  induction n generalizing a with
  | zero => rfl
  | succ n ih =>
    rw [rdBytes, rdBytes, h a (by omega) (by omega), ih (fun k h1 h2 => h k (by omega) (by omega))]

/-- A read of what was written gives its low bytes. -/
theorem rdBytes_wrBytes (m : Table Byte) (a n v : Nat) : rdBytes (wrBytes m a n v) a n = v % 256 ^ n := by
  induction n generalizing m a v with
  | zero => simp [rdBytes, Nat.mod_one]
  | succ n ih =>
    have h0 : tget 0 (wrBytes m a (n + 1) v) a = byteAt v 0 := by
      rw [tget_wrBytes, if_pos (by omega), Nat.sub_self]
    have h1 : (byteAt v 0).toNat = v % 256 := by
      rw [byteAt, BitVec.toNat_ofNat, Nat.pow_zero, Nat.div_one, show (2 ^ 8 : Nat) = 256 by norm_num]
    rw [rdBytes, h0, h1, wrBytes, ih, Nat.pow_succ', Nat.mod_mul]

/-- A read outside a write's range gives what it gave before. -/
theorem rdBytes_wrBytes_other (m : Table Byte) {a n b k : Nat} (v : Nat) (h : b + k ≤ a ∨ a + n ≤ b) :
    rdBytes (wrBytes m a n v) b k = rdBytes m b k :=
  rdBytes_congr (fun j h1 h2 => tget_wrBytes_other m v (by omega))

/-! ### The canonical form -/

theorem wf_wrBytes {m : Memory} (h : Memory.wf m = true) (a n v : Nat) : Memory.wf (wrBytes m a n v) = true := by
  induction n generalizing m a v with
  | zero => exact h
  | succ n ih => exact ih (twf_tset h _ _) _ _

theorem wf_wrList {m : Memory} (h : Memory.wf m = true) (a : Nat) (l : List Byte) : Memory.wf (wrList m a l) = true := by
  induction l generalizing m a with
  | nil => exact h
  | cons b l ih => exact ih (twf_tset h _ _) _

theorem wf_tclear {m : Memory} (h : Memory.wf m = true) (a b : Nat) : Memory.wf (tclear m a b) = true := twf_tclear h a b

theorem wf_tputAll {m : Memory} (h : Memory.wf m = true) (es : Table Byte) : Memory.wf (tputAll 0 m es) = true :=
  twf_tputAll h es

/-- Both memories of the package are in canonical form. -/
def MemoryWf (s : State) : Prop := Memory.wf s.pool = true ∧ Memory.wf s.hbm = true

theorem reset_memoryWf : MemoryWf State.reset := ⟨rfl, rfl⟩

/-- An update of the state that leaves both memories as they are keeps their form. -/
theorem MemoryWf.same {s t : State} (h : MemoryWf s) (hp : t.pool = s.pool) (hh : t.hbm = s.hbm) : MemoryWf t :=
  ⟨by rw [hp]; exact h.1, by rw [hh]; exact h.2⟩

theorem MemoryWf.wrPool {s : State} (h : MemoryWf s) (t off n v : Nat) : MemoryWf (s.wrPool t off n v) :=
  ⟨wf_wrBytes h.1 _ _ _, h.2⟩

theorem MemoryWf.zeroPool {s : State} (h : MemoryWf s) (t off n : Nat) : MemoryWf (s.zeroPool t off n) :=
  ⟨wf_tclear h.1 _ _, h.2⟩

theorem MemoryWf.zeroHbm {s : State} (h : MemoryWf s) (a n : Nat) : MemoryWf (s.zeroHbm a n) :=
  ⟨h.1, wf_tclear h.2 _ _⟩

/-- A fold of operations that keep the form keeps it. -/
theorem MemoryWf.foldl {β : Type} {f : State → β → State} (hf : ∀ s b, MemoryWf s → MemoryWf (f s b)) (l : List β) {s : State}
    (h : MemoryWf s) : MemoryWf (l.foldl f s) := by
  induction l generalizing s with
  | nil => exact h
  | cons b l ih => exact ih (hf _ _ h)

/-- Zeroing ranges of HBM writes HBM, its marks and its tags alone. -/
theorem zeroAll_eq (l : List (Nat × Nat)) (s : State) : ∃ m g q,
    l.foldl (fun s r => s.zeroHbm r.1 r.2) s = { s with hbm := m, hbmGran := g, hbmTag := q } := by
  induction l generalizing s with
  | nil => exact ⟨_, _, _, rfl⟩
  | cons a l ih => obtain ⟨m, g, q, h⟩ := ih (s.zeroHbm a.1 a.2); exact ⟨m, g, q, h⟩

/-- What keeps zeroed frames zero writes HBM, its marks and its tags alone. -/
theorem keepZero_eq (s : State) : ∃ m g q, s.keepZero = { s with hbm := m, hbmGran := g, hbmTag := q } := zeroAll_eq s.zeroing s

/-- While no frame is being zeroed nothing is discarded. -/
theorem keepZero_none {s : State} (h : s.zeroing = []) : s.keepZero = s := by unfold State.keepZero; rw [h]; rfl

theorem MemoryWf.keepZero {s : State} (h : MemoryWf s) : MemoryWf s.keepZero :=
  MemoryWf.foldl (fun _ r hs => hs.zeroHbm r.1 r.2) _ h

theorem MemoryWf.wrHbm {s : State} (h : MemoryWf s) (a n v : Nat) : MemoryWf (s.wrHbm a n v) := by
  unfold State.wrHbm
  split
  · exact MemoryWf.keepZero ⟨h.1, wf_wrBytes h.2 _ _ _⟩
  · exact h

/-- A write to HBM that lies in it, while no frame is being zeroed, is read back. -/
theorem wrHbm_hbm {s : State} (h : s.zeroing = []) {a n : Nat} (hn : a + n ≤ hbmBytes) (v : Nat) :
    (s.wrHbm a n v).hbm = wrBytes s.hbm a n v := by
  rw [State.wrHbm, if_pos hn, keepZero_none (by exact h)]

/-- Marking granules touches neither memory. -/
theorem markWrite_memory (s : State) (t off n : Nat) (m : Mark) (comp : Option Bool) :
    (s.markWrite t off n m comp).pool = s.pool ∧ (s.markWrite t off n m comp).hbm = s.hbm := by
  unfold State.markWrite
  generalize granules off n = l
  induction l using List.reverseRecOn with
  | nil => exact ⟨rfl, rfl⟩
  | append_singleton l a ih => rw [List.foldl_append]; exact ih

theorem MemoryWf.store {s : State} (h : MemoryWf s) (t off n v : Nat) : MemoryWf (s.store t off n v) :=
  (h.wrPool t off n v).same (markWrite_memory ..).1 (markWrite_memory ..).2

/-! ### Stores (R257, R264, R348) -/

/-- What a store leaves in every byte of the pools. -/
theorem store_pool (s : State) (t off n v k : Nat) :
    tget 0 (s.store t off n v).pool k
      = if poolKey t off ≤ k ∧ k < poolKey t off + n then byteAt v (k - poolKey t off) else tget 0 s.pool k := by
  rw [State.store, (markWrite_memory ..).1, State.wrPool_pool, tget_wrBytes]

/-- A store writes no HBM. -/
theorem store_hbm (s : State) (t off n v : Nat) : (s.store t off n v).hbm = s.hbm := (markWrite_memory ..).2

end Sys2Proof.Machine
end

