-- ==== Sys2Proof/Laws/Ops.lean ====
section
/-! SUPPORT. What the shared operations of an issuing bundle do: reading sources, landing results, finding causes, staging. -/

namespace Sys2Proof.Machine

/-! ### Reading sources (R348) -/

/-- A source's mark changes nothing but the causes that the bundle has found. -/
theorem useMark_eq (s : State) (m : Mark) (n : Nat) :
    s.useMark m n = { s with bundle := { s.bundle with found := (s.useMark m n).bundle.found } } := by
  cases m <;> rfl

/-- What a source's mark shows. -/
theorem useMark_found (s : State) (m : Mark) (n : Nat) :
    (s.useMark m n).bundle.found = s.bundle.found ++ (match m with
      | .clean => []
      | .poison => [⟨1, s.bundle.focus, s.bundle.found.length, .poisonUse, BitVec.ofNat 64 n, 0⟩]
      | .ue => [⟨1, s.bundle.focus, s.bundle.found.length, .eccUe, BitVec.ofNat 64 n, 0⟩]) := by
  cases m <;> simp [State.useMark, State.find]

/-- Reading a list of sources changes nothing but the causes that the bundle has found. -/
theorem readAll_eq (s : State) (l : List SSrc) :
    readAll s l = { s with bundle := { s.bundle with found := (readAll s l).bundle.found } } := by
  induction l using List.reverseRecOn with
  | nil => rfl
  | append_singleton l a ih =>
    have h : readAll s (l ++ [a]) = (readAll s l).useS a := by simp [readAll]
    rw [h, State.useS, useMark_eq, ih]

/-- A source that holds no mark shows nothing. -/
theorem useS_clean {s : State} {a : SSrc} (h : (s.rdS a 0).mark = .clean) : s.useS a = s := by
  rw [State.useS, h]; rfl

/-- Causes found do not change what a source reads. -/
theorem rdS_found (s : State) (f : List Found) (a : SSrc) (imm : Word) :
    State.rdS { s with bundle := { s.bundle with found := f } } a imm = s.rdS a imm := by cases a <;> rfl

/-- A scalar result staged after its sources were read (R7, R87). -/
theorem landS_readAll (s : State) (l : List SSrc) (d : SDest) (v : Word) (lat : Nat) (fl : Flags) :
    (readAll s l).landS d v lat fl = landed s l d v lat fl := by
  have h := readAll_eq s l
  unfold landed
  generalize (readAll s l).bundle.found = f at *
  rw [h]
  rfl

theorem landS_nil (s : State) (d : SDest) (v : Word) (lat : Nat) (fl : Flags) :
    s.landS d v lat fl = landed s [] d v lat fl := landS_readAll s [] d v lat fl

theorem landS_one (s : State) (a : SSrc) (d : SDest) (v : Word) (lat : Nat) (fl : Flags) :
    (s.useS a).landS d v lat fl = landed s [a] d v lat fl := landS_readAll s [a] d v lat fl

theorem landS_two (s : State) (a b : SSrc) (d : SDest) (v : Word) (lat : Nat) (fl : Flags) :
    ((s.useS a).useS b).landS d v lat fl = landed s [a, b] d v lat fl := landS_readAll s [a, b] d v lat fl

theorem landS_three (s : State) (a b c : SSrc) (d : SDest) (v : Word) (lat : Nat) (fl : Flags) :
    (((s.useS a).useS b).useS c).landS d v lat fl = landed s [a, b, c] d v lat fl := landS_readAll s [a, b, c] d v lat fl

/-- An operation of one source stages its function's value (R87). -/
theorem scalar1_eq (s : State) (a : SSrc) (imm : Word) (d : SDest) (lat : Nat) (f : Word → Word × Flags) :
    scalar1 s a imm d lat f = .next (landed s [a] d (f (s.rdS a imm).val).1 lat (f (s.rdS a imm).val).2) := by
  rw [scalar1, landS_one]

/-- An operation of two sources stages its function's value (R87). -/
theorem scalar2_eq (s : State) (a b : SSrc) (imm : Word) (d : SDest) (lat : Nat) (f : Word → Word → Word × Flags) :
    scalar2 s a b imm d lat f = .next (landed s [a, b] d (f (s.rdS a imm).val (s.rdS b imm).val).1 lat
      (f (s.rdS a imm).val (s.rdS b imm).val).2) := by
  rw [scalar2, landS_two]

/-- A scalar operation of one source lands what its function gives. -/
theorem lands_scalar1 {s : State} {i : Instr} {a : SSrc} {imm : Word} {d : SDest} {lat : Nat} {f : Word → Word × Flags}
    {fl : Flags} {P : Word → Prop} (h : exec i s = scalar1 s a imm d lat f) (hf : (f (s.rdS a imm).val).2 = fl)
    (hP : P (f (s.rdS a imm).val).1) : Lands s i [a] d lat fl P := ⟨_, by rw [h, scalar1_eq, hf], hP⟩

/-- A scalar operation of two sources lands what its function gives. -/
theorem lands_scalar2 {s : State} {i : Instr} {a b : SSrc} {imm : Word} {d : SDest} {lat : Nat}
    {f : Word → Word → Word × Flags} {fl : Flags} {P : Word → Prop} (h : exec i s = scalar2 s a b imm d lat f)
    (hf : (f (s.rdS a imm).val (s.rdS b imm).val).2 = fl) (hP : P (f (s.rdS a imm).val (s.rdS b imm).val).1) :
    Lands s i [a, b] d lat fl P := ⟨_, by rw [h, scalar2_eq, hf], hP⟩

/-! ### Causes, effects and waits (R7, R22, R345) -/

theorem find_eq (s : State) (rank : Nat) (c : Cause) (v : Word) : s.find rank c v = showing s rank c v := rfl

theorem stage_eq (s : State) (n : Nat) (e : Eff) : s.stage n e = staged s n e := rfl

theorem waitFor_eq (s : State) (w : Wait) : s.waitFor w = waiting s w := rfl

end Sys2Proof.Machine
end

