-- ==== Sys2Proof/Laws/Vector.lean ====
section
/-! SUPPORT. What a unit of the cascade can do, and the elements of a vector that is put together from codes. -/

namespace Sys2Proof.Machine

/-! ### Elements -/

theorem packElems_lt (w : Nat) (l : List Nat) : packElems w l < 2 ^ (w * l.length) := by
  induction l with
  | nil => simp [packElems]
  | cons c l ih =>
    rw [packElems, List.length_cons, Nat.mul_succ, Nat.add_comm (w * l.length), Nat.pow_add]
    have h : c % 2 ^ w < 2 ^ w := Nat.mod_lt _ (Nat.two_pow_pos w)
    calc c % 2 ^ w + 2 ^ w * packElems w l < 2 ^ w + 2 ^ w * packElems w l := by omega
      _ = 2 ^ w * (packElems w l + 1) := by ring
      _ ≤ 2 ^ w * 2 ^ (w * l.length) := Nat.mul_le_mul_left _ ih

/-- The digits of a packed number. -/
theorem packElems_digit (w : Nat) (l : List Nat) (i : Nat) :
    packElems w l / 2 ^ (w * i) % 2 ^ w = l.getD i 0 % 2 ^ w := by
  induction l generalizing i with
  | nil => simp [packElems]
  | cons c l ih =>
    cases i with
    | zero => simp [packElems]
    | succ i =>
      rw [packElems, Nat.mul_succ, Nat.add_comm (w * i), Nat.pow_add, ← Nat.div_div_eq_div_mul,
        Nat.add_mul_div_left _ _ (Nat.two_pow_pos w), Nat.div_eq_of_lt (Nat.mod_lt _ (Nat.two_pow_pos w)), Nat.zero_add, ih]
      simp

/-- An element of a vector put together from codes. -/
theorem elemAt_vecOf {w i : Nat} (l : List Nat) (hl : w * l.length ≤ 4096) :
    elemAt w (vecOf w l) i = l.getD i 0 % 2 ^ w := by
  have h : packElems w l < 2 ^ 4096 := lt_of_lt_of_le (packElems_lt w l) (Nat.pow_le_pow_right (by norm_num) hl)
  rw [elemAt, vecOf, BitVec.toNat_ofNat, Nat.mod_eq_of_lt h, Nat.shiftRight_eq_div_pow, packElems_digit w l i]

/-- Widths and counts of the tags that are not VOID. -/
theorem esz_elems (t : Tag) : esz t * elems t ≤ 4096 := by
  unfold elems
  split
  · simp
  · exact Nat.mul_div_le _ _

/-- An element of a vector put together by element number. -/
theorem elements_vecOf {t : Tag} (f : Nat → Nat) :
    Elements (esz t) (elems t) (vecOf (esz t) ((List.range (elems t)).map f)) (fun i => f i % 2 ^ esz t) := by
  intro k hk
  rw [elemAt_vecOf _ (by rw [List.length_map, List.length_range]; exact esz_elems t)]
  simp [hk]

/-- Elements without flags set none. -/
theorem activeFlags_none (m : BitVec 128) (w : Nat) (l : List (Nat × Flags)) (h : ∀ p ∈ l, p.2 = Flags.none) :
    activeFlags m w l = Flags.none := by
  suffices hk : ∀ (k : Nat) (l : List (Nat × Flags)), (∀ p ∈ l, p.2 = Flags.none) →
      (l.zipIdx k).foldl (fun f p => if elemActive m w p.2 then f.or p.1.2 else f) Flags.none = Flags.none from hk 0 l h
  intro k l
  induction l generalizing k with
  | nil => simp
  | cons a l ih =>
    intro h
    rw [List.zipIdx_cons, List.foldl_cons, h a (by simp),
      show (if elemActive m w (a, k).2 then Flags.none.or Flags.none else Flags.none) = Flags.none by split <;> rfl]
    exact ih _ (fun p hp => h p (by simp [hp]))

/-- An element-wise operation of two inputs whose tags agree and are accepted. -/
theorem elem2_ok {acc : Tag → Bool} (out : Tag → Tag) (f : Tag → Nat → Nat → Nat → Nat × Flags) (n : Nat) (m : BitVec 128)
    {x z : Vec} (hv : x.tag ≠ tVOID) (hz : z.tag = x.tag) (ha : acc x.tag = true) :
    elem2 acc out f n m x (.ok z) =
      (let r := (List.range (elems x.tag)).map (fun i => f x.tag i (elemAt (esz x.tag) x.bits i) (elemAt (esz x.tag) z.bits i))
       .ok ([⟨out x.tag, vecOf (esz x.tag) (r.map Prod.fst), .clean⟩], activeFlags m (esz x.tag) r)) := by
  have h : tags2 n x z acc = none := by
    unfold tags2
    rw [if_neg (by rw [hz]; tauto), if_neg (by rw [hz]; simp [ha])]
  rw [elem2]; simp only; rw [h]

/-- An element-wise operation of one input whose tag is accepted. -/
theorem elem1_ok {acc : Tag → Bool} (f : Tag → Nat → Nat × Flags) (n : Nat) (m : BitVec 128) {x : Vec} (y : Except (Cause × Word) Vec)
    (hv : x.tag ≠ tVOID) (ha : acc x.tag = true) :
    elem1 acc f n m x y =
      (let r := (List.range (elems x.tag)).map (fun i => f x.tag (elemAt (esz x.tag) x.bits i))
       .ok ([⟨x.tag, vecOf (esz x.tag) (r.map Prod.fst), .clean⟩], activeFlags m (esz x.tag) r)) := by
  have h : tags1 n x acc = none := by unfold tags1; rw [if_neg hv, if_pos ha]
  rw [elem1, h]

/-! ### One unit -/

/-- Reading a vector source changes nothing but the causes that the bundle has found. -/
theorem useV_eq (s : State) (v : VSrc) :
    s.useV v = { s with bundle := { s.bundle with found := (s.useV v).bundle.found } } := useMark_eq s _ _

/-- The pipe and the causes of the bundle do not change what a vector source reads. -/
theorem rdV_pipe (s : State) (f : List Found) (p : VPipe) (v : VSrc) :
    State.rdV { s with bundle := { s.bundle with found := f, vpipe := p } } v = s.rdV v := by cases v <;> rfl

/-- Nor what the second input of a unit is. -/
theorem secondV_pipe (s : State) (f : List Found) (p : VPipe) (n : Nat) (x : Vec) (v : VSrc) :
    State.secondV { s with bundle := { s.bundle with found := f, vpipe := p } } n x v = s.secondV n x v := by
  unfold State.secondV; rw [rdV_pipe]

/-- Nor what the first input of the slot is. -/
theorem firstV_pipe (s : State) (f : List Found) (p : VPipe) (v : VSrc) (y : Option VSrc) :
    State.firstV { s with bundle := { s.bundle with found := f, vpipe := p } } v y = s.firstV v y := by
  unfold State.firstV; simp only [rdV_pipe]

/-- Landing a slot leaves the parts and the flags of the pipe, and stages one result. -/
theorem landSlot_spec (s : State) (u : VPos) (lat : Nat) :
    OnlyBundle s (s.landSlot u lat) ∧ (s.landSlot u lat).bundle.vpipe = s.bundle.vpipe
      ∧ ∃ f : Flight, (s.landSlot u lat).bundle.flights = s.bundle.flights ++ [f] ∧ f.remaining = lat + 1 := by
  unfold State.landSlot
  cases u.dest with
  | pred n => exact ⟨rfl, rfl, _, rfl, rfl⟩
  | queue => exact ⟨rfl, rfl, _, rfl, rfl⟩
  | w n =>
    dsimp only
    generalize List.map _ s.bundle.vpipe.parts = parts
    by_cases h1 : (s.landV (.w n) parts lat s.bundle.vpipe.flags false).regCount
        (s.landV (.w n) parts lat s.bundle.vpipe.flags false).ix (s.landV (.w n) parts lat s.bundle.vpipe.flags false).ic
          < n.toNat + parts.length
    · rw [if_pos h1]
      split
      · exact ⟨rfl, rfl, _, rfl, rfl⟩
      · exact ⟨rfl, rfl, _, rfl, rfl⟩
    · rw [if_neg h1]; exact ⟨rfl, rfl, _, rfl, rfl⟩

/-- Reading a unit's sources changes nothing but the causes found. -/
theorem unitRead_eq (s : State) (u : VPos) (y : Option VSrc) :
    s.unitRead u y = { s with bundle := { s.bundle with found := (s.unitRead u y).bundle.found } } := by
  unfold State.unitRead
  cases y with
  | none => dsimp only; split; exact useV_eq .. ; rfl
  | some v =>
    dsimp only; split
    · rw [useV_eq (s.useV v) u.a1, useV_eq s v]
    · exact useV_eq ..

/-- The state in which a unit works: the causes its sources show are found, and unit A has opened the pipe. -/
theorem unitOpen_eq (s : State) (u : VPos) (y : Option VSrc) (lanes sel : Bool) :
    s.unitOpen u y lanes sel = { s with bundle := { s.bundle with
      found := (s.unitRead u y).bundle.found
      vpipe := if u.unit = .a then ⟨Vec.void, [], Flags.none, lanes, sel⟩
        else { s.bundle.vpipe with mask := s.bundle.vpipe.mask || sel } } } := by
  unfold State.unitOpen
  rw [unitRead_eq]

/-- Results that all succeed. -/
theorem unit_ok (out : Vec → Vec) (fl : Vec → Flags) (xs : List Vec) (g : Flags) :
    unitFail (xs.map (fun x => (.ok ([out x], fl x) : UnitRes))) = none
      ∧ unitOut (xs.map (fun x => (.ok ([out x], fl x) : UnitRes))) = xs.map out
      ∧ unitFlagsOut g (xs.map (fun x => (.ok ([out x], fl x) : UnitRes))) = xs.foldl (fun a x => a.or (fl x)) g := by
  refine ⟨?_, ?_, ?_⟩
  · simp [unitFail, List.findSome?_eq_none_iff]
  · simp [unitOut, List.flatMap_map, ← List.map_eq_flatMap]
  · simp [unitFlagsOut, List.foldl_map]

/-- A unit operation whose function succeeds on every part gives its results (R157). -/
theorem unitGives_lanes {s : State} {i : Instr} {u : VPos} {y : Option VSrc} {lanes trans sel : Bool} {m : BitVec 128}
    {f : Nat → BitVec 128 → Vec → Except (Cause × Word) Vec → UnitRes} {xs : List Vec} {P : Vec → Vec → Prop}
    (h : exec i s = unitStep s u y lanes trans sel f) (hm : (s.unitOpen u y lanes sel).activeLanes u = m) (hin : s.unitIn u y = .ok xs) (out : Vec → Vec) (fl : Vec → Flags)
    (hf : ∀ x ∈ xs, f (unitNo u.unit) m x (s.unitSecondIn u x y) = .ok ([out x], fl x))
    (hP : ∀ x ∈ xs, P x (out x)) : UnitGives s i u xs (if trans then 10 else 6) fl P := by
  have hmap : xs.map (fun x => f (unitNo u.unit) ((s.unitOpen u y lanes sel).activeLanes u) x (s.unitSecondIn u x y))
      = xs.map (fun x => .ok ([out x], fl x)) := List.map_congr_left (fun x hx => by rw [hm, hf x hx])
  have hv : (s.unitOpen u y lanes sel).bundle.vpipe.flags = unitFlags s u := by
    rw [unitOpen_eq]; unfold unitFlags; by_cases ha : u.unit = .a <;> simp [ha]
  have ho : OnlyBundle s (s.unitOpen u y lanes sel) := by rw [unitOpen_eq]; rfl
  have hfl : (s.unitOpen u y lanes sel).bundle.flights = s.bundle.flights := by rw [unitOpen_eq]
  have hex : u.unit = .c → (s.unitOpen u y lanes sel).bundle.vpipe.extra = s.bundle.vpipe.extra := by
    intro hc; rw [unitOpen_eq]; simp [hc, VPipe.extra]
  rw [unitStep, hin] at h
  simp only [hmap] at h
  rw [(unit_ok out fl xs Flags.none).1] at h
  simp only [(unit_ok out fl xs Flags.none).2.1, (unit_ok out fl xs (unitFlags s u)).2.2, hv] at h
  generalize hr : (s.unitOpen u y lanes sel).unitPut u xs (xs.map out) (xs.foldl (fun a x => a.or (fl x)) (unitFlags s u)) = r at h
  have hro : OnlyBundle s r := by
    rw [← hr]; unfold OnlyBundle at ho ⊢; rw [ho]; rfl
  have hall : List.Forall₂ P xs r.bundle.vpipe.parts := by
    rw [← hr]
    show List.Forall₂ P xs (xs.map out)
    rw [List.forall₂_map_right_iff]
    exact List.forall₂_same.mpr hP
  have hrf : r.bundle.vpipe.flags = xs.foldl (fun a x => a.or (fl x)) (unitFlags s u) := by rw [← hr]; rfl
  have hrfl : r.bundle.flights = s.bundle.flights := by rw [← hr, ← hfl]; rfl
  by_cases hc : u.unit = .c
  · rw [if_pos hc] at h
    obtain ⟨h1, h2, g, h3, h4⟩ := landSlot_spec r u ((if trans then 10 else 6) + r.bundle.vpipe.extra)
    refine ⟨_, h, ?_, by rw [h2]; exact hall, by rw [h2]; exact hrf, fun hn => absurd hc hn, fun _ => ⟨g, by rw [h3, hrfl], ?_⟩⟩
    · unfold OnlyBundle at hro h1 ⊢; rw [h1, hro]
    · rw [h4, ← hex hc, ← hr]; rfl
  · rw [if_neg hc] at h
    exact ⟨r, h, hro, hall, hrf, fun _ => hrfl, fun hn => absurd hn hc⟩

/-- The active lanes where the unit is no VSEL (R159). -/
theorem unitOpen_lanes (s : State) (u : VPos) (y : Option VSrc) (lanes : Bool) :
    (s.unitOpen u y lanes false).activeLanes u = unitLanes s u := by
  have hk : (s.unitOpen u y lanes false).bundle.vpipe.mask = (decide (u.unit ≠ .a) && s.bundle.vpipe.mask) := by
    rw [unitOpen_eq]; by_cases ha : u.unit = .a <;> simp [ha]
  have ht : (s.unitOpen u y lanes false).bundle.todo = s.bundle.todo := by rw [unitOpen_eq]
  have hc : (s.unitOpen u y lanes false).icx = s.icx := by rw [unitOpen_eq]; rfl
  unfold unitLanes State.activeLanes
  rw [hk, ht, hc]

/-- A unit operation, no VSEL, whose function succeeds on every part gives its results (R157, R159). -/
theorem unitGives {s : State} {i : Instr} {u : VPos} {y : Option VSrc} {lanes trans : Bool}
    {f : Nat → BitVec 128 → Vec → Except (Cause × Word) Vec → UnitRes} {xs : List Vec} {P : Vec → Vec → Prop}
    (h : exec i s = unitStep s u y lanes trans false f) (hin : s.unitIn u y = .ok xs) (out : Vec → Vec) (fl : Vec → Flags)
    (hf : ∀ x ∈ xs, f (unitNo u.unit) (unitLanes s u) x (s.unitSecondIn u x y) = .ok ([out x], fl x))
    (hP : ∀ x ∈ xs, P x (out x)) : UnitGives s i u xs (if trans then 10 else 6) fl P :=
  unitGives_lanes h (unitOpen_lanes ..) hin out fl hf hP

end Sys2Proof.Machine
end

