-- ==== Sys2Proof/Tests/Slice0.lean ====
section
/-! SUPPORT. Tests: ill-formed terms are refused, words written out from the encoding tables of spec/02 decode to their
instructions, single steps on small states, and for every statement that has hypotheses a state that meets them. -/

namespace Sys2Proof.Tests
open Sys2Proof Sys2Proof.Machine

-- the tests are checked one after another: many at once ask for more memory than a check may have
set_option Elab.async false

/-! ### Ill-formed terms -/

/-- Unit A, B and C of a slot whose first operand is vq0 and whose result goes to w3, in all lanes. -/
def ua : VPos := ⟨.a, .vq 0, .w 3, 0⟩
def ub : VPos := { ua with unit := .b }
def uc : VPos := { ua with unit := .c }

/-- R85: an immediate that no source reads, and an immediate source where the entry has none. -/
theorem test_wf_immediates : (Instr.add (.q 0) (.k 1) .queue 1).wf = false ∧ (Instr.addsh .imm (.q 0) .queue 0).wf = false
    ∧ (Instr.clz .imm .queue).wf = false ∧ (Instr.ldb .imm .queue 0).wf = false := by decide

/-- R92, R187, R208, R212: DEP without a keep, a reserved tag, a nest level of 6, a role of 3, TMODE 3, a format code of 10. -/
theorem test_wf_fields : (Instr.dep (.q 0) (.q 1) .queue 0).wf = false ∧ (Instr.vtag 0 0x15).wf = false
    ∧ (Instr.nset 6 0 0).wf = false ∧ (Instr.nset 0 0 0xC0000).wf = false ∧ (Instr.tmode 3).wf = false
    ∧ (Instr.mxcfgFmt 10 0 false).wf = false ∧ (Instr.katgo 10 0).wf = false := by decide

/-- R166, R114: PSET's modes and numbers, and LEAVE's level. -/
theorem test_wf_control : (Instr.pset 0 7 0 0 0).wf = false ∧ (Instr.pset 0 1 0 0 129).wf = false ∧ (Instr.pset 0 2 0 1 0).wf = false
    ∧ (Instr.leave (.q 0) 0 0).wf = false ∧ (Instr.leave (.q 0) 0 7).wf = false := by decide

/-- R38, R39, R181, R259: a predicate that a load names, 4-bit strided elements, an adopting port as store data, the pair of q15. -/
theorem test_wf_memory : (Instr.ldv (.q 0) (.pred 0) tF32 0).wf = false ∧ (Instr.ldvs (.q 0) .queue tS4 0).wf = false
    ∧ (Instr.stv (.q 0) .one 0).wf = false ∧ (Instr.stpair (.q 0) (.q 15) 0).wf = false ∧ (Instr.xsum .half).wf = false := by decide

/-- R33, R52, R164, R165: a predicate field of 9, VPERM in unit B, VRCP in unit A, VWID under a predicate, VSEL without one, and
a predicate destination without a compare. -/
theorem test_wf_units : (Instr.vadd { ua with pred := 9 } (.vq 1)).wf = false ∧ (Instr.vperm ub (.vq 1)).wf = false
    ∧ (Instr.vrcp ua).wf = false ∧ (Instr.vwid { ua with pred := 1 } tS32).wf = false ∧ (Instr.vsel ua (.vq 1)).wf = false
    ∧ (Instr.vadd { ua with dest := .pred 0 } (.vq 1)).wf = false ∧ (Instr.vneg { ua with a1 := .one }).wf = false
    ∧ vslotWf (.vwid ua tS32) (.vwid ub tS32) (.pass uc) = false := by decide

/-- R220, R221, R261, R266, R308, R353, R354: the E slot's limits. -/
theorem test_wf_engines : (Instr.acalloc (some 0) (.q 0)).wf = false ∧ (Instr.aczero (.q 0) 3 0).wf = false
    ∧ (Instr.acband ⟨.q 0, 0, true, 63, 2, 0, 0, false⟩).wf = false ∧ (Instr.fence 6 0 0).wf = false
    ∧ (Instr.scld ⟨.q 0, .q 1, .q 0, false, 0⟩).wf = false ∧ (Instr.rbind 0 1 1 (.q 0) 0).wf = false
    ∧ (Instr.snapq 3).wf = false ∧ (Instr.tlbinv (.q 0) 3 0).wf = false ∧ (Instr.codeinv (.q 1) 0 true).wf = false := by decide

/-! ### Words and the instructions they stand for -/

/-- R30, R37, R39, R49: ADD of q1 and the immediate -1 into k3. -/
theorem test_decode_add : decS 0b000001_000001_100000_10011_111111111 = .ok (.add (.q 1) .imm (.keep 3) 0x1FF) := by decide

/-- R94: FCMP.lt.f64 of q0 and k15: W is bit 8, the condition bits [7:0]. -/
theorem test_decode_fcmp : decS 0b101100_000000_011111_00000_1_00000001 = .ok (.fcmp (.q 0) (.k 15) .queue true .lt) := by decide

/-- R57: the unassigned opcode 0x25, a reserved source 0x2C and the reserved destination 0x01. -/
theorem test_decode_s_rejects : decS 0b100101_000000_000000_00000_000000000 = .undef
    ∧ decS 0b000001_101100_000000_00000_000000000 = .rsvd ∧ decS 0b000001_000000_000000_00001_000000000 = .rsvd := by decide

/-- R31, R50: LOOPI 5 to ordinal 2, and BR with a source. -/
theorem test_decode_loopi : decB 0b01000_000000_000000000010_000000101 = .ok (.loopi 5 2)
    ∧ decB 0b00000_000001_000000000010_000000000 = .rsvd := by decide

/-- R32, R39: LDB of q2 at offset 5 into k1; STD of k4 at k0. -/
theorem test_decode_memory : decM 0b000000_000010_00010001_000000000101 = .ok (.ldb (.q 2) (.keep 1) 5)
    ∧ decM 0b001010_010000_00010100_000000000001 = .ok (.std (.k 0) (.k 4) 1) := by decide

/-- R180: LDV.f32 of q0 at offset 3 into w0; the vector place 0x0F is no destination. -/
theorem test_decode_ldv : decM 0b001011_000000_00010000_00010_0000011 = .ok (.ldv (.q 0) (.w 0) tF32 3)
    ∧ decM 0b001011_000000_00001111_00010_0000011 = .rsvd := by decide

/-- R33, R52: VADD of vq1 and w2 in unit A, VNEG in unit B, PASS in unit C, into the vector queue. -/
theorem test_decode_v : decV 0b000001_001000_000000_00000001_00010010_00000000_00000000_11111111_0000_00
    = .ok (.vadd ⟨.a, .vq 1, .queue, 0⟩ (.w 2), .vneg ⟨.b, .vq 1, .queue, 0⟩, .pass ⟨.c, .vq 1, .queue, 0⟩) := by decide

/-- R34, R53: XINS of k2 into group 9, and XMSK of vq3, half 1. -/
theorem test_decode_x : decX 0b0010_010010_001001_0100_00000011_0001 = .ok [.xins (.k 2) 9, .xmsk (.vq 3) true]
    ∧ decX 0 = .rsvd := by decide

/-- R55, R211: MXCFG.fmt 3, 4, g; MXCFG.pa 8191; LIT. -/
theorem test_decode_c : decC 0b000100_00_0011_0100_1_000000000000000 = .ok (.mxcfgFmt 3 4 true)
    ∧ decC 0b000100_01_00000000000_1111111111111 = .ok (.mxcfgPa 0x1FFF)
    ∧ decC 0b000000_00_100000000000000000000001 = .ok (.lit 0x800001) := by decide

/-- R306: CWAIT of c5 for 7, an immediate; CSET.x of c1 from q2. -/
theorem test_decode_counters : decE 0b010000_000101_000000_1_00000000000000000000000000000111_00_00000000000 = .ok (.cwait 5 (.imm 7))
    ∧ decE 0b010010_000001_000010_0_00000000000000000000000000000000_10_00000000000 = .ok (.cset 1 (.src (.q 2)) true) := by decide

/-- R266: SCCAS.d at k0 + 4 of q1 against q2. -/
theorem test_decode_sccas : decE 0b100000_010000_000001_000010_1_000_000000000100_000000000000000000000000
    = .ok (.sccas ⟨.k 0, .q 1, .q 2, true, 4⟩) := by decide

/-- R337: SYSWR of q0 to index 0x051, and SYSRD.clr of FLAGS. -/
theorem test_decode_sysreg : decE 0b110001_000000_000001010001_0_00_0000000000000000000000000000000000000 = .ok (.syswr ⟨0x051, false⟩ (.q 0) 0) := by decide

/-- R277: a CMOV of 64 bytes from 0x100 to 0x200 with handles 3 and 4. -/
theorem test_decode_cmov : decCopy 9 (0x00000004_00000003_0000000000000200_0000000000000100_00000040_0000_00_01)
    = some (.cmov 9 ⟨0, 0, 64, 0x100, 0x200, 3, 4⟩) ∧ decCopy 9 0 = none := by decide

/-! ### Single steps -/

/-- Context 0 of sequencer A of die 0's service tile issues a bundle, one slot in focus, with these queues. -/
def ws (q : List Word) (vq : List Vec) : State :=
  { State.reset with
    ctxs := [(512, { Ctx.service FwBank.init with q := q.map (fun v => ⟨v, .clean⟩), vq := vq })]
    bundle := { Bundle.idle with active := true, seq := 128, focus := .s0 } }

/-- A vector whose bits are a number. -/
def vec (t : Tag) (n : Nat) : Vec := ⟨t, BitVec.ofNat 4096 n, .clean⟩

/-- The value of the first result that an answer's bundle has staged. -/
def result (o : Host.Outcome State Fault Refusal) : Option Word :=
  match o with
  | .next t => (t.bundle.flights.getLast?).bind (fun f => f.vals.head?.map SVal.val)
  | _ => none

/-- The causes that an answer's bundle shows. -/
def causes (o : Host.Outcome State Fault Refusal) : List Cause :=
  match o with
  | .next t => t.bundle.found.map Found.cause
  | _ => []

/-- R89: the sum wraps. -/
theorem test_add_wraps : result (exec (.add (.q 0) .imm .queue 1) (ws [0xFFFFFFFFFFFFFFFF] [])) = some 0 := by decide
/-- R89: SUB takes b from a, with the immediate sign-extended. -/
theorem test_sub_signs : result (exec (.sub (.q 0) .imm .queue 0x1FF) (ws [4] [])) = some 5 := by decide
/-- R89: MULH is the signed high half. -/
theorem test_mulh : result (exec (.mulh (.q 0) (.q 1) .queue 0) (ws [0xFFFFFFFFFFFFFFFF, 2] [])) = some 0xFFFFFFFFFFFFFFFF := by decide
/-- R90: -7 ÷ 2 is -3, and the remainder -1. -/
theorem test_div_truncates : result (exec (.div (.q 0) (.q 1) .queue 0) (ws [0xFFFFFFFFFFFFFFF9, 2] [])) = some 0xFFFFFFFFFFFFFFFD
    ∧ result (exec (.rem (.q 0) (.q 1) .queue 0) (ws [0xFFFFFFFFFFFFFFF9, 2] [])) = some 0xFFFFFFFFFFFFFFFF := by decide
/-- R89: a shift count is its low 6 bits. -/
theorem test_shl_count : result (exec (.shl (.q 0) .imm .queue 65) (ws [3] [])) = some 6 := by decide
/-- R92: EXT of 8 bits from bit 4 is sign-extended. -/
theorem test_ext_signs : result (exec (.ext (.q 0) (.q 1) .queue 0) (ws [0xFF3, 4 + 8 * 64] [])) = some 0xFFFFFFFFFFFFFFFF := by decide
/-- R93: 1 + 2^-53 in binary64 is 1, a tie to even. -/
theorem test_fadd_ties : result (exec (.fadd (.q 0) (.q 1) .queue true) (ws [0x3FF0000000000000, 0x3CA0000000000000] []))
    = some 0x3FF0000000000000 := by decide
/-- R95: 2.5 in binary32 becomes 2. -/
theorem test_fcvt_even : result (exec (.fcvt (.q 0) .queue false .toS64) (ws [0x40200000] [])) = some 2 := by decide
/-- R179, R252: a byte past the pool, and a word that is not aligned. -/
theorem test_load_checks : causes (exec (.ldb (.q 0) .queue 0) (ws [0x400000] [])) = [.spRange]
    ∧ causes (exec (.ldw (.q 0) .queue 0) (ws [2] [])) = [.align] := by decide
/-- R158: VADD of S32 and N32 is FMT_MISMATCH, of VOID FMT_VOID. -/
theorem test_tags : causes (exec (.vadd ua (.vq 1)) (ws [] [vec tS32 1, vec tN32 1])) = [.fmtMismatch]
    ∧ causes (exec (.vadd ua (.vq 1)) (ws [] [vec tS32 1])) = [.fmtVoid] := by decide
/-- R176: XEXT of element 1 of an S8 vector is sign-extended. -/
theorem test_xext : result (exec (.xext (.vq 0) 1) (ws [] [vec tS8 0x8001])) = some 0xFFFFFFFFFFFFFF80 := by decide +kernel
/-- R97: LIT is sign-extended. -/
theorem test_lit : result (exec (.lit 0x800000) (ws [] [])) = some 0xFFFFFFFFFF800000 := by decide

/-- A placed word runs as the first instruction. -/
theorem test_placed : result (step (State.reset.withFetchWord 32 0b000001_100001_100000_00000_000000101)) = some 5 := by decide


/-! ### States that meet the hypotheses of the statements -/

/-- The answer of a check, if it passed. -/
def okOf {α β : Type} (r : Except α β) : Option β :=
  match r with
  | .ok x => some x
  | .error _ => none

/-- The cause of a check that failed. -/
def errOf {β : Type} (r : Except (Cause × Word) β) : Option Cause :=
  match r with
  | .ok _ => none
  | .error (c, _) => some c

/-- DivisionFollowsR90: a divisor of 0, the most negative number by -1, and another pair. -/
theorem test_meets_DivisionFollowsR90 :
    ((ws [1, 0] []).rdS (.q 1) 0).val = 0
    ∧ ((ws [BitVec.intMin 64, BitVec.allOnes 64] []).rdS (.q 0) 0).val = BitVec.intMin 64
    ∧ ((ws [BitVec.intMin 64, BitVec.allOnes 64] []).rdS (.q 1) 0).val = BitVec.allOnes 64
    ∧ ((ws [7, 2] []).rdS (.q 1) 0).val ≠ 0 := by decide

/-- IntegerLanes: two S32 vectors, two N32 vectors, and one alone. -/
theorem test_meets_IntegerLanes :
    let s := ws [] [vec tS32 3, vec tS32 5]
    let n := ws [] [vec tN32 3, vec tN32 5]
    s.unitIn ua (some (.vq 1)) = .ok [vec tS32 3] ∧ s.unitSecondIn ua (vec tS32 3) (some (.vq 1)) = .ok (vec tS32 5)
    ∧ n.unitIn ua (some (.vq 1)) = .ok [vec tN32 3] ∧ n.unitSecondIn ua (vec tN32 3) (some (.vq 1)) = .ok (vec tN32 5)
    ∧ s.unitIn ua none = .ok [vec tS32 3] ∧ tagClass tS32 = .int ∧ tagClass tN32 = .int ∧ tagSigned tS32 = true ∧ tagSigned tN32 = false :=
  ⟨rfl, rfl, rfl, rfl, rfl, rfl, rfl, rfl, rfl⟩

/-- FloatLanes: F32 vectors, the second an adopting port. -/
theorem test_meets_FloatLanes :
    let s := ws [] [vec tF32 0x3F800000]
    s.unitIn ua (some .one) = .ok [vec tF32 0x3F800000]
    ∧ (okOf (s.unitSecondIn ua (vec tF32 0x3F800000) (some .one))).map Vec.tag = some tF32
    ∧ s.unitIn ua none = .ok [vec tF32 0x3F800000] ∧ tagClass tF32 = .float := ⟨rfl, rfl, rfl, rfl⟩

/-- LogicSelectAndPass: equal tags, and MASK on either side. -/
theorem test_meets_LogicSelectAndPass :
    let s := ws [] [vec tS32 3, vec tS32 5, vec tMASK 1]
    s.unitIn ua (some (.vq 1)) = .ok [vec tS32 3] ∧ s.unitSecondIn ua (vec tS32 3) (some (.vq 1)) = .ok (vec tS32 5)
    ∧ s.unitSecondIn ua (vec tS32 3) (some (.vq 2)) = .ok (vec tMASK 1)
    ∧ s.unitIn { ua with a1 := .vq 2 } (some (.vq 1)) = .ok [vec tMASK 1] ∧ tMASK ≠ tVOID ∧ tS32 ≠ tVOID ∧ tagClass tS32 ≠ .void :=
  ⟨rfl, rfl, rfl, rfl, by decide, by decide, by decide⟩

/-- ConversionsTranscendentalsAndScales: VCVT between equal counts, VWID and VNAR by 2 and by 4 with the last part, F32, BF16 and F16
inputs, and scales from IDX and from N4. -/
theorem test_meets_ConversionsTranscendentalsAndScales :
    let s := ws [] [vec tF32 3, vec tBF16 3, vec tS8 3, vec tIDX 0x21, vec tN4 3, vec tE4M3 3]
    s.unitIn ua none = .ok [vec tF32 3] ∧ elems tF32 = elems tS32
    ∧ s.unitIn { ua with a1 := .vq 1 } none = .ok [vec tBF16 3] ∧ elems tBF16 = 2 * elems tF32 ∧ elems tBF16 = 2 * elems tS32
    ∧ s.unitIn { ua with a1 := .vq 2 } none = .ok [vec tS8 3] ∧ elems tS8 = 4 * elems tS32
    ∧ s.unitSecondIn ua (vec tF32 3) (some (.vq 3)) = .ok (vec tIDX 0x21) ∧ s.unitSecondIn ua (vec tF32 3) (some (.vq 4)) = .ok (vec tN4 3)
    ∧ (emaxOf tE4M3).isSome = true ∧ s.unitSecondIn ua (vec tF32 3) (some (.vq 5)) = .ok (vec tE4M3 3)
    ∧ tagClass tS32 ≠ .void ∧ tS32 ≠ tMASK ∧ tS32 ≠ tIDX ∧ (1#2).toNat < 2 ∧ (3#2).toNat < 4 :=
  ⟨rfl, rfl, rfl, rfl, rfl, rfl, rfl, rfl, rfl, rfl, rfl, by decide, by decide, by decide, by decide, by decide⟩

/-- CrossLaneWorkAndTrees: an S32 vector with N32 places, an S4 vector with N4 places, and F32 and S32 vectors alone. -/
theorem test_meets_CrossLaneWorkAndTrees :
    let s := ws [] [vec tS32 3, vec tN32 5, vec tF32 0x3F800000]
    let n := ws [] [vec tS4 3, vec tN4 5]
    ua.unit = .a ∧ s.unitIn ua (some (.vq 1)) = .ok [vec tS32 3] ∧ s.unitSecondIn ua (vec tS32 3) (some (.vq 1)) = .ok (vec tN32 5)
    ∧ elems tN32 = elems tS32 ∧ tagClass tN32 = .int ∧ tagClass tS32 ≠ .void ∧ tagClass tS32 ≠ .mask
    ∧ s.unitIn { ua with a1 := .vq 2 } none = .ok [vec tF32 0x3F800000] ∧ tagClass tF32 = .float
    ∧ n.unitIn ua (some (.vq 1)) = .ok [vec tS4 3] ∧ n.unitSecondIn ua (vec tS4 3) (some (.vq 1)) = .ok (vec tN4 5) ∧ elems tN4 = elems tS4
    ∧ tagClass tS4 ≠ .void ∧ tagClass tS4 ≠ .mask :=
  ⟨rfl, rfl, rfl, rfl, rfl, by decide, by decide, rfl, rfl, rfl, rfl, rfl, by decide, by decide⟩

/-- CascadesLandUnderTheirTags: unit C with one part in the pipe, for a predicate and for a register; tags VOID, unequal, and two MASKs. -/
theorem test_meets_CascadesLandUnderTheirTags :
    let s := ws [] [vec tS32 3, vec tN32 5, vec tMASK 1]
    let p := { s with bundle := { s.bundle with vpipe := ⟨vec tS32 3, [vec tMASK 3], Flags.none, false, false⟩ } }
    uc.unit = .c ∧ p.bundle.vpipe.parts = [vec tMASK 3] ∧ uc.dest.isPred = false ∧ VDest.isPred (.pred 7) = true
    ∧ s.unitIn ua (some (.vq 9)) = .ok [vec tS32 3] ∧ s.unitSecondIn ua (vec tS32 3) (some (.vq 9)) = .ok Vec.void ∧ Vec.void.tag = tVOID
    ∧ s.unitSecondIn ua (vec tS32 3) (some (.vq 1)) = .ok (vec tN32 5) ∧ tS32 ≠ tN32
    ∧ s.unitIn { ua with a1 := .vq 2 } (some (.vq 2)) = .ok [vec tMASK 1] ∧ tagClass tMASK ≠ .float ∧ tagClass tMASK ≠ .int :=
  ⟨rfl, rfl, rfl, rfl, rfl, rfl, rfl, rfl, by decide, rfl, by decide, by decide⟩

/-- A launch record whose every byte is 0. -/
def rec0 : Record := ⟨0, 0, 0, List.replicate 256 0, true⟩

/-- Task 7 runs on context 1 of sequencer A of die 0, tile 0. -/
def task7 : Task :=
  { id := 7, rec_ := rec0, members := [(0, 1)], rank := 0, slice := 0, st := .running, was := .running, boundTick := 0, boundNo := 0,
    lastStart := none, age := 0, miss := 0, ovr := false, run := 0, rem := 0, readyAt := 0, preempt := none, haltedAt := none,
    resumeAt := none, ending := false, killed := false }

/-- A bank of task 7 with a role. -/
def bank7 (r : Role) (alloc held : Bool) : Bank := ⟨some 7, some 7, r, alloc, held, none, none⟩

/-- Task 7's context issues, one slot in focus: register bank 0, accumulator banks 1, allocated, and 2, scratch banks 4 and 5, of
which 5 is HELD; w0 is an F32 vector. -/
def tk (q : List Word) (vq : List Vec) : State :=
  { State.reset with
    seqs := tput State.reset.seqs 0 { Seq.init with active := some 1, halt := .run }
    ctxs := tput State.reset.ctxs 1 { Ctx.init with
      q := q.map (fun v => ⟨v, .clean⟩), vq := vq, task := some 7, partw := BitVec.ofNat 64 (2 ^ 29 + 2 ^ 20 + 2 * 2 ^ 13 + 4 * 2 ^ 7 + 2) }
    tasks := [task7]
    tiles := [(0, { Tile.init with
      banks := [(0, bank7 .regs false false), (1, bank7 .acc true false), (2, bank7 .acc false false), (4, bank7 .scratch false false),
        (5, bank7 .scratch false true)]
      slotTags := [(4, tF32), (5, tF32), (6, tS32), (7, tF32)]
      regTags := [(0, tF32)] })]
    bundle := { Bundle.idle with active := true, seq := 0, ctx := 1, focus := .e } }

/-- BundlesCommitOrAreCancelled: a bundle that would zero slots of a HELD bank, and one of a bank that is not HELD. -/
theorem test_meets_HeldBundles :
    let z (slot : Nat) : State := { (tk [] []) with bundle := { (tk [] []).bundle with effs := [(1, .zeroSlots 0 slot 1 tF32)] } }
    (z 20).bundle.active = true ∧ (z 20).meetsHold (z 20).bundle = true ∧ (z 4).meetsHold (z 4).bundle = false := by decide

/-- A nest of one step that task 7 runs. -/
def nest7 : Nest :=
  { issued := 0, task := 7, seq := 0, ctx := 1, levels := List.replicate 6 ⟨1, 0, 0, 0, 0⟩, cfg := ⟨3, 3, false, 1, 1⟩, scl := [], x := 0,
    a := 0x40000, b := 0x40000, c := 0x10000, sa := 0, sb := 0, steps := 1, landed := 0, n := 0, flags := Flags.none, banks := [] }

/-- The same state a cycle later, with a nest that runs. -/
def tkNest : State := { ((tk [] []).modTile 0 (fun t => { t with nestA := some nest7 })) with gclk := 1 }

/-- ShadowWrites: the task's engine idle, and running. -/
theorem test_meets_ShadowWrites : (ws [] []).taskEngine = false ∧ (tk [] []).taskEngine = false ∧ tkNest.taskEngine = true := by decide

/-- PredicatesTagsAndTransfers: the greatest mode and number, a register with a tag and one without, and tags of every class. -/
theorem test_meets_PredicatesTagsAndTransfers :
    (6#3).toNat ≤ 6 ∧ (128#8).toNat ≤ 128
    ∧ ((tk [] []).wreg (tk [] []).ix (tk [] []).ic 0).tag ≠ tVOID ∧ ((tk [] []).wreg (tk [] []).ix (tk [] []).ic 1).tag = tVOID
    ∧ tagOk tF64 = true ∧ tagOk tMASK = true ∧ ((ws [] [vec tS8 1]).rdV (.vq 0)).tag = tS8 ∧ tagSigned tS8 = true
    ∧ ((ws [] []).rdV (.vq 0)).tag = tVOID ∧ tagClass tS8 = .int ∧ tagClass tF64 = .float := by decide

/-- A page with two landings, BRANCH at word 18 and RETURN at word 20, and one segment of three bundles. -/
def page1 : PageInfo := ⟨0, 1, 1, [0x48, 0x10050], [⟨0x40, 24, 0, false, [0x48, 0x4C, 0x50]⟩], false⟩

/-- The bundle at word w of that page issues. -/
def wp (w : BitVec 12) (q : List Word) : State :=
  { (ws q []) with
    seqs := tput State.reset.seqs 128 { Seq.service FwBank.init with pages := [page1] }
    bundle := { (ws q []).bundle with pos := mkHandle 1 w } }

/-- BranchesTicksTrapsAndExits: landings of the page and none, conditions 0 and not 0, handles of both kinds and a bad one. -/
theorem test_meets_BranchesTicksTrapsAndExits :
    (wp 18 []).landingOf 0 = some 18 ∧ (wp 18 []).landingOf 1 = none ∧ (wp 18 []).landingOf 2 = none
    ∧ ((wp 18 [0]).rdS (.q 0) 1).val = 0 ∧ ((wp 18 [1]).rdS (.q 0) 1).val ≠ 0
    ∧ ((wp 18 []).seq 128).handleTarget (mkHandle 1 0) 0 = some (mkHandle 1 18)
    ∧ ((wp 18 []).seq 128).handleTarget (mkHandle 1 1) 1 = some (mkHandle 1 20)
    ∧ ((wp 18 []).seq 128).handleTarget (mkHandle 1 0) 1 = none := by decide

/-- CallsLeaveAReturn: a call with a RETURN landing after it, and one without; a RET to a RETURN landing, and to none. -/
theorem test_meets_CallsLeaveAReturn :
    (wp 19 []).bundlePage = some page1 ∧ page1.after (wordOf (wp 19 []).bundle.pos) = .word 20 ∧ page1.returnOrd 20 = some 1
    ∧ page1.after (wordOf (wp 18 []).bundle.pos) = .word 19 ∧ page1.returnOrd 19 = none ∧ (wp 19 []).landingOf 0 = some 18
    ∧ ((wp 19 []).seq (wp 19 []).ix).handleTarget (mkHandle 1 0) 0 = some (mkHandle 1 18)
    ∧ (let r (n : BitVec 12) := wp 19 [mkHandle 1 n]
      ((r 1).seq (r 1).ix).handleTarget ((r 1).rdS (.q 0) 0).val 1 = some (mkHandle 1 20)
      ∧ ((r 0).seq (r 0).ix).handleTarget ((r 0).rdS (.q 0) 0).val 1 = none
      ∧ ((r 0).seq (r 0).ix).handleTarget ((r 0).rdS (.q 0) 0).val 0 = some (mkHandle 1 18)) := by decide

/-- A page whose second landing, BRANCH at word 20, ends a loop's body. -/
def page2 : PageInfo := { page1 with landings := [0x48, 0x50] }

/-- Its first bundle issues, with n loop levels. -/
def wl (q : List Word) (n : Nat) : State :=
  ({ (wp 18 q) with seqs := tput State.reset.seqs 128 { Seq.service FwBank.init with pages := [page2] } } : State).modCtx 128 0
    (fun k => { k with loops := List.replicate n ⟨1, 19, 20, 2, 0⟩ })

/-- LoopsRunTheirCount: no, five and six levels; a count of 0 and of 1; LEAVE with and without enough levels; the last iteration. -/
theorem test_meets_LoopsRunTheirCount :
    (wl [] 0).bundlePage = some page2 ∧ (wl [] 0).landingOf 1 = some 20 ∧ page2.after (wordOf (wl [] 0).bundle.pos) = .word 19 ∧ (19#12) ≠ 20
    ∧ page2.reaches 4096 19 20 [] = true ∧ (wl [] 5).icx.loops.length = 5 ∧ (wl [] 6).icx.loops.length = 6
    ∧ ((wl [0] 0).rdS (.q 0) 1).val = 0 ∧ ((wl [1] 0).rdS (.q 0) 1).val ≠ 0 ∧ (wl [1] 5).icx.loops.length < (6#3).toNat
    ∧ (6#3).toNat ≤ (wl [1] 6).icx.loops.length ∧ 0 < (1#32).toNat ∧ 0 + 1 = (1#32).toNat ∧ 0 + 1 < (2#32).toNat := by decide

/-- BundlesCommitOrAreCancelled: a bundle without a cause, and one with; one of which a cause hangs on the partner's. -/
theorem test_meets_BundlesCommitOrAreCancelled :
    let s := ws [] []
    let f : Found := ⟨3, .s0, 0, .align, 2, 0⟩
    let t := { s with bundle := { s.bundle with found := [f] } }
    s.bundle.active = true ∧ s.bundle.found = [] ∧ s.edgeFault = none ∧ s.bundle.starts = [] ∧ (s.seq s.bundle.seq).dbgctl.getLsbD 8 = false
    ∧ t.bundle.active = true ∧ pickFound t.bundle.found = some f ∧ t.edgeFault = none ∧ f.cause ≠ .katMismatch
    ∧ s.unresolved = none ∧ t.unresolved = none ∧ t.bundle.canals = [] ∧ s.meetsHold s.bundle = false ∧ t.bundle.cond = []
    ∧ ({ t with bundle := { t.bundle with cond := [f] } } : State).bundle.cond ≠ []
    ∧ ({ t with bundle := { t.bundle with books := [⟨0, 4, 1, 0, true⟩] } } : State).bundle.canals ≠ []
    ∧ ({ t with bundle := { t.bundle with cross := some (0x1000, 1) } } : State).unresolved = some (0x1000, 1)
    ∧ pickFound (early t.bundle.found) = none ∧ pickFound (early [{ f with rank := 1 }]) = some { f with rank := 1 } := by decide

/-- FloatArithmeticRoundsOnce and FloatOrderRootsAndConversions: numbers, zeros, infinities, NaNs of both kinds and a negative number,
as binary64 and as binary32. -/
theorem test_meets_FloatStatements :
    fmtOf tF32 = some fmtF32 ∧ fmtOf tE2M1 ≠ none
    ∧ ratOf (fmtF64.decode 0x3FF0000000000000) = some 1 ∧ ratOf (fmtF32.decode 0xBF800000) = some (-1) ∧ ratOf (fmtF64.decode 0) = some 0
    ∧ fmtF64.decode 0x7FF0000000000000 = .inf false ∧ fmtF64.decode 0xFFF0000000000000 = .inf true ∧ fmtF64.decode 0 = .zero false
    ∧ (fmtF64.decode 0x7FF8000000000000).isNan = true ∧ (fmtF64.decode 0x7FF0000000000001).snan = true
    ∧ (fmtF32.decode 0x7FC00000).isNan = true ∧ fmtF32.decode 0x7F800000 = .inf false
    ∧ (∀ r, ratOf (fmtF32.decode 0x7F800000) ≠ some r) := by
  refine ⟨rfl, by decide, by decide +kernel, by decide +kernel, by decide +kernel, ?_, ?_, ?_, ?_, ?_, ?_, ?_, ?_⟩
  all_goals first | decide | skip
  intro r h
  have e : ratOf (fmtF32.decode 0x7F800000) = none := rfl
  simp [e] at h

/-- AddressesStridesAndPairs: the last word of the pool, one past it, a place that is not aligned, canal form within reach and out of
reach, a bank that is no scratch bank; a stride of 4 in scratch bank 4. -/
theorem test_meets_AddressesStridesAndPairs :
    let s := tk [0x40000, 4] [vec tF32 0]
    let t := s.modCtx 0 1 (fun k => { k with keeps := [(1, ⟨4, .clean⟩)] })
    okOf (s.checkAddr 0x4FFFC 0 4 4 true .scratch) = some ⟨0, 0x4FFFC, false⟩
    ∧ errOf (s.checkAddr 0x3FFFFF 1 1 1 true .scratch) = some .spRange ∧ errOf (s.checkAddr 0x40002 0 4 4 true .scratch) = some .align
    ∧ errOf (s.checkAddr 0x20000 0 4 4 true .scratch) = some .spRange
    ∧ s.canalReach 0 1 0 = true ∧ s.canalReach 0 1 1 = false ∧ errOf (s.checkAddr 0x40400000 0 4 4 true .scratch) = some .canalScope
    ∧ okOf (s.checkAddr 0x40040000 0 4 4 true .scratch) = some ⟨0, 0x40000, true⟩
    ∧ (tget SVal.zero t.icx.keeps 1).val.toInt = 4
    ∧ (∀ j, j < elems tF32 → t.scratchOk 0 1 0 ((0x40000 + j * 4) / 0x10000) = true ∧ t.conflict 0 ((0x40000 + j * 4) / 0x10000) 1 = none
        ∧ t.poolComp 0 (0x40000 + j * 4) 4 = false)
    ∧ ((t.rdV (.vq 0)).tag = tF32)
    ∧ okOf (s.checkAddr 0x40000 0 16 16 false .scratch) = some ⟨0, 0x40000, false⟩ ∧ s.poolComp 0 0x40000 16 = false := by
  decide +kernel

/-- The same state, with the bank of an access booked by sequencer B. -/
def tkBooked : State := { (tk [0x40000] [vec tF32 0]) with books := [⟨0, 4, 1, 1, false⟩] }

/-- LoadsAreStaged and StoresAreStaged: free, booked, HELD and compressed places, an accumulator slot that is allocated and one that
is not, a place that fails, and a store whose bank is HELD in its cycle. -/
theorem test_meets_LoadsAndStores :
    let s := tk [0x40000, 0x10000] [vec tF32 0]
    let c := { s with poolGran := [(0x1000, ⟨.clean, true⟩)] }
    let a : Acc := ⟨0, some 0, 0, 1, 0, 0x50000, .store 4 0, false⟩
    okOf (s.checkAddr 0x40000 0 1 1 true .scratch) = some ⟨0, 0x40000, false⟩ ∧ s.conflict 0 4 1 = none ∧ (tkBooked.conflict 0 4 1).isSome = true
    ∧ a.at_ = some s.gclk ∧ a.cross = false ∧ a.kind.holds = true ∧ s.anyHeld a.tile a.banks = true ∧ okOf (s.checkAddr 0x50000 0 1 1 true .scratch) = some ⟨0, 0x50000, false⟩
    ∧ s.poolComp 0 0x40000 512 = false ∧ c.poolComp 0 0x40000 1 = true ∧ errOf (s.checkAddr 0x3FFFFF 1 1 1 true .scratch) = some .spRange
    ∧ okOf (s.checkAddr 0x10000 0 512 512 true .acc) = some ⟨0, 0x10000, false⟩ ∧ s.slotAlloc 0 4 = true ∧ s.drainOk 0 0x10000 512 = true
    ∧ s.slotAlloc 0 8 = false ∧ (s.rdV (.vq 0)).tag = tget 0 (s.tile 0).slotTags 4 ∧ tF32 ≠ tVOID := by
  decide +kernel

/-- AccessesMoveTheirBytes: no tile under reset, no bank being zeroed, a load whose flight waits, strides that stay in the pool and
whose elements lie apart. -/
theorem test_meets_AccessesMoveTheirBytes :
    let s := tk [] []
    let a : Acc := ⟨0, some 1, 0, 1, 0, 0x40000, .ldvs tF32 4, false⟩
    let b : Acc := { a with kind := .stvs tF32 0 4 }
    let t := s.modCtx 0 1 (fun k => { k with flights := [s.flight 4] })
    s.underReset 0 = false ∧ a.kind.writes = false ∧ b.banks = [4] ∧ s.zeroingBank 0 4 = false ∧ (t.ctx 0 1).flights.map Flight.id = [0]
    ∧ esz tF32 % 8 = 0 ∧ (∀ k, k < elems tF32 → 0 ≤ (a.off : Int) + k * 4) ∧ ((esz tF32 / 8 : Nat) : Int) ≤ |(0 - 1 : Int) * 4|
    ∧ s.slotAlloc 0 4 = true ∧ s.slotAlloc 0 8 = false := by
  decide +kernel

/-- A nest of one F32 step from scratch bank 4 into accumulator slot 4: its operands' sources. -/
def mxgo7 : MxgoF := ⟨.q 0, .q 0, .q 1, .q 0, .q 0, .vq 0⟩

/-- The state in which that MXGO issues. -/
def tkGo : State := (tk [0x40000, 0x10000] []).modCtx 0 1 (fun k => { k with cfg := ⟨3, 3, false, 1, 1⟩ })

/-- Slot 4 of bank 1 for an X of a grouped operation at bank 4, one column bank, and a dead descriptor in every lane. -/
def vggo7 : VggoF := ⟨.vq 0, .q 0, .q 1, 0, 0, 0, 0⟩

/-- A chain of task 7 that reads its next entry. -/
def chain7 : Chain :=
  { id := 0, tile := 0, seq := 0, ctx := 1, task := some 7, ctr := 0, pc := 0x40000, loops := [], st := .next, moved := 0, at_ := 0,
    flags := Flags.none, poisoned := 0, stop := false, ds := Desc.none, dd := Desc.none, revoked := [], wiping := false, begun := false, comp := false,
    olds := [], work := [], ueSeen := false, badSeen := false, acks := [], carried := none, slot := none, err := none }

/-- EnginesStartAndStop: the claim and the engines free, an engine that runs, an engine and a sixteenth chain that only the partner's bundle
of this cycle has started, KATCMP equal and unequal, chains with and without room, and a grouped operation whose checks pass. -/
theorem test_meets_EnginesStartAndStop :
    let s := tkGo
    let v := tk [0x40000, 0x10000] [vec tS64 0]
    let n := tk [] [{ vec tN16 0 with mark := .poison }]
    let full := { s with chains := List.replicate 16 chain7 }
    let partner (e : Start) : List (Bundle × Ctx × Bool) := [({ Bundle.idle with seq := 1, starts := [e] }, Ctx.init, true)]
    let h : State := { (s.modTile 0 (fun t => { t with nestB := some { nest7 with seq := 1 } })) with parked := partner (.nest { nest7 with seq := 1 }) }
    let last : Chain := { chain7 with id := 1, seq := 1 }
    let r : State := { s with chains := last :: List.replicate 15 chain7, parked := partner (.chain last) }
    h.engineBusy = some 1 ∧ h.calm.engineBusy = none ∧ tkNest.calm.engineBusy ≠ none
    ∧ (r.chains.filter (fun h => decide (h.tile = 0))).length = 16 ∧ (r.calm.chains.filter (fun h => decide (h.tile = 0))).length < 16
    ∧ (full.calm.chains.filter (fun h => decide (h.tile = 0))).length = 16
    ∧ s.engineBusy = none ∧ s.claimsMxe 0 1 = true ∧ tkNest.engineBusy = some 1 ∧ (ws [] []).engineBusy = some 0
    ∧ nestBad s.icx.nest s.icx.cfg 4 mxgo7 = none ∧ (s.mxgoNest mxgo7).steps = 1 ∧ s.rangeFail (s.mxgoNest mxgo7) 1 0 = none
    ∧ nestSlots (s.mxgoNest mxgo7) = [4] ∧ s.accOk 0 1 0 1 = true ∧ s.slotAlloc 0 4 = true ∧ s.slotTag 0 4 = s.icx.cfg.fmt.acc
    ∧ (n.rdV (.vq 0)).tag = tN16 ∧ (n.rdV (.vq 0)).mark = .poison ∧ (v.rdV (.vq 0)).mark ≠ .poison
    ∧ (s.tile 0).katA = none ∧ s.icx.katHash = s.icx.katExp ∧ s.scratchOk 0 1 0 4 = true
    ∧ (s.chains.filter (fun h => decide (h.tile = 0))).length < 16 ∧ (full.chains.filter (fun h => decide (h.tile = 0))).length = 16
    ∧ (v.tile 0).vg = none ∧ (v.rdV (.vq 0)).tag = tS64 ∧ (∀ w ∈ unpack 64 (v.rdV (.vq 0)).bits 8, descBad w = false)
    ∧ ((unpack 64 (v.rdV (.vq 0)).bits 8).map churnOf).flatMap streamBanks = [] ∧ (0 + 1) / 1 * colBytes 0 ≤ 0x10000 ∧ v.engineOf 0 = false
    ∧ v.engineOf 1 = false ∧ v.slotTag 0 4 = tF32 ∧ (∀ e, e < 256 → tget false (v.tt 0 1).vtabBad e = false) := by
  decide +kernel

/-- AccumulatorBanksAreManaged: a context that claims no engine and one that does, a bank to free, one that a nest writes and one not owned,
a slot to zero and to band, a table for VGTAB. -/
theorem test_meets_AccumulatorBanksAreManaged :
    let s := tk [0x40000, 2] []
    (ws [] []).claimsMxe 128 0 = false ∧ s.claimsMxe 0 1 = true ∧ s.accOk 0 1 0 1 = true ∧ ((s.tile 0).bank 1).alloc = true
    ∧ (∀ i, i < 4 → s.slotBusy 0 (4 * 1 + i) = false) ∧ ((s.tile 0).bank 2).alloc = false ∧ s.freeAcc 0 1 1 = [2]
    ∧ s.slotMine 4 = true ∧ s.slotMine 8 = false ∧ (7 : Nat) % 4 + (0#2).toNat < 4 ∧ 4 % 4 + (3#2).toNat < 4
    ∧ s.scratchOk 0 1 0 4 = true ∧ s.conflict 0 4 1 = none ∧ s.conflict 0 4 2 = none
    ∧ tkNest.accOk 0 1 0 1 = true ∧ ((tkNest.tile 0).bank 1).alloc = true ∧ tkNest.slotBusy 0 (4 * 1 + 0) = true ∧ 0 < tkNest.gclk
    ∧ tkNest.underReset 0 = false := by
  decide +kernel

/-- CountersAndRings: a ring that no one owns, one of the task, one of another task, with room and without. -/
theorem test_meets_CountersAndRings :
    let s := tk [] []
    let r (o : Nat × Nat) : State := s.modTile 0 (fun t => { t with rings := [(3, ⟨some o, 1, 2, 8, 0, 0⟩)] })
    ((s.tile 0).ring 3).owner = none ∧ s.icx.task = some 7 ∧ (((r (0, 7)).tile 0).ring 3).owner = some (0, 7)
    ∧ (((r (0, 8)).tile 0).ring 3).owner = some (0, 8) ∧ (((r (0, 7)).tile 0).ring 3).n = (7#13).toNat + 1
    ∧ (((r (0, 7)).tile 0).ring 3).n < (8#13).toNat + 1 := by
  decide

/-- SerialOperationsAreAtomic: an F32 slot, a slot of another tag, one that is not allocated; an access that performs. -/
theorem test_meets_SerialOperationsAreAtomic :
    let s := tk [0x10000] []
    let d := s.modTile 0 (fun t => { t with slotTags := [(4, tF64), (5, tF64)] })
    s.slotAlloc 0 4 = true ∧ s.drainOk 0 0x10000 4 = true
    ∧ tget 0 (s.tile 0).slotTags 4 = tF32 ∧ tget 0 (s.tile 0).slotTags 6 = tS32 ∧ tget 0 (d.tile 0).slotTags 4 = tF64 ∧ s.conflict 0 1 2 = none
    ∧ s.slotAlloc 0 8 = false ∧ errOf (s.checkSc 0x40000 0 4) = some .spRange ∧ okOf (s.checkSc 0x10000 0 4) = some ⟨0, 0x10000, false⟩
    ∧ s.accOk 0 1 0 (0x40000 / 0x10000) = false ∧ s.accOk 0 1 0 (0x10002 / 0x10000) = true ∧ 0x10002 % 4 ≠ 0
    ∧ 0x10002 / 0x10000 = (0x10002 + 4 - 1) / 0x10000
    ∧ s.underReset 0 = false ∧ s.zeroingBank 0 1 = false ∧ s.poolBad 0 0x10000 8 = false := by
  decide +kernel

/-- A grouped operation of task 7 that has no churn. -/
def vg7 : Vg :=
  { issued := 0, id := 0, task := 7, seq := 0, ctx := 1, churns := [], table := [], x := 0x40000, c := 0x10000, ctr := 0, fmt := 0, nb := 1, kmax := 1,
    cycle := 8, ended := none, stopAsked := false, stopped := false, fault := none, completed := false, span := 0, flags := Flags.none, banks := [] }

/-- SystemOperations: FENCE's paths, the checkpointed job and another, TLAUNCH's record, registers that are known, refused and unknown. -/
theorem test_meets_SystemOperations :
    let s := tk [0x40000] []
    let l := { s with lqs := [(3, { LQueue.init with tl := true })] }
    let j := { s with snap := { s.snap with cfg := 0x8000000000000000 } }
    let g := (s.modTile 0 (fun t => { t with vg := some { vg7 with completed := true } })).modSeq 0 (fun q => { q with seenVg := [0] })
    g.openSpans 0 = [0] ∧ s.openSpans 0 = [] ∧ s.ckptJob 1 = false ∧ j.ckptJob 0 = true ∧ (5 : Nat) ≤ 5 ∧ s.scratchOk 0 1 0 4 = true ∧ (l.lq 3).tl = true ∧ (l.seq 0).launches.length = 0
    ∧ s.conflict 0 4 4 = none ∧ sysRefuse 128 0x001 0 false false = false ∧ sysKnown 0xFFF = false := by
  decide +kernel

/-- A chain command of n bytes from src to dst, both in the pool. -/
def cf (n : Nat) (src dst : Nat) : CopyF := ⟨0, 0, BitVec.ofNat 32 n, BitVec.ofNat 64 src, BitVec.ofNat 64 dst, 0, 0⟩

/-- Task 7's chain, in a state of its own. -/
def tkChain (c : Chain) : State := { (tk [] []) with chains := [c] }

/-- CopyCommandsRun, data commands: each passes its checks within scratch bank 4, and one whose length is 0 does not. -/
theorem test_meets_CopyDataCommands :
    let s := tkChain chain7
    let c := chain7
    let w := 2 ^ 32 - 1
    let a := 2 ^ 64 - 1
    s.chain 0 = some c ∧ c.st = .next ∧ c.acks = [] ∧ s.sealedBy c = []
    ∧ s.refBad c 0x40000 0 ((s.modChain 0 (fun _ => c.fresh)).expNeed ((s.modChain 0 (fun _ => c.fresh)).latched c.fresh (cf 64 0x40000 0x40040))
        (cf 64 0x40000 0x40040)) false = none
    ∧ strayField (cf 64 0x40000 0x40040) 0 0 w a a w w = none ∧ s.refBad c 0x40000 0 64 false = none ∧ s.refBad c 0x40040 0 64 true = none
    ∧ (let n := (s.modChain 0 (fun _ => c.fresh)).compNeed ((s.modChain 0 (fun _ => c.fresh)).latched c.fresh (cf 64 0x40000 0x40040)) (cf 64 0x40000 0x40040)
      s.refBad c 0x40000 0 n.1 false = none ∧ s.refBad c 0x40040 0 n.2 true = none)
    ∧ s.cmovComp c (cf 64 0x40000 0x40040) = false ∧ strayField (cf 64 0 0x40040) 0 0 w 0 a 0 w = none
    ∧ convBad { cf 128 0x40000 0x40400 with aux := 0x42 } = none ∧ s.srcMarked c (cf 128 0x40000 0x40400) 512 = false
    ∧ s.refBad c 0x40000 0 32 false = none ∧ s.refBad c 0x40400 0 0 true = none
    ∧ s.poolRefBad c 0x40000 64 = none ∧ s.refBad c 0x48000 0 96 false = none ∧ s.refBad c 0x48000 0 80 false = none
    ∧ s.poolRefBad c 0x40000 4096 = none ∧ s.atomBad c (cf 1 0x40000 0x10000) false = none
    ∧ s.refBad c 0x20000 0 64 true ≠ none ∧ strayField { cf 64 0 0 with aux := 1 } 0 0 w a a w w ≠ none := by
  decide +kernel

/-- CopyCommandsRun, control commands: targets, counters reached and not, loops, and the waiting and the suspended chain, one that zeroes its destination too. -/
theorem test_meets_CopyControlCommands :
    let s := tkChain chain7
    let c := chain7
    strayField (cf 0 0 0) 0 0 0 0 0 0 0 = none ∧ c.err = none ∧ s.targetBad c 0x40020 = false ∧ s.targetBad c 0x40001 = true
    ∧ strayField { cf 0 0x80000000 0x40020 with src := 0 } 1 0 0xFFFFFFFF 0 0xFFFFFFFFFFFFFFFF 0 0 = none ∧ strayRef 0x80000000 = none
    ∧ ((0 : Nat) ≤ s.refVal (cf 0 0x80000000 0x40020) ↔ (cf 0 0x80000000 0x40020).flags.getLsbD 0 = false)
    ∧ ¬(1 ≤ s.refVal (cf 1 0x80000000 0x40020) ↔ (cf 1 0x80000000 0x40020).flags.getLsbD 0 = false)
    ∧ strayField { cf 3 0 0 with flags := 2 } 0xFF 0 0xFFFFFFFF 0xFFFFFFFFFFFFFFFF 0xFFFFFFFFFFFFFFFF 0 0 = none ∧ c.loops.length < 6
    ∧ signalBad (cf 1 0x80000000 0) = none ∧ refOf 0x80000000 = some (0, 0)
    ∧ ((s.tile 0).counter 0).value.toNat < (1 : BitVec 32).toNat ∧ c.carried ≠ some c.pc
    ∧ (tkChain { c with st := .ccw 0 0 1 }).chain 0 = some { c with st := .ccw 0 0 1 }
    ∧ (tkChain { c with st := .susp (.cend 0 (cf 0 0 0)) .pfAbsent 0 }).chain 0 = some { c with st := .susp (.cend 0 (cf 0 0 0)) .pfAbsent 0 }
    ∧ c.tile = tileKey ⟨0, 0⟩ ∧ c.wiping = false
    ∧ (let d : Chain := { c with st := .susp (.cend 0 (cf 0 0 0)) .pfAbsent 0, wiping := true }
      (tkChain d).chain 0 = some d ∧ d.wiping = true ∧ ∀ e ∈ (tkChain d).chains, e.id = 0 → e = d) := by
  decide +kernel

/-- CopyChunksMoveBytes: a CMOV before its last byte and after it, in open banks. -/
theorem test_meets_CopyChunksMoveBytes :
    let f := cf 64 0x40000 0x40040
    let c := { chain7 with st := .move (.cmov 0 f), begun := true }
    let s := tkChain c
    s.chain 0 = some c ∧ c.st = .move (.cmov 0 f) ∧ c.revoked = [] ∧ f.hsrc = 0 ∧ f.hdst = 0 ∧ c.at_ < f.len.toNat
    ∧ (c.dstField f).toNat + 64 ≤ 2 ^ 22 ∧ (c.srcField f).toNat + 64 ≤ 2 ^ 22 ∧ banksOf 0x40040 64 = [4] ∧ s.bankFree 0 4 = true
    ∧ s.bankMine c 0 4 = true ∧ ((s.tile 0).bank 4).held = false ∧ s.zeroingBank 0 4 = false ∧ s.underReset c.tile = false
    ∧ f.len.toNat ≤ ({ c with at_ := 64 } : Chain).at_ := by
  decide +kernel

/-- The same context with results in flight. -/
def tkFly (l : List Flight) : State := (tk [] []).modCtx 0 1 (fun k => { k with flights := l })

/-- ResultsLand: a frozen sequencer, and one with one result of each kind that is due, and two. -/
theorem test_meets_ResultsLand :
    let f := { (tk [] []).flight 0 with remaining := 1 }
    let due (s : State) : List Flight := (s.ctx 0 1).flights.filter (fun f => decide (f.remaining ≤ 1))
    (State.reset).clocked 0 = none ∧ (tkFly []).clocked 0 = some 1 ∧ due (tkFly []) = [] ∧ f.obs = none
    ∧ due (tkFly [{ f with vals := [SVal.zero] }]) = [{ f with vals := [SVal.zero] }]
    ∧ due (tkFly [{ f with vecs := [Vec.void], wreg := some 1 }]) = [{ f with vecs := [Vec.void], wreg := some 1 }]
    ∧ due (tkFly [{ f with pred := some (7, 1) }]) = [{ f with pred := some (7, 1) }]
    ∧ due (tkFly [{ f with vals := [SVal.zero], slot := .s1 }, { f with vals := [SVal.zero], slot := .s0 }])
      = [{ f with vals := [SVal.zero], slot := .s1 }, { f with vals := [SVal.zero], slot := .s0 }]
    ∧ Slot.pushRank .s0 < Slot.pushRank .s1 := by
  decide +kernel

/-- The same context with waits. -/
def tkWait (l : List Wait) : State := (tk [] []).modCtx 0 1 (fun k => { k with waits := l })

/-- WaitsAndZeroingEnd: each wait that a clause names, a zeroing that begins, goes on, and is over. -/
theorem test_meets_WaitsAndZeroingEnd :
    let s := tkWait [.zerob false 0x40000000 0x10 none]
    ((s.seq 0).active).getD 0 = 1 ∧ (s.ctx 0 1).waits = [.zerob false 0x40000000 0x10 none]
    ∧ ((s.tile 0).bank 4).held = false ∧ s.reservedBy 0 4 0 = none ∧ ((s.tile 0).bank 5).held = true
    ∧ ((tkWait [.tlbinv 0 1 2]).ctx 0 1).waits = [.tlbinv 0 1 2] ∧ ((tkWait [.codeinv 0 1 true]).ctx 0 1).waits = [.codeinv 0 1 true]
    ∧ ((tkWait [.remdata 0 1]).ctx 0 1).waits = [.remdata 0 1] ∧ (tkWait []).gclk < 1 ∧ 0 ≤ (tkWait []).gclk
    ∧ ((tkWait [.zerob false 0 1 (some 64)]).ctx 0 1).waits = [.zerob false 0 1 (some 64)]
    ∧ ((tkWait [.zerob true 0x1000 1 none]).ctx 0 1).waits = [.zerob true 0x1000 1 none] := by
  decide +kernel

/-- EnginesAndDelayedAccessesComplete: a step due and one not due, a nest whose last step has landed, a known-answer run on both sides of
its end, a grouped operation that failed, ended and was stopped; a held store and a cross-die access, free and not, and under a repair. -/
theorem test_meets_EnginesAndDelayedAccesses :
    let due := { nest7 with n := 8 + nest7.cfg.fmt.cpk }
    let s (z : Nest) := (tk [] []).modTile 0 (fun t => { t with nestA := some z })
    let k (n : Nat) : Kat := ⟨0, 0, 1, 3, 0, n⟩
    let a : Acc := ⟨0, none, 0, 1, 0, 0x40000, .store 4 0, false⟩
    let b : Acc := { a with cross := true, off := 0x50000 }
    let t (x : Acc) : State := { (tk [] []) with accs := [x] }
    (s due).nest 0 = some due ∧ due.landed < due.steps ∧ due.n = 8 + (due.landed + 1) * due.cfg.fmt.cpk
    ∧ nest7.n ≠ 8 + (nest7.landed + 1) * nest7.cfg.fmt.cpk ∧ ({ nest7 with landed := 1 } : Nest).landed = nest7.steps
    ∧ ((tk [] []).modTile 0 (fun t => { t with katA := some (k 7) })).kat 0 = some (k 7) ∧ (k 7).n < 8 + 16 * ((mxFmt 3).map MxFmt.cpk).getD 1
    ∧ 8 + 16 * ((mxFmt 3).map MxFmt.cpk).getD 1 ≤ (k 4096).n
    ∧ (((tk [] []).modTile 0 (fun t => { t with vg := some vg7 })).tile (tileKey ⟨0, 0⟩)).vg = some vg7
    ∧ ({ vg7 with fault := some (.vgGroupOvf, 0, 0) } : Vg).fault.isSome = true ∧ vg7.ended = none
    ∧ (({ vg7 with ended := some 0 } : Vg).ended = some 0 ∧ 0 + 8 ≤ vg7.cycle ∧ vg7.completed = false)
    ∧ (t a).accs.filter (fun x => decide (x.seq = 0 ∧ x.at_ = none) && !x.cross) = [a] ∧ (tk [] []).accs = []
    ∧ ({ (t a) with accs := [a, { a with id := 1 }] } : State).accs.filter (fun x => decide (x.seq = 0 ∧ x.at_ = none) && !x.cross) = [a, { a with id := 1 }]
    ∧ a.banks = [4] ∧ ((t a).tile 0).bank 4 ≠ ((t a).tile 0).bank 5
    ∧ (t a).booked 0 4 0 = none ∧ (t a).reservedBy 0 4 0 = none
    ∧ (t b).accs.find? (fun x => decide (x.id = b.id) && x.cross) = some b ∧ b.banks = [5] ∧ (((t b).tile 0).bank 5).held = true
    ∧ b.kind.writes = true ∧ (∀ e ∈ ({ (t b) with laneUntil := [(0, 0)] } : State).laneUntil, e.2 ≤ (t b).gclk)
    ∧ (∃ e ∈ ({ (t b) with laneUntil := [(0, 1)] } : State).laneUntil, (t b).gclk < e.2) := by
  decide +kernel

/-- EnginesAndDelayedAccessesComplete, sums: products of numbers under scales of 1, a floating and an integer accumulator, and a scale entry
of 0xFF for the code 0 that both operands' blocks name. -/
theorem test_meets_NestSums :
    let one := fmtF32.decode 0x3F800000
    nest7.cfg.fmt.scaled = true ∧ nest7.cfg.fmt.elem = tE4M3 ∧ fmtOf nest7.cfg.fmt.acc = some fmtF32 ∧ 0 < nest7.cfg.fmt.kf
    ∧ ratOf (elemVal nest7.cfg.fmt.elem 0) = some 0 ∧ ratOf (elemVal nest7.cfg.elemB 0) = some 0 ∧ ratOf one = some 1
    ∧ (tget 0x7F nest7.scl 0).toNat = 0x7F ∧ (tget 0x7F [(0, (0xFF : BitVec 8))] 0).toNat = 0xFF
    ∧ (⟨9, 9, false, 1, 1⟩ : MxCfg).fmt.acc = tS32 ∧ ratOf (elemVal tS8 0) = some 0
    ∧ (⟨0, 0, false, 1, 1⟩ : MxCfg).fmt.scaled = false := by
  refine ⟨rfl, rfl, rfl, by decide, ?_, ?_, ?_, by decide, by decide, rfl, ?_, rfl⟩ <;> decide +kernel

/-- A valid record: one member, an own sequencer, rank 5, slice 1, task 7's partition. -/
def rec1 : List Byte :=
  (List.range 256).map (fun j => tget 0 [(2, 1), (3, 5), (4, 1), (0x10, 2), (0x11, 0x42), (0x12, 0x10), (0x13, 0x20), (0x42, 1)] j)

/-- An enabled queue of 16 slots at HBM 0x1000 whose slot 0 holds that record. -/
def lqs (next : BitVec 16) : State :=
  { State.reset with
    hbm := ((List.range 256).filter (fun j => decide (rec1.getD j 0 ≠ 0))).map (fun j => (0x1000 + j, rec1.getD j 0))
    lqs := [(3, { LQueue.init with en := true, base := 0x1000, stop := 0, job := 1, next := next })] }

/-- A queue's window with that record, ready; the sequencer runs its context 0. -/
def lqReady (urgent : Bool) : State :=
  { (tk [] []) with
    ctxs := []
    tasks := []
    tiles := []
    seqs := [(0, { Seq.init with active := none, halt := .texit })]
    lqs := [(3, { LQueue.init with
      en := true, ur := urgent, base := 0x1000, stop := 0, job := 1, next := 1
      window := [⟨3, 0, 1, rec1.set 0x61 (if urgent then 1 else 0), true⟩] })] }

/-- RecordsAreConsumedAndBound: a queue that does not look, one whose slot holds the next record, one that has been passed, a record not
ready, a TLAUNCH record that waits, and a gang that fits, urgent and not. -/
theorem test_meets_RecordsAreConsumedAndBound :
    let l := (lqs 0).lq 3
    let r : Launch := ⟨3, 15, rec1, false, true⟩
    (LQueue.init).en = false ∧ l.en = true ∧ l.stop = 0 ∧ l.window.length < 8 ∧ recordValid rec1 1 = true ∧ recordValid rec1 0 = false
    ∧ ((tget 0 (lqs 0).hbm 0x1000).toNat + 256 * (tget 0 (lqs 0).hbm 0x1001).toNat + 2 ^ 16 - l.next.toNat) % 2 ^ 16 = 0
    ∧ (0 + 2 ^ 16 - (0xFFF0#16).toNat) % 2 ^ 16 = 2 ^ (l.sz + 4) ∧ 0x8000 ≤ (0 + 2 ^ 16 - (0x8000#16).toNat) % 2 ^ 16
    ∧ ((lqReady false).lq 3).window[0]? = some ⟨3, 0, 1, rec1.set 0x61 0, true⟩
    ∧ (({ (lqs 0) with seqs := [(0, { Seq.init with launches := [r] })] } : State).seq (seqKey ⟨⟨0, 0⟩, false⟩)).launches = [r]
    ∧ 0x1000 + 256 ≤ hbmBytes ∧ (lqs 0).zeroing = []
    ∧ (lqReady false).canBind ⟨3, 0, 1, rec1.set 0x61 0, true⟩ [0] = true ∧ (lqReady false).urgentRec ⟨3, 0, 1, rec1.set 0x61 0, true⟩ = false
    ∧ (lqReady true).canBind ⟨3, 0, 1, rec1.set 0x61 1, true⟩ [0] = true ∧ (lqReady true).urgentRec ⟨3, 0, 1, rec1.set 0x61 1, true⟩ = true
    ∧ (lqReady true).task 0 = none ∧ (lqReady true).canBind ⟨3, 0, 1, rec1, true⟩ [0, 0] = false := by
  decide +kernel

/-- Task 7 with changes, its context as given, the sequencer holding for it and idle. -/
def tkHeld (f : Task → Task) (g : Ctx → Ctx) : State :=
  (({ (tk [] []) with tasks := [f task7] } : State).modSeq 0 (fun q => { q with active := none, hold := some 7 })).modCtx 0 1 g

/-- GangsStartAndEnd: a gang bound and ready, one that waits and is due, members that have all halted with and without an engine that
runs, with a bank that is HELD and with none, a task that is cut, and a PREQ that names a running task. -/
theorem test_meets_GangsStartAndEnd :
    let b := tkHeld (fun t => { t with st := .bound }) id
    let w := tkHeld (fun t => { t with st := .waiting, resumeAt := some 0 }) id
    let d := tkHeld (fun t => { t with st := .waiting }) (fun k => { k with done := true })
    b.task 7 = some { task7 with st := .bound } ∧ (task7.members.map Prod.fst).Nodup ∧ b.isTick b.gclk = true
    ∧ b.allHeld { task7 with st := .bound } = true ∧ (0 : Nat) ≤ b.gclk ∧ w.allHeld task7 = true ∧ (tk [] []).allHeld task7 = false
    ∧ w.task 7 = some { task7 with st := .waiting, resumeAt := some 0 }
    ∧ d.allDone task7 = true ∧ d.busyTask task7 = false ∧ b.allDone task7 = false
    ∧ ({ d with chains := [chain7] } : State).busyTask task7 = true
    ∧ (let o (s : State) : State := s.modTile 0 (fun t => t.modBank 5 (fun b => { b with held := false }))
      let w := { task7 with st := TaskSt.waiting }
      d.stays w = true ∧ ((d.tile 0).bank 5).held = true ∧ (o d).stays w = false ∧ (o d).allDone w = true ∧ (o d).busyTask w = false
      ∧ ({ (o d) with chains := [chain7] } : State).stays w = false ∧ (o d).task 7 = some w ∧ (o d).stays { w with st := .cut } = true)
    ∧ (w.ctx 0 1).back = []
    ∧ (tk [] []).tasks.find? (fun t => t.runs && decide (t.rec_.queue.toNat = field 0x8000000000000000 21 16)
        && decide (t.rec_.seqno.toNat = 0x8000000000000000 % 2 ^ 16)) = some task7 ∧ task7.preempt = none ∧ task7.st ≠ .cut := by
  decide +kernel

/-- ArbitrationFollowsTheOrder: off the tick, a rendezvous on it, with its sequencers free and holding for another task, a stated run that is
exceeded and one that is not. -/
theorem test_meets_ArbitrationFollowsTheOrder :
    let s := tkWait [.yield 3]
    let o := (tk [] []).modCtx 0 1 (fun k => { k with stated := some 3, ran := 4 })
    ({ s with gclk := 1 } : State).isTick 1 = false ∧ s.isTick s.gclk = true
    ∧ s.tasks.find? (fun t => s.rendezvous t && decide (t.seqs = [(⟨⟨0, 0⟩, false⟩ : SeqId)].map seqKey)) = some task7 ∧ s.task 7 = some task7
    ∧ (s.seq 0).hold.bind s.task = none
    ∧ (let u := { task7 with id := 8, st := TaskSt.bound }
      let h := ({ s with tasks := [task7, u] } : State).modSeq 0 (fun q => { q with hold := some 8 })
      h.tasks.find? (fun t => h.rendezvous t && decide (t.seqs = [(⟨⟨0, 0⟩, false⟩ : SeqId)].map seqKey)) = some task7 ∧ h.task 7 = some task7
      ∧ (h.seq 0).hold.bind h.task = some u ∧ u.id ≠ task7.id)
    ∧ s.absent task7.seqs = [] ∧ (o.ctx 0 1).task = some 7 ∧ (o.ctx 0 1).stated = some 3 ∧ 3 < (o.ctx 0 1).ran
    ∧ ((tk [] []).ctx 0 1).stated = none := by
  decide +kernel

/-- ArbitrationFollowsTheOrder: a task with all its members on idle sequencers, one that lacks a member, and none; tasks of their own
numbers, a rank, and one member to hold. -/
theorem test_meets_IdleDecisions :
    let i (l : List Task) : State := (({ (tk [] []) with tasks := l } : State).modSeq 0 (fun q => { q with active := none }))
    let w := { task7 with st := .bound }
    let far := { w with members := [(0, 1), (2, 1)] }
    let a (s : State) (g : List Nat) : List Task := (s.absent g).filter (fun t => t.members.any (fun m => decide (m.1 ∈ g) && s.freeFor t m.1 && decide ((s.seq m.1).hold = none)))
    (i [w]).isTick (i [w]).gclk = true ∧ ((i [w]).tasks.map (fun t => t.id)).Nodup
    ∧ (i [w]).tasks.find? (fun t => (i [w]).rendezvous t && decide (t.seqs = [(⟨⟨0, 0⟩, false⟩ : SeqId)].map seqKey)) = none
    ∧ ([(⟨⟨0, 0⟩, false⟩ : SeqId)].map seqKey).filter (i [w]).idleSeq = [0] ∧ ((i [w]).candidates []).filter (fun t => t.meets [0]) = [w]
    ∧ a (i [w]) [0] = [] ∧ (i [w]).pickTask [w] none = some (w, true) ∧ (i []).pickTask [] none = none
    ∧ ((i [far]).candidates []) = [] ∧ a (i [far]) [0] = [far] ∧ (i [far]).pickTask [far] none = some (far, true)
    ∧ 0 ∈ far.seqs ∧ (i [far]).freeFor far 0 = true ∧ ({ task7 with rank := 1 } : Task).rank ≠ 0 := by
  decide +kernel

/-- A pending cause. -/
def pend (k : Kind) (c : Cause) : Pend := ⟨k, c, 0, 0, 0, false, false, 0⟩

/-- Task 7's context runs at word 18, with pending causes and breakpoint registers. -/
def tkPend (l : List Pend) (dbg : Word) : State :=
  ((tk [] []).modSeq 0 (fun q => { q with pend := l, dbgctl := dbg, bph := [(0, 18), (3, 18)] })).modCtx 0 1 (fun k => { k with pos := 18 })

/-- TrapsAreTakenInOrder: no cause, causes of two kinds, breakpoint 3 enabled alone, and none enabled. -/
theorem test_meets_TrapsAreTakenInOrder :
    let p : Pend := { pend .p .vgGroupOvf with ctx := 1 }
    let s := tkPend [pend .a .preempt, p] 8
    (s.seq 0).active = some 1 ∧ (s.seq 0).halt = .run ∧ (s.seq 0).serving = false ∧ (s.seq 0).dbgctl.getLsbD 8 = false
    ∧ takeFirst (s.deliverable 0) = some (p, [pend .a .preempt]) ∧ (tkPend [] 0).deliverable 0 = []
    ∧ (s.seq 0).dbgctl.getLsbD 3 = true ∧ (s.seq 0).dbgctl.getLsbD 0 = false ∧ tget 0 (s.seq 0).bph 3 = (s.ctx 0 1).pos ∧ (s.ctx 0 1).bpx = false
    ∧ (((tkPend [] 0).seq 0).dbgctl.getLsbD 3 = false) := by
  decide +kernel

/-- A delivery runs on task 7's sequencer, with pending causes. -/
def tkServe (l : List Pend) (inter : Option Nat) (st : TaskSt) : State :=
  ({ (tk [] []) with tasks := [{ task7 with st := st }] } : State).modSeq 0 (fun q =>
    { q with active := some 0, serving := true, inter := inter, pend := l })

/-- SupervisorFaultsStartsAndReturns: context 0 that runs, serves, waits for bring-up and has halted; ERET with a pending cause, with an
interrupted context, and without. -/
theorem test_meets_SupervisorFaultsStartsAndReturns :
    let s := tkServe [pend .a .preempt] (some 1) .running
    (s.seq 0).active = some 0 ∧ (s.seq 0).halt = .run ∧ Kind.s ≠ .a ∧ (0 : Nat) ≠ serviceOf 0 ∧ (s.seq 0).serving = true
    ∧ (State.reset.seq 0).halt = .bringup ∧ (State.reset.seq 0).active = none ∧ (State.reset.seq 0).inter = none ∧ (State.reset.seq 0).serving = false
    ∧ (State.reset.seq 0).dbgctl.getLsbD 8 = false ∧ (1#64).getLsbD 0 = true ∧ (0#64).getLsbD 0 = false
    ∧ takeFirst ((s.seq 0).pend.filter (fun p => decide (p.kind = .a))) = some (pend .a .preempt, [])
    ∧ (((tkServe [] (some 1) .running).seq 0).pend.filter (fun p => decide (p.kind = .a))) = []
    ∧ ((s.ctx 0 1).task.bind (tkServe [] (some 1) .waiting).task) = some { task7 with st := .waiting } ∧ task7.rolled = false
    ∧ ({ task7 with st := .rolled } : Task).rolled = true
    ∧ ((tkServe [] none .running).seq 0).inter = none := by
  decide +kernel

/-- RegistersAreWritten: JOBID in and out of range, a queue enabled and not, no chain, and a REMDATA write to TVEC on its way. -/
theorem test_meets_RegistersAreWritten :
    let s := ({ State.reset with lqs := [(63, { LQueue.init with en := true })] } : State).modSeq 128 (fun q => { q with remq := [(4, 9)] })
    (3#2) ≠ 0 ∧ (BitVec.setWidth 16 (0xFFFE#64)) ≠ 0xFFFF ∧ (BitVec.setWidth 16 (0x1FFFF#64)) = 0xFFFF ∧ (s.lq 63).en = true ∧ (s.lq 0).en = false
    ∧ s.chains = [] ∧ (s.seq 128).remq = [(4, 9)] ∧ remIndex 4 = 0x004 ∧ s.snap.busy = false
    ∧ ({ s with snap := { s.snap with phase := 1 } } : State).snap.busy = true := by
  decide +kernel

/-- ClocksAndRecords: tick periods at their bounds, the grid's switch, TICKSTOP due, stopped clocks, a telemetry window, a trace sample. -/
theorem test_meets_ClocksAndRecords :
    let s := { State.reset with
      tickNext := 9, tickstop := 0x8000000000000000, gclk := 255, stopped := true, telcfg := 0x8000000000000000, trcctl := 1 }
    let z := ({ s with gclk := 0 } : State).modSeq 128 (fun q => { q with dbgctl := 0x100 })
    ((4#64).toNat % 32 = 4 ∧ (16#64).toNat % 32 = 16 ∧ (3#64).toNat % 32 < 4 ∧ 16 < (17#64).toNat % 32)
    ∧ s.gclk % 2 ^ 16 ≠ 0 ∧ z.gclk % 2 ^ 16 = 0 ∧ s.tickNext ≠ s.tickK ∧ s.tickstop.getLsbD 63 = true ∧ 2 ^ s.tickK.toNat ∣ s.gclk + 1
    ∧ s.tickstop.toNat % 2 ^ 63 ≤ s.gclk + 1 ∧ ¬2 ^ s.tickK.toNat ∣ z.gclk + 1 ∧ s.stopped = true ∧ State.reset.stopped = false
    ∧ z.gclk % 2 ^ (max (z.telcfg.toNat / 2 ^ 58 % 32) z.tickK.toNat) = 0 ∧ z.telcfg.getLsbD 63 = true ∧ State.reset.telcfg.getLsbD 63 = false
    ∧ z.trcctl.toNat % 32 ≠ 0 ∧ z.gclk % 2 ^ (z.tickK.toNat + 1) = 0 ∧ (z.seq 128).dbgctl.getLsbD 8 = true ∧ z.trcPos < 2 ^ 12 ∧ z.zeroing = [] := by
  decide +kernel

/-- HBM with tables at 128 MiB whose level-2 leaf maps the first 2 MiB to themselves (V, R, W, X, U, L and the snapshot state), and a
native code page at 0x1000: one ENTRY landing at word 18, one segment of one idle bundle. -/
def mem (sn : Nat) : Table Byte :=
  let m := wrBytes [] 0x8000000 8 0x8008001
  let m := wrBytes m 0x8008000 8 0x8010001
  let m := wrBytes m 0x8010000 8 (0x5F + sn * 2 ^ 9)
  let m := wrBytes m 0x1000 16 (0xD7A10C0D + 0x300 * 2 ^ 32 + 2 ^ 48 + 1 * 2 ^ 64 + 0x100 * 2 ^ 80 + 0x40 * 2 ^ 96)
  let m := wrBytes m 0x1040 8 (8 + 1 * 2 ^ 32)
  wrBytes m 0x1100 4 0x20048

/-- Context 0 of the service tile under those tables. -/
def sp (sn : Nat) (f : Ctx → Ctx) : State :=
  ({ State.reset with hbm := mem sn }).modCtx 128 0 (fun k => f { k with ptbase := 0x8000001, entry := none, countdown := some 0 })

/-- TranslationFollowsTheTables: a leaf found, a table that has none, PTBASE not valid, a leaf that permits and one that does not. -/
theorem test_meets_TranslationFollowsTheTables :
    let s := sp 0 id
    let root := (s.walker 128 0).ptbase.toNat / 2 ^ 15 % 2 ^ 37 * 2 ^ 15
    okOf (walkFrom s.hbm 0x1000 4 0 root) = some ⟨0x5F, 2 ^ 21, 0x8010000⟩
    ∧ (okOf (walkFrom s.hbm 0x200000 4 0 root)).isNone = true ∧ (State.reset.walker 128 0).ptbase.getLsbD 0 = false
    ∧ (s.walker 128 0).ptbase.getLsbD 0 = true ∧ leafPermit (s.walker 128 0) .write 0x5F = none
    ∧ leafPermit (s.walker 128 0) .write 0x5B = some .pfWrite ∧ s.owner 0 = 0xFFFF := by
  decide +kernel

/-- TranslationFollowsTheTables, entries: none, a leaf and a pointer; a leaf of each size, with the size's two bits, at levels 2 and 3, and
sizes that have no leaf; levels that have none. -/
theorem test_meets_TableEntries :
    let e (v : Nat) : Nat := rdBytes (wrBytes [] 0 8 v) 0 8
    let bits (v i k : Nat) : Nat := e v / 2 ^ i % 2 ^ k
    bits 0 0 1 = 0 ∧ (bits 1 0 1 = 1 ∧ bits 1 6 1 = 0) ∧ (bits 0x41 0 1 = 1 ∧ bits 0x41 6 1 = 1 ∧ bits 0x41 7 2 = 0)
    ∧ (bits 0xC1 6 1 = 1 ∧ bits 0xC1 7 2 = 1) ∧ (bits 0x141 6 1 = 1 ∧ bits 0x141 7 2 = 2) ∧ (bits 0x1C1 6 1 = 1 ∧ bits 0x1C1 7 2 = 3)
    ∧ (0 : Nat) < 2 ∧ (3 : Nat) < 4 := by
  decide +kernel

/-- The page as the package reads it. -/
def spPage : PageInfo := ⟨0, 1, 1, [0x20048], [⟨0x40, 8, 0, false, [0x48]⟩], false⟩

/-- CodeIsFetched: a handle that resolves, a wait for a resolution and for a fetch, resident and not, and a cached translation. -/
theorem test_meets_CodeIsFetched :
    let h := mkHandle 1 0
    let s := sp 0 (fun k => { k with waits := [.resolve h 2] })
    let f := (sp 0 (fun k => { k with waits := [.fetch 1 0x40], pos := mkHandle 1 18 })).modSeq 128 (fun q => { q with pages := [spPage] })
    let t : Tlb := ⟨0, 0x8000001, 0, 2 ^ 21, 0, 0x5F, 0⟩
    (s.ctx 128 (s.cur 128)).waits = [.resolve h 2] ∧ okOf (s.resolve 128 0 h 2).1 = some (mkHandle 1 18)
    ∧ readPage s.hbm 1 0x1000 = some spPage ∧ (f.ctx 128 (f.cur 128)).waits = [.fetch 1 0x40] ∧ (f.seq 128).page 1 = some spPage
    ∧ spPage.segOf 18 = some ⟨0x40, 8, 0, false, [0x48]⟩ ∧ (f.seq 128).resident 1 0x40 = false
    ∧ ({ f with tlb := [t] } : State).tlbHit (f.walker 128 0) 0x1000 .fetch = some t
    ∧ ((f.modSeq 128 (fun q => { q with chamA := some ⟨0, 1, 0x40, [0, 0], false⟩ })).seq 128).resident 1 0x40 = true
    ∧ Chamber.lingers (f.seq 128).chamA 0 1 = false ∧ Chamber.lingers (f.seq 128).chamB 0 1 = false := by
  decide +kernel

/-- CodeIsFetched, prefetch: the bundle's own chamber, a next segment that is not resident and one that is malformed. -/
theorem test_meets_CodeIsPrefetched :
    let g : Seg := ⟨0x40, 8, 0x80, false, [0x48]⟩
    let h (bad : Bool) : Seg := ⟨0x80, 8, 0, bad, [0x88]⟩
    let p (bad : Bool) : PageInfo := { spPage with segs := [g, h bad] }
    let c : Chamber := ⟨0, 1, 0x40, [0, 0], false⟩
    let s (bad : Bool) := (sp 0 (fun k => { k with pos := mkHandle 1 18 })).modSeq 128 (fun q => { q with pages := [p bad], chamA := some c })
    let q := (s false).seq 128
    q.page 1 = some (p false) ∧ q.inB = false ∧ q.standsIn (mkHandle 1 18) (some c) = true ∧ q.standsIn (mkHandle 1 18) q.chamB = false
    ∧ (p false).segs.find? (fun x => decide (x.off = c.seg)) = some g ∧ (p false).segs.find? (fun x => decide (x.off = g.next)) = some (h false)
    ∧ (p true).segs.find? (fun x => decide (x.off = g.next)) = some (h true) ∧ (h true).bad = true ∧ q.resident 1 0x80 = false
    ∧ chamberPinned ((s false).ctx 128 0) (p false) q.chamB = false := by
  decide +kernel

/-- Package 0 takes part in the snapshots of job 3 alone: its list at HBM 0x2000 holds only itself; task 7 is of that job, its tables
those of `mem`. -/
def sn (phase : BitVec 4) (f : Snap → Snap) : State :=
  let s := (tk [] []).modCtx 0 1 (fun k => { k with jobid := 3, ptbase := 0x8000001 })
  { s with
    hbm := mem 0
    snap := f { Snap.init with
      cfg := 0x8000000001000003, list_ := 0x2000, store := 4, phase := phase, b := 1, now := 1, members := [0] } }

/-- Bytes that no entry lists read as 0. -/
theorem rdBytes_absent {m : Table Byte} {a n : Nat} (h : ∀ e ∈ m, e.1 < a ∨ a + n ≤ e.1) : rdBytes m a n = 0 := by
  have g : ∀ k, a ≤ k → k < a + n → tget 0 m k = 0 := by
    intro k h1 h2
    induction m with
    | nil => rfl
    | cons e m ih =>
      have := h e (by simp)
      rw [show e :: m = (e.1, e.2) :: m from rfl, tget, if_neg (by omega)]
      exact ih (fun f hf => h f (by simp [hf]))
  have z : ∀ n a, rdBytes [] a n = 0 := by
    intro n
    induction n with
    | zero => intro a; rfl
    | succ n ih => intro a; simp [rdBytes, tget, ih]
  rw [rdBytes_congr (m := []) g, z]

/-- A table of which only entry 0 is listed has the leaves under that entry. -/
theorem leavesFrom_first {m : Table Byte} {fuel level base va : Nat}
    (h : m.all (fun e => decide (e.1 < base + 8 ∨ base + 8 * tableSize level ≤ e.1)) = true) :
    leavesFrom m (fuel + 1) level base va =
      (let e := rdBytes m base 8
       if !pteV e then []
       else if pteL e then
         (match leafSize level e with
           | some n => if leafOk level e ∧ va % n = 0 then [⟨va, n, pteFrame e, base, e⟩] else []
           | none => [])
       else if pointerOk level e then leavesFrom m fuel (level + 1) (pteFrame e) va else []) := by
  have hz : ∀ i, 1 ≤ i → i < tableSize level → rdBytes m (base + 8 * i) 8 = 0 := by
    intro i h1 h2
    refine rdBytes_absent (fun e he => ?_)
    have := List.all_eq_true.mp h e he
    simp only [decide_eq_true_eq] at this
    omega
  obtain ⟨k, hk⟩ : ∃ k, tableSize level = k + 1 := ⟨tableSize level - 1, by unfold tableSize; split <;> rfl⟩
  rw [leavesFrom, hk, List.range_succ_eq_map, List.flatMap_cons, List.flatMap_map]
  rw [List.flatMap_eq_nil_iff.mpr]
  · simp <;> rfl
  · intro i hi
    have z := hz (i + 1) (by omega) (by rw [hk]; simpa using hi)
    simp only [Nat.succ_eq_add_one, z]
    rfl

/-- The one page of those tables. -/
theorem leaves_mem (n : Nat) (h : n = 0 ∨ n = 2) : leavesFrom (mem n) 4 0 0x8000000 0 = [⟨0, 2 ^ 21, 0, 0x8010000, 0x5F + n * 2 ^ 9⟩] := by
  rcases h with rfl | rfl
  all_goals
    rw [leavesFrom_first (by decide +kernel), if_neg (by decide +kernel), if_neg (by decide +kernel), if_pos (by decide +kernel),
      show pteFrame (rdBytes _ 0x8000000 8) = 0x8008000 from by decide +kernel,
      leavesFrom_first (by decide +kernel), if_neg (by decide +kernel), if_neg (by decide +kernel), if_pos (by decide +kernel),
      show pteFrame (rdBytes _ 0x8008000 8) = 0x8010000 from by decide +kernel,
      leavesFrom_first (by decide +kernel)]
    decide +kernel

/-- TranslationFollowsTheTables: a write walk of the job's and one of another's, of a page that is CLEAN. -/
theorem test_meets_WriteWalks :
    let s := sn 3 id
    let root := (s.walker 0 1).ptbase.toNat / 2 ^ 15 % 2 ^ 37 * 2 ^ 15
    okOf (walkFrom s.hbm 0x1000 4 0 root) = some ⟨0x5F, 2 ^ 21, 0x8010000⟩ ∧ pteSN 0x5F = 0 ∧ leafPermit (s.walker 0 1) .write 0x5F = none
    ∧ s.jobWalk (s.walker 0 1) = true ∧ (sp 0 id).jobWalk ((sp 0 id).walker 128 0) = false ∧ 0x8010000 + 8 ≤ hbmBytes ∧ s.zeroing = []
    ∧ s.owner 0 = 0xFFFF := by
  decide +kernel

/-- SnapshotsAreCut, HeldDataIsCaptured and HostAccessesFollowTheMap: the job's pages, DIRTY at the cut and HELD after it; a page that the
walk does not find, and a write that meets a HELD page. -/
theorem test_meets_SnapshotPages :
    let e := sn 2 (fun n => { n with dirty := [0x8010000] })
    let l := sn 2 (fun n => { n with dirty := [0x200000] })
    let s : State := { sn 3 (fun n => { n with heldPages := [0x8010000] }) with hbm := mem 2 }
    e.cutPages.map (fun p => p.at_) = [0x8010000] ∧ l.cutPages = [] ∧ l.logLost = true
    ∧ (s.jobPage 0).map (fun p => (p.va, p.size, p.frame, p.at_, pteSN p.pte)) = some (0, 2 ^ 21, 0, 0x8010000, 2) ∧ s.jobPage 0x200000 = none
    ∧ s.heldAt 0 1 = some 0 ∧ s.hostRefused ⟨2, 0, 0, false⟩ 1 = false ∧ s.snap.hostWaiting = [] := by
  have r (x : State) (h : x.jobRoots x.snapJobNo = [0x8000000]) : x.jobPages x.snapJobNo = byEntry (leavesFrom x.hbm 4 0 0x8000000 0) := by
    rw [State.jobPages, h]; simp
  have l0 : (sn 2 (fun n => { n with dirty := [0x200000] })).cutPages = [] := by
    rw [State.cutPages, r _ (by decide +kernel), show (sn 2 _).hbm = mem 0 from rfl, leaves_mem 0 (.inl rfl)]; decide +kernel
  refine ⟨?_, l0, ?_, ?_, ?_, ?_, by decide +kernel, rfl⟩
  · rw [State.cutPages, r _ (by decide +kernel), show (sn 2 _).hbm = mem 0 from rfl, leaves_mem 0 (.inl rfl)]; decide +kernel
  · rw [State.logLost, l0]; rfl
  · rw [State.jobPage, r _ (by decide +kernel), leaves_mem 2 (.inr rfl)]; decide +kernel
  · rw [State.jobPage, r _ (by decide +kernel), leaves_mem 2 (.inr rfl)]; decide +kernel
  · rw [State.heldAt, State.touched, if_pos (by decide +kernel), r _ (by decide +kernel), leaves_mem 2 (.inr rfl)]; decide +kernel

/-- A part of snapshot 1 that holds nothing yet. -/
def part1 : Ckpt := ⟨1, [], [], [], [], [], [], [], [], [], [], [], [], [], 0, 0⟩

/-- SnapshotsAreCut: a unit that is busy and one that is not, the cut's cycle, a settle that has ended and one that has not, a context that
cannot be read, a store elsewhere, a gang cut while it waited, gangs cut while they ran, one with its pre-emption asked for, on a sequencer
that serves a delivery and on one that does not, and a part whose states are to be written. -/
theorem test_meets_SnapshotsAreCut :
    let c := sn 1 (fun n => { n with cut := some 0 })
    let e : State := { sn 2 (fun n => { n with cut := some 0 }) with gclk := 8 }
    let u := e.modCtx 0 1 (fun k => { k with xb := { k.xb with mark := .ue } })
    let a : Acc := ⟨0, none, 0, 1, 0, 0x40000, .store 4 0, false⟩
    let k := { task7 with st := .cut, was := .waiting }
    let r : State := { sn 3 (fun n => { n with halted := some 0 }) with tasks := [k], gclk := 768 }
    c.snap.busy = true ∧ State.reset.snap.busy = false ∧ (BitVec.setWidth 16 (3#64)) = c.snapJobNo ∧ (BitVec.setWidth 16 (4#64)) ≠ c.snapJobNo
    ∧ c.snap.phase = 1 ∧ c.isTick c.gclk = true ∧ c.snap.cut = some 0 ∧ (0 : Nat) ≤ c.gclk ∧ (c.tasks.map (fun k => k.id)).Nodup
    ∧ c.coordinator = c.pkg ∧ c.snap.waiting = [] ∧ c.ofJob task7 = true
    ∧ e.snap.phase = 2 ∧ e.settled = true ∧ ({ e with accs := [a] } : State).settled = false ∧ ({ e with gclk := 7 } : State).settled = false
    ∧ e.logLost = false ∧ e.capture.hasUe = false ∧ u.settled = true ∧ u.capture.hasUe = true ∧ ({ e with tasks := [] } : State).jobTasks = []
    ∧ (0x1000000000004#64).extractLsb' 48 16 ≠ e.pkg
    ∧ r.snap.halted = some 0 ∧ r.isTick 768 = true ∧ 0 + 600 ≤ r.gclk ∧ r.snap.phase ≠ 2 ∧ k.st = .cut ∧ k.was ≠ .running ∧ k.preempt = none
    ∧ r.engineBanks k = [] ∧ r.isTick 599 = false
    ∧ (let g : Task := { k with was := .running, haltedAt := some 8 }
      let p : Task := { g with preempt := some (9, false, 1) }
      let u : State := { r with tasks := [g] }
      let v : State := { r with tasks := [p] }
      u.tasks = [g] ∧ v.tasks = [p] ∧ g.st = .cut ∧ g.was = .running ∧ g.preempt = none ∧ p.preempt = some (9, false, 1) ∧ g.haltedAt = some 8
      ∧ u.engineBanks g = [] ∧ (g.members.map Prod.fst).Nodup ∧ (u.seq 0).serving = false ∧ (u.ctx 0 1).back = []
      ∧ ((u.modSeq 0 (fun q => { q with serving := true })).seq 0).serving = true ∧ 1 ∉ g.seqs ∧ 0 ∈ g.seqs)
    ∧ (sn 3 (fun n => { n with part := some part1 })).snap.open_ = true := by
  decide +kernel

theorem rdList_length (m : Table Byte) (a n : Nat) : (rdList m a n).length = n := by simp [rdList]

/-- HeldDataIsCaptured: a HELD bank with room for its bytes and its tags and without, and a HELD page. -/
theorem test_meets_HeldDataIsCaptured :
    let s : State := { sn 3 (fun n => { n with heldBanks := [4], heldPages := [0x8010000], part := some part1 }) with hbm := mem 2 }
    let z := sn 3 (fun n => { n with heldBanks := [4], store := 0 })
    let p : PageRef := ⟨0, 2 ^ 21, 0, 0x8010000, 0x45F⟩
    (∀ m, (rdList m 0x40000 bankSize ++ (s.tile 0).tagBytes 4).length = 65800) ∧ s.snap.heldBanks = [4] ∧ s.snap.heldBanks.head? ≠ some 5
    ∧ s.snap.part = some part1 ∧ s.snap.room 65800 = true ∧ anyUe (s.bankGrans 4) = false ∧ z.snap.open_ = true ∧ z.snap.room 65800 = false
    ∧ p.at_ ∈ s.snap.heldPages ∧ s.snap.room (2 ^ 21) = true ∧ anyUe (s.pageCopy p).grans = false :=
  ⟨fun m => by rw [List.length_append, rdList_length]; decide +kernel, rfl, by decide, rfl, by decide +kernel, by decide +kernel, by decide,
    by decide +kernel, by decide, by decide +kernel, by decide +kernel⟩

/-- A flit of job 3 for package 0 that names snapshot n. -/
def fl (n : Nat) (kind : BitVec 8) : Flit := ⟨0, 0xFFF, false, kind, 3, 1, 0, 3, 0, BitVec.ofNat 64 n, 0, 0, [], 0, false, [], none⟩

/-- SnapshotsCommitOrAbort: a snapshot in progress and none, a limit that has passed and one that has not, flits of an older and of a newer
incarnation and of another job, numbers that are committed, aborted, in progress and new, markers before and after the cut and for B + 1. -/
theorem test_meets_SnapshotsCommitOrAbort :
    let s := sn 3 (fun n => { n with limits := [(1, 0)], part := some part1 })
    let n := (fl 1 3).addr.toNat % 2 ^ 32
    let d := sn 5 id
    s.snap.open_ = true ∧ State.reset.snap.open_ = false ∧ s.snap.limits = [(s.snap.now, 0)] ∧ (0 : Nat) ≤ s.gclk
    ∧ (∀ l ∈ (sn 3 (fun n => { n with limits := [(1, 1)] })).snap.limits, s.gclk < l.2)
    ∧ s.snapJob (fl 1 3).job = true ∧ s.snapJob 4 = false ∧ (fl 1 3).inc = s.snap.inc
    ∧ (fl 1 3).inc.toNat < (sn 3 (fun n => { n with inc := 1 })).snap.inc.toNat ∧ s.snap.inc.toNat < ({ fl 1 3 with inc := 1 } : Flit).inc.toNat
    ∧ n = 1 ∧ s.snap.k.toNat < n ∧ n ≠ s.snap.a.toNat ∧ n = s.snap.now ∧ n ≤ (sn 5 (fun n => { n with k := 1 })).snap.k.toNat
    ∧ n = (sn 6 (fun n => { n with a := 1 })).snap.a.toNat ∧ n ≠ s.snap.b.toNat + 1 ∧ s.snap.ahead n = false ∧ s.snap.phase = 3
    ∧ (sn 1 id).snap.ahead n = true ∧ s.snap.ahead 3 = false ∧ 3 ≠ s.snap.now ∧ 3 ≠ s.snap.b.toNat + 1
    ∧ 2 = d.snap.b.toNat + 1 ∧ 2 ≠ d.snap.a.toNat ∧ d.snap.cfg.getLsbD 63 = true ∧ d.listOk d.readList = true ∧ d.snap.begin_ = []
    ∧ 4 ≤ d.snap.phase.toNat ∧ d.snap.store.toNat % 2 ^ 16 ≠ 0 ∧ n ∈ s.snap.pending ∧ 2 ∉ s.snap.pending
    ∧ ({ fl 1 6 with payload := [1] } : Flit).payload = [1] ∧ (fl 1 6).payload ≠ [1] := by
  decide +kernel

/-- SnapshotsCommitOrAbort: local completion. -/
theorem test_meets_LocalCompletion :
    let s := sn 3 (fun n => { n with part := some part1, states := true })
    let o : State := { sn 3 (fun n => { n with part := some part1, states := true, cfg := 0x8000010001000003 }) with
      links := [(portTo 0 1, { Link.init with up := true })] }
    s.complete = true ∧ (sn 2 id).complete = false ∧ o.coordinator = 1 ∧ o.coordinator ≠ o.pkg ∧ o.canSend (portTo 0 1) 3 = true
    ∧ (o.link (portTo 0 1)).queue = [] ∧ o.snap.begin_ = [] ∧ o.complete = true := by
  decide +kernel

/-- SnapshotsCommitOrAbort: DONE from the last package of a list of two, and from the first. -/
theorem test_meets_LastDone :
    let l := sn 3 (fun n => { n with members := [0, 1], done := [(1, 0, 0, 0)] })
    l.packages = [0, 1] ∧ l.coordinator = l.pkg ∧ 1 ∈ l.snap.pending ∧ (fl 1 4).src = 1 ∧ l.snap.done = [(1, 0, 0, 0)]
    ∧ l.snap.room (44 + 42 * 2) = true ∧ (sn 3 (fun n => { n with members := [0, 1] })).snap.done = [] := by
  decide +kernel

/-- RollbacksRestore: a flit of a newer incarnation, a rollback asked for and not, a checkpoint that is there and one that is not; a list
without the package, a peer that has failed, an entry that fails its hash, and a context that another job's task holds; and a gang all of
whose members have returned, alone, beside another that has not, and beside a task of another job on its sequencer. -/
theorem test_meets_RollbacksRestore :
    let s : State := { sn 5 (fun n => { n with k := 1, ckpts := [part1], asked := some (1, 1, true) }) with tasks := [], ctxs := [] }
    let f := { fl 1 7 with inc := 1 }
    let k := { task7 with st := .rolled }
    let r : State := { sn 5 (fun n => { n with rolling := some 1, entered := [0] }) with tasks := [k] }
    s.snapJob f.job = true ∧ (sn 5 id).rolledTo f.inc = false ∧ s.rolledTo f.inc = true ∧ (fl 1 7).inc.toNat ≤ s.snap.inc.toNat
    ∧ (sn 5 id).snap.asked = none ∧ s.snap.asked = some (1, 1, true) ∧ s.snap.pending = [] ∧ s.chains = [] ∧ s.ckpt 1 = some part1
    ∧ s.ckpt 2 = none ∧ s.jobTasks = [] ∧ s.accs = [] ∧ s.listOk s.packages = true ∧ s.storeIntact part1 = true ∧ s.rollBlocked part1 = false
    ∧ ({ s with snap := { s.snap with members := [] } } : State).listOk [] = false
    ∧ ({ s with snap := { s.snap with members := [0, 1] } } : State).peers ≠ [] ∧ s.peers = []
    ∧ s.storeIntact { part1 with manifest := [⟨0, 0, 0, 0, 1, 0, 0, 0⟩] } = false
    ∧ (let o : State := { s with ctxs := [(1, { Ctx.init with task := some 9, jobid := 4 })] }
      let q : Ckpt := { part1 with ctxs := [(1, Ctx.init)] }
      o.jobTasks = [] ∧ o.rollBlocked q = true)
    ∧ (let h : State := { s.rollHalt with snap := { s.snap with inc := 1, asked := none, rolling := some 1, entered := [], halted := none } }
      h.storeIntact part1 = true ∧ (h.jobTasks.foldl State.releaseTask h).rollBlocked part1 = false)
    ∧ (let u : Task := { k with id := 8 }
      let w : State := { r with tasks := [k, u] }
      (r.seq 0).serving = false ∧ ¬((r.seq 0).active = none ∨ ((r.seq 0).active = some 0 ∧ (r.seq 0).inter = none))
      ∧ (let e := r.modSeq 0 (fun q => { q with active := none })
        (e.seq 0).active = none ∧ e.task 7 = some k ∧ (e.ctx 0 1).back = [])
      ∧ (∀ u ∈ r.tasks, u.id ≠ 7 → u.rolled = false) ∧ u ∈ w.tasks ∧ u.id ≠ 7 ∧ u.rolled = true ∧ k.seqs.Nodup)
    ∧ (let e := r.modSeq 0 (fun q => { q with serving := true, tcause := BitVec.ofNat 64 (2 * 2 ^ 7 + 0x61) })
      (e.seq 0).serving = true ∧ (e.seq 0).tcause = BitVec.ofNat 64 (2 * 2 ^ 7 + 0x61) ∧ k ∈ e.tasks ∧ k.st = .rolled ∧ 0 ∈ k.seqs)
    ∧ r.task 7 = some k ∧ r.isTick r.gclk = true ∧ k.st = .rolled ∧ r.snap.rolling.isSome = true ∧ (∀ x ∈ k.seqs, x ∈ r.snap.entered) := by
  decide +kernel

/-- Snapshot 1 of job 3 with task 7, which ran: its context, which has no tables, its tile, a byte of its bank 4, a chain and a page. -/
def ck : Ckpt :=
  { part1 with
    ctxs := [(ctxKey 0 1, { ((tk [] []).ctx 0 1) with jobid := 3 })], tasks := [task7], tiles := [(0, (tk [] []).tile 0)], chains := [chain7]
    pool := [(poolKey 0 0x40000, 1)], banks := [4], pages := [⟨0, 4096, 0x2000, 0x8010000, [(0x2000, 1)], [], [], 1⟩] }

/-- RollbacksRestore: a checkpoint that holds something, on a package that holds nothing of the job; what its tables list once; a page of it
and one that it lacks; its member's sequencer free, serving, and running another job's task; a member that did not run. -/
theorem test_meets_Restoration :
    let s : State := { sn 5 (fun n => { n with k := 1, ckpts := [ck] }) with tasks := [], ctxs := [], tiles := [] }
    let b := { s with seqs := [(0, { Seq.init with active := none, halt := .texit })] }
    let w : State := (ck.log.map (fun l => l.msg)).foldl State.applyMsg (b.restore ck)
    let at_ (f : Seq → Seq) : State := (ck.log.map (fun l => l.msg)).foldl State.applyMsg ((b.modSeq 0 f).restore ck)
    let run := (ck.tasks.filter Task.wasRun).flatMap (fun t => t.members)
    let z : Task := { task7 with was := .waiting }
    (ck.ctxs.map Prod.fst).Nodup ∧ (ck.pool.map Prod.fst).Nodup ∧ (ck.tiles.map Prod.fst).Nodup ∧ (((tk [] []).tile 0).banks.map Prod.fst).Nodup
    ∧ s.jobTasks = [] ∧ ck.images = [] ∧ chain7.slot = none ∧ (∃ b ∈ ((tk [] []).tile 0).banks, b.2.owner = some 7)
    ∧ ((tkNest.tile 0).nestA.map (fun n => n.task)) = some 7 ∧ vg7.task = 7
    ∧ (s.pageAsOf 1 0x8010000).map (fun p => (p.frame, Memory.wf p.bytes, p.bytes.all (fun e => decide (0x2000 ≤ e.1 ∧ e.1 < 0x2000 + 4096))))
      = some (0x2000, true, true)
    ∧ s.pageAsOf 1 0x8010008 = none
    ∧ run = [(0, 1)] ∧ (∀ m ∈ ck.tasks.flatMap (fun t => t.members), 1 ≤ m.2 ∧ m.2 ≤ 3)
    ∧ w.runsOther 0 [(0, 1)] = false ∧ (w.seq 0).serving = false ∧ (w.seq 0).halt = .texit
    ∧ (at_ (fun q => { q with serving := true })).runsOther 0 [(0, 1)] = false ∧ ((at_ (fun q => { q with serving := true })).seq 0).serving = true
    ∧ (at_ (fun q => { q with active := some 2 })).runsOther 0 [(0, 1)] = true
    ∧ ([z].filter Task.wasRun).flatMap (fun t => t.members) = [] := by
  decide +kernel

/-- FlitsAndMessagesAreApplied, ports: links up and down, numbers expected and not, a retry buffer to acknowledge, to replay and that has
been replayed eight times, one that is full, an answer that waits, a flit of the package's own that waits, and one that stop bits hold; a
time flit of this cycle, an earlier and a later one. -/
theorem test_meets_FlitsAreAcceptedInOrder :
    let e := { fl 1 3 with lseq := 5 }
    let s : State := { State.reset with links := [(0, { Link.init with up := true, retry := [e], tries := [0], queue := [e] }), (1, Link.init)] }
    (s.link 0).up = true ∧ (s.link 1).up = false ∧ (fl 1 3).lseq = (s.link 0).rxNext ∧ e.lseq ≠ (s.link 0).rxNext ∧ (fl 1 3).bad = false
    ∧ (fl 1 3).nak = false ∧ (fl 1 9).kind.toNat ≤ 9 ∧ 9 < (fl 1 10).kind.toNat ∧ (s.link 1).queue = [] ∧ (fl 1 3).dst = s.pkg
    ∧ ((5#12) - e.lseq).toNat < 2048 ∧ 2048 ≤ ((4#12) - e.lseq).toNat ∧ (∀ n ∈ (s.link 0).tries, n < 8) ∧ (s.link 0).retry ≠ [] ∧ (s.link 0).queue = [e]
    ∧ (s.link 0).retry.length < 512 ∧ s.snap.open_ = false ∧ (tget 0 s.lanes 3).toNat < 16
    ∧ (∃ n ∈ ({ (s.link 0) with tries := [8] } : Link).tries, 8 ≤ n) ∧ 512 ≤ ({ Link.init with retry := List.replicate 512 e } : Link).retry.length
    ∧ (∃ g ∈ ({ Link.init with queue := [{ e with nak := true }] } : Link).queue, g.nak = true)
    ∧ (let leaves (stops : BitVec 4) (g : Flit) := (s.link 0).up = true ∧ if g.kind = 0 ∨ g.kind = 8 ∨ g.kind = 9 then (s.link 0).retry.length < 512
        else stops.getLsbD g.vc.toNat = false ∧ (s.link 0).retry.length + 1 < 512 ∧ ¬(s.snap.phase = 2 ∧ s.snapJob g.job = true)
      leaves 0 e ∧ ¬leaves 0xF e ∧ leaves 0xF (fl 1 8))
    ∧ (s.clock - s.clock) = 0 ∧ ((s.clock - 1) - s.clock).msb = true ∧ ((s.clock + 1) - s.clock).msb = false ∧ s.gclk % 2 ^ 20 = 0
    ∧ s.snap.pending = []
    ∧ (let w := sn 3 (fun n => { n with members := [0, 1] })
      w.snap.open_ = true ∧ w.snapWaits 0 w.snap.now = true)
    ∧ (tget 0 ({ s with lanes := [(3, 16)] } : State).lanes 3).toNat = 16 := by
  decide +kernel

/-- A message of a job to a pool place or to HBM, without bytes or with some. -/
def msg (job : BitVec 16) (addr : Word) (data : List (BitVec 8)) : Msg :=
  ⟨1, 0, 0, job, 0, if data = [] then [] else [⟨addr, data, []⟩], 0x80000000, 1, none⟩

/-- FlitsAndMessagesAreApplied, messages: stale, behind another, blocked by a cut, at a closed channel, and free; the last byte of a pool and
of HBM; a peer's operands for a slot that is not its job's. -/
theorem test_meets_MessagesAreAppliedWhole :
    let s := sn 3 id
    let m := msg 3 0x407FFFFF [7]
    let h := msg 0 (BitVec.ofNat 64 (hbmBytes - 1)) [7]
    (sn 3 (fun n => { n with inc := 1 })).staleMsg m = true ∧ s.staleMsg m = false ∧ (sn 2 id).snap.blocks = true ∧ s.snap.blocks = false
    ∧ (sn 1 (fun n => { n with marked := [(1, chanOf m)] })).snap.closed (chanOf m) = true ∧ s.snap.closed (chanOf m) = false
    ∧ (sn 3 (fun n => { n with waiting := [(m, 0)] })).snap.waiting = [(m, 0)] ∧ m.inc.toNat ≤ s.snap.inc.toNat
    ∧ s.msgWaits m = false ∧ s.snap.waiting = [] ∧ refOf m.ctr.toNat = some (0, 0) ∧ refOk m.ctr.toNat = true ∧ (msg 3 0 []).runs = []
    ∧ m.runs = [⟨0x407FFFFF, [7], []⟩] ∧ canalForm 0x407FFFFF = true ∧ canalTile 0x407FFFFF = 1
    ∧ (0x407FFFFF#64).toNat % 2 ^ 22 + 1 ≤ 2 ^ 22 ∧ s.underReset 1 = false ∧ (s.tile 1).banks = [] ∧ canalForm (BitVec.ofNat 64 (hbmBytes - 1)) = false
    ∧ (BitVec.ofNat 64 (hbmBytes - 1)).toNat + 1 ≤ hbmBytes ∧ s.zeroing = [] ∧ State.reset.snap.cfg.getLsbD 63 = false
    ∧ State.reset.msgWaits h = false ∧ s.snap.logs (chanOf m) = true ∧ (sn 3 (fun n => { n with marked := [(1, chanOf m)] })).snap.logs (chanOf m) = false
    ∧ s.remoteBad 3 1 0x3FFFFF 1 false = some .accUnowned := by
  decide +kernel

/-- HostAccessesFollowTheMap: each BAR and an absent one, HBM refused by a TDI in RUN and open, host accesses that wait, the last byte of
HBM and of a pool, a bank that is booked and one that is sealed. -/
theorem test_meets_HostAccessesFollowTheMap :
    let a (bar : BitVec 3) (off : Nat) : HostAcc := ⟨bar, off, 0, false⟩
    let s := State.reset
    let r : State := { s with tdis := [(0, ⟨1, 2, 1⟩)], hbm := [(0, 1)] }
    let q : State := { r with cfg := { r.cfg with heapBase := 2 ^ 30 } }
    let w : State := { s with snap := { s.snap with hostWaiting := [.write (a 2 0) []] } }
    let b : State := { s with books := [⟨0, 0, 0, 0, false⟩] }
    let d := s.modTile 0 (fun t => t.modBank 0 (fun k => { k with sealed := some 1 }))
    (a 1 0).bar ≠ 0 ∧ (a 1 0).bar ≠ 2 ∧ (a 1 0).bar ≠ 4 ∧ (0x10018 : Nat) = 0x10018 + 0x40 * (0#6).toNat ∧ q.hostRefused (a 2 0) 1 = true
    ∧ q.guard 0 = some (0, ⟨1, 2, 1⟩) ∧ s.guard 0 = none
    ∧ s.hostRefused (a 2 0) 1 = false ∧ w.snap.hostWaiting ≠ [] ∧ s.snap.hostWaiting = [] ∧ s.snap.cfg.getLsbD 63 = false ∧ (hbmBytes - 1) + 1 ≤ hbmBytes
    ∧ s.zeroing = [] ∧ s.hbmTag = [] ∧ s.hbmGran = [] ∧ canalTile (BitVec.ofNat 64 0x3FFFFF) % 65 < 64 ∧ (0x3FFFFF : Nat) % 2 ^ 22 + 1 ≤ 2 ^ 22
    ∧ s.hostPoolWaits 0 1 = false ∧ b.hostPoolWaits 0 1 = true ∧ s.underReset 0 = false ∧ (s.tile 0).banks = [] ∧ d.hostSealed 0 1 = true := by
  decide +kernel

/-- ManagementRequestsAreAnswered: a TDI in every state, a slot of its own, of another and of none, a bank that is older and one that is not
signed, an inactive bank of each kind, a sensor that is none, a die at a bundle boundary that waits for its switch. -/
theorem test_meets_ManagementRequestsAreAnswered :
    let s : State := { State.reset with tdis := [(1, ⟨1, 1, 0⟩), (2, ⟨2, 2, 0⟩), (3, ⟨3, 3, 0⟩)], gcm := [(5, ⟨0, 0, 0, some 1, 1⟩)], fwSwitch := [0] }
    (s.tdi 0).state = 0 ∧ (s.tdi 1).state = 1 ∧ (s.tdi 2).state = 2 ∧ (s.tdi 3).state = 3 ∧ (∀ e ∈ s.tdis, e.1 ≠ 0 → e.2.job = 4 → e.2.state = 0)
    ∧ (tget ⟨0, 0, 0, none, 0⟩ s.gcm 5).tdi = some 1 ∧ (tget ⟨0, none, 0⟩ s.xts 5).tdi = none ∧ (5#8).toNat ≤ 5 ∧ 5 < (6#8).toNat
    ∧ FwBank.init.signed = true ∧ s.fwActive.version ≤ FwBank.init.version ∧ (0 : Nat) < ({ FwBank.init with version := 1 } : FwBank).version
    ∧ s.fwInactive.signed = true ∧ s.fwActive.version ≤ s.fwInactive.version
    ∧ ({ s with fwInactive := { FwBank.init with signed := false } } : State).fwInactive.signed = false
    ∧ ¬((1 ≤ (0x300#16).toNat ∧ (0x300#16).toNat ≤ 4) ∨ (0x300#16) = 0x10 ∨ (0x20 ≤ (0x300#16).toNat ∧ (0x300#16).toNat ≤ 0x27) ∨ (0x300#16) = 0x0100
        ∨ (0x0200 ≤ (0x300#16).toNat ∧ (0x300#16).toNat ≤ 0x0203))
    ∧ s.snap.busy = false ∧ (sn 1 id).snap.busy = true ∧ 0 ∈ s.fwSwitch ∧ s.atBoundary 0 = true ∧ 1 ∉ s.fwSwitch := by
  decide +kernel

/-- ResetsEndTheirLevel: a tile under reset and one that is not, engines that run and none, a task of the sequencer, a snapshot in progress
and none. -/
theorem test_meets_ResetsEndTheirLevel :
    let s := tk [] []
    let r : State := { s with resets := [(0, 5)] }
    r.underReset (tileKey ⟨0, 0⟩) = true ∧ s.underReset (tileKey ⟨0, 0⟩) = false ∧ r.underReset (tileOf (seqKey ⟨⟨0, 0⟩, true⟩)) = true
    ∧ s.chains.all (fun c => decide (c.tile ≠ 0)) = true ∧ (tkChain chain7).chains = [chain7] ∧ (s.tile 0).vg = none ∧ vg7.completed = false
    ∧ tkNest.nest (2 * 0) = some nest7 ∧ ((s.tile 0).bank 4).owner = some 7 ∧ State.reset.tasks = [] ∧ State.reset.chains = []
    ∧ isService (tileOf 128) = true ∧ isService 0 = false ∧ s.snap.open_ = false ∧ 0 ∈ task7.seqs ∧ task7.killed = false := by
  decide +kernel

/-- ThePackageIsReset: nothing under way; a task; a snapshot in progress that a peer takes part in, whose port is free. -/
theorem test_meets_ThePackageIsReset :
    let s : State := { sn 1 (fun n => { n with members := [0, 1] }) with links := [(portTo 0 1, { Link.init with up := true })] }
    State.reset.tasks = [] ∧ State.reset.snap.pending = [] ∧ State.reset.accs = [] ∧ State.reset.installs = [] ∧ s.tasks ≠ []
    ∧ s.snap.pending = [s.snap.now] ∧ s.snap.open_ = true ∧ s.peers = [1] ∧ (∀ l ∈ s.links, l.2.stopped = 0)
    ∧ s.canSend (portTo 0 1) 3 = true ∧ (s.link (portTo 0 1)).queue = [] := by
  decide

/-- EncodedInstructionsDecode and DecodedWordsEncode: a well-formed instruction of each slot with its word. -/
theorem test_meets_EncodingStatements :
    (Instr.mov .zero .queue 0).wf = true ∧ (encS (.mov .zero .queue 0)).isSome = true ∧ (Instr.lit 1).wf = true ∧ (encC (.lit 1)).isSome = true
    ∧ (Instr.br 0).wf = true ∧ (encB (.br 0)).isSome = true ∧ (Instr.ldb (.q 0) .queue 0xFFF).wf = true ∧ (encM (.ldb (.q 0) .queue 0xFFF)).isSome = true
    ∧ (Instr.xsum (.vq 0)).wf = true ∧ (encX (.xsum (.vq 0))).isSome = true ∧ (Instr.mxstop).wf = true ∧ (encE .mxstop).isSome = true
    ∧ vslotWf (.vadd ua (.vq 1)) (.pass ub) (.pass uc) = true ∧ decX 0b0010_010010_001001_0100_00000011_0001 = .ok [.xins (.k 2) 9, .xmsk (.vq 3) true] := by
  decide

/-- Task 7's context stands at a bundle. -/
def tkAt (ws : List (BitVec 32)) : State :=
  ((tk [] []).modSeq 0 (fun q => { q with pages := [{ page1 with ctx := 1 }], chamA := some ⟨1, 1, 0x40, ws ++ [0, 0], false⟩ })).modCtx 0 1
    (fun k => { k with pos := mkHandle 1 18, countdown := some 0 })

/-- It is a bundle of one S slot. -/
def tkBegin (w : BitVec 32) : State := tkAt [0x02000000, w]

/-- DecodeCausesStopTheBundle: an undefined opcode in S0 of a task's bundle; a vector register outside the task's file; an SC operation,
which has its position of the wheel in cycle 0 and not in cycle 1. -/
theorem test_meets_DecodeCausesStopTheBundle :
    let s := tkBegin 0xFC000000
    (s.seq 0).active = some 1 ∧ (s.seq 0).page (pageOf (s.ctx 0 1).pos) = some { page1 with ctx := 1 }
    ∧ ((s.seq 0).bundleAt (s.ctx 0 1).pos).map (fun b => b.1.take 2) = some [0x02000000, 0xFC000000]
    ∧ bundleFaults 0 1 (s.regCount 0 1) (decHead 0x02000000) (decBundle [0x02000000, 0xFC000000]) = [(.s0, .opcUndef)]
    ∧ scBundle [0x02000000, 0xFC000000] = false
    ∧ (let v : List (BitVec 32) := [0x00200000, 0xC0003FC0, 0x04800063]
      let c := tkAt v
      ((c.seq 0).bundleAt (c.ctx 0 1).pos).map (fun b => b.1.take 3) = some v
      ∧ bundleFaults 0 1 (c.regCount 0 1) (decHead 0x00200000) (decBundle v) = [(.v, .spRange)])
    ∧ scBundle [0x00080000, 0, 0x70000000] = true ∧ isService (tileOf 0) = false ∧ s.ownsWheel 0 = true
    ∧ ({ s with gclk := 1 } : State).ownsWheel 0 = false
    ∧ (s.seq 0).halt = .run ∧ (s.seq 0).serving = false ∧ (s.seq 0).dbgctl = 0 := by
  decide +kernel

/-- SlotOperationsStageOnly: an instruction with a slot's encoding; a copy command has none. -/
theorem test_meets_SlotOperationsStageOnly :
    (encode (.mov .zero .queue 0)).isSome = true ∧ encCopy (.mov .zero .queue 0) = none := by decide

/-- AStepRunsTheDecodedOperation: a bundle with operations to run, one without, and a sequencer whose turn begins a bundle. -/
theorem test_meets_AStepRunsTheDecodedOperation :
    let s := ws [] []
    let t : State := { tkBegin 0 with bundle := Bundle.idle, phase := .issue [0] }
    let r := State.turn { t with phase := .issue [] } 0
    s.power = true ∧ s.stopped = false ∧ s.bundle.active = true ∧ s.bundle.todo = [] ∧ t.bundle.active = false ∧ t.agenda = [] ∧ r.2 = true
    ∧ (r.1.begin_ 0).bundle.active = true ∧ (r.1.begin_ 0).bundle.todo = [(.s0, .mov (.q 0) .queue 0)] := by
  decide +kernel

/-- StepsKeepMemoryCanonical: memories in the canonical form, one with an entry. -/
theorem test_meets_StepsKeepMemoryCanonical : Memory.wf State.reset.pool = true ∧ Memory.wf [(0x40000, 1)] = true ∧ Memory.wf [(1, 0)] = false := by
  decide

/-- A code page from its words, the hash left out. -/
def pageOfWords (tag table : Nat) (code : List (BitVec 32)) : Option CodePage :=
  imagePage ⟨0, [0xD7A10C0D, BitVec.ofNat 32 (tag + 0x10000), BitVec.ofNat 32 (2 + table * 65536), 0x40] ++ (List.replicate 12 0 ++ code), 0, 1, 0⟩

/-- The source page of spec/20: its G2 schedule. -/
def rwSource : Option CodePage := pageOfWords 0x200 0xA8
  [0x60, 0xA, 0x00800000, 0x50000000, 0x03000000, 0x11860000, 0x11880003, 0x0A400000, 0x04100000, 0x25B18000, 0x12400000, 0x10080002,
    0x25B01001, 0x0A400000, 0x04083407, 0x25B01002, 0x04800000, 0x33E00000, 0x00400000, 0x11B00001, 0x00400000, 0x11B00002, 0x12000000,
    0x04103800, 0x04800000, 0x33E00000, 0x00020048, 0x00020088]

/-- The G3 schedule of spec/20, with its last store as given. -/
def rwImage (store : BitVec 32) : Option CodePage := pageOfWords 0x300 0xB0
  [0x68, 0xC, 0x00800000, 0x50000000, 0x03000000, 0x11860000, 0x11880003, 0x08400000, 0x25B18000, 0x06000000, 0x04100000, 0x0A400000,
    0x10080002, 0x25B01001, 0x08400000, store, 0x06000000, 0x04083407, 0x04800000, 0x33E00000, 0x00400000, 0x11B00001, 0x00400000,
    0x11B00002, 0x12000000, 0x04103800, 0x04800000, 0x33E00000, 0x00020048, 0x00020090]

/-- The worked pages of spec/20, every load local: the G3 schedule does what its source does (R371). -/
theorem test_workedSchedule :
    (rwSource.bind (fun a => (rwImage 0x25B00002).map (fun b => a.valid && b.valid && landingsKept a b && pathsAgree a b ⟨0, none⟩))) = some true := by
  decide +kernel

/-- Where its last store keeps the source's operand, it stores another value and does not (R371). -/
theorem test_workedScheduleOtherStore :
    (rwSource.bind (fun a => (rwImage 0x25B01002).map (fun b => pathsAgree a b ⟨0, none⟩))) = some false := by
  decide +kernel

/-- A page whose REALN stretch goes over a branch landing: a ready bundle of delta d, the landing, a bundle of delta e, a vector load. -/
def rwBranch (d e : BitVec 32) : Option CodePage := pageOfWords 0x200 0x68
  [0x20, 4, 0x00800000, 0x50000000, 0x00800000 + d, 0x200, 0x00400000 + e, 0x25B01001, 0x00800000, 0x68000000, 0x20048, 0x58]

/-- The page with other deltas does what it does without. -/
def rwBranchAgrees (d e : BitVec 32) : Option Bool := (rwBranch 0 0).bind (fun a => (rwBranch d e).map (fun b => pathsAgree a b ⟨0, none⟩))

/-- R375: the stretch is held to its cycles past the landing too. -/
theorem test_stretchesCrossLandings : rwBranchAgrees 0 0 = some true ∧ rwBranchAgrees 0x04000000 0 = some false := by decide +kernel

/-- The same where the bundle behind the landing comes later. -/
theorem test_stretchesCrossLandingsBehind : rwBranchAgrees 0 0x04000000 = some false := by decide +kernel

/-- Words as one number. -/
def wordsNat (l : List (BitVec 32)) : Nat := l.foldr (fun w n => w.toNat + 2 ^ 32 * n) 0

/-- What a page holds: its segment's 64 bytes and its landing. -/
abbrev LkText : Type := Nat × Nat

/-- A segment of one TEXIT bundle, header and words. -/
def lkText : LkText := (wordsNat [8, 1, 0x04800000, 0x33E00000], 0x20048)

/-- A segment of three bundles: MUL, a vector load, and TEXIT. -/
def lkTimed : LkText := (wordsNat [0x18, 3, 0x02000000, 0x10004000, 0x00400000, 0x25B18000, 0x04800000, 0x33E00000], 0x20048)

/-- The words of a segment whose first bundle yields for one cycle before a loop of 511 turns of two bundles, each of delta 63. -/
def lkLoopWords : List (BitVec 32) :=
  [0x28, 5, 0x00020001, 0, 0xFC800000, 0x400001FF, 0xFC000000, 0, 0xFC000000, 0, 0xFC800000, 0x68000000, 0, 0, 0, 0]

/-- That segment, with an ENTRY landing at its last bundle, where the loop ends. -/
def lkLoops : LkText := (wordsNat lkLoopWords, 0x20068)

/-- Part of HBM: a tag and a hash for a code page at 0x9000 of one segment, its first landing an ENTRY. -/
def lkCode (text : LkText) (tag : Nat) (h : BitVec 128) : Table Byte :=
  wrBytes [] 0x9000 16 (0xD7A10C0D + tag * 2 ^ 32 + 2 ^ 48 + 2 ^ 64 + 0x100 * 2 ^ 80 + 0x40 * 2 ^ 96)
    ++ ((List.range 16).map (fun i => (0x9020 + i, byteAt h.toNat i))
    ++ wrBytes (wrBytes [] 0x9040 64 text.1) 0x9100 12 text.2)

/-- HBM in which slot 0 of die 0's Lockkeeper ring holds a request for the page at 0x5000, whose tables give a 4 KiB leaf for frame 0x9000;
that code page stands there. -/
def lkMem (op tag : Nat) (h : BitVec 128) (text : LkText := lkText) : Table Byte :=
  wrBytes [] 0 40 (op + 0x5000 * 2 ^ 64 + 0x8000001 * 2 ^ 128 + 0x40000 * 2 ^ 256) ++ (lkCode text tag h
    ++ wrBytes (wrBytes (wrBytes (wrBytes [] 0x8000000 8 0x8008001) 0x8008000 8 0x8010001) 0x8010000 8 0x8018001) 0x8018028 8 0x905F)

/-- The package with that memory. -/
def lk (op tag : Nat) (h : BitVec 128) (text : LkText := lkText) : State := { State.reset with hbm := lkMem op tag h text }

/-- The page's leaf. -/
def lkL : Leaf := ⟨0x905F, 4096, 0x8018028⟩

/-- An install record of that page. -/
def lkI : Install := ⟨0x5000, 0x8018028, 0x7000, 0, 0x9000, 1, 0, 1, false, false, 0, false, [], none⟩

/-- PagesAreTranslatedAndReverted: no request, requests of each op and a bad one, a page without a leaf, an installed page, a page whose
header is bad, native, or of a tag that is not known, and a withdrawal. -/
theorem test_meets_PagesAreTranslatedAndReverted :
    let r (op tag : Nat) := (lk op tag 0).lkRequest 0 0
    let c (tag : Nat) := CodePage.read (lk 1 tag 0).hbm 0x9000
    (State.reset.lkRequest 0 0).op = 0 ∧ (r 1 0).op = 1 ∧ (r 1 0).good = true ∧ (r 2 0).op = 2 ∧ (r 2 0).good = true ∧ (r 3 0).op = 3
    ∧ (r (1 + 2 ^ 8) 0).good = false ∧ (r (1 + 2 ^ 8) 0).op = 1 ∧ (r 1 0).at_ + 8 ≤ hbmBytes ∧ (r 1 0).reply + 16 ≤ hbmBytes
    ∧ (r 1 0).at_ + 8 ≤ (r 1 0).reply ∧ (lk 1 0 0).zeroing = [] ∧ (lk 1 0 0).lkLeaf 0x8000001 0x6000 = none
    ∧ (lk 1 0x300 0).lkLeaf (r 1 0x300).ptbase (r 1 0x300).page = some lkL ∧ pteFrame lkL.pte = 0x9000 ∧ lkL.at_ + 8 ≤ hbmBytes
    ∧ (r 1 0).reply + 16 ≤ lkL.at_ ∧ (r 1 0).at_ + 8 ≤ lkL.at_ ∧ CodePage.read (lk 1 0x300 0).hbm 0x7000 = none
    ∧ (c 0x300).map CodePage.tag = some 0x300 ∧ (c 0x400).map CodePage.tag = some 0x400 ∧ (c 0x200).map CodePage.valid = some true
    ∧ pteC lkL.pte = false ∧ lkI.leaf = lkL.at_ ∧ lkI.frame = pteFrame lkL.pte
    ∧ ({ (lk 2 0x300 0) with installs := [lkI] } : State).quiescent lkI = true ∧ lkI.asked = []
    ∧ (((lk 2 0x300 0).modCtx 0 1 (fun k => { k with
        task := some 7, pos := 0x5000, ptbase := 0x8000001 })).quiescent lkI = false) := by
  decide +kernel

/-- The hash of the page's bytes, its hash field taken as zeros; it stays a name, for its digits say nothing. -/
def lkHash (text : LkText := lkText) : BitVec 128 := (srcHash (lkMem 1 0x200 0 text) 0x9000).setWidth 128

/-- Entries of other keys before a part of a table are not seen. -/
theorem tget_skip {α : Type} (d : α) (b c : Table α) {k : Nat} (h : ∀ e ∈ b, e.1 ≠ k) : tget d (b ++ c) k = tget d c k := by
  induction b with
  | nil => rfl
  | cons e b ih =>
    rw [List.cons_append, show tget d (e :: (b ++ c)) k = if e.1 = k then e.2 else tget d (b ++ c) k from rfl, if_neg (h e (by simp)),
      ih (fun f hf => h f (by simp [hf]))]

/-- Entries of other keys between two parts of a table are not seen. -/
theorem tget_between {α : Type} (d : α) (a b b' c : Table α) {k : Nat} (h : ∀ e ∈ b, e.1 ≠ k) (h' : ∀ e ∈ b', e.1 ≠ k) :
    tget d (a ++ (b ++ c)) k = tget d (a ++ (b' ++ c)) k := by
  induction a with
  | nil => rw [List.nil_append, List.nil_append, tget_skip d b c h, tget_skip d b' c h']
  | cons e a ih =>
    rw [List.cons_append, List.cons_append]
    exact congrArg (fun x => if e.1 = k then e.2 else x) ih

/-- Bytes that spell a number read as it. -/
theorem rdBytes_spelled {m : Table Byte} {a n v : Nat} (h : ∀ i, i < n → tget 0 m (a + i) = byteAt v i) : rdBytes m a n = v % 256 ^ n := by
  rw [← rdBytes_wrBytes [] a n v]
  refine rdBytes_congr (fun k h1 h2 => ?_)
  obtain ⟨i, rfl⟩ : ∃ i, k = a + i := ⟨k - a, by omega⟩
  rw [h i (by omega), tget_wrBytes, if_pos ⟨by omega, h2⟩, Nat.add_sub_cancel_left]

/-- The page's hash does not depend on its hash field. -/
theorem lk_hash (h : BitVec 128) (w : LkText) : (srcHash (lkMem 1 0x200 h w) 0x9000).setWidth 128 = lkHash w := by
  refine congrArg (BitVec.setWidth 128) (congrArg hashOf (List.map_congr_left (fun i _ => ?_)))
  split
  · rfl
  · rename_i hi
    have other (x : BitVec 128) : ∀ e ∈ (List.range 16).map (fun i => (0x9020 + i, byteAt x.toNat i)), e.1 ≠ 0x9000 + i := by
      intro e he
      obtain ⟨j, hj, rfl⟩ := List.mem_map.mp he
      have := List.mem_range.mp hj
      simp only
      omega
    simp only [lkMem, lkCode, List.append_assoc]
    rw [← List.append_assoc, ← List.append_assoc (wrBytes [] 0 40 _)]
    exact tget_between 0 _ _ _ _ (other h) (other 0)

/-- A run of consecutive entries reads by its place. -/
theorem tget_run (f : Nat → Byte) (a : Nat) (c : Table Byte) {i : Nat} (h : i < 16) :
    tget 0 ((List.range 16).map (fun i => (a + i, f i)) ++ c) (a + i) = f i := by
  interval_cases i <;> simp [List.range, List.range.loop, tget]

/-- The page's hash field is the hash. -/
theorem lk_field (h : BitVec 128) (w : LkText) : rdBytes (lkMem 1 0x200 h w) 0x9020 16 = h.toNat := by
  rw [rdBytes_spelled (v := h.toNat) (fun i hi => ?_), show 256 ^ 16 = 2 ^ 128 from rfl, Nat.mod_eq_of_lt h.isLt]
  have below (l : Table Byte) (hl : l.all (fun e => decide (e.1 < 0x9020)) = true) : ∀ e ∈ l, e.1 ≠ 0x9020 + i := fun e he => by
    have := of_decide_eq_true (List.all_eq_true.mp hl e he); omega
  simp only [lkMem, lkCode, List.append_assoc]
  rw [← List.append_assoc, tget_skip 0 _ _ (below _ (by decide +kernel)), tget_run _ _ _ hi]

/-- An image for that page: one frame, its header's fields as R370 has them, the same code. -/
def lkImg (h : BitVec 128) : Image :=
  ⟨0, [0xD7A10C0D, 0x10300, 0x1000001, 0x40, 0, 0, 0, 0, h.extractLsb' 0 32, h.extractLsb' 32 32, h.extractLsb' 64 32, h.extractLsb' 96 32,
    0, 0, 0, 0, 8, 1, 0x04800000, 0x33E00000] ++ (List.replicate 44 0 ++ 0x20048 :: List.replicate 959 0), 0, 1, 0xA000⟩

/-- Bytes from 0 up read by their place. -/
theorem tget_bytesAt0 (l : List Byte) (k : Nat) : tget 0 (bytesAt0 l) k = l.getD k 0 := by
  have z (l : List Byte) (n k : Nat) : tget 0 ((List.range' n l.length).zip l) (n + k) = l.getD k 0 := by
    induction l generalizing n k with
    | nil => rfl
    | cons b l ih =>
      rw [List.length_cons, List.range'_succ, List.zip_cons_cons]
      cases k with
      | zero => simp [tget]
      | succ k => rw [show n + (k + 1) = n + 1 + k from by omega]; simp only [tget]; rw [if_neg (by omega), ih]; rfl
  rw [bytesAt0, List.range_eq_range']
  simpa using z l 0 k

/-- An image's bytes stand by words. -/
theorem imageBytes_getD (l r : List (BitVec 32)) (h : BitVec 128) (i : Nat) (hi : i < 16) :
    (imageBytes ⟨0, l ++ ([h.extractLsb' 0 32, h.extractLsb' 32 32, h.extractLsb' 64 32, h.extractLsb' 96 32] ++ r), 0, 1, 0xA000⟩).getD (4 * l.length + i) 0
      = byteAt h.toNat i := by
  have len : ∀ l : List (BitVec 32), (l.flatMap (fun w => (List.range 4).map (fun i => w.extractLsb' (8 * i) 8))).length = 4 * l.length := by
    intro l; induction l with
    | nil => rfl
    | cons w l ih => rw [List.flatMap_cons, List.length_append, ih]; simp; omega
  rw [imageBytes, List.flatMap_append, List.getD_append_right _ _ _ _ (by rw [len]; omega), len, Nat.add_sub_cancel_left, List.flatMap_append,
    List.getD_append _ _ _ _ (by rw [len]; simpa using hi)]
  interval_cases i <;> simp [List.range, List.range.loop, byteAt] <;> (apply BitVec.eq_of_toNat_eq; simp [BitVec.extractLsb'_toNat, Nat.shiftRight_eq_div_pow] <;> omega)

/-- The image names the hash. -/
theorem lkImg_field (h : BitVec 128) : rdBytes (bytesAt0 (imageBytes (lkImg h))) 0x20 16 = h.toNat := by
  rw [rdBytes_spelled (v := h.toNat) (fun i hi => ?_), show 256 ^ 16 = 2 ^ 128 from rfl, Nat.mod_eq_of_lt h.isLt]
  rw [tget_bytesAt0]
  exact imageBytes_getD [0xD7A10C0D, 0x10300, 0x1000001, 0x40, 0, 0, 0, 0] _ h i hi

/-- The page as the Lockkeeper reads it. -/
def lkSource (text := lkText) (seg : Seg := ⟨0x40, 8, 0, false, [0x48]⟩) : CodePage :=
  ⟨lkMem 1 0x200 (lkHash text) text, 0x9000, 0x200, ⟨0, 0, 1, [0x20048], [seg], false⟩⟩

/-- The page with three bundles. -/
def lkSource3 : CodePage := lkSource lkTimed ⟨0x40, 0x18, 0, false, [0x48, 0x50, 0x58]⟩

theorem lk_source : CodePage.read (lk 1 0x200 lkHash).hbm 0x9000 = some lkSource := by
  have a : (readPage (lkMem 1 0x200 lkHash) 0 0x9000) = some lkSource.info := by decide +kernel
  have b : pageTag (lkMem 1 0x200 lkHash) 0x9000 = 0x200 := by decide +kernel
  rw [CodePage.read, show (lk 1 0x200 lkHash).hbm = lkMem 1 0x200 lkHash from rfl, a, b]
  rfl

theorem lk_source3 : CodePage.read (lk 1 0x200 (lkHash lkTimed) lkTimed).hbm 0x9000 = some lkSource3 := by
  have a : (readPage (lkMem 1 0x200 (lkHash lkTimed) lkTimed) 0 0x9000) = some lkSource3.info := by decide +kernel
  have b : pageTag (lkMem 1 0x200 (lkHash lkTimed) lkTimed) 0x9000 = 0x200 := by decide +kernel
  rw [CodePage.read, show (lk 1 0x200 (lkHash lkTimed) lkTimed).hbm = lkMem 1 0x200 (lkHash lkTimed) lkTimed from rfl, a, b]
  rfl

/-- The page with the loop, and an image of it that an oversized run rules out. -/
def lkSourceL : CodePage :=
  ⟨lkMem 1 0x200 (lkHash lkLoops) lkLoops, 0x9000, 0x200,
    ⟨0, 0, 1, [0x20068], [⟨0x40, 0x28, 0, false, [0x48, 0x50, 0x58, 0x60, 0x68]⟩], false⟩⟩
def lkImgL : Image :=
  ⟨5, [0xD7A10C0D, 0x10300, 0x800001, 0x40] ++ (List.replicate 12 0 ++ (lkLoopWords ++ [0x20068])), 0, 1, 0⟩

theorem lk_sourceL : CodePage.read (lkMem 1 0x200 (lkHash lkLoops) lkLoops) 0x9000 = some lkSourceL := by
  have a : (readPage (lkMem 1 0x200 (lkHash lkLoops) lkLoops) 0 0x9000) = some lkSourceL.info := by decide +kernel
  have b : pageTag (lkMem 1 0x200 (lkHash lkLoops) lkLoops) 0x9000 = 0x200 := by decide +kernel
  rw [CodePage.read, a, b]
  rfl

/-- The image as the Lockkeeper reads it. -/
def lkImage : CodePage := ⟨bytesAt0 (imageBytes (lkImg lkHash)), 0, 0x300, ⟨0, 0, 1, [0x20048], [⟨0x40, 8, 0, false, [0x48]⟩], false⟩⟩

theorem CodePage.eta (p : CodePage) : ⟨p.mem, p.base, p.tag, p.info⟩ = p := rfl

theorem lkImage_mem : lkImage.mem = bytesAt0 (imageBytes (lkImg lkHash)) := by unfold lkImage; dsimp only

theorem lk_imageOk : imageOk lkSource (lkImg lkHash) 0 lkHash = true := by
  have a : (readPage lkImage.mem 0 0) = some lkImage.info := by decide +kernel
  have b : pageTag lkImage.mem 0 = 0x300 := by decide +kernel
  have r : imagePage (lkImg lkHash) = some lkImage := by
    rw [imagePage, CodePage.read, ← lkImage_mem, a, Option.map_some, b]
    exact congrArg some (CodePage.eta lkImage)
  have e : rdBytes lkImage.mem 0x10 4 = 0 := by decide +kernel
  have w : rewrites lkSource lkImage = true := by decide +kernel
  have f : rdBytes lkImage.mem 0x20 16 = (lkHash : BitVec 128).toNat := by rw [lkImage_mem, lkImg_field]
  simp only [imageOk, r, e, w, f]
  decide +kernel

/-- An entry of the translation cache for that page. -/
def lkEntry : CacheEntry := ⟨lkHash, 0x200, 0, 0, 1, 1, 0xA000, 0⟩

/-- PagesAreTranslatedAndReverted: the header of a G2 page names the hash of its bytes, the page is well formed and no entry of the cache
serves it; an image of it, room for it and none; an image that shows nothing; a page whose timing a rewriting may lose. -/
theorem test_meets_TranslatedPage :
    let s := lk 1 0x200 lkHash
    let r := s.lkRequest 0 0
    let u : State := { s with cfg := { s.cfg with heapSize := 0x8000 } }
    let x := lk 1 0x200 (lkHash lkTimed) lkTimed
    (r.op = 1 ∧ r.good = true ∧ r.page = 0x5000 ∧ r.ptbase = 0x8000001) ∧ s.lkLeaf 0x8000001 0x5000 = some lkL
    ∧ s.pageView 0x9000 0x4000 none = s.hbm ∧ CodePage.read s.hbm 0x9000 = some lkSource
    ∧ lkSource.tag = 0x200 ∧ lkSource.valid = true ∧ rdBytes s.hbm (0x9000 + 0x20) 16 = ((srcHash s.hbm 0x9000).setWidth 128 : BitVec 128).toNat
    ∧ s.cacheHit ((srcHash s.hbm 0x9000).setWidth 128) 0x200 = none ∧ s.installs = []
    ∧ lkSource.mayLoseTiming = false ∧ tooLarge lkSource ⟨5, [], 0, 1, 0⟩ = false
    ∧ (lkImg lkHash).status = 0 ∧ imageOk lkSource (lkImg lkHash) s.errata ((srcHash s.hbm 0x9000).setWidth 128) = true
    ∧ imageOk lkSource ⟨0, [], 0, 1, 0⟩ s.errata lkHash = false
    ∧ s.runFree 0xA000 (imageFrames (lkImg lkHash)) = true ∧ State.makeRoom (u.cache.length + 1) (u.lkAccept (u.lkRequest 0 0)) 0xA000 1 = none
    ∧ CodePage.read x.hbm 0x9000 = some lkSource3 ∧ lkSource3.valid = true ∧ lkSource3.mayLoseTiming = true
    ∧ rdBytes x.hbm (0x9000 + 0x20) 16 = ((srcHash x.hbm 0x9000).setWidth 128 : BitVec 128).toNat := by
  refine ⟨by decide +kernel, by decide +kernel, rfl, lk_source, rfl, by decide +kernel, ?_, rfl, rfl, by decide +kernel, by decide +kernel,
    rfl, ?_, by decide +kernel, by decide +kernel, by decide +kernel, lk_source3, by decide +kernel, by decide +kernel, ?_⟩
  · exact (lk_field _ _).trans (congrArg _ (lk_hash _ _).symm)
  · exact (congrArg (imageOk lkSource (lkImg lkHash) 0) (lk_hash _ _)).trans lk_imageOk
  · exact (lk_field _ _).trans (congrArg _ (lk_hash _ _).symm)

/-- PagesAreTranslatedAndReverted: a page whose run is too long, as an image of it shows. -/
theorem test_meets_TooLongARun :
    CodePage.read (lkMem 1 0x200 (lkHash lkLoops) lkLoops) 0x9000 = some lkSourceL ∧ lkSourceL.valid = true ∧ lkImgL.status = 5
    ∧ tooLarge lkSourceL lkImgL = true
    ∧ rdBytes (lkMem 1 0x200 (lkHash lkLoops) lkLoops) (0x9000 + 0x20) 16
      = ((srcHash (lkMem 1 0x200 (lkHash lkLoops) lkLoops) 0x9000).setWidth 128 : BitVec 128).toNat :=
  And.intro lk_sourceL (And.intro (by decide +kernel) (And.intro rfl (And.intro (by decide +kernel)
    ((lk_field (lkHash lkLoops) lkLoops).trans (congrArg _ (lk_hash (lkHash lkLoops) lkLoops).symm)))))

/-- PagesAreTranslatedAndReverted: the cache serves the page. -/
theorem test_meets_CachedImage :
    let s : State := { lk 1 0x200 lkHash with cache := [lkEntry] }
    s.cacheHit ((srcHash s.hbm 0x9000).setWidth 128) 0x200 = some lkEntry ∧ (lkEntry.hash = lkHash) := by
  refine ⟨?_, rfl⟩
  refine (congrArg (fun h => State.cacheHit _ h 0x200) (lk_hash _ _)).trans ?_
  rw [State.cacheHit, List.find?_cons_of_pos (by rw [show lkEntry.hash = lkHash from rfl]; simp; decide +kernel)]

/-- The record of that page with an image at 0xB000, and the package that holds it. -/
def lkJ : Install := { lkI with source := 0x9000, frame := 0xB000 }
def lk2 : State := { lk 1 0x200 lkHash with installs := [lkJ] }

/-- PagesAreTranslatedAndReverted: an installed page whose second image is allowed, and one with a second image that can be installed. -/
theorem test_meets_SecondImage :
    let j : Install := { lkI with next := some (lkImg lkHash) }
    let t : State := { lk 2 0x200 lkHash with installs := [j] }
    lk2.installs = [lkJ] ∧ lkJ.revert = false ∧ lk2.secondOk lkJ (lkImg lkHash) = true ∧ lk2.secondOk lkJ ⟨0, [], 0, 1, 0⟩ = false
    ∧ j.revert = false ∧ j.conf = false ∧ t.quiescent j = true ∧ t.mapsImage j = true ∧ t.runFree 0xA000 1 = true
    ∧ (lkImg lkHash).words.length = 1024 ∧ t.zeroing = [] ∧ j.leaf + 8 ≤ hbmBytes ∧ 0xA000 + 4096 ≤ j.leaf
    ∧ (t.ftbase.toNat / 2 ^ 20 % 2 ^ 32 * 2 ^ 20 + 2 * (0xA000 / 4096)) + 2 ≤ j.leaf := by
  have p : lk2.sourcePage lkJ = some lkSource := lk_source
  have h : (srcHash lkSource.mem 0x9000).setWidth 128 = lkHash := lk_hash _ _
  have z : imageOk lkSource ⟨0, [], 0, 1, 0⟩ 0 lkHash = false := by decide +kernel
  refine ⟨rfl, rfl, ?_, ?_, rfl, rfl, by decide +kernel, by decide +kernel, by decide +kernel, by decide +kernel, rfl, by decide +kernel,
    by decide +kernel, by decide +kernel⟩
  · rw [State.secondOk, p]
    change (decide ((lkImg lkHash).status = 0) && imageOk lkSource (lkImg lkHash) 0 ((srcHash lkSource.mem 0x9000).setWidth 128)) = true
    rw [h, lk_imageOk]
    decide +kernel
  · rw [State.secondOk, p]
    change (decide ((0 : BitVec 8) = 0) && imageOk lkSource ⟨0, [], 0, 1, 0⟩ 0 ((srcHash lkSource.mem 0x9000).setWidth 128)) = false
    rw [h, z]
    decide +kernel

end Sys2Proof.Tests
end

