-- ==== Sys2Proof/Proofs/Scalar.lean ====
section
/-! PROOF. What the integer functions of the S slot give (R89 to R92), and from that the statements on division, on comparisons and
selection, and on counts of bits and fields. -/

namespace Sys2Proof.Machine

/-! ### Quotient and remainder (R90) -/

theorem divide_zero (signed : Bool) (a : Word) : divide signed a 0 = (BitVec.allOnes 64, a) := rfl

theorem divide_intMin_allOnes :
    divide true (BitVec.intMin 64) (BitVec.allOnes 64) = (BitVec.intMin 64, 0) := by decide

/-- Away from the two special cases the quotient is the one truncated toward zero; it is in range. -/
theorem toInt_divide_quot {a b : Word} (hb : b ≠ 0) (h : ¬(a = BitVec.intMin 64 ∧ b = BitVec.allOnes 64)) :
    (divide true a b).1.toInt = a.toInt.tdiv b.toInt := by
  have hne : a ≠ BitVec.intMin 64 ∨ b ≠ -1#64 := by
    rw [BitVec.neg_one_eq_allOnes]; exact not_and_or.mp h
  rw [divide, if_neg hb, if_pos rfl, if_neg h, BitVec.toInt_ofInt, ← BitVec.toInt_sdiv, BitVec.toInt_sdiv_of_ne_or_ne a b hne]

/-- Away from the two special cases the remainder is the one of the quotient truncated toward zero; it is in range. -/
theorem toInt_divide_rem {a b : Word} (hb : b ≠ 0) (h : ¬(a = BitVec.intMin 64 ∧ b = BitVec.allOnes 64)) :
    (divide true a b).2.toInt = a.toInt.tmod b.toInt := by
  rw [divide, if_neg hb, if_pos rfl, if_neg h, ← BitVec.toInt_srem, BitVec.ofInt_toInt]

/-- The unsigned quotient and remainder. -/
theorem toNat_divide {a b : Word} (hb : b ≠ 0) :
    (divide false a b).1.toNat = a.toNat / b.toNat ∧ (divide false a b).2.toNat = a.toNat % b.toNat := by
  rw [divide, if_neg hb, if_neg Bool.false_ne_true]
  exact ⟨Nat.mod_eq_of_lt ((Nat.div_le_self _ _).trans_lt a.isLt), Nat.mod_eq_of_lt ((Nat.mod_le _ _).trans_lt a.isLt)⟩

/-- A remainder of division truncated toward zero is less than its divisor in magnitude. -/
theorem abs_tmod_lt (x : Int) {y : Int} (hy : y ≠ 0) : |x.tmod y| < |y| := by
  rw [Int.abs_eq_natAbs, Int.abs_eq_natAbs, Int.natAbs_tmod]
  exact_mod_cast Nat.mod_lt _ (Int.natAbs_pos.mpr hy)

/-- A remainder other than 0 has the sign of the dividend. -/
theorem tmod_neg_iff {x y : Int} (h : x.tmod y ≠ 0) : x.tmod y < 0 ↔ x < 0 := by
  have hd : ¬y ∣ x := fun hd => h (Int.tmod_eq_zero_of_dvd hd)
  rw [← Int.sign_eq_neg_one_iff_neg, ← Int.sign_eq_neg_one_iff_neg, Int.sign_tmod, if_neg hd]

/-- A quotient is negative only where the operands differ in sign. -/
theorem neg_iff_pos_of_tdiv_neg {x y : Int} (h : x.tdiv y < 0) : x < 0 ↔ 0 < y := by
  constructor
  · intro hx
    by_contra hy
    exact absurd h (not_lt.mpr (Int.tdiv_nonneg_of_nonpos_of_nonpos hx.le (not_lt.mp hy)))
  · intro hy
    by_contra hx
    exact absurd h (not_lt.mpr (Int.tdiv_nonneg (not_lt.mp hx) hy.le))

/-- What R90 says of the signed quotient and remainder. -/
theorem divide_signed_spec {x y : Word} (hy : y ≠ 0) (h : ¬(x = BitVec.intMin 64 ∧ y = BitVec.allOnes 64)) :
    let q := (divide true x y).1
    let r := (divide true x y).2
    x.toInt = q.toInt * y.toInt + r.toInt ∧ |r.toInt| < |y.toInt| ∧ (r.toInt ≠ 0 → (r.toInt < 0 ↔ x.toInt < 0))
      ∧ (q.toInt < 0 → (x.toInt < 0 ↔ 0 < y.toInt)) := by
  have hy0 : y.toInt ≠ 0 := fun h0 => hy (BitVec.eq_of_toInt_eq h0)
  simp only [toInt_divide_quot hy h, toInt_divide_rem hy h]
  exact ⟨(Int.tdiv_mul_add_tmod _ _).symm, abs_tmod_lt _ hy0, tmod_neg_iff, neg_iff_pos_of_tdiv_neg⟩

/-- What R90 says of the unsigned quotient and remainder. -/
theorem divide_unsigned_spec {m n : Word} (hn : n ≠ 0) :
    m.toNat = (divide false m n).1.toNat * n.toNat + (divide false m n).2.toNat ∧ (divide false m n).2.toNat < n.toNat := by
  obtain ⟨hq, hr⟩ := toNat_divide (a := m) hn
  rw [hq, hr]
  exact ⟨(Nat.div_add_mod' _ _).symm, Nat.mod_lt _ (Nat.pos_of_ne_zero fun h0 => hn (BitVec.eq_of_toNat_eq h0))⟩

/-- Settles O2: each operation stages a part of `divide`, which is truncated division away from its two special cases. -/
theorem divisionFollowsR90 : Obligations.DivisionFollowsR90 := by
  intro s a b d imm x y m n
  refine ⟨(divide true x y).1, (divide true x y).2, (exec_div s).trans (scalar2_eq ..), (exec_rem s).trans (scalar2_eq ..), ?_, ?_,
    fun h => divide_signed_spec h.1 h.2, (divide false m n).1, (divide false m n).2, (exec_divn s).trans (scalar2_eq ..),
    (exec_remn s).trans (scalar2_eq ..), ?_, divide_unsigned_spec⟩
  · intro hy
    rw [hy, divide_zero]
    exact ⟨rfl, rfl⟩
  · rintro ⟨hx, hy⟩
    rw [hx, hy, divide_intMin_allOnes]
    exact ⟨rfl, rfl⟩
  · intro hn
    rw [hn, divide_zero]
    exact ⟨rfl, rfl⟩

/-! ### Lesser and greater, comparisons, selection (R89, R91) -/

theorem toInt_lesser (x y : Word) : (if x.slt y then x else y).toInt = min x.toInt y.toInt := by
  simp only [BitVec.slt_iff_toInt_lt]
  split <;> omega

theorem toInt_greater (x y : Word) : (if x.slt y then y else x).toInt = max x.toInt y.toInt := by
  simp only [BitVec.slt_iff_toInt_lt]
  split <;> omega

theorem toNat_lesser (x y : Word) : (if x.ult y then x else y).toNat = min x.toNat y.toNat := by
  simp only [BitVec.ult_iff_toNat_lt]
  split <;> omega

theorem toNat_greater (x y : Word) : (if x.ult y then y else x).toNat = max x.toNat y.toNat := by
  simp only [BitVec.ult_iff_toNat_lt]
  split <;> omega

/-- A truth value is 1 exactly where the proposition that decides it holds. -/
theorem ofBool_eq_ite {b : Bool} {p : Prop} [Decidable p] (h : b = true ↔ p) : ofBool b = if p then 1 else 0 :=
  if_congr h rfl rfl

/-- SEL stages source a or source b, as its condition says (R91). -/
theorem lands_sel (s : State) (a b c : SSrc) (d : SDest) :
    Lands s (.sel a b d c) [a, b, c] d 1 Flags.none (fun v =>
      v = if (s.rdS c 0).val ≠ 0 then (s.rdS a (BitVec.ofNat 64 (encSSrc c))).val
        else (s.rdS b (BitVec.ofNat 64 (encSSrc c))).val) :=
  ⟨_, by rw [exec_sel, execSel, landS_three, State.valS], rfl⟩

/-- Settles O3: each operation stages its function's value; the order of words is that of the numbers they are read as. -/
theorem comparisonsAndSelection : Obligations.ComparisonsAndSelection := by
  intro s a b c d imm x y m n gives
  refine ⟨lands_scalar2 (exec_min s) rfl (toInt_lesser x y), lands_scalar2 (exec_max s) rfl (toInt_greater x y),
    lands_scalar2 (exec_minn s) rfl (toNat_lesser m n), lands_scalar2 (exec_maxn s) rfl (toNat_greater m n),
    lands_scalar2 (exec_seq s) rfl (ofBool_eq_ite beq_iff_eq), lands_scalar2 (exec_sne s) rfl ?_,
    lands_scalar2 (exec_slt s) rfl (ofBool_eq_ite BitVec.slt_iff_toInt_lt),
    lands_scalar2 (exec_sle s) rfl (ofBool_eq_ite BitVec.sle_iff_toInt_le),
    lands_scalar2 (exec_sltn s) rfl (ofBool_eq_ite BitVec.ult_iff_toNat_lt),
    lands_scalar2 (exec_slen s) rfl (ofBool_eq_ite BitVec.ule_iff_toNat_le), lands_sel s a b c d⟩
  exact (ofBool_eq_ite bne_iff_ne).trans (ite_not ..)

/-! ### Counts of bits (R89) -/

theorem countLeading_zero : countLeading 0 = 64 := rfl

theorem countLeading_of_ne {x : Word} (h : x ≠ 0) : countLeading x = 63 - Nat.log2 x.toNat := if_neg h

theorem countLeading_le (x : Word) : countLeading x ≤ 64 := by
  unfold countLeading
  split <;> omega

/-- The bits above the highest set bit are clear, and that bit is set. -/
theorem countLeading_spec (x : Word) : x.toNat < 2 ^ (64 - countLeading x)
    ∧ (countLeading x < 64 → x.getLsbD (63 - countLeading x) = true) := by
  by_cases hx : x = 0
  · subst hx
    exact ⟨by decide, fun h => absurd h (lt_irrefl 64)⟩
  · have h0 : x.toNat ≠ 0 := fun h => hx (BitVec.eq_of_toNat_eq h)
    have hl : Nat.log2 x.toNat < 64 := (Nat.log2_lt h0).mpr x.isLt
    rw [countLeading_of_ne hx]
    constructor
    · rw [show 64 - (63 - Nat.log2 x.toNat) = Nat.log2 x.toNat + 1 by omega]
      exact Nat.lt_log2_self
    · intro _
      rw [show 63 - (63 - Nat.log2 x.toNat) = Nat.log2 x.toNat by omega]
      exact Nat.testBit_log2 h0

theorem countTrailing_le (n a : Nat) : countTrailing n a ≤ n := by
  induction n generalizing a with
  | zero => exact le_rfl
  | succ n ih =>
    rw [countTrailing]
    split
    · exact Nat.zero_le _
    · have := ih (a / 2); omega

/-- The bits below the lowest set bit are clear: 2 to their number divides. -/
theorem two_pow_countTrailing_dvd (n a : Nat) : 2 ^ countTrailing n a ∣ a := by
  induction n generalizing a with
  | zero => exact one_dvd a
  | succ n ih =>
    rw [countTrailing]
    split
    · exact one_dvd a
    · have h2 : 2 ∣ a := by omega
      rw [Nat.pow_add, Nat.pow_one]
      exact (Nat.dvd_div_iff_mul_dvd h2).mp (ih (a / 2))

/-- The bit at which the count of trailing zeros stops is set. -/
theorem testBit_countTrailing {n a : Nat} (h : countTrailing n a < n) : a.testBit (countTrailing n a) = true := by
  induction n generalizing a with
  | zero => exact absurd h (lt_irrefl 0)
  | succ n ih =>
    rw [countTrailing] at h ⊢
    split at h
    next h1 => rw [if_pos h1, Nat.testBit_zero, h1]; rfl
    next h1 =>
      rw [if_neg h1, Nat.add_comm, Nat.testBit_add_one]
      exact ih (by omega)

theorem countTrailing_zero (n : Nat) : countTrailing n 0 = n := by
  induction n with
  | zero => rfl
  | succ n ih => rw [countTrailing, if_neg (by decide), Nat.zero_div, ih, Nat.add_comm]

theorem countOnes_le (n a : Nat) : countOnes n a ≤ n := by
  induction n generalizing a with
  | zero => exact le_rfl
  | succ n ih => have := ih (a / 2); rw [countOnes]; omega

/-- The count of ones is the number of places below n whose bit is set. -/
theorem countOnes_eq_countP (n a : Nat) : countOnes n a = (List.range n).countP a.testBit := by
  induction n generalizing a with
  | zero => rfl
  | succ n ih =>
    have hs : a.testBit ∘ Nat.succ = (a / 2).testBit := funext fun i => Nat.testBit_succ a i
    have h0 : a % 2 = if a.testBit 0 = true then 1 else 0 := by
      rcases Nat.mod_two_eq_zero_or_one a with h | h <;> simp [Nat.testBit_zero, h]
    rw [countOnes, ih, List.range_succ_eq_map, List.countP_cons, List.countP_map, hs, h0, Nat.add_comm]

/-- A count of at most 64 is read back from the word that holds it. -/
theorem toNat_ofNat_count {k : Nat} (h : k ≤ 64) : (BitVec.ofNat 64 k).toNat = k :=
  Nat.mod_eq_of_lt (by omega)

/-! ### Reversed bytes (R89) -/

/-- The bits of a number put together from n bytes, the first one highest. -/
theorem testBit_foldl_bytes (d : Nat → Nat) (hd : ∀ i, d i < 256) (n j : Nat) :
    ((List.range n).foldl (fun acc i => acc * 256 + d i) 0).testBit j
      = (decide (j < 8 * n) && (d (n - 1 - j / 8)).testBit (j % 8)) := by
  induction n generalizing j with
  | zero => simp
  | succ n ih =>
    have hbyte : ∀ a, (256 * a + d n).testBit j = if j < 8 then (d n).testBit j else a.testBit (j - 8) :=
      fun a => Nat.testBit_two_pow_mul_add a (i := 8) (hd n) j
    rw [List.range_succ, List.foldl_append, List.foldl_cons, List.foldl_nil, Nat.mul_comm, hbyte]
    by_cases h : j < 8
    · rw [if_pos h, show n + 1 - 1 - j / 8 = n by omega, Nat.mod_eq_of_lt h, decide_eq_true (by omega), Bool.true_and]
    · rw [if_neg h, ih, show n + 1 - 1 - j / 8 = n - 1 - (j - 8) / 8 by omega, show (j - 8) % 8 = j % 8 by omega]
      exact congrArg (· && _) (decide_eq_decide.mpr (by omega))

/-- A bit of a byte of a number. -/
theorem testBit_byte (a i : Nat) {k : Nat} (h : k < 8) : (a / 256 ^ i % 256).testBit k = a.testBit (8 * i + k) := by
  rw [show (256 : Nat) = 2 ^ 8 by rfl, ← Nat.pow_mul, Nat.testBit_mod_two_pow, Nat.testBit_div_two_pow, decide_eq_true h,
    Bool.true_and, Nat.add_comm]

theorem getLsbD_swapBytes (x : Word) {j : Nat} (h : j < 64) :
    (swapBytes x).getLsbD j = x.getLsbD (8 * (7 - j / 8) + j % 8) := by
  rw [swapBytes, BitVec.getLsbD_ofNat, testBit_foldl_bytes _ (fun i => Nat.mod_lt _ (by norm_num)), decide_eq_true h,
    Bool.true_and, Bool.true_and, testBit_byte _ _ (Nat.mod_lt _ (by norm_num))]
  rfl

/-! ### Fields (R92) -/

/-- The place of the field a descriptor names. -/
theorem descriptor_pos (g : Word) : (descriptor g).1 = g.toNat % 64 := rfl

/-- The width of the field a descriptor names: 0 is 64, and no field goes past bit 63. -/
theorem descriptor_width (g : Word) : (descriptor g).2
    = min (if g.toNat / 64 % 128 = 0 then 64 else min (g.toNat / 64 % 128) 64) (64 - g.toNat % 64) := by
  have hw : field g.toNat 12 6 = g.toNat / 64 % 128 := by rw [field, Nat.shiftRight_eq_div_pow]; rfl
  rw [descriptor, hw]
  rfl

/-- A field has at least one bit and lies within the word. -/
theorem descriptor_bounds (g : Word) : 0 < (descriptor g).2 ∧ (descriptor g).1 + (descriptor g).2 ≤ 64 := by
  rw [descriptor_pos, descriptor_width]
  have : g.toNat % 64 < 64 := Nat.mod_lt _ (by norm_num)
  split <;> omega

theorem fieldOf_eq (f g : Word) : fieldOf f g = (f.toNat >>> (descriptor g).1) % 2 ^ (descriptor g).2 := rfl

/-- The bits of a field are those of the word from its place on, and clear past its width. -/
theorem testBit_fieldOf (f g : Word) (j : Nat) :
    (fieldOf f g).testBit j = (decide (j < (descriptor g).2) && f.getLsbD ((descriptor g).1 + j)) := by
  rw [fieldOf_eq, Nat.testBit_mod_two_pow, Nat.testBit_shiftRight]
  rfl

theorem getLsbD_ofNat_fieldOf (f g : Word) {j : Nat} (h : j < 64) :
    (BitVec.ofNat 64 (fieldOf f g)).getLsbD j = (decide (j < (descriptor g).2) && f.getLsbD ((descriptor g).1 + j)) := by
  rw [BitVec.getLsbD_ofNat, decide_eq_true h, Bool.true_and, testBit_fieldOf]

/-- Sign extension repeats the highest of the low n bits. -/
theorem getLsbD_sextTo64 {n : Nat} (hn : 0 < n) (x : Nat) {j : Nat} (h : j < 64) :
    (sextTo64 n x).getLsbD j = x.testBit (min j (n - 1)) := by
  rw [sextTo64, BitVec.getLsbD_signExtend, decide_eq_true h, Bool.true_and, BitVec.msb_eq_getLsbD_last]
  split
  next hj => rw [BitVec.getLsbD_ofNat, decide_eq_true hj, Bool.true_and, min_eq_left (by omega)]
  next hj => rw [BitVec.getLsbD_ofNat, decide_eq_true (by omega), Bool.true_and, min_eq_right (by omega)]

theorem getLsbD_sext_fieldOf (f g : Word) {j : Nat} (h : j < 64) :
    (sextTo64 (descriptor g).2 (fieldOf f g)).getLsbD j
      = f.getLsbD ((descriptor g).1 + min j ((descriptor g).2 - 1)) := by
  have hn := (descriptor_bounds g).1
  rw [getLsbD_sextTo64 hn _ h, testBit_fieldOf, decide_eq_true (by omega), Bool.true_and]

/-- The mask of w ones from place p on, outside which DEP keeps the old value. -/
def fieldMask (p w : Nat) : Word := BitVec.ofNat 64 ((2 ^ w - 1) <<< p)

theorem getLsbD_fieldMask (p w : Nat) {j : Nat} (h : j < 64) :
    (fieldMask p w).getLsbD j = decide (p ≤ j ∧ j < p + w) := by
  rw [fieldMask, BitVec.getLsbD_ofNat, decide_eq_true h, Bool.true_and, Nat.testBit_shiftLeft, Nat.testBit_two_pow_sub_one,
    ← Bool.decide_and]
  exact decide_eq_decide.mpr (by omega)

theorem deposit_eq (old f g : Word) : deposit old f g
    = (old &&& ~~~fieldMask (descriptor g).1 (descriptor g).2)
      ||| ((f <<< (descriptor g).1) &&& fieldMask (descriptor g).1 (descriptor g).2) := rfl

/-- DEP's value is the low bits of the one word within the field, and the old value outside it. -/
theorem getLsbD_deposit (old f g : Word) {j : Nat} (h : j < 64) :
    (deposit old f g).getLsbD j = if (descriptor g).1 ≤ j ∧ j < (descriptor g).1 + (descriptor g).2
      then f.getLsbD (j - (descriptor g).1) else old.getLsbD j := by
  rw [deposit_eq, BitVec.getLsbD_or, BitVec.getLsbD_and, BitVec.getLsbD_and, BitVec.getLsbD_not, BitVec.getLsbD_shiftLeft,
    getLsbD_fieldMask _ _ h]
  by_cases hj : (descriptor g).1 ≤ j ∧ j < (descriptor g).1 + (descriptor g).2
  · simp [hj, h]
  · simp [hj, h]

/-- DEP to a keep reads that keep first, then its two sources, and stages the deposit (R92). -/
theorem exec_dep_keep (s : State) (a b : SSrc) (k : BitVec 4) (imm : BitVec 9) :
    exec (.dep a b (.keep k) imm) s = .next (landed s [.k k, a, b] (.keep k)
      (deposit (s.rdS (.k k) 0).val (s.rdS a (immZ imm)).val (s.rdS b (immZ imm)).val) 1 Flags.none) := by
  have hread : ∀ c : SSrc, (s.useS (.k k)).rdS c (immZ imm) = s.rdS c (immZ imm) := fun c => by
    rw [State.useS, useMark_eq, rdS_found]
  have huse : exec (.dep a b (.keep k) imm) s
      = scalar2 (s.useS (.k k)) a b (immZ imm) (.keep k) 1 (fun x y => plain (deposit (s.rdS (.k k) 0).val x y)) := rfl
  rw [huse, scalar2, hread, hread, landS_three]
  rfl

/-- Settles O4: counts by induction on the bits looked at, reversed bytes by induction on the bytes, fields bit by bit. -/
theorem bitCountsAndFields : Obligations.BitCountsAndFields := by
  intro s a b d imm x f g pos w n gives
  have hn : (descriptor g).2 = n := descriptor_width g
  refine ⟨lands_scalar1 (exec_clz s) rfl ?_, lands_scalar1 (exec_ctz s) rfl ?_, lands_scalar1 (exec_popc s) rfl ?_,
    lands_scalar1 (exec_bswap s) rfl (fun j hj => getLsbD_swapBytes x hj), lands_scalar2 (exec_ext s) rfl (fun j hj => ?_),
    lands_scalar2 (exec_extn s) rfl (fun j hj => ?_), fun k => ⟨_, exec_dep_keep s a b k imm, fun j hj => ?_⟩⟩
  · show (BitVec.ofNat 64 (countLeading x)).toNat ≤ 64 ∧ _
    rw [plain, toNat_ofNat_count (countLeading_le x)]
    exact ⟨countLeading_le x, countLeading_spec x⟩
  · show (BitVec.ofNat 64 (countTrailing 64 x.toNat)).toNat ≤ 64 ∧ _
    have hle := countTrailing_le 64 x.toNat
    rw [plain, toNat_ofNat_count hle]
    refine ⟨hle, two_pow_countTrailing_dvd 64 x.toNat, testBit_countTrailing, fun hx => ?_⟩
    show BitVec.ofNat 64 (countTrailing 64 x.toNat) = 64
    rw [hx]
    exact congrArg (BitVec.ofNat 64) (countTrailing_zero 64)
  · exact (toNat_ofNat_count (countOnes_le 64 x.toNat)).trans (countOnes_eq_countP 64 x.toNat)
  · rw [← hn]
    exact getLsbD_sext_fieldOf f g hj
  · rw [← hn]
    exact getLsbD_ofNat_fieldOf f g hj
  · rw [← hn]
    exact getLsbD_deposit _ f g hj

end Sys2Proof.Machine
end
